-- ==== Sys2Proof/Word.lean ====
section
/-! DEFINITION. The word types of the Yelah 9 (R3, R4) and their plainest arithmetic. -/

namespace Sys2Proof

/-- One byte of memory. -/
abbrev Byte := BitVec 8

/-- A 64-bit word: a scalar register, an address, a timestamp (R47, R32). -/
abbrev Word := BitVec 64

/-- A 32-bit word: one lane of a vector register, a lane mask, a shepherd word (R48, R49, R58). -/
abbrev Half := BitVec 32

/-- All lanes of a group (R10). -/
def allLanes : Half := 0xFFFFFFFF

end Sys2Proof
end

