-- ==== Sys2Proof/Syntax.lean ====
section
/-! DEFINITION. The instructions, packets and events of the Yelah 9: one constructor per row of the opcode table. -/

namespace Sys2Proof

/-- A scalar register number s0 to s63 (R47). -/
abbrev SReg := BitVec 6

/-- A predicate register number p0 to p15 (R49). -/
abbrev PReg := BitVec 4

/-- A scope of FENCE, REL and ACQ (Table 5.8). Code 6, `.halo`, is the separate row REL_HALO. -/
inductive Scope where
  | grp | team | flock | die | dev | sys
  deriving DecidableEq, Repr

/-- An access size (R89). -/
inductive Size where
  | b | h | w | d
  deriving DecidableEq, Repr

/-- A lane TYPE (Table 4.10). -/
inductive LType where
  | i8 | i16 | i32 | i64 | n8 | n16 | n32 | n64 | f32 | f16 | bf16 | e4m3 | e5m2 | e2m1 | i4 | i3 | e8m0 | b32 | b64
  deriving DecidableEq, Repr

/-- A rounding code (Table 4.11). -/
inductive Rnd where
  | rne | rtz | rup | rdn | rna
  deriving DecidableEq, Repr

/-- A saturation code (Table 4.11). -/
inductive Sat where
  | none | sat | satn
  deriving DecidableEq, Repr

/-- The format field of MOUT (R206). -/
inductive MFmt where
  | bf16 | e4m3 | e5m2 | f32
  deriving DecidableEq, Repr

/-- The fields of a lane word other than OPC (Table 4.8). Register fields keep the codes of Table 4.9. -/
structure LaneFields where
  dst : BitVec 9
  sa : BitVec 9
  sb : BitVec 9
  sc : BitVec 9
  feb : BitVec 3
  pneg : Bool
  pred : PReg
  ty : LType
  rnd : Rnd
  sat : Sat
  ext : Half
  deriving DecidableEq, Repr

/-- The fields of a copy packet other than OPC and the reserved bits (Table 11.2). -/
structure CopyPacket where
  tokenEn : Bool
  token : BitVec 3
  mcast : Bool
  ro : Bool
  tileEn : Bool
  tile : BitVec 16
  length : BitVec 32
  src : Word
  dst : Word
  spitch : BitVec 32
  dpitch : BitVec 32
  scale : Word
  stype : Byte
  dtype : Byte
  gsize : BitVec 2
  skind : Bool
  rows : BitVec 16
  cols : BitVec 16
  signal : Word
  deriving DecidableEq, Repr

/-- The fields of a launch packet, reserved bits included, so that every check of R160 is made on it (Table 10.6). -/
structure LaunchPacket where
  opcode : Byte
  flags : Byte
  groups : Byte
  teamsPerFlock : Byte
  count : BitVec 32
  entry : Word
  lane : Word
  mat : Word
  args : Word
  quota : BitVec 32
  res : BitVec 32
  sigAddr : Word
  sigVal : Word
  deriving DecidableEq, Repr

/-- A unit of the wear records (WEARIDX, Table 22.5). -/
inductive WearUnit where
  | laneGroup (n : Nat)
  | subArray (n : Nat)
  | bank (n : Nat)
  | sliceWay (n : Nat)
  deriving DecidableEq, Repr

/-- Why a resynchronisation starts (R281, Table 18.6). -/
inductive ResyncCause where
  | link | generation | pen | command
  deriving DecidableEq, Repr

/-- The instructions, packets and events of the opcode table, in the table's order, but that the events which system software,
the host or the board brings about, and four words without fields, stand last. -/
inductive Instr where
  /-- ADD (R70). -/
  | add (d a b : SReg)
  /-- SUB (R70). -/
  | sub (d a b : SReg)
  /-- AND (R70). -/
  | and (d a b : SReg)
  /-- OR (R70). -/
  | or (d a b : SReg)
  /-- XOR (R70). -/
  | xor (d a b : SReg)
  /-- SHL (R70). -/
  | shl (d a b : SReg)
  /-- SHR (R70). -/
  | shr (d a b : SReg)
  /-- SRA (R70). -/
  | sra (d a b : SReg)
  /-- MUL (R70). -/
  | mul (d a b : SReg)
  /-- MULH (R70). -/
  | mulh (d a b : SReg)
  /-- MULHN (R70). -/
  | mulhn (d a b : SReg)
  /-- DIV (R70). -/
  | div (d a b : SReg)
  /-- DIVN (R70). -/
  | divn (d a b : SReg)
  /-- REM (R70). -/
  | rem (d a b : SReg)
  /-- REMN (R70). -/
  | remn (d a b : SReg)
  /-- MIN (R70). -/
  | min (d a b : SReg)
  /-- MINN (R70). -/
  | minn (d a b : SReg)
  /-- MAX (R70). -/
  | max (d a b : SReg)
  /-- MAXN (R70). -/
  | maxn (d a b : SReg)
  /-- SEQ (R70). -/
  | seq (d a b : SReg)
  /-- SNE (R70). -/
  | sne (d a b : SReg)
  /-- SLT (R70). -/
  | slt (d a b : SReg)
  /-- SLTN (R70). -/
  | sltn (d a b : SReg)
  /-- CLZ (R70). -/
  | clz (d a : SReg)
  /-- POPC (R70). -/
  | popc (d a : SReg)
  /-- ROTL (R70). -/
  | rotl (d a b : SReg)
  /-- BFX (R70). -/
  | bfx (d a b : SReg)
  /-- BFI (R70). -/
  | bfi (d a b : SReg)
  /-- SEL (R70). -/
  | sel (d a b : SReg)
  /-- ADDI (R71). -/
  | addi (d a : SReg) (imm : BitVec 13)
  /-- ANDI (R71). -/
  | andi (d a : SReg) (imm : BitVec 13)
  /-- ORI (R71). -/
  | ori (d a : SReg) (imm : BitVec 13)
  /-- XORI (R71). -/
  | xori (d a : SReg) (imm : BitVec 13)
  /-- SHLI (R71). -/
  | shli (d a : SReg) (n : BitVec 6)
  /-- SHRI (R71). -/
  | shri (d a : SReg) (n : BitVec 6)
  /-- SRAI (R71). -/
  | srai (d a : SReg) (n : BitVec 6)
  /-- SLTI (R71). -/
  | slti (d a : SReg) (imm : BitVec 13)
  /-- LI (R72). -/
  | li (d : SReg) (imm : BitVec 13)
  /-- LIS (R72). -/
  | lis (d a : SReg) (imm : BitVec 13)
  /-- LI32 (R72). -/
  | li32 (d : SReg) (lit : BitVec 32)
  /-- LI32_N (R72). -/
  | li32N (d : SReg) (lit : BitVec 32)
  /-- LI32_HI (R72). -/
  | li32Hi (d : SReg) (lit : BitVec 32)
  /-- LDB (R73). -/
  | ldb (d a : SReg) (imm : BitVec 13)
  /-- LDH (R73). -/
  | ldh (d a : SReg) (imm : BitVec 13)
  /-- LDW (R73). -/
  | ldw (d a : SReg) (imm : BitVec 13)
  /-- LDD (R73). -/
  | ldd (d a : SReg) (imm : BitVec 13)
  /-- STB (R73). -/
  | stb (v a : SReg) (imm : BitVec 13)
  /-- STH (R73). -/
  | sth (v a : SReg) (imm : BitVec 13)
  /-- STW (R73). -/
  | stw (v a : SReg) (imm : BitVec 13)
  /-- STD (R73). -/
  | std (v a : SReg) (imm : BitVec 13)
  /-- AMOS_SWAP (R74). -/
  | amosSwap (d a b : SReg) (dbl : Bool)
  /-- AMOS_ADD (R74). -/
  | amosAdd (d a b : SReg) (dbl : Bool)
  /-- AMOS_AND (R74). -/
  | amosAnd (d a b : SReg) (dbl : Bool)
  /-- AMOS_OR (R74). -/
  | amosOr (d a b : SReg) (dbl : Bool)
  /-- AMOS_XOR (R74). -/
  | amosXor (d a b : SReg) (dbl : Bool)
  /-- AMOS_MIN (R74). -/
  | amosMin (d a b : SReg) (dbl : Bool)
  /-- AMOS_MAX (R74). -/
  | amosMax (d a b : SReg) (dbl : Bool)
  /-- AMOS_MINN (R74). -/
  | amosMinn (d a b : SReg) (dbl : Bool)
  /-- AMOS_MAXN (R74). -/
  | amosMaxn (d a b : SReg) (dbl : Bool)
  /-- AMOS_CAS (R74). -/
  | amosCas (d a b : SReg) (dbl : Bool)
  /-- BEQ (R75). -/
  | beq (a b : SReg) (off : BitVec 13)
  /-- BNE (R75). -/
  | bne (a b : SReg) (off : BitVec 13)
  /-- BLT (R75). -/
  | blt (a b : SReg) (off : BitVec 13)
  /-- BGE (R75). -/
  | bge (a b : SReg) (off : BitVec 13)
  /-- BLTN (R75). -/
  | bltn (a b : SReg) (off : BitVec 13)
  /-- BGEN (R75). -/
  | bgen (a b : SReg) (off : BitVec 13)
  /-- BPANY (R76). -/
  | bpany (p : PReg) (off : BitVec 13)
  /-- BPALL (R76). -/
  | bpall (p : PReg) (off : BitVec 13)
  /-- BR (R77). -/
  | br (off : BitVec 25)
  /-- CALL (R77). -/
  | call (off : BitVec 25)
  /-- JR (R77). -/
  | jr (d a : SReg)
  /-- LOOP (R78). -/
  | loop (a : SReg) (off : BitVec 13)
  /-- LOOPI (R78). -/
  | loopi (n : BitVec 12) (off : BitVec 13)
  /-- LBRK (R80). -/
  | lbrk
  /-- LQ (R81). -/
  | lq (n : BitVec 6)
  /-- LREP (R66). -/
  | lrep (cnt : BitVec 6) (steps : BitVec 8)
  /-- LJ (R81). -/
  | lj (w : BitVec 25)
  /-- SPLIT (R83). -/
  | split (p : PReg) (off : BitVec 13)
  /-- JOIN (R84). -/
  | join
  /-- LEXIT (R85). -/
  | lexit (p : PReg)
  /-- BAR_ARRIVE (R87). -/
  | barArrive (d a : SReg) (n : BitVec 4)
  /-- BAR_WAIT (R87). -/
  | barWait (d a : SReg) (n : BitVec 4)
  /-- BAR_SYNC (R87). -/
  | barSync (d a : SReg) (n : BitVec 4)
  /-- BARRIER_PHASE_COMPLETE (R87). -/
  | barrierPhaseComplete (team bar : Nat)
  /-- FENCE (R88). -/
  | fence (sc : Scope)
  /-- REL (R89). -/
  | rel (d a : SReg) (sc : Scope) (sz : Size)
  /-- REL_HALO (R236). -/
  | relHalo (d a : SReg) (sz : Size)
  /-- HALO_PUSH (R236). -/
  | haloPush (id : Nat)
  /-- ACQ (R89). -/
  | acq (d a : SReg) (sc : Scope) (sz : Size)
  /-- TWAIT (R90). -/
  | twait (mask : BitVec 8)
  /-- FORK (R246). -/
  | fork (d a b : SReg)
  /-- FSTAT (R252). -/
  | fstat (d : SReg) (n : BitVec 7)
  /-- HANDLE (R100). -/
  | handle (e : SReg) (k inh : Bool) (lit : BitVec 32)
  /-- UNHANDLE (R101). -/
  | unhandle (a : SReg)
  /-- PERFORM (R105). -/
  | perform (d a b : SReg)
  /-- PERFORML (R105). -/
  | performl (vd : BitVec 6) (a b : SReg) (p : PReg)
  /-- RESUME (R106). -/
  | resume (a b : SReg)
  /-- RESUMEK (R107). -/
  | resumek (d a b : SReg)
  /-- DROP (R108). -/
  | drop (a : SReg)
  /-- TCP (R181). -/
  | tcp (a : SReg)
  /-- TCPR (R181). -/
  | tcpr (a : SReg)
  /-- SGET (R91). -/
  | sget (d a : SReg) (idx : BitVec 6)
  /-- SSET (R91). -/
  | sset (a : SReg) (idx : BitVec 6)
  /-- SIGCHK (R93). -/
  | sigchk (lit : BitVec 32)
  /-- TRAP (R94). -/
  | trap (a : SReg) (code : BitVec 13)
  /-- YIELD (R95). -/
  | yield
  /-- YIELD_EXPIRY (R95). -/
  | yieldExpiry (team grp : Nat) (armB : Bool)
  /-- TEND (R95). -/
  | tend
  /-- GROUP_RETIRE (R86). -/
  | groupRetire (team grp : Nat)
  /-- MEMORY_RESPONSE (R25). -/
  | memoryResponse (id : Nat)
  /-- LANE_FAULT_DELIVERY (R110). -/
  | laneFaultDelivery (team grp : Nat)
  /-- VADD (R127). -/
  | vadd (f : LaneFields)
  /-- VSUB (R127). -/
  | vsub (f : LaneFields)
  /-- VMUL (R127). -/
  | vmul (f : LaneFields)
  /-- VMULH (R127). -/
  | vmulh (f : LaneFields)
  /-- VDIV (R127). -/
  | vdiv (f : LaneFields)
  /-- VREM (R127). -/
  | vrem (f : LaneFields)
  /-- VMIN (R127). -/
  | vmin (f : LaneFields)
  /-- VMAX (R127). -/
  | vmax (f : LaneFields)
  /-- VABS (R127). -/
  | vabs (f : LaneFields)
  /-- VNEG (R127). -/
  | vneg (f : LaneFields)
  /-- VMAD (R127). -/
  | vmad (f : LaneFields)
  /-- VAND (R127). -/
  | vand (f : LaneFields)
  /-- VOR (R127). -/
  | vor (f : LaneFields)
  /-- VXOR (R127). -/
  | vxor (f : LaneFields)
  /-- VNOT (R127). -/
  | vnot (f : LaneFields)
  /-- VSHL (R127). -/
  | vshl (f : LaneFields)
  /-- VSHR (R127). -/
  | vshr (f : LaneFields)
  /-- VROTL (R127). -/
  | vrotl (f : LaneFields)
  /-- VCLZ (R127). -/
  | vclz (f : LaneFields)
  /-- VPOPC (R127). -/
  | vpopc (f : LaneFields)
  /-- VBFX (R127). -/
  | vbfx (f : LaneFields)
  /-- VBFI (R127). -/
  | vbfi (f : LaneFields)
  /-- VMOV (R127). -/
  | vmov (f : LaneFields)
  /-- VSEL (R127). -/
  | vsel (f : LaneFields)
  /-- VFADD (R129). -/
  | vfadd (f : LaneFields)
  /-- VFSUB (R129). -/
  | vfsub (f : LaneFields)
  /-- VFMUL (R129). -/
  | vfmul (f : LaneFields)
  /-- VFMA (R129). -/
  | vfma (f : LaneFields)
  /-- VFMS (R129). -/
  | vfms (f : LaneFields)
  /-- VFDIV (R129). -/
  | vfdiv (f : LaneFields)
  /-- VFSQRT (R129). -/
  | vfsqrt (f : LaneFields)
  /-- VFRCP (R129). -/
  | vfrcp (f : LaneFields)
  /-- VFRSQ (R129). -/
  | vfrsq (f : LaneFields)
  /-- VFEXP2 (R129). -/
  | vfexp2 (f : LaneFields)
  /-- VFLOG2 (R129). -/
  | vflog2 (f : LaneFields)
  /-- VFMIN (R129). -/
  | vfmin (f : LaneFields)
  /-- VFMAX (R129). -/
  | vfmax (f : LaneFields)
  /-- VFABS (R129). -/
  | vfabs (f : LaneFields)
  /-- VFNEG (R129). -/
  | vfneg (f : LaneFields)
  /-- VFRND (R129). -/
  | vfrnd (f : LaneFields)
  /-- VCMP_EQ (R131). -/
  | vcmpEq (f : LaneFields)
  /-- VCMP_NE (R131). -/
  | vcmpNe (f : LaneFields)
  /-- VCMP_LT (R131). -/
  | vcmpLt (f : LaneFields)
  /-- VCMP_LE (R131). -/
  | vcmpLe (f : LaneFields)
  /-- VCMP_GT (R131). -/
  | vcmpGt (f : LaneFields)
  /-- VCMP_GE (R131). -/
  | vcmpGe (f : LaneFields)
  /-- VCMP_UN (R131). -/
  | vcmpUn (f : LaneFields)
  /-- VFCLASS (R132). -/
  | vfclass (f : LaneFields)
  /-- VCVT (R133). -/
  | vcvt (f : LaneFields)
  /-- VPACK (R134). -/
  | vpack (f : LaneFields)
  /-- VUNPACK (R134). -/
  | vunpack (f : LaneFields)
  /-- VSCALE (R135). -/
  | vscale (f : LaneFields)
  /-- VLD (R139). -/
  | vld (f : LaneFields)
  /-- VST (R139). -/
  | vst (f : LaneFields)
  /-- VLDW (R142). -/
  | vldw (f : LaneFields)
  /-- VPREF (R143). -/
  | vpref (f : LaneFields)
  /-- VAMO_SWAP (R144). -/
  | vamoSwap (f : LaneFields)
  /-- VAMO_ADD (R144). -/
  | vamoAdd (f : LaneFields)
  /-- VAMO_AND (R144). -/
  | vamoAnd (f : LaneFields)
  /-- VAMO_OR (R144). -/
  | vamoOr (f : LaneFields)
  /-- VAMO_XOR (R144). -/
  | vamoXor (f : LaneFields)
  /-- VAMO_MIN (R144). -/
  | vamoMin (f : LaneFields)
  /-- VAMO_MAX (R144). -/
  | vamoMax (f : LaneFields)
  /-- VAMO_CAS (R144). -/
  | vamoCas (f : LaneFields)
  /-- VAMO_FADD (R144). -/
  | vamoFadd (f : LaneFields)
  /-- VAMO_FMIN (R144). -/
  | vamoFmin (f : LaneFields)
  /-- VAMO_FMAX (R144). -/
  | vamoFmax (f : LaneFields)
  /-- VAMO_AMAXRST (R145). -/
  | vamoAmaxrst (f : LaneFields)
  /-- VTLD (R146). -/
  | vtld (f : LaneFields)
  /-- VTST (R146). -/
  | vtst (f : LaneFields)
  /-- QSWAP (R147). -/
  | qswap (f : LaneFields)
  /-- QBCAST (R147). -/
  | qbcast (f : LaneFields)
  /-- VSHFL (R147). -/
  | vshfl (f : LaneFields)
  /-- VBALLOT (R147). -/
  | vballot (f : LaneFields)
  /-- VRED (R148). -/
  | vred (f : LaneFields)
  /-- VSCAN (R148). -/
  | vscan (f : LaneFields)
  /-- VPAND (R149). -/
  | vpand (f : LaneFields)
  /-- VPOR (R149). -/
  | vpor (f : LaneFields)
  /-- VPXOR (R149). -/
  | vpxor (f : LaneFields)
  /-- VPANDN (R149). -/
  | vpandn (f : LaneFields)
  /-- VPTEST (R149). -/
  | vptest (f : LaneFields)
  /-- VPMOV (R149). -/
  | vpmov (f : LaneFields)
  /-- MBEG (R203). -/
  | mbeg (acc : BitVec 3)
  /-- MSTEP (R204). -/
  | mstep (acc : BitVec 3) (ta tb : BitVec 8) (kb ka : BitVec 16)
  /-- MEND (R203). -/
  | mend (acc : BitVec 3)
  /-- MZERO (R203). -/
  | mzero (acc : BitVec 3)
  /-- MOUT (R206). -/
  | mout (fmt : MFmt) (sat scl : Bool) (acc : BitVec 3) (ta aux : BitVec 8) (off : BitVec 16) (rows cols : BitVec 7)
  /-- MAMAX (R207). -/
  | mamax (acc : BitVec 3) (aux : BitVec 8) (rows cols : BitVec 7)
  /-- MBIND (R209). -/
  | mbind (lvl : Bool) (sa sx : BitVec 8) (sb sk : BitVec 16)
  /-- MMARK (R211). -/
  | mmark (n : BitVec 4)
  /-- MWAIT (R211). -/
  | mwait (n : BitVec 4)
  /-- MLOOP (R209). -/
  | mloop (fromMs : Bool) (k : BitVec 8) (len cnt : BitVec 16)
  /-- MJMP (R209). -/
  | mjmp (off : BitVec 16)
  /-- MSET (R208). -/
  | mset (k : BitVec 8) (v : BitVec 16)
  /-- MSET_BF (R208). -/
  | msetBf (k : BitVec 8) (v : BitVec 16)
  /-- MSET_LD (R208). -/
  | msetLd (k : BitVec 8) (off : BitVec 16)
  /-- MTREL (R213). -/
  | mtrel (ta : BitVec 8)
  /-- COPY (R185). -/
  | copy (p : CopyPacket)
  /-- EXPAND (R188). -/
  | expand (p : CopyPacket)
  /-- FILL (R185). -/
  | fill (p : CopyPacket)
  /-- BLOAD (R188). -/
  | bload (p : CopyPacket)
  /-- REGFILL (R187). -/
  | regfill (p : CopyPacket)
  /-- MCAST (R186). -/
  | mcast (p : CopyPacket)
  /-- SIGNAL (R185). -/
  | signal (p : CopyPacket)
  /-- DRAIN (R185). -/
  | drain (p : CopyPacket)
  /-- COPY_COMPLETE (R185). -/
  | copyComplete (id : Nat)
  /-- LAUNCH (R160). -/
  | launch (slot : Nat) (p : LaunchPacket)
  /-- TEAM_PLACEMENT (R163). -/
  | teamPlacement (set core core1 : Nat)
  /-- TWIN_RESERVATION (R256). -/
  | twinReservation (set : Nat)
  /-- GRID_COMPLETE (R165). -/
  | gridComplete (grid : Nat)
  /-- PREEMPTION (R169). -/
  | preemption (team : Nat)
  /-- TEAM_RESUMPTION (R171). -/
  | teamResumption (team core : Nat)
  /-- PARENT_RESUME (R168). -/
  | parentResume (team core : Nat)
  /-- HALT (R174). -/
  | halt (ctx : Nat)
  /-- REMOVED (R178). -/
  | removed (ctx : Nat)
  /-- JOIN_START (R258). -/
  | joinStart (set : Nat)
  /-- COMMIT_DECISION (R262). -/
  | commitDecision (set : Nat)
  /-- JOIN_COMPLETE (R262). -/
  | joinComplete (set : Nat)
  /-- BACK_INVALIDATION_RESPONSE (R238). -/
  | backInvalidationResponse (id : Nat)
  /-- ORDERED_PACKET (R275). -/
  | orderedPacket (src dst : Nat)
  /-- VECTOR_FLIT (R273). -/
  | vectorFlit (src dst : Nat)
  /-- BELL (R274). -/
  | bell (src dst : Nat)
  /-- BELL_REQUEST (R276). -/
  | bellRequest (src dst : Nat)
  /-- REPORT (R278). -/
  | report (src dst : Nat)
  /-- DIE_REMOVED (R280). -/
  | dieRemoved (die dead : Nat)
  /-- FREQUENCY_CHANGE (R17). -/
  | frequencyChange (target : BitVec 2)
  /-- DIE_ACKNOWLEDGE (R17). -/
  | dieAcknowledge (die : Nat)
  /-- OUTWAYS_CHANGE_DONE (R223). -/
  | outwaysChangeDone (die : Nat)
  /-- MATRIX_OPERATION_COMPLETE (R214). -/
  | matrixOperationComplete (team : Nat)
  /-- REPORT_REQUEST (R278). -/
  | reportRequest (src dst : Nat)
  /-- PEER_ACKNOWLEDGE (R237). -/
  | peerAcknowledge (id : Nat)
  /-- WATCHDOG (R172). -/
  | watchdog (grid : Nat)
  /-- OUTFIELD_SWEEP (R227). -/
  | outfieldSweep (die : Nat)
  /-- POISON_WRITTEN (R240). -/
  | poisonWritten (addr : Nat)
  /-- HOST_MEMWR (R238). -/
  | hostMemwr (addr : Nat) (bytes : List Byte)
  /-- HOST_MEMRD (R238). -/
  | hostMemrd (addr len : Nat)
  /-- HOST_SNOOP (R238). -/
  | hostSnoop (addr : Nat)
  /-- PEER_WRITE (R237). -/
  | peerWrite (addr : Nat) (bytes : List Byte)
  /-- FABRIC_RESYNC (R281). -/
  | fabricResync (cause : ResyncCause)
  /-- RESYNC_DROP (R281). -/
  | resyncDrop
  /-- LOSS_OF_LIGHT (R285). -/
  | lossOfLight (fibre : Nat) (mask : BitVec 128)
  /-- LIGHT_RESTORED (R285). -/
  | lightRestored (fibre : Nat) (mask : BitVec 128)
  /-- PLL_RELOCK (R17). -/
  | pllRelock
  /-- FREQUENCY_RELEASE (R17). -/
  | frequencyRelease
  /-- ACK_TIMEOUT (R18). -/
  | ackTimeout (die : Nat)
  /-- CAPPER_SAMPLE (R316). -/
  | capperSample (watts : Nat)
  /-- WEAR_EVENT (R317). -/
  | wearEvent (u : WearUnit) (sec : Nat)
  /-- LASER_EN (R315). -/
  | laserEn (on : Bool)
  /-- COLD_RESET (R313). `time`: TIME as it leaves it, for which no value is given (log 6). -/
  | coldReset (time : Nat)
  /-- FUNCTION_READY (R309). -/
  | functionReady (bit : Nat)
  /-- CTX_CREATE (R155). -/
  | ctxCreate
  /-- CTX_REMOVE (R178). -/
  | ctxRemove
  /-- CTX_DESTROY (R310). -/
  | ctxDestroy
  /-- QUEUE_BIND (R157). -/
  | queueBind
  /-- QUEUE_UNBIND (R310). -/
  | queueUnbind
  /-- INVALIDATE (R180). -/
  | invalidate
  /-- PIN (R231). -/
  | pin
  /-- UNPIN (R231). -/
  | unpin
  /-- HALO_DECLARE (R234). -/
  | haloDeclare
  /-- RESYNC (R281). -/
  | resync
  /-- RETIRE_DIE (R280). -/
  | retireDie
  /-- COMMAND_DONE (R310). -/
  | commandDone
  /-- EACTL_RESUME (R312). -/
  | eactlResume
  /-- EACTL_ABANDON (R312). -/
  | eactlAbandon
  /-- EQRD_WRITE (R311). -/
  | eqrdWrite (ctx : Nat) (v : Word)
  /-- SLCFG_WRITE (R223). -/
  | slcfgWrite (die : Nat) (v : BitVec 32)
  /-- FREQCTL_WRITE (R316). -/
  | freqctlWrite (v : BitVec 32)
  /-- PCAP_WRITE (R316). -/
  | pcapWrite (v : BitVec 32)
  /-- FROZEN_CLEAR (R318). -/
  | frozenClear (v : BitVec 32)
  /-- ERASE (R314). -/
  | erase
  /-- PROGRAM (R314). -/
  | program
  /-- READ (R314). -/
  | read
  /-- WARM_RESET (R314). `time`: TIME as it leaves it (log 6). -/
  | warmReset (time : Nat)
  /-- FLASH_COMMAND_DONE (R314). -/
  | flashCommandDone
  /-- REGISTER_WRITE (R5). -/
  | registerWrite (off width : Nat) (v : Word)
  /-- PEER_READ (R241). -/
  | peerRead (addr len : Nat)
  /-- FABRIC_PORT_ERROR (R280). -/
  | fabricPortError (die : Nat)
  /-- HUB_UNCORRECTABLE_ERROR (R318). -/
  | hubUncorrectableError
  /-- FIRMWARE_BUS_MASTERING (R315). -/
  | firmwareBusMastering (addr : Nat) (write : Option (List Byte))
  /-- VNOP (R64). -/
  | vnop
  /-- MNOP (R210). -/
  | mnop
  /-- MNEXT (R209). -/
  | mnext
  /-- MSTOP (R210). -/
  | mstop
  deriving DecidableEq, Repr

end Sys2Proof
end

