-- ==== Sys2Proof/Machine/Tables.lean ====
section
/-! DEFINITION. The encoding tables of the manual: type codes, the OPC map with the fields each entry uses
(Tables 4.8 to 4.13, 7.3 to 8.7), and the field limits of copy packets (Tables 11.2 to 11.5). -/

namespace Sys2Proof

/-- TYPE code of Table 4.10; none for a reserved code. -/
def LType.ofCode (n : Nat) : Option LType :=
  match n with
  | 0 => some .i8 | 1 => some .i16 | 2 => some .i32 | 3 => some .i64
  | 4 => some .n8 | 5 => some .n16 | 6 => some .n32 | 7 => some .n64
  | 8 => some .f32 | 9 => some .f16 | 10 => some .bf16 | 11 => some .e4m3
  | 12 => some .e5m2 | 13 => some .e2m1 | 14 => some .i4 | 15 => some .i3
  | 16 => some .e8m0 | 17 => some .b32 | 18 => some .b64 | _ => none

/-- The code of a TYPE (Table 4.10). -/
def LType.code : LType → Nat
  | .i8 => 0 | .i16 => 1 | .i32 => 2 | .i64 => 3 | .n8 => 4 | .n16 => 5 | .n32 => 6 | .n64 => 7
  | .f32 => 8 | .f16 => 9 | .bf16 => 10 | .e4m3 => 11 | .e5m2 => 12 | .e2m1 => 13 | .i4 => 14 | .i3 => 15
  | .e8m0 => 16 | .b32 => 17 | .b64 => 18

/-- Width of a TYPE in bits (Tables 7.1, 7.2). -/
def LType.bits : LType → Nat
  | .i8 | .n8 | .e4m3 | .e5m2 | .e8m0 => 8
  | .i16 | .n16 | .f16 | .bf16 => 16
  | .i32 | .n32 | .f32 | .b32 => 32
  | .i64 | .n64 | .b64 => 64
  | .e2m1 | .i4 => 4
  | .i3 => 3

/-- "Int" of Table 7.3: i8 to n64. -/
def LType.isInt : LType → Bool
  | .i8 | .i16 | .i32 | .i64 | .n8 | .n16 | .n32 | .n64 => true
  | _ => false

/-- The i types of Table 7.1. -/
def LType.isSigned : LType → Bool
  | .i8 | .i16 | .i32 | .i64 | .i4 | .i3 => true
  | _ => false

/-- "bits" of Table 7.3. -/
def LType.isBits : LType → Bool
  | .b32 | .b64 => true
  | _ => false

/-- The lane floating-point types of R129. -/
def LType.isFloat : LType → Bool
  | .f32 | .f16 | .bf16 => true
  | _ => false

/-- A 64-bit type, which occupies an even-aligned register pair (R48). -/
def LType.is64 : LType → Bool
  | .i64 | .n64 | .b64 => true
  | _ => false

/-- RND code of Table 4.11. -/
def Rnd.ofCode (n : Nat) : Option Rnd :=
  match n with
  | 0 => some .rne | 1 => some .rtz | 2 => some .rup | 3 => some .rdn | 4 => some .rna | _ => none

/-- The code of a rounding (Table 4.11). -/
def Rnd.code : Rnd → Nat
  | .rne => 0 | .rtz => 1 | .rup => 2 | .rdn => 3 | .rna => 4

/-- SAT code of Table 4.11. -/
def Sat.ofCode (n : Nat) : Option Sat :=
  match n with
  | 0 => some .none | 1 => some .sat | 2 => some .satn | _ => Option.none

/-- The code of a saturation (Table 4.11). -/
def Sat.code : Sat → Nat
  | .none => 0 | .sat => 1 | .satn => 2

/-- Scope code of Table 5.8; 6 and 7 are none here. -/
def Scope.ofCode (n : Nat) : Option Scope :=
  match n with
  | 0 => some .grp | 1 => some .team | 2 => some .flock | 3 => some .die | 4 => some .dev | 5 => some .sys | _ => none

/-- The code of a scope (Table 5.8). -/
def Scope.code : Scope → Nat
  | .grp => 0 | .team => 1 | .flock => 2 | .die => 3 | .dev => 4 | .sys => 5

/-- Size code of R89. -/
def Size.ofCode (n : Nat) : Size :=
  match n with
  | 0 => .b | 1 => .h | 2 => .w | _ => .d

/-- The code of a size (R89). -/
def Size.code : Size → Nat
  | .b => 0 | .h => 1 | .w => 2 | .d => 3

/-- Bytes of a size (R89). -/
def Size.bytes : Size → Nat
  | .b => 1 | .h => 2 | .w => 4 | .d => 8

/-- How a lane row uses its DST field. -/
inductive DKind where
  | none   -- unused: must be zero
  | v      -- a v register of TYPE's width
  | v32    -- a 32-bit v register whatever TYPE is
  | p      -- a predicate 1 to 15
  | vsd    -- a v register, or zero when the extension names a scalar destination (R147)
  deriving DecidableEq, Repr

/-- How a lane row uses a source field. -/
inductive SKind where
  | none   -- unused: must be zero
  | src    -- Table 4.9, in TYPE
  | src32  -- Table 4.9, read as a 32-bit value
  | srcS   -- Table 4.9, in the source type S of VCVT
  | pred   -- a predicate 0 to 15
  | vonly  -- a v register (R147)
  | base   -- R137
  | index  -- R137
  | wbase  -- the broadcast base of VLDW (R142)
  | windex -- SB of VLDW, code 448 (R142)
  deriving DecidableEq, Repr

/-- What bits [95:64] of a lane row hold. -/
inductive EKind where
  | imm    -- IMM32 when a source is code 453, otherwise zero
  | zero   -- zero
  | cvt    -- VCVT (R133)
  | pack   -- VPACK, VUNPACK (R134)
  | mem    -- Table 8.1
  | tile   -- R146
  | xchg   -- R147
  deriving DecidableEq, Repr

/-- One entry of the OPC map. -/
structure LRow where
  opc : Nat
  make : LaneFields → Instr
  dst : DKind
  sa : SKind
  sb : SKind
  sc : SKind
  ext : EKind

/-- Rows of the OPC map (Tables 7.3 to 8.7), part 0. -/
def laneRows0 : List LRow := [
  ⟨0x001, .vadd, .v, .src, .src, .none, .imm⟩,
  ⟨0x002, .vsub, .v, .src, .src, .none, .imm⟩,
  ⟨0x003, .vmul, .v, .src, .src, .none, .imm⟩,
  ⟨0x004, .vmulh, .v, .src, .src, .none, .imm⟩,
  ⟨0x005, .vdiv, .v, .src, .src, .none, .imm⟩,
  ⟨0x006, .vrem, .v, .src, .src, .none, .imm⟩,
  ⟨0x007, .vmin, .v, .src, .src, .none, .imm⟩,
  ⟨0x008, .vmax, .v, .src, .src, .none, .imm⟩,
  ⟨0x009, .vabs, .v, .src, .none, .none, .imm⟩,
  ⟨0x00A, .vneg, .v, .src, .none, .none, .imm⟩,
  ⟨0x00B, .vmad, .v, .src, .src, .src, .imm⟩,
  ⟨0x010, .vand, .v, .src, .src, .none, .imm⟩,
  ⟨0x011, .vor, .v, .src, .src, .none, .imm⟩,
  ⟨0x012, .vxor, .v, .src, .src, .none, .imm⟩,
  ⟨0x013, .vnot, .v, .src, .none, .none, .imm⟩,
  ⟨0x014, .vshl, .v, .src, .src, .none, .imm⟩,
  ⟨0x015, .vshr, .v, .src, .src, .none, .imm⟩,
  ⟨0x016, .vrotl, .v, .src, .src, .none, .imm⟩,
  ⟨0x017, .vclz, .v, .src, .none, .none, .imm⟩,
  ⟨0x018, .vpopc, .v, .src, .none, .none, .imm⟩,
  ⟨0x019, .vbfx, .v, .src, .src, .none, .imm⟩]

/-- Rows of the OPC map (Tables 7.3 to 8.7), part 1. -/
def laneRows1 : List LRow := [
  ⟨0x01A, .vbfi, .v, .src, .src, .none, .imm⟩,
  ⟨0x020, .vmov, .v, .src, .none, .none, .imm⟩,
  ⟨0x021, .vsel, .v, .src, .src, .pred, .imm⟩,
  ⟨0x080, .vfadd, .v, .src, .src, .none, .imm⟩,
  ⟨0x081, .vfsub, .v, .src, .src, .none, .imm⟩,
  ⟨0x082, .vfmul, .v, .src, .src, .none, .imm⟩,
  ⟨0x083, .vfma, .v, .src, .src, .src, .imm⟩,
  ⟨0x084, .vfms, .v, .src, .src, .src, .imm⟩,
  ⟨0x085, .vfdiv, .v, .src, .src, .none, .imm⟩,
  ⟨0x086, .vfsqrt, .v, .src, .none, .none, .imm⟩,
  ⟨0x087, .vfrcp, .v, .src, .none, .none, .imm⟩,
  ⟨0x088, .vfrsq, .v, .src, .none, .none, .imm⟩,
  ⟨0x089, .vfexp2, .v, .src, .none, .none, .imm⟩,
  ⟨0x08A, .vflog2, .v, .src, .none, .none, .imm⟩,
  ⟨0x08B, .vfmin, .v, .src, .src, .none, .imm⟩,
  ⟨0x08C, .vfmax, .v, .src, .src, .none, .imm⟩,
  ⟨0x08D, .vfabs, .v, .src, .none, .none, .imm⟩,
  ⟨0x08E, .vfneg, .v, .src, .none, .none, .imm⟩,
  ⟨0x08F, .vfrnd, .v, .src, .none, .none, .imm⟩,
  ⟨0x100, .vcmpEq, .p, .src, .src, .none, .imm⟩,
  ⟨0x101, .vcmpNe, .p, .src, .src, .none, .imm⟩]

/-- Rows of the OPC map (Tables 7.3 to 8.7), part 2. -/
def laneRows2 : List LRow := [
  ⟨0x102, .vcmpLt, .p, .src, .src, .none, .imm⟩,
  ⟨0x103, .vcmpLe, .p, .src, .src, .none, .imm⟩,
  ⟨0x104, .vcmpGt, .p, .src, .src, .none, .imm⟩,
  ⟨0x105, .vcmpGe, .p, .src, .src, .none, .imm⟩,
  ⟨0x106, .vcmpUn, .p, .src, .src, .none, .imm⟩,
  ⟨0x108, .vfclass, .v32, .src, .none, .none, .imm⟩,
  ⟨0x110, .vcvt, .v, .srcS, .none, .none, .cvt⟩,
  ⟨0x111, .vpack, .v32, .src32, .none, .none, .pack⟩,
  ⟨0x112, .vunpack, .v32, .src32, .none, .none, .pack⟩,
  ⟨0x113, .vscale, .v, .src, .src32, .none, .imm⟩,
  ⟨0x180, .vld, .v, .base, .index, .none, .mem⟩,
  ⟨0x181, .vst, .none, .base, .index, .src, .mem⟩,
  ⟨0x182, .vldw, .v, .wbase, .windex, .none, .mem⟩,
  ⟨0x184, .vpref, .none, .base, .index, .none, .mem⟩,
  ⟨0x190, .vamoSwap, .v, .base, .index, .src, .mem⟩,
  ⟨0x191, .vamoAdd, .v, .base, .index, .src, .mem⟩,
  ⟨0x192, .vamoAnd, .v, .base, .index, .src, .mem⟩,
  ⟨0x193, .vamoOr, .v, .base, .index, .src, .mem⟩,
  ⟨0x194, .vamoXor, .v, .base, .index, .src, .mem⟩,
  ⟨0x195, .vamoMin, .v, .base, .index, .src, .mem⟩,
  ⟨0x196, .vamoMax, .v, .base, .index, .src, .mem⟩]

/-- Rows of the OPC map (Tables 7.3 to 8.7), part 3. -/
def laneRows3 : List LRow := [
  ⟨0x197, .vamoCas, .v, .base, .index, .src, .mem⟩,
  ⟨0x198, .vamoFadd, .v, .base, .index, .src, .mem⟩,
  ⟨0x199, .vamoFmin, .v, .base, .index, .src, .mem⟩,
  ⟨0x19A, .vamoFmax, .v, .base, .index, .src, .mem⟩,
  ⟨0x19B, .vamoAmaxrst, .v, .base, .index, .none, .mem⟩,
  ⟨0x200, .vtld, .v, .src32, .src32, .none, .tile⟩,
  ⟨0x201, .vtst, .none, .src32, .src32, .src, .tile⟩,
  ⟨0x140, .qswap, .v, .vonly, .none, .none, .xchg⟩,
  ⟨0x141, .qbcast, .v, .vonly, .none, .none, .xchg⟩,
  ⟨0x142, .vshfl, .v, .vonly, .src32, .none, .xchg⟩,
  ⟨0x143, .vballot, .vsd, .pred, .none, .none, .xchg⟩,
  ⟨0x144, .vred, .vsd, .vonly, .none, .none, .xchg⟩,
  ⟨0x145, .vscan, .v, .vonly, .none, .none, .xchg⟩,
  ⟨0x148, .vpand, .p, .pred, .pred, .none, .zero⟩,
  ⟨0x149, .vpor, .p, .pred, .pred, .none, .zero⟩,
  ⟨0x14A, .vpxor, .p, .pred, .pred, .none, .zero⟩,
  ⟨0x14B, .vpandn, .p, .pred, .pred, .none, .zero⟩,
  ⟨0x14C, .vptest, .p, .src, .none, .none, .zero⟩,
  ⟨0x14D, .vpmov, .v, .pred, .none, .none, .zero⟩]

/-- Every assigned OPC other than VNOP (R64). -/
def laneRows : List LRow := laneRows0 ++ laneRows1 ++ laneRows2 ++ laneRows3

/-- The row of an OPC (Table 4.12); none for an unassigned value. -/
def laneRow (opc : Nat) : Option LRow := laneRows.find? (fun r => r.opc == opc)

/-- OPC and fields of a lane instruction; none for any other, VNOP included. -/
def laneOf : Instr → Option (Nat × LaneFields)
  | .vadd f => some (0x001, f)
  | .vsub f => some (0x002, f)
  | .vmul f => some (0x003, f)
  | .vmulh f => some (0x004, f)
  | .vdiv f => some (0x005, f)
  | .vrem f => some (0x006, f)
  | .vmin f => some (0x007, f)
  | .vmax f => some (0x008, f)
  | .vabs f => some (0x009, f)
  | .vneg f => some (0x00A, f)
  | .vmad f => some (0x00B, f)
  | .vand f => some (0x010, f)
  | .vor f => some (0x011, f)
  | .vxor f => some (0x012, f)
  | .vnot f => some (0x013, f)
  | .vshl f => some (0x014, f)
  | .vshr f => some (0x015, f)
  | .vrotl f => some (0x016, f)
  | .vclz f => some (0x017, f)
  | .vpopc f => some (0x018, f)
  | .vbfx f => some (0x019, f)
  | .vbfi f => some (0x01A, f)
  | .vmov f => some (0x020, f)
  | .vsel f => some (0x021, f)
  | .vfadd f => some (0x080, f)
  | .vfsub f => some (0x081, f)
  | .vfmul f => some (0x082, f)
  | .vfma f => some (0x083, f)
  | .vfms f => some (0x084, f)
  | .vfdiv f => some (0x085, f)
  | .vfsqrt f => some (0x086, f)
  | .vfrcp f => some (0x087, f)
  | .vfrsq f => some (0x088, f)
  | .vfexp2 f => some (0x089, f)
  | .vflog2 f => some (0x08A, f)
  | .vfmin f => some (0x08B, f)
  | .vfmax f => some (0x08C, f)
  | .vfabs f => some (0x08D, f)
  | .vfneg f => some (0x08E, f)
  | .vfrnd f => some (0x08F, f)
  | .vcmpEq f => some (0x100, f)
  | .vcmpNe f => some (0x101, f)
  | .vcmpLt f => some (0x102, f)
  | .vcmpLe f => some (0x103, f)
  | .vcmpGt f => some (0x104, f)
  | .vcmpGe f => some (0x105, f)
  | .vcmpUn f => some (0x106, f)
  | .vfclass f => some (0x108, f)
  | .vcvt f => some (0x110, f)
  | .vpack f => some (0x111, f)
  | .vunpack f => some (0x112, f)
  | .vscale f => some (0x113, f)
  | .vld f => some (0x180, f)
  | .vst f => some (0x181, f)
  | .vldw f => some (0x182, f)
  | .vpref f => some (0x184, f)
  | .vamoSwap f => some (0x190, f)
  | .vamoAdd f => some (0x191, f)
  | .vamoAnd f => some (0x192, f)
  | .vamoOr f => some (0x193, f)
  | .vamoXor f => some (0x194, f)
  | .vamoMin f => some (0x195, f)
  | .vamoMax f => some (0x196, f)
  | .vamoCas f => some (0x197, f)
  | .vamoFadd f => some (0x198, f)
  | .vamoFmin f => some (0x199, f)
  | .vamoFmax f => some (0x19A, f)
  | .vamoAmaxrst f => some (0x19B, f)
  | .vtld f => some (0x200, f)
  | .vtst f => some (0x201, f)
  | .qswap f => some (0x140, f)
  | .qbcast f => some (0x141, f)
  | .vshfl f => some (0x142, f)
  | .vballot f => some (0x143, f)
  | .vred f => some (0x144, f)
  | .vscan f => some (0x145, f)
  | .vpand f => some (0x148, f)
  | .vpor f => some (0x149, f)
  | .vpxor f => some (0x14A, f)
  | .vpandn f => some (0x14B, f)
  | .vptest f => some (0x14C, f)
  | .vpmov f => some (0x14D, f)
  | _ => none

/-- Bits of the extension of a memory instruction (Table 8.1). -/
def LaneFields.hint (f : LaneFields) : Nat := (f.ext.extractLsb' 19 2).toNat
/-- ISIGN of Table 8.1. -/
def LaneFields.isign (f : LaneFields) : Bool := f.ext.getLsbD 18
/-- SCALE of Table 8.1. -/
def LaneFields.scale (f : LaneFields) : Nat := (f.ext.extractLsb' 16 2).toNat
/-- DISP of Table 8.1, sign-extended. -/
def LaneFields.disp (f : LaneFields) : Word := (f.ext.extractLsb' 0 16).signExtend 64
/-- MODE of an exchange instruction (R147). -/
def LaneFields.mode (f : LaneFields) : Nat := (f.ext.extractLsb' 0 3).toNat
/-- EXCL of VSCAN (R147). -/
def LaneFields.excl (f : LaneFields) : Bool := f.ext.getLsbD 3
/-- SD: the result goes to a scalar (R147). -/
def LaneFields.sd (f : LaneFields) : Bool := f.ext.getLsbD 8
/-- SN: the scalar destination (R147). -/
def LaneFields.sn (f : LaneFields) : SReg := f.ext.extractLsb' 9 6
/-- The source type of VCVT and the wide type of VPACK and VUNPACK (R133, R134). -/
def LaneFields.srcType (f : LaneFields) : Option LType := LType.ofCode (f.ext.extractLsb' 0 5).toNat
/-- The field position of VPACK and VUNPACK (R134). -/
def LaneFields.pos (f : LaneFields) : Nat := (f.ext.extractLsb' 8 5).toNat
/-- The tile index of VTLD and VTST (R146). -/
def LaneFields.tile (f : LaneFields) : Nat := (f.ext.extractLsb' 0 8).toNat

/-- Field width, number of positions and wide type of a packed field (Table 7.9). -/
def packInfo : LType → Option (Nat × Nat × LType)
  | .f16 | .bf16 => some (16, 2, .f32)
  | .i16 | .n16 => some (16, 2, .i32)
  | .e4m3 | .e5m2 | .e8m0 => some (8, 4, .f32)
  | .i8 | .n8 => some (8, 4, .i32)
  | .e2m1 => some (4, 8, .f32)
  | .i4 => some (4, 8, .i32)
  | .i3 => some (3, 10, .i32)
  | _ => none

/-- TYPE of a row is accepted (Tables 7.3 to 8.7). -/
def laneTypeOk (opc : Nat) (t : LType) : Bool :=
  let w32 := t == .b32 || t == .b64 || t == .i32 || t == .i64 || t == .n32 || t == .n64
  if opc == 0x009 then t.isInt && t.isSigned
  else if opc ≤ 0x00B then t.isInt
  else if opc ≤ 0x018 then t.isInt || t.isBits
  else if opc ≤ 0x021 then t.isBits
  else if opc ≤ 0x08F then t.isFloat
  else if opc ≤ 0x101 then t.isInt || t.isBits || t.isFloat
  else if opc ≤ 0x105 then t.isInt || t.isFloat
  else if opc ≤ 0x108 then t.isFloat
  else if opc == 0x110 then t.isInt || t.isFloat
  else if opc ≤ 0x112 then (packInfo t).isSome
  else if opc == 0x113 then t.isFloat
  else if opc ≤ 0x142 then t.isBits
  else if opc == 0x143 then t == .b32
  else if opc ≤ 0x145 then t.isInt || t.isBits || t.isFloat
  else if opc ≤ 0x14D then t == .b32
  else if opc ≤ 0x181 then t.isInt || t.isFloat || t.isBits
  else if opc == 0x182 then w32 || t == .f32
  else if opc == 0x184 then t == .b32
  else if opc == 0x190 || opc == 0x192 || opc == 0x193 || opc == 0x194 || opc == 0x197 then w32
  else if opc ≤ 0x196 then w32 && !t.isBits
  else if opc ≤ 0x19B then t == .f32
  else t == .bf16 || t == .f32

/-- Float formats of the conversion table in which D is wider than S (Table 7.8). -/
def cvtWidens (s d : LType) : Bool := (s == .f16 || s == .bf16) && d == .f32

/-- RND and SAT of a row are accepted (R63, R124 and each entry). -/
def laneRndSatOk (opc : Nat) (f : LaneFields) : Bool :=
  let noRnd := f.rnd == .rne
  let noSat := f.sat == .none
  let intSat := f.sat != .satn
  if opc == 0x001 || opc == 0x002 || opc == 0x003 || opc == 0x009 || opc == 0x00A || opc == 0x00B then
    noRnd && intSat
  else if opc ≤ 0x021 then noRnd && noSat
  else if opc == 0x08B || opc == 0x08C || opc == 0x08D || opc == 0x08E then noRnd
  else if opc ≤ 0x08F then true
  else if opc ≤ 0x108 then noRnd && noSat
  else if opc == 0x110 then
    match f.srcType with
    | none => false
    | some s =>
      if f.ty.isInt then (if s.isInt then noRnd && intSat else intSat)
      else if s.isInt then true
      else if s == f.ty || cvtWidens s f.ty then noRnd else true
  else if opc == 0x111 then
    if f.ty == .e8m0 then (f.rnd == .rup || f.rnd == .rdn) && intSat
    else if f.ty.isInt || f.ty == .i4 || f.ty == .i3 then noRnd && intSat
    else true
  else if opc == 0x112 then noRnd && noSat
  else if opc == 0x113 then true
  else if opc == 0x144 || opc == 0x145 then
    if f.ty.isFloat then true
    else if f.mode ≤ 2 then noRnd && intSat else noRnd && noSat
  else if opc == 0x198 then noSat
  else noRnd && noSat

/-- The extension of a row is accepted. -/
def laneExtOk (opc : Nat) (e : EKind) (usesImm : Bool) (f : LaneFields) : Bool :=
  match e with
  | .imm => usesImm || f.ext == 0
  | .zero => f.ext == 0
  | .cvt => f.ext.extractLsb' 5 27 == 0 && (match f.srcType with | some s => s.isInt || s.isFloat | none => false)
  | .pack =>
    f.ext.extractLsb' 5 3 == 0 && f.ext.extractLsb' 13 19 == 0 &&
    (match packInfo f.ty with
     | some (_, k, w) => f.srcType == some w && f.pos < k
     | none => false)
  | .mem =>
    f.ext.extractLsb' 21 11 == 0 && f.hint ≠ 3 &&
    (if opc == 0x181 then f.hint ≠ 1 else if 0x190 ≤ opc then f.hint == 0 else true) &&
    (opc ≠ 0x182 || (f.scale == 0 && !f.isign))
  | .tile => f.ext.extractLsb' 8 24 == 0
  | .xchg =>
    f.ext.extractLsb' 4 4 == 0 && f.ext.extractLsb' 15 17 == 0 &&
    (if f.sd then (opc == 0x143 || opc == 0x144) && f.dst == 0 else f.sn == 0) &&
    (!f.excl || opc == 0x145) &&
    (if opc == 0x140 then 1 ≤ f.mode && f.mode ≤ 3
     else if opc == 0x141 || opc == 0x142 then f.mode ≤ 3
     else if opc == 0x143 then f.mode == 0
     else if f.ty.isBits then 3 ≤ f.mode && f.mode ≤ 5
     else if f.ty.isFloat then f.mode ≤ 2
     else f.mode ≤ 5)

/-- A source field obeys order 3 of Table 4.13: unused is zero, and FEB only for a v register source. -/
def laneFebOk (k : SKind) (code : BitVec 9) (feb : Bool) : Bool :=
  match k with
  | .none => code == 0 && !feb
  | .pred => !feb
  | _ => !feb || code.toNat < 320

/-- Source code in TYPE width `is64` (Table 4.9). -/
def srcCodeOk (vregs : Nat) (is64 imm : Bool) (c : Nat) : Bool :=
  if c < 320 then c < vregs && (!is64 || c % 2 == 0)
  else (384 ≤ c && c ≤ 452) || (imm && c == 453)

/-- A source field obeys order 4 of Table 4.13. -/
def laneSrcOk (vregs : Nat) (k : SKind) (imm : Bool) (f : LaneFields) (code : BitVec 9) : Bool :=
  let c := code.toNat
  match k with
  | .none => true
  | .src => srcCodeOk vregs f.ty.is64 imm c
  | .src32 => srcCodeOk vregs false imm c
  | .srcS => srcCodeOk vregs (match f.srcType with | some s => s.is64 | none => false) imm c
  | .pred => c < 16
  | .vonly => c < 320 && c < vregs && (!f.ty.is64 || c % 2 == 0)
  | .base => (c < 320 && c < vregs && c % 2 == 0) || (384 ≤ c && c ≤ 447)
  | .index => (c < 320 && c < vregs) || (384 ≤ c && c ≤ 451)
  | .wbase => 384 ≤ c && c ≤ 447
  | .windex => c == 448

/-- The DST field obeys order 4 of Table 4.13. -/
def laneDstOk (vregs : Nat) (k : DKind) (f : LaneFields) : Bool :=
  let c := f.dst.toNat
  match k with
  | .none => true
  | .v => c < 320 && c < vregs && (!f.ty.is64 || c % 2 == 0)
  | .v32 => c < 320 && c < vregs
  | .p => 1 ≤ c && c ≤ 15
  | .vsd => f.sd || (c < 320 && c < vregs && (!f.ty.is64 || c % 2 == 0))

/-- How many source fields select IMM (code 453). -/
def LRow.imms (r : LRow) (f : LaneFields) : Nat :=
  let g := fun (k : SKind) (c : BitVec 9) => if (k == .src || k == .src32) && c.toNat == 453 then 1 else 0
  if r.ext == .imm then g r.sa f.sa + g r.sb f.sb + g r.sc f.sc else 0

/-- Does a source field select IMM? -/
def LRow.usesImm (r : LRow) (f : LaneFields) : Bool := r.imms f != 0

/-- Orders 1 to 3 of Table 4.13 for an assigned OPC. -/
def LRow.legal (r : LRow) (f : LaneFields) : Bool :=
  laneTypeOk r.opc f.ty && laneRndSatOk r.opc f && laneExtOk r.opc r.ext (r.usesImm f) f &&
  (r.dst != .none || f.dst == 0) &&
  laneFebOk r.sa f.sa (f.feb.getLsbD 0) && laneFebOk r.sb f.sb (f.feb.getLsbD 1) && laneFebOk r.sc f.sc (f.feb.getLsbD 2)

/-- Order 4 of Table 4.13 with the kernel's VREGS; a second source may not select IMM (R122, log 84). -/
def LRow.regsOk (r : LRow) (vregs : Nat) (f : LaneFields) : Bool :=
  let imm := r.ext == .imm
  laneDstOk vregs r.dst f && laneSrcOk vregs r.sa imm f f.sa && laneSrcOk vregs r.sb imm f f.sb &&
  laneSrcOk vregs r.sc imm f f.sc && decide (r.imms f ≤ 1)

/-- Base of the own-scratchpad window (Table 3.2). -/
def ownWindow : Nat := 0xFFFFFF0000000000
/-- Base of the flock-scratchpad windows (Table 3.2). -/
def flockWindow : Nat := 0xFFFFFE0000000000
/-- Size of one scratchpad (Table 3.2). -/
def spadBytes : Nat := 0x200000

/-- An address inside the own-scratchpad window (Table 3.2). -/
def inOwnWindow (a : Nat) : Bool := ownWindow ≤ a && a < ownWindow + spadBytes

/-- The copy opcodes (Table 11.3). -/
inductive CopyOp where
  | copy | expand | fill | bload | regfill | mcast | signal | drain
  deriving DecidableEq, Repr

/-- Opcode byte of Table 11.3. -/
def CopyOp.ofCode (n : Nat) : Option CopyOp :=
  match n with
  | 1 => some .copy | 2 => some .expand | 3 => some .fill | 4 => some .bload
  | 5 => some .regfill | 6 => some .mcast | 7 => some .signal | 8 => some .drain | _ => none

/-- The code of a copy opcode (Table 11.3). -/
def CopyOp.code : CopyOp → Nat
  | .copy => 1 | .expand => 2 | .fill => 3 | .bload => 4 | .regfill => 5 | .mcast => 6 | .signal => 7 | .drain => 8

/-- The instruction of a packet (Table 11.3). -/
def CopyOp.mk : CopyOp → CopyPacket → Instr
  | .copy => .copy | .expand => .expand | .fill => .fill | .bload => .bload
  | .regfill => .regfill | .mcast => .mcast | .signal => .signal | .drain => .drain

/-- Opcode and packet of a copy instruction. -/
def copyOf : Instr → Option (CopyOp × CopyPacket)
  | .copy p => some (.copy, p) | .expand p => some (.expand, p) | .fill p => some (.fill, p)
  | .bload p => some (.bload, p) | .regfill p => some (.regfill, p) | .mcast p => some (.mcast, p)
  | .signal p => some (.signal, p) | .drain p => some (.drain, p)
  | _ => none

/-- Bits of one source element of EXPAND and BLOAD (R118, R121). -/
def CopyPacket.srcBits (p : CopyPacket) : Nat :=
  match LType.ofCode p.stype.toNat with
  | some t => t.bits
  | none => 0

/-- Elements of one scale group (Table 11.2, GSIZE). -/
def CopyPacket.groupElems (p : CopyPacket) : Nat :=
  match p.gsize.toNat with
  | 1 => 32 | 2 => 64 | 3 => 128 | _ => 0

/-- Bytes of one scale (Table 11.2, SKIND). -/
def CopyPacket.scaleBytes (p : CopyPacket) : Nat := if p.skind then 2 else 1

/-- The accepted GROUP values of a source type (Table 11.5). -/
def groupOk (p : CopyPacket) : Bool :=
  let g := p.gsize.toNat
  match LType.ofCode p.stype.toNat with
  | some .bf16 => g == 0 && !p.skind
  | some .e4m3 | some .e5m2 => (g == 0 || g == 1) && !p.skind
  | some .e2m1 => g == 1 && !p.skind
  | some .i4 | some .i3 => !p.skind || g == 1
  | _ => false

/-- Bytes of one row written to memory or scratchpad. -/
def CopyPacket.dstRowBytes (op : CopyOp) (p : CopyPacket) : Nat :=
  match op with
  | .expand => 2 * p.cols.toNat
  | .bload => 2 * p.cols.toNat
  | _ => p.length.toNat

/-- Bytes of one row read. -/
def CopyPacket.srcRowBytes (op : CopyOp) (p : CopyPacket) : Nat :=
  match op with
  | .expand | .bload => p.cols.toNat * p.srcBits / 8
  | _ => p.length.toNat

/-- Rows of a packet, a single run counting as one (R183). -/
def CopyPacket.nRows (p : CopyPacket) : Nat := if p.rows.toNat == 0 then 1 else p.rows.toNat

/-- The pitch rules of R183 for the packet's own ROWS. -/
def pitchOk (op : CopyOp) (p : CopyPacket) : Bool :=
  let two := 2 ≤ p.rows.toNat
  let d := p.dpitch.toNat
  let sp := p.spitch.toNat
  let readsRows := op == .copy || op == .mcast || op == .expand || op == .bload
  (if two then d == 0 || p.dstRowBytes op ≤ d else d == 0) &&
  (if readsRows then (if two then p.srcRowBytes op ≤ sp && sp ≠ 0 else sp == 0) else sp == 0)

/-- Element size of a tile's canonical type (R185); 0 for any other code. -/
def tileElem (code : Byte) : Nat :=
  if code == 0x0A then 2 else if code == 0x08 then 4 else 0

/-- Order 1 of Table 11.1: every field within its limits and accepted by the opcode (Tables 11.2 to 11.5). A token number with TOKEN enable 0 is
accepted: DESIGN CHOICE (log 101). -/
def packetOk (op : CopyOp) (p : CopyPacket) : Bool :=
  let noGroup := p.gsize == 0 && !p.skind && p.scale == 0
  let raw := p.stype == 0 && p.dtype == 0 && p.cols == 0
  let mib16 := 16 * 1024 * 1024
  (p.mcast == (op == .mcast)) &&
  (!p.ro || !(op == .fill || op == .signal || op == .drain)) &&
  (if p.tileEn then p.tile.toNat < 256 else op == .mcast || p.tile == 0) &&
  (op == .signal || p.signal.toNat % 8 == 0) &&
  (match op with
   | .copy | .fill =>
     noGroup && 1 ≤ p.length.toNat && pitchOk op p && p.nRows * p.length.toNat ≤ mib16 &&
     (if p.tileEn then
        inOwnWindow p.dst.toNat && p.dpitch == 0 && p.stype == p.dtype && tileElem p.stype ≠ 0 &&
        p.cols.toNat * tileElem p.stype == p.length.toNat
      else raw)
   | .mcast => noGroup && 1 ≤ p.length.toNat && pitchOk op p && p.nRows * p.length.toNat ≤ mib16 && raw && !p.tileEn &&
     inOwnWindow p.dst.toNat
   | .expand =>
     p.tileEn && p.length == 0 && p.dtype == 0x0A && groupOk p && pitchOk op p && p.dpitch == 0 &&
     1 ≤ p.rows.toNat && p.rows.toNat ≤ 4096 && 32 ≤ p.cols.toNat && p.cols.toNat ≤ 4096 && p.cols.toNat % 32 == 0 &&
     (p.gsize == 0 || p.cols.toNat % p.groupElems == 0) &&
     (if p.gsize == 0 then p.scale == 0 else p.scale.toNat % p.scaleBytes == 0) &&
     p.dst.toNat % 64 == 0 && inOwnWindow p.dst.toNat && 2 * p.rows.toNat * p.cols.toNat ≤ mib16
   | .bload =>
     p.tileEn && p.length == 0 && p.dtype == 0x0A && groupOk p && pitchOk op p && p.dpitch == 0 &&
     32 ≤ p.rows.toNat && p.rows.toNat ≤ 2048 && p.rows.toNat % 32 == 0 &&
     1 ≤ p.cols.toNat && p.cols.toNat ≤ 128 &&
     (p.srcBits ≥ 8 || p.cols.toNat % 32 == 0) &&
     (p.gsize == 0 || p.rows.toNat % p.groupElems == 0) &&
     (if p.gsize == 0 then p.scale == 0 else p.scale.toNat % p.scaleBytes == 0) &&
     p.dst.toNat % 64 == 0 && p.dst.toNat + 2 * p.rows.toNat ≤ 4096
   | .regfill =>
     let count := p.length.toNat / 128
     noGroup && raw && !p.tileEn && p.rows == 0 && p.spitch == 0 && p.dpitch == 0 &&
     p.length.toNat % 128 == 0 && 1 ≤ count && count ≤ 320 && p.src.toNat % 128 == 0 &&
     p.dst.extractLsb' 24 40 == 0 && (count % 2 == 1 || p.dst.toNat % 2 == 0)
   | .signal =>
     noGroup && raw && !p.tileEn && p.rows == 0 && p.spitch == 0 && p.dpitch == 0 && p.length == 0 && p.src == 0 &&
     p.dst.toNat % 8 == 0
   | .drain =>
     noGroup && p.tileEn && p.rows == 0 && p.cols == 0 && p.spitch == 0 && p.length == 0 && p.src == 0 &&
     (p.dst != 0 || p.dpitch == 0))

end Sys2Proof
end

