-- ==== Sys2Proof/Machine/Float.lean ====
section
/-! DEFINITION. Floating-point values computed exactly and rounded once (R119 to R125, R129 to R135). -/

namespace Sys2Proof.Machine

open Sys2Proof

/-- A floating-point format: mantissa width, bias, code of the largest finite value, and whether it has infinities
(Table 7.2). -/
structure FFmt where
  mant : Nat
  bias : Nat
  width : Nat
  maxFin : Nat
  hasInf : Bool
  nan : Nat       -- canonical NaN; 0 for e2m1, which has none
  deriving DecidableEq, Repr

/-- binary32 (Table 7.2). -/
def fmtF32 : FFmt := ⟨23, 127, 32, 0x7F7FFFFF, true, 0x7FC00000⟩
/-- binary16 (Table 7.2). -/
def fmtF16 : FFmt := ⟨10, 15, 16, 0x7BFF, true, 0x7E00⟩
/-- bf16 (Table 7.2). -/
def fmtBF16 : FFmt := ⟨7, 127, 16, 0x7F7F, true, 0x7FC0⟩
/-- e4m3 (Table 7.2). -/
def fmtE4M3 : FFmt := ⟨3, 7, 8, 0x7E, false, 0x7F⟩
/-- e5m2 (Table 7.2). -/
def fmtE5M2 : FFmt := ⟨2, 15, 8, 0x7B, true, 0x7E⟩
/-- e2m1 (Table 7.2). -/
def fmtE2M1 : FFmt := ⟨1, 1, 4, 0x7, false, 0⟩

/-- The format of a type; f32 for a type that is no float. -/
def fmtOf : LType → FFmt
  | .f16 => fmtF16 | .bf16 => fmtBF16 | .e4m3 => fmtE4M3 | .e5m2 => fmtE5M2 | .e2m1 => fmtE2M1 | _ => fmtF32

/-- A value: NaN, an infinity, or (−1)^neg × m × 2^e. -/
inductive FV where
  | nan
  | inf (neg : Bool)
  | num (neg : Bool) (m : Nat) (e : Int)
  deriving DecidableEq, Repr

/-- The sign bit's weight. -/
def FFmt.signBit (f : FFmt) : Nat := 2 ^ (f.width - 1)

/-- The value of an encoding (R119). -/
def FFmt.decode (f : FFmt) (bits : Nat) : FV :=
  let b := bits % 2 ^ f.width
  let neg := f.signBit ≤ b
  let mag := b % f.signBit
  let e := mag / 2 ^ f.mant
  let m := mag % 2 ^ f.mant
  if f.maxFin < mag then (if f.hasInf && m == 0 then .inf neg else .nan)
  else if e = 0 then .num neg m (1 - (f.bias : Int) - f.mant)
  else .num neg (m + 2 ^ f.mant) ((e : Int) - f.bias - f.mant)

/-- The value of an e8m0 code (R120). -/
def decodeE8M0 (code : Nat) : FV := if code % 256 == 255 then .nan else .num false 1 ((code % 256 : Nat) - 127 : Int)

/-- A rounded result: a finite code, or an overflow. -/
inductive FRes where
  | nan
  | inf (neg : Bool)
  | code (bits : Nat)
  | over (neg : Bool)
  deriving DecidableEq, Repr

/-- Is a magnitude rounded away from zero? `odd`: the kept part is odd; `cmp`: the dropped part against one half
(0: zero, 1: below, 2: equal, 3: above). -/
def roundAway (r : Rnd) (neg odd : Bool) (cmp : Nat) : Bool :=
  match r with
  | .rne => cmp == 3 || (cmp == 2 && odd)
  | .rtz => false
  | .rup => cmp != 0 && !neg
  | .rdn => cmp != 0 && neg
  | .rna => 2 ≤ cmp

/-- Round m × 2^e (plus a little more when `sticky`) to a multiple of 2^q: the multiple. -/
def roundMul (r : Rnd) (neg : Bool) (m : Nat) (e : Int) (sticky : Bool) (q : Int) : Nat :=
  if q ≤ e then m * 2 ^ (e - q).toNat
  else
    let sh := (q - e).toNat
    let k := m / 2 ^ sh
    let rem := m % 2 ^ sh
    let half := 2 ^ (sh - 1)
    let cmp := if rem == 0 && !sticky then 0 else if rem < half then 1 else if rem == half && !sticky then 2 else 3
    if roundAway r neg (k % 2 == 1) cmp then k + 1 else k

/-- round_to for a number (R123): m × 2^e, and strictly between it and (m + 1) × 2^e when `sticky`. -/
def FFmt.roundNum (f : FFmt) (r : Rnd) (neg : Bool) (m : Nat) (e : Int) (sticky : Bool) : FRes :=
  let s := if neg then f.signBit else 0
  if m = 0 then .code s
  else
    let qmin : Int := 1 - (f.bias : Int) - f.mant
    let q := max ((m.log2 : Int) + e - f.mant) qmin
    let k := roundMul r neg m e sticky q
    let mag := (q - qmin).toNat * 2 ^ f.mant + k
    if f.maxFin < mag then .over neg else .code (s + mag)

/-- round_to of a value (R123). -/
def FFmt.round (f : FFmt) (r : Rnd) : FV → FRes
  | .nan => .nan
  | .inf n => .inf n
  | .num n m e => f.roundNum r n m e false

/-- Code of 1.0. -/
def FFmt.one (f : FFmt) : Nat := f.bias * 2 ^ f.mant

/-- saturate, and the overflow column of R123 (R123, R124, R134). -/
def FFmt.finish (f : FFmt) (r : Rnd) (sat : Sat) (x : FRes) : Nat :=
  let sg := fun (n : Bool) => if n then f.signBit else 0
  let infCode := f.maxFin + 1
  match sat, x with
  | .none, .nan => f.nan
  | .none, .inf n => if f.hasInf then sg n + infCode else if f.nan == 0 then sg n + f.maxFin else f.nan
  | .none, .code b => b
  | .none, .over n =>
    let toMax := match r with | .rtz => true | .rup => n | .rdn => !n | _ => false
    if toMax || f.nan == 0 then sg n + f.maxFin
    else if f.hasInf then sg n + infCode else f.nan
  | .sat, .nan => 0
  | .sat, .inf n => sg n + f.maxFin
  | .sat, .code b => b
  | .sat, .over n => sg n + f.maxFin
  | .satn, .nan => 0
  | .satn, .inf n => if n then 0 else f.one
  | .satn, .code b => if f.signBit ≤ b then 0 else if f.one < b then f.one else b
  | .satn, .over n => if n then 0 else f.one

/-- Signed mantissa at exponent `e0` of a number with exponent `e` not below it. -/
def signedAt (neg : Bool) (m : Nat) (e e0 : Int) : Int :=
  let x : Int := ((m * 2 ^ (e - e0).toNat : Nat) : Int)
  if neg then -x else x

/-- Exact sum; a zero sum of opposite signs is −0 in RDN and +0 otherwise (R123). -/
def FV.add (r : Rnd) (a b : FV) : FV :=
  match a, b with
  | .nan, _ => .nan
  | _, .nan => .nan
  | .inf x, .inf y => if x == y then .inf x else .nan
  | .inf x, _ => .inf x
  | _, .inf y => .inf y
  | .num n1 m1 e1, .num n2 m2 e2 =>
    if m1 == 0 && m2 == 0 then .num (if n1 == n2 then n1 else r == .rdn) 0 0
    else if m1 == 0 then .num n2 m2 e2
    else if m2 == 0 then .num n1 m1 e1
    else
      let e := min e1 e2
      let x := signedAt n1 m1 e1 e + signedAt n2 m2 e2 e
      if x = 0 then .num (if n1 == n2 then n1 else r == .rdn) 0 0 else .num (x < 0) x.natAbs e

/-- The value with its sign changed. -/
def FV.neg : FV → FV
  | .nan => .nan
  | .inf n => .inf !n
  | .num n m e => .num (!n) m e

/-- The value without its sign (VFABS, R129). -/
def FV.abs : FV → FV
  | .nan => .nan
  | .inf _ => .inf false
  | .num _ m e => .num false m e

/-- Exact product (Table 7.6). -/
def FV.mul (a b : FV) : FV :=
  match a, b with
  | .nan, _ => .nan
  | _, .nan => .nan
  | .inf x, .inf y => .inf (x != y)
  | .inf x, .num n m _ => if m == 0 then .nan else .inf (x != n)
  | .num n m _, .inf y => if m == 0 then .nan else .inf (n != y)
  | .num n1 m1 e1, .num n2 m2 e2 => .num (n1 != n2) (m1 * m2) (e1 + e2)

/-- Integer square root of a number of at most 2 × `bits` bits. -/
def isqrt : Nat → Nat → Nat → Nat
  | 0, _, acc => acc
  | i + 1, n, acc =>
    let c := acc + 2 ^ i
    isqrt i n (if c * c ≤ n then c else acc)

/-- Quotient, correctly rounded (R129, Table 7.6). -/
def FFmt.div (f : FFmt) (r : Rnd) (a b : FV) : FRes :=
  match a, b with
  | .nan, _ => .nan
  | _, .nan => .nan
  | .inf _, .inf _ => .nan
  | .inf x, .num n _ _ => .inf (x != n)
  | .num n _ _, .inf y => .code (if n != y then f.signBit else 0)
  | .num n1 m1 e1, .num n2 m2 e2 =>
    if m2 = 0 then (if m1 = 0 then .nan else .inf (n1 != n2))
    else if m1 = 0 then .code (if n1 != n2 then f.signBit else 0)
    else
      let k := m2.log2 + 64
      f.roundNum r (n1 != n2) (m1 * 2 ^ k / m2) (e1 - e2 - k) (m1 * 2 ^ k % m2 != 0)

/-- Square root, correctly rounded (R129, Table 7.6). -/
def FFmt.sqrt (f : FFmt) (r : Rnd) (a : FV) : FRes :=
  match a with
  | .nan => .nan
  | .inf n => if n then .nan else .inf false
  | .num n m e =>
    if m = 0 then .code (if n then f.signBit else 0)
    else if n then .nan
    else
      let odd := e % 2 != 0
      let m1 := (if odd then 2 * m else m) * 2 ^ 128
      let e1 := ((if odd then e - 1 else e) - 128) / 2
      let x := isqrt 96 m1 0
      f.roundNum r false x e1 (x * x != m1)

/-- Reciprocal square root, correctly rounded (R129, Table 7.6). -/
def FFmt.rsqrt (f : FFmt) (r : Rnd) (a : FV) : FRes :=
  match a with
  | .nan => .nan
  | .inf n => if n then .nan else .code 0
  | .num n m e =>
    if m = 0 then .inf n
    else if n then .nan
    else
      let odd := e % 2 != 0
      let m1 := if odd then 2 * m else m
      let e1 := (if odd then e - 1 else e) / 2
      let x := isqrt 128 (2 ^ 240 / m1) 0
      f.roundNum r false x (-120 - e1) (x * x * m1 != 2 ^ 240)

/-- ln 2 × 2^320, rounded down. -/
def ln2Fixed : Nat := 0xb17217f7d1cf79abc9e3b39803f2f6af40f343267298b62d8a0d175b8baafa2be7b876206debac98

/-- The terms of exp x = Σ x^n / n! at 320 fraction bits, from the term number `k` on. -/
def expTerms : Nat → Nat → Nat → Nat → Nat
  | 0, _, _, acc => acc
  | fuel + 1, x, term, acc =>
    let k := 100 - fuel
    let t := term * x / 2 ^ 320 / k
    if t = 0 then acc else expTerms fuel x t (acc + t)

/-- 2^a (R129). For a non-integer a the result is irrational, so it is never exact; it is taken from 320 fraction bits
(PRESUMED, log 17: no input lies nearer than 2^−300 to a rounding boundary). -/
def FFmt.exp2 (f : FFmt) (r : Rnd) (a : FV) : FRes :=
  match a with
  | .nan => .nan
  | .inf n => if n then .code 0 else .inf false
  | .num n m e =>
    if m = 0 then .code f.one
    else if 0 ≤ e ∧ 400 ≤ m * 2 ^ (min e 16).toNat ∨ (e < 0 ∧ 400 ≤ m / 2 ^ (-e).toNat) then
      (if n then f.roundNum r false 1 (-500) true else f.roundNum r false 1 500 false)
    else if 0 ≤ e then
      let k : Int := ((m * 2 ^ e.toNat : Nat) : Int)
      f.roundNum r false 1 (if n then -k else k) false
    else
      let d := 2 ^ (-e).toNat
      let q : Int := ((m / d : Nat) : Int)
      let rem := m % d
      if rem = 0 then f.roundNum r false 1 (if n then -q else q) false
      else
        let ip : Int := if n then -q - 1 else q
        let fr := if n then d - rem else rem
        let x := ln2Fixed * fr / d
        f.roundNum r false (expTerms 100 x (2 ^ 320) (2 ^ 320) / 2 ^ 220) (ip - 100) true

/-- Bits of log2 x for x in [1, 2) at 400 fraction bits, most significant first. -/
def log2Bits : Nat → Nat → Nat → Nat
  | 0, _, acc => acc
  | fuel + 1, x, acc =>
    let y := x * x / 2 ^ 400
    if 2 ^ 401 ≤ y then log2Bits fuel (y / 2) (2 * acc + 1) else log2Bits fuel y (2 * acc)

/-- log2 a (R129); irrational unless a is a power of two, and taken from 160 fraction bits (PRESUMED, log 17). -/
def FFmt.log2 (f : FFmt) (r : Rnd) (a : FV) : FRes :=
  match a with
  | .nan => .nan
  | .inf n => if n then .nan else .inf false
  | .num n m e =>
    if m = 0 then .inf true
    else if n then .nan
    else
      let l := m.log2
      let ip : Int := (l : Int) + e
      if m = 2 ^ l then (if ip = 0 then .code 0 else f.roundNum r (ip < 0) ip.natAbs 0 false)
      else
        let fr := log2Bits 160 (m * 2 ^ (400 - l)) 0
        if 0 ≤ ip then f.roundNum r false (ip.toNat * 2 ^ 160 + fr) (-160) true
        else f.roundNum r true (ip.natAbs * 2 ^ 160 - fr - 1) (-160) true

/-- Order of two numbers or infinities: −1, 0 or 1, and none for a NaN; −0 equals +0 (R131). -/
def FV.cmp (a b : FV) : Option Int :=
  match a, b with
  | .nan, _ => none
  | _, .nan => none
  | .inf x, .inf y => some (if x == y then 0 else if x then -1 else 1)
  | .inf x, _ => some (if x then -1 else 1)
  | _, .inf y => some (if y then 1 else -1)
  | .num n1 m1 e1, .num n2 m2 e2 =>
    let e := min e1 e2
    let x := signedAt n1 (m1) (if m1 = 0 then e else e1) e
    let y := signedAt n2 (m2) (if m2 = 0 then e else e2) e
    some (if x < y then -1 else if x = y then 0 else 1)

/-- minimumNumber and maximumNumber (Table 7.6). -/
def FV.minMax (isMax : Bool) (a b : FV) : FV :=
  match a, b with
  | .nan, y => y
  | x, .nan => x
  | x, y =>
    match FV.cmp x y with
    | some c =>
      if c = 0 then
        (match x, y with
         | .num n1 m e, .num n2 _ _ => if m = 0 then .num (if isMax then n1 && n2 else n1 || n2) 0 0 else .num n1 m e
         | _, _ => x)
      else if (c < 0) != isMax then x else y
    | none => .nan

/-- Rounded to an integral value (VFRND, R129). -/
def FV.integral (r : Rnd) : FV → FV
  | .num n m e => if 0 ≤ e then .num n m e else .num n (roundMul r n m e false 0) 0
  | x => x

/-- An integer as a value. -/
def FV.ofInt (x : Int) : FV := .num (x < 0) x.natAbs 0

/-- A value rounded to an integer and clamped to [lo, hi] (Table 7.8). -/
def FV.toInt (r : Rnd) (lo hi : Int) : FV → Int
  | .nan => 0
  | .inf n => if n then lo else hi
  | .num n m e =>
    if 200 ≤ e + m.log2 then (if m = 0 then 0 else if n then lo else hi)
    else
      let k : Int := ((roundMul r n m e false 0 : Nat) : Int)
      let x := if n then -k else k
      if x < lo then lo else if hi < x then hi else x

/-- to_e8m0 of R134. -/
def toE8M0 (r : Rnd) (sat : Bool) : FV → Nat
  | .nan => 0xFF
  | .inf _ => if sat then 0xFE else 0xFF
  | .num _ m e =>
    if m = 0 then 0
    else
      let fl : Int := (m.log2 : Int) + e
      let exact := m == 2 ^ m.log2
      if fl < -127 then 0
      else if fl < 127 then (fl + 127).toNat + (if r == .rup && !exact then 1 else 0)
      else if r == .rdn then 0xFE
      else if fl == 127 && exact then 0xFE else if sat then 0xFE else 0xFF

/-- The class bit of VFCLASS (R132). -/
def FFmt.class (f : FFmt) (bits : Nat) : Nat :=
  let b := bits % 2 ^ f.width
  let neg := f.signBit ≤ b
  let m := b % 2 ^ f.mant
  match f.decode b with
  | .inf n => if n then 0 else 7
  | .nan => if 2 ^ (f.mant - 1) ≤ m then 9 else 8
  | .num _ k _ =>
    if k = 0 then (if neg then 3 else 4)
    else if k < 2 ^ f.mant then (if neg then 2 else 5)
    else if neg then 1 else 6

/-- rne32(x + y) with the canonical NaN: fadd of R260. -/
def fadd32 (x y : Nat) : Nat :=
  fmtF32.finish .rne .none (fmtF32.round .rne (FV.add .rne (fmtF32.decode x) (fmtF32.decode y)))

/-- rne32(x − y) with the canonical NaN: fsub of R260. -/
def fsub32 (x y : Nat) : Nat :=
  fmtF32.finish .rne .none (fmtF32.round .rne (FV.add .rne (fmtF32.decode x) (fmtF32.decode y).neg))

end Sys2Proof.Machine
end

