-- ==== Sys2Proof/Config.lean ====
section
/-! DEFINITION. What an implementation fixes, and what the manual leaves open and the model neither fixes nor picks: free values with
no body. -/

namespace Sys2Proof.Config

/-- DESIGN CHOICE (log 2): how many nanoseconds the timestamp advances over the model's step number `n`.
The manual gives no duration of a step; TIME never falls (R91). -/
opaque tick : Nat → Nat

/-- DESIGN CHOICE (log 6): TIME as a reset leaves it that a write of FLCTL orders at the model's step number `n`. -/
opaque resetTime : Nat → Nat

/-- DESIGN CHOICE (log 3): which of the moves that are open the package makes at the model's step number `n`. The manual gives
its engines no common order (R305). -/
opaque pickMove : Nat → Nat

/-- DESIGN CHOICE (log 12): the device's choice of R36, at the model's step number `n`, for a store at the virtual address `va`
by a view of one tree to a page that a concurrent tree also holds, and for a store to committed memory of a page that only a nested
tree of a root tree holds (Case 16.2): true, the store faults VIEW_INTRUSION; false, it is performed. -/
opaque intrusionFaults (n va : Nat) : Bool

/-- DESIGN CHOICE (log 13): the device's choice `n` of R147 for a live source lane of the other arm: how many
values back in that register's history since the SPLIT the exchange reads. -/
opaque crossArmBack : Nat → Nat

/-- DESIGN CHOICE (log 14): the device's choice of R141, number `n`, for a byte at the package address `a` that has been stored to
during the grid of a `.ro` load: which of the values that R141 lists, counted back from the value now, the load returns. -/
opaque roPick (n a : Nat) : Nat

/-- DESIGN CHOICE (log 93): the choice number `n` of R150, whether a scheduler issues two groups of one team in one issue slot where it
may. -/
opaque pairsGroups (n : Nat) : Bool

/-- DESIGN CHOICE (log 3): how many free choices of a move stand before a round in which every open move takes place once. -/
opaque stretch : Nat → Nat

/-- DESIGN CHOICE (log 3): the place in its transfer of a sector that a copy may move out of order; the order of the sectors is not defined
(R305). -/
opaque sectorTurn (n id : Nat) : Nat

/-- DESIGN CHOICE (log 50): the device's choice number `n` for a write that an instruction issues: true, it is performed later. The
manual orders two events only by the relations of R40 to R46. -/
opaque storeWaits : Nat → Bool

/-- Free value `n`: an access goes ahead of an earlier lane instruction of its arm whose addresses are not known yet, as one that touches none
of its bytes (R73, log 83). -/
opaque lanePasses : Nat → Bool

/-- Free value `n`: the queue engine takes the bytes of write `id`, a store that is no release at device scope, before it is performed (R21,
log 103). -/
opaque hubTakes (n id : Nat) : Bool

/-- DESIGN CHOICE (log 79): which entry of a full TLB, or of a full set of an L1 or of the hub cache, leaves for a new one. The spec
states no replacement policy. -/
opaque victim : Nat → Nat

/-- DESIGN CHOICE (log 31): the device's choice number `n` of R168 for a team that FORK suspends, when a child needs its space: true,
its scratchpad chunks and operand store are saved to its save area; false, they stay in place. -/
opaque savesForked (n t : Nat) : Bool

/-- DESIGN CHOICE (log 49): the device's choice number `n` of whether copy `c` is still cached. Copy 2 l is line l in an L1, and copy
2 l + 1 is line l in an outfield way; neither line is homed on the die. The spec states no replacement policy (R46, R140, R223). -/
opaque cacheKeeps (n c : Nat) : Bool

/-- DESIGN CHOICE (log 48): the device's choice of R55, number `n`, for a write at the package address `a` to the image of a group that
runs: whether the written value is used, or the cached line stands and is later written back over it. -/
opaque imageUsed (n a : Nat) : Bool

/-- DESIGN CHOICE (log 38): the byte that an erased byte of the flash reads as, which R314 does not state. -/
opaque erasedByte : Byte

/-- What the configuration image gives when it verifies (R313). -/
structure ImageInfo where
  retiredCores : List Nat
  retiredDies : List Nat
  peer : Nat
  pcap : BitVec 16
  fibrePeers : List (Nat × Nat)
  deriving DecidableEq, Repr

/-- A configuration image as it lies in the flash: its public key, its identity, the bytes that its signature covers, the signature, whether
every field is within its limits, and what its fields give (R313). -/
structure ImageFile where
  key : List Byte
  identity : List Byte
  signed : List Byte
  signature : List Byte
  fieldsOk : Bool
  info : ImageInfo
  deriving DecidableEq, Repr

/-- DESIGN CHOICE (log 77): the configuration image at the start of the flash, whose bytes are given in the memory's canonical form; none:
there is no image. R313 names the fields of an image and gives no layout. -/
opaque imageIn (flash : List (Nat × Byte)) : Option ImageFile

/-- PRESUMED (log 77): the function SHA-512, a standard outside the manual (R313). -/
opaque sha512 (bytes : List Byte) : BitVec 512

/-- DESIGN CHOICE (log 77): the key hash in ROM, which R313 does not give. -/
opaque romKeyHash : BitVec 512

/-- PRESUMED (log 77): the ECDSA P-521 test of a signature over a hash with a public key, a standard outside the manual (R313). -/
opaque ecdsaP521 (key : List Byte) (hash : BitVec 512) (signature : List Byte) : Bool

/-- DESIGN CHOICE (log 58): the byte at an address of the flash at or above 0x100_0000, where the wear records and the wear overlay lie, of
which R314 gives no layout. Each record is the kind of its unit and the unit (Table 22.5), its count, its times and LASTING. -/
opaque wearByte (records : List (Nat × Nat × Nat × List Nat × Bool)) (a : Nat) : Byte

/-- DESIGN CHOICE (log 39): does an address of the firmware lie in the management regions (Table 22.4)? The manual gives no map. -/
opaque fwRegion : Nat → Bool

end Sys2Proof.Config
end

