-- ==== Sys2Proof/WellFormed.lean ====
section
/-! DEFINITION. The static checks of an instruction: what the decoder accepts, with every register of the
architecture declared (VREGS = 320). Checks against a team's own requests are made by the machine. -/

namespace Sys2Proof

/-- A lane instruction passes orders 1 to 4 of Table 4.13 with VREGS = 320. -/
def laneWf (opc : Nat) (f : LaneFields) : Bool :=
  match laneRow opc with
  | some r => r.legal f && r.regsOk 320 f
  | none => false

/-- An accumulator field is not reserved (R199). -/
def accOk (a : BitVec 3) : Bool := a.toNat < 6

/-- An ms index is not above 7 (R199). -/
def msOk (k : BitVec 8) : Bool := k.toNat < 8

/-- The instruction is one that the decoder can give. Events have no encoding and are well-formed. -/
def Instr.wf (i : Instr) : Bool :=
  match laneOf i with
  | some (opc, f) => laneWf opc f
  | none =>
  match copyOf i with
  | some (op, p) => packetOk op p
  | none =>
  match i with
  | .fstat _ n => n.toNat < 6
  | .sget _ a idx => idx == 19 || a == 0
  | .mbeg a | .mend a | .mzero a => accOk a
  | .mstep a _ _ _ _ => accOk a
  | .mout fmt _ scl a ta aux _ _ _ =>
    accOk a && (fmt == .bf16 || fmt == .f32 || ta == 0) && (if scl then msOk aux else aux == 0)
  | .mamax a aux _ _ => accOk a && msOk aux
  | .mloop fromMs k len cnt => len != 0 && (if fromMs then msOk k && cnt == 0 else k == 0)
  | .mset k _ | .msetBf k _ | .msetLd k _ => msOk k
  | .launch _ p => p.opcode == 0x20
  | _ => true

end Sys2Proof
end

