-- ==== Sys2Proof/Decode.lean ====
section
/-! DEFINITION. The decoder and the encoder of shepherd words, lane words, matrix words, copy packets and launch
packets, both written from the encoding tables (Tables 4.6, 4.7, 4.8, 12.1, 12.2, 11.2, 10.6). -/

namespace Sys2Proof

/-- Why the decoder rejects an encoding. -/
inductive DecErr where
  | illegal   -- ILLEGAL_OPCODE: a reserved code or a nonzero reserved field (R60, R64, R199)
  | reserved  -- RESERVED_REGISTER: a register field outside its class (R60, R62)
  | packet    -- COPY_PACKET: Table 11.1, order 1
  deriving DecidableEq, Repr

/-- Major opcode of a shepherd word (R58). -/
def shepMaj (w : Half) : Nat := (w.extractLsb' 25 7).toNat

/-- The majors whose word is followed by a literal (Table 4.7). -/
def isLiteral (w : Half) : Bool := shepMaj w == 0x48 || shepMaj w == 0x62 || shepMaj w == 0x66

/-- A check of a reserved field in front of a decoded instruction. -/
def decIf (c : Bool) (i : Instr) : Except DecErr Instr := if c then .ok i else .error .illegal

/-- A predicate field of six bits: codes above 15 are reserved (R60). A word that also has a nonzero reserved field faults ILLEGAL_OPCODE:
DESIGN CHOICE (log 84). -/
def decPred (c : Bool) (f : BitVec 6) (i : PReg → Instr) : Except DecErr Instr :=
  if !c then .error .illegal
  else if f.extractLsb' 4 2 == 0 then .ok (i (f.extractLsb' 0 4)) else .error .reserved

/-- MAJ 0x00: the ALU by fn (R59). -/
def decodeAlu (fn : Nat) (d a b : SReg) : Except DecErr Instr :=
  match fn with
  | 0 => .ok (.add d a b)
  | 1 => .ok (.sub d a b)
  | 2 => .ok (.and d a b)
  | 3 => .ok (.or d a b)
  | 4 => .ok (.xor d a b)
  | 5 => .ok (.shl d a b)
  | 6 => .ok (.shr d a b)
  | 7 => .ok (.sra d a b)
  | 8 => .ok (.mul d a b)
  | 9 => .ok (.mulh d a b)
  | 10 => .ok (.mulhn d a b)
  | 11 => .ok (.div d a b)
  | 12 => .ok (.divn d a b)
  | 13 => .ok (.rem d a b)
  | 14 => .ok (.remn d a b)
  | 15 => .ok (.min d a b)
  | 16 => .ok (.minn d a b)
  | 17 => .ok (.max d a b)
  | 18 => .ok (.maxn d a b)
  | 19 => .ok (.seq d a b)
  | 20 => .ok (.sne d a b)
  | 21 => .ok (.slt d a b)
  | 22 => .ok (.sltn d a b)
  | 23 => decIf (b == 0) (.clz d a)
  | 24 => decIf (b == 0) (.popc d a)
  | 25 => .ok (.rotl d a b)
  | 26 => .ok (.bfx d a b)
  | 27 => .ok (.bfi d a b)
  | 28 => .ok (.sel d a b)
  | _ => .error .illegal

/-- MAJ 0x18: AMOS by fn[6:1] (Table 5.3). -/
def decodeAmos (op : Nat) (dbl : Bool) (d a b : SReg) : Except DecErr Instr :=
  match op with
  | 0 => .ok (.amosSwap d a b dbl)
  | 1 => .ok (.amosAdd d a b dbl)
  | 2 => .ok (.amosAnd d a b dbl)
  | 3 => .ok (.amosOr d a b dbl)
  | 4 => .ok (.amosXor d a b dbl)
  | 5 => .ok (.amosMin d a b dbl)
  | 6 => .ok (.amosMax d a b dbl)
  | 7 => .ok (.amosMinn d a b dbl)
  | 8 => .ok (.amosMaxn d a b dbl)
  | 9 => .ok (.amosCas d a b dbl)
  | _ => .error .illegal

/-- A shepherd word and the word after it (Tables 4.6, 4.7; R60). -/
def decodeShep (w lit : Half) : Except DecErr Instr :=
  let d : SReg := w.extractLsb' 19 6
  let a : SReg := w.extractLsb' 13 6
  let b : SReg := w.extractLsb' 7 6
  let fn : BitVec 7 := w.extractLsb' 0 7
  let imm : BitVec 13 := w.extractLsb' 0 13
  let off25 : BitVec 25 := w.extractLsb' 0 25
  match shepMaj w with
  | 0x00 => decodeAlu fn.toNat d a b
  | 1 => .ok (.addi d a imm)
  | 2 => .ok (.andi d a imm)
  | 3 => .ok (.ori d a imm)
  | 4 => .ok (.xori d a imm)
  | 5 => decIf (imm.extractLsb' 6 7 == 0) (.shli d a (imm.extractLsb' 0 6))
  | 6 => decIf (imm.extractLsb' 6 7 == 0) (.shri d a (imm.extractLsb' 0 6))
  | 7 => decIf (imm.extractLsb' 6 7 == 0) (.srai d a (imm.extractLsb' 0 6))
  | 0x08 => .ok (.slti d a imm)
  | 0x09 => decIf (a == 0) (.li d imm)
  | 0x0A => .ok (.lis d a imm)
  | 16 => .ok (.ldb d a imm)
  | 17 => .ok (.ldh d a imm)
  | 18 => .ok (.ldw d a imm)
  | 19 => .ok (.ldd d a imm)
  | 20 => .ok (.stb d a imm)
  | 21 => .ok (.sth d a imm)
  | 22 => .ok (.stw d a imm)
  | 23 => .ok (.std d a imm)
  | 0x18 => decodeAmos (fn.extractLsb' 1 6).toNat (fn.getLsbD 0) d a b
  | 32 => .ok (.beq d a imm)
  | 33 => .ok (.bne d a imm)
  | 34 => .ok (.blt d a imm)
  | 35 => .ok (.bge d a imm)
  | 36 => .ok (.bltn d a imm)
  | 37 => .ok (.bgen d a imm)
  | 0x26 => decPred (a == 0) d (fun k => .bpany k imm)
  | 0x27 => decPred (a == 0) d (fun k => .bpall k imm)
  | 0x28 => .ok (.br off25)
  | 0x29 => .ok (.call off25)
  | 0x2A => decIf (b == 0 && fn == 0) (.jr d a)
  | 0x2B => decIf (a == 0) (.loop d imm)
  | 0x2C => .ok (.loopi (w.extractLsb' 13 12) imm)
  | 0x2D => decIf (off25 == 0) .lbrk
  | 0x30 => decIf (d == 0 && a == 0 && imm.extractLsb' 6 7 == 0) (.lq (imm.extractLsb' 0 6))
  | 0x31 => decIf (w.extractLsb' 8 11 == 0) (.lrep d (w.extractLsb' 0 8))
  | 0x32 => .ok (.lj off25)
  | 0x33 => decPred (a == 0) d (fun k => .split k imm)
  | 0x34 => decIf (off25 == 0) .join
  | 0x35 => decPred (d == 0 && b == 0 && fn == 0) a (fun k => .lexit k)
  | 0x38 =>
    if b != 0 || fn.getLsbD 6 then .error .illegal
    else match (fn.extractLsb' 0 2).toNat with
      | 0 => .ok (.barArrive d a (fn.extractLsb' 2 4))
      | 1 => .ok (.barWait d a (fn.extractLsb' 2 4))
      | 2 => .ok (.barSync d a (fn.extractLsb' 2 4))
      | _ => .error .illegal
  | 0x39 =>
    match Scope.ofCode (fn.extractLsb' 0 3).toNat with
    | some sc => decIf (d == 0 && a == 0 && b == 0 && fn.extractLsb' 3 4 == 0) (.fence sc)
    | none => .error .illegal
  | 0x3A =>
    let sz := Size.ofCode (imm.extractLsb' 3 2).toNat
    if imm.extractLsb' 5 8 != 0 then .error .illegal
    else if imm.extractLsb' 0 3 == 6 then .ok (.relHalo d a sz)
    else match Scope.ofCode (imm.extractLsb' 0 3).toNat with
      | some sc => .ok (.rel d a sc sz)
      | none => .error .illegal
  | 0x3B =>
    if imm.extractLsb' 5 8 != 0 then .error .illegal
    else match Scope.ofCode (imm.extractLsb' 0 3).toNat with
      | some sc => .ok (.acq d a sc (Size.ofCode (imm.extractLsb' 3 2).toNat))
      | none => .error .illegal
  | 0x3C => decIf (d == 0 && a == 0 && imm.extractLsb' 8 5 == 0) (.twait (imm.extractLsb' 0 8))
  | 0x40 => decIf (fn == 0) (.fork d a b)
  | 0x41 => decIf (a == 0 && b == 0 && fn.toNat < 6) (.fstat d fn)
  | 0x48 => decIf (a.toNat < 2 && imm.extractLsb' 1 12 == 0) (.handle d (a == 1) (imm.getLsbD 0) lit)
  | 0x49 => decIf (d == 0 && b == 0 && fn == 0) (.unhandle a)
  | 0x4A => decIf (fn == 0) (.perform d a b)
  | 0x4B => decIf (fn.extractLsb' 4 3 == 0) (.performl d a b (fn.extractLsb' 0 4))
  | 0x4C => decIf (d == 0 && fn == 0) (.resume a b)
  | 0x4D => decIf (fn == 0) (.resumek d a b)
  | 0x4E => decIf (d == 0 && b == 0 && fn == 0) (.drop a)
  | 0x50 => decIf (d == 0 && b == 0 && fn == 0) (.tcp a)
  | 0x51 => decIf (d == 0 && b == 0 && fn == 0) (.tcpr a)
  | 0x60 => decIf (imm.extractLsb' 6 7 == 0 && (imm.extractLsb' 0 6 == 19 || a == 0)) (.sget d a (imm.extractLsb' 0 6))
  | 0x61 => decIf (d == 0 && imm.extractLsb' 6 7 == 0) (.sset a (imm.extractLsb' 0 6))
  | 0x62 => decIf (off25 == 0) (.sigchk lit)
  | 0x63 => decIf (d == 0) (.trap a imm)
  | 0x64 => decIf (off25 == 0) .yield
  | 0x65 => decIf (off25 == 0) .tend
  | 0x66 =>
    if imm != 0 then .error .illegal
    else match a.toNat with
      | 0 => .ok (.li32 d lit)
      | 1 => .ok (.li32N d lit)
      | 2 => .ok (.li32Hi d lit)
      | _ => .error .illegal
  | _ => .error .illegal

/-- OPC of a lane word (Table 4.8). -/
def laneOpc (w : BitVec 96) : Nat := (w.extractLsb' 0 10).toNat

/-- The fields of a lane word; none when TYPE, RND or SAT is reserved (R63). -/
def laneFields (w : BitVec 96) : Option LaneFields :=
  match LType.ofCode (w.extractLsb' 54 5).toNat, Rnd.ofCode (w.extractLsb' 59 3).toNat, Sat.ofCode (w.extractLsb' 62 2).toNat with
  | some ty, some rnd, some sat => some
    { dst := w.extractLsb' 15 9, sa := w.extractLsb' 24 9, sb := w.extractLsb' 33 9, sc := w.extractLsb' 42 9,
      feb := w.extractLsb' 51 3, pneg := w.getLsbD 14, pred := w.extractLsb' 10 4, ty, rnd, sat,
      ext := w.extractLsb' 64 32 }
  | _, _, _ => none

/-- A lane word under a kernel's VREGS: the checks of Table 4.13 in their order. -/
def decodeLane (vregs : Nat) (w : BitVec 96) : Except DecErr Instr :=
  if laneOpc w == 0x3FF then decIf (w.extractLsb' 10 86 == 0) .vnop
  else match laneRow (laneOpc w), laneFields w with
    | some r, some f =>
      if !r.legal f then .error .illegal
      else if r.regsOk vregs f then .ok (r.make f) else .error .reserved
    | _, _ => .error .illegal

/-- A matrix word (Tables 12.1, 12.2; R199). -/
def decodeMat (w : BitVec 64) : Except DecErr Instr :=
  let imm : BitVec 16 := w.extractLsb' 48 16
  let boff : BitVec 16 := w.extractLsb' 32 16
  let fl : BitVec 5 := w.extractLsb' 27 5
  let acc : BitVec 3 := w.extractLsb' 24 3
  let aux : BitVec 8 := w.extractLsb' 16 8
  let ta : BitVec 8 := w.extractLsb' 8 8
  let go := fun (c : Bool) (i : Instr) => decIf (w.extractLsb' 6 2 == 0 && c && i.wf) i
  let rest := fun (useTa useAux useAcc useFl useBoff useImm : Bool) =>
    (useTa || ta == 0) && (useAux || aux == 0) && (useAcc || acc == 0) && (useFl || fl == 0) &&
    (useBoff || boff == 0) && (useImm || imm == 0)
  match (w.extractLsb' 0 6).toNat with
  | 0x00 => go (rest false false false false false false) .mnop
  | 0x01 => go (rest false false true false false false) (.mbeg acc)
  | 0x02 => go (rest true true true false true true) (.mstep acc ta aux boff imm)
  | 0x03 => go (rest false false true false false false) (.mend acc)
  | 0x04 => go (rest false false true false false false) (.mzero acc)
  | 0x05 =>
    let fmt : MFmt := match (fl.extractLsb' 0 2).toNat with | 0 => .bf16 | 1 => .e4m3 | 2 => .e5m2 | _ => .f32
    go (rest true true true true true true && !fl.getLsbD 4 && imm.extractLsb' 14 2 == 0)
      (.mout fmt (fl.getLsbD 2) (fl.getLsbD 3) acc ta aux boff (imm.extractLsb' 0 7) (imm.extractLsb' 7 7))
  | 0x06 => go (rest false true true false false true && imm.extractLsb' 14 2 == 0)
      (.mamax acc aux (imm.extractLsb' 0 7) (imm.extractLsb' 7 7))
  | 0x07 => go (rest true true true false true true && acc.toNat < 2) (.mbind (acc == 1) ta aux boff imm)
  | 0x08 => go (rest false false false false false true && imm.extractLsb' 4 12 == 0) (.mmark (imm.extractLsb' 0 4))
  | 0x09 => go (rest false false false false false true && imm.extractLsb' 4 12 == 0) (.mwait (imm.extractLsb' 0 4))
  | 0x0A => go (rest false true false true true true && fl.extractLsb' 1 4 == 0) (.mloop (fl.getLsbD 0) aux boff imm)
  | 0x0B => go (rest false false false false false false) .mnext
  | 0x0C => go (rest false false false false false true) (.mjmp imm)
  | 0x0D =>
    match fl.toNat with
    | 0 => go (rest false true false true false true) (.mset aux imm)
    | 1 => go (rest false true false true false true) (.msetBf aux imm)
    | 2 => go (rest false true false true true false) (.msetLd aux boff)
    | _ => .error .illegal
  | 0x0E => go (rest false false false false false false) .mstop
  | 0x0F => go (rest true false false false false false) (.mtrel ta)
  | _ => .error .illegal

/-- A copy packet (Tables 11.2, 11.3; order 1 of Table 11.1). Byte 0 is bits [7:0]. -/
def decodePacket (w : BitVec 512) : Except DecErr Instr :=
  let p : CopyPacket :=
    { tokenEn := w.getLsbD 8, token := w.extractLsb' 9 3, mcast := w.getLsbD 12, ro := w.getLsbD 13, tileEn := w.getLsbD 14,
      tile := w.extractLsb' 16 16, length := w.extractLsb' 32 32, src := w.extractLsb' 64 64, dst := w.extractLsb' 128 64,
      spitch := w.extractLsb' 192 32, dpitch := w.extractLsb' 256 32, scale := w.extractLsb' 320 64,
      stype := w.extractLsb' 384 8, dtype := w.extractLsb' 392 8, gsize := w.extractLsb' 400 2, skind := w.getLsbD 402,
      rows := w.extractLsb' 416 16, cols := w.extractLsb' 432 16, signal := w.extractLsb' 448 64 }
  match CopyOp.ofCode (w.extractLsb' 0 8).toNat with
  | some op =>
    if !w.getLsbD 15 && w.extractLsb' 224 32 == 0 && w.extractLsb' 288 32 == 0 && w.extractLsb' 403 5 == 0 &&
       w.extractLsb' 408 8 == 0 && packetOk op p then .ok (op.mk p) else .error .packet
  | none => .error .packet

/-- A launch packet, whatever its fields hold: R160 checks them (Table 10.6). -/
def decodeLaunch (w : BitVec 512) : LaunchPacket :=
  { opcode := w.extractLsb' 0 8, flags := w.extractLsb' 8 8, groups := w.extractLsb' 16 8, teamsPerFlock := w.extractLsb' 24 8,
    count := w.extractLsb' 32 32, entry := w.extractLsb' 64 64, lane := w.extractLsb' 128 64, mat := w.extractLsb' 192 64,
    args := w.extractLsb' 256 64, quota := w.extractLsb' 320 32, res := w.extractLsb' 352 32,
    sigAddr := w.extractLsb' 384 64, sigVal := w.extractLsb' 448 64 }

/-- Bytes as one number, the first byte least significant (R3). -/
def leNat : List Byte → Nat
  | [] => 0
  | b :: bs => b.toNat + 256 * leNat bs

/-- The low `n` bytes of a number, least significant first (R3). -/
def leBytes : Nat → Nat → List Byte
  | 0, _ => []
  | n + 1, x => BitVec.ofNat 8 x :: leBytes n (x / 256)

/-- Which decoder reads a run of bytes. -/
inductive Stream where
  | shep | lane | mat | copy | launch
  deriving DecidableEq, Repr

/-- The next instruction of a run of bytes, and the bytes after it. Bytes that are missing read as zero. -/
def decodeBytes (k : Stream) (bs : List Byte) : Except DecErr (Instr × List Byte) :=
  let n := fun (len : Nat) => leNat (bs.take len)
  match k with
  | .shep =>
    let w : Half := BitVec.ofNat 32 (n 4)
    let lit : Half := BitVec.ofNat 32 (leNat ((bs.drop 4).take 4))
    (decodeShep w lit).map (fun i => (i, bs.drop (if isLiteral w then 8 else 4)))
  | .lane => (decodeLane 320 (BitVec.ofNat 96 (n 12))).map (fun i => (i, bs.drop 12))
  | .mat => (decodeMat (BitVec.ofNat 64 (n 8))).map (fun i => (i, bs.drop 8))
  | .copy => (decodePacket (BitVec.ofNat 512 (n 64))).map (fun i => (i, bs.drop 64))
  | .launch => .ok (.launch 0 (decodeLaunch (BitVec.ofNat 512 (n 64))), bs.drop 64)

/-- Which stream an opcode-table word of `nbits` bits belongs to: 96-bit words are lane words, 64-bit words are matrix
words unless they begin with a major that takes a literal, 64-byte words are packets, and every other word is a
shepherd word. -/
def streamOf (nbits w : Nat) : Stream :=
  if nbits == 96 then .lane
  else if nbits == 64 then (if isLiteral (BitVec.ofNat 32 w) then .shep else .mat)
  else if nbits == 512 then (if w % 256 == 0x20 then .launch else .copy)
  else .shep

/-- The bytes of an opcode-table word as the hardware stores them: little-endian, the first word lowest (R3), padded
with zero bytes to the longest instruction. -/
def tableBytes (nbits w : Nat) : List Byte := leBytes 64 (w % 2 ^ nbits)

/-- The instruction the decoder reads from an opcode-table word. -/
def decodeTableWord (nbits w : Nat) : Option Instr :=
  match decodeBytes (streamOf nbits w) (tableBytes nbits w) with
  | .ok (i, _) => some i
  | .error _ => none


/-- SR format (Table 4.6). -/
def encSR (maj : BitVec 7) (d a b : BitVec 6) (fn : BitVec 7) : Half := maj ++ d ++ a ++ b ++ fn
/-- SI format, and SB with its two register fields in front (Table 4.6). -/
def encSI (maj : BitVec 7) (d a : BitVec 6) (imm : BitVec 13) : Half := maj ++ d ++ a ++ imm
/-- SJ format (Table 4.6). -/
def encSJ (maj : BitVec 7) (off : BitVec 25) : Half := maj ++ off
/-- A predicate number in a six-bit register field (R76, R83, R85). -/
def encP (p : PReg) : BitVec 6 := (0 : BitVec 2) ++ p
/-- REL and ACQ immediates (R89). -/
def encScope (sc : Nat) (sz : Size) : BitVec 13 := (0 : BitVec 8) ++ BitVec.ofNat 2 sz.code ++ BitVec.ofNat 3 sc
/-- BAR's fn field (R87). -/
def encBar (n : BitVec 4) (k : BitVec 2) : BitVec 7 := (0 : BitVec 1) ++ n ++ k

/-- The shepherd words of an instruction, the literal last; empty for any other instruction. -/
def encodeShep : Instr → List Half
  | .add d a b => [encSR 0 d a b 0]
  | .sub d a b => [encSR 0 d a b 1]
  | .and d a b => [encSR 0 d a b 2]
  | .or d a b => [encSR 0 d a b 3]
  | .xor d a b => [encSR 0 d a b 4]
  | .shl d a b => [encSR 0 d a b 5]
  | .shr d a b => [encSR 0 d a b 6]
  | .sra d a b => [encSR 0 d a b 7]
  | .mul d a b => [encSR 0 d a b 8]
  | .mulh d a b => [encSR 0 d a b 9]
  | .mulhn d a b => [encSR 0 d a b 10]
  | .div d a b => [encSR 0 d a b 11]
  | .divn d a b => [encSR 0 d a b 12]
  | .rem d a b => [encSR 0 d a b 13]
  | .remn d a b => [encSR 0 d a b 14]
  | .min d a b => [encSR 0 d a b 15]
  | .minn d a b => [encSR 0 d a b 16]
  | .max d a b => [encSR 0 d a b 17]
  | .maxn d a b => [encSR 0 d a b 18]
  | .seq d a b => [encSR 0 d a b 19]
  | .sne d a b => [encSR 0 d a b 20]
  | .slt d a b => [encSR 0 d a b 21]
  | .sltn d a b => [encSR 0 d a b 22]
  | .clz d a => [encSR 0 d a 0 23]
  | .popc d a => [encSR 0 d a 0 24]
  | .rotl d a b => [encSR 0 d a b 25]
  | .bfx d a b => [encSR 0 d a b 26]
  | .bfi d a b => [encSR 0 d a b 27]
  | .sel d a b => [encSR 0 d a b 28]
  | .addi d a imm => [encSI 1 d a imm]
  | .andi d a imm => [encSI 2 d a imm]
  | .ori d a imm => [encSI 3 d a imm]
  | .xori d a imm => [encSI 4 d a imm]
  | .shli d a n => [encSI 5 d a ((0 : BitVec 7) ++ n)]
  | .shri d a n => [encSI 6 d a ((0 : BitVec 7) ++ n)]
  | .srai d a n => [encSI 7 d a ((0 : BitVec 7) ++ n)]
  | .slti d a imm => [encSI 8 d a imm]
  | .li d imm => [encSI 9 d 0 imm]
  | .lis d a imm => [encSI 10 d a imm]
  | .li32 d lit => [encSI 0x66 d 0 0, lit]
  | .li32N d lit => [encSI 0x66 d 1 0, lit]
  | .li32Hi d lit => [encSI 0x66 d 2 0, lit]
  | .ldb d a imm => [encSI 16 d a imm]
  | .ldh d a imm => [encSI 17 d a imm]
  | .ldw d a imm => [encSI 18 d a imm]
  | .ldd d a imm => [encSI 19 d a imm]
  | .stb d a imm => [encSI 20 d a imm]
  | .sth d a imm => [encSI 21 d a imm]
  | .stw d a imm => [encSI 22 d a imm]
  | .std d a imm => [encSI 23 d a imm]
  | .amosSwap d a b dbl => [encSR 0x18 d a b ((0 : BitVec 6) ++ BitVec.ofBool dbl)]
  | .amosAdd d a b dbl => [encSR 0x18 d a b ((1 : BitVec 6) ++ BitVec.ofBool dbl)]
  | .amosAnd d a b dbl => [encSR 0x18 d a b ((2 : BitVec 6) ++ BitVec.ofBool dbl)]
  | .amosOr d a b dbl => [encSR 0x18 d a b ((3 : BitVec 6) ++ BitVec.ofBool dbl)]
  | .amosXor d a b dbl => [encSR 0x18 d a b ((4 : BitVec 6) ++ BitVec.ofBool dbl)]
  | .amosMin d a b dbl => [encSR 0x18 d a b ((5 : BitVec 6) ++ BitVec.ofBool dbl)]
  | .amosMax d a b dbl => [encSR 0x18 d a b ((6 : BitVec 6) ++ BitVec.ofBool dbl)]
  | .amosMinn d a b dbl => [encSR 0x18 d a b ((7 : BitVec 6) ++ BitVec.ofBool dbl)]
  | .amosMaxn d a b dbl => [encSR 0x18 d a b ((8 : BitVec 6) ++ BitVec.ofBool dbl)]
  | .amosCas d a b dbl => [encSR 0x18 d a b ((9 : BitVec 6) ++ BitVec.ofBool dbl)]
  | .beq a b off => [encSI 32 a b off]
  | .bne a b off => [encSI 33 a b off]
  | .blt a b off => [encSI 34 a b off]
  | .bge a b off => [encSI 35 a b off]
  | .bltn a b off => [encSI 36 a b off]
  | .bgen a b off => [encSI 37 a b off]
  | .bpany k off => [encSI 0x26 (encP k) 0 off]
  | .bpall k off => [encSI 0x27 (encP k) 0 off]
  | .br off => [encSJ 0x28 off]
  | .call off => [encSJ 0x29 off]
  | .jr d a => [encSR 0x2A d a 0 0]
  | .loop a off => [encSI 0x2B a 0 off]
  | .loopi n off => [(0x2C : BitVec 7) ++ n ++ off]
  | .lbrk => [encSJ 0x2D 0]
  | .lq n => [encSI 0x30 0 0 ((0 : BitVec 7) ++ n)]
  | .lrep cnt steps => [(0x31 : BitVec 7) ++ cnt ++ (0 : BitVec 11) ++ steps]
  | .lj w => [encSJ 0x32 w]
  | .split k off => [encSI 0x33 (encP k) 0 off]
  | .join => [encSJ 0x34 0]
  | .lexit k => [encSR 0x35 0 (encP k) 0 0]
  | .barArrive d a n => [encSR 0x38 d a 0 (encBar n 0)]
  | .barWait d a n => [encSR 0x38 d a 0 (encBar n 1)]
  | .barSync d a n => [encSR 0x38 d a 0 (encBar n 2)]
  | .fence sc => [encSR 0x39 0 0 0 (BitVec.ofNat 7 sc.code)]
  | .rel d a sc sz => [encSI 0x3A d a (encScope sc.code sz)]
  | .relHalo d a sz => [encSI 0x3A d a (encScope 6 sz)]
  | .acq d a sc sz => [encSI 0x3B d a (encScope sc.code sz)]
  | .twait m => [encSI 0x3C 0 0 ((0 : BitVec 5) ++ m)]
  | .fork d a b => [encSR 0x40 d a b 0]
  | .fstat d sel => [encSR 0x41 d 0 0 sel]
  | .handle e k inh lit => [encSI 0x48 e (BitVec.ofNat 6 k.toNat) (BitVec.ofNat 13 inh.toNat), lit]
  | .unhandle a => [encSR 0x49 0 a 0 0]
  | .perform d a b => [encSR 0x4A d a b 0]
  | .performl vd a b k => [encSR 0x4B vd a b ((0 : BitVec 3) ++ k)]
  | .resume a b => [encSR 0x4C 0 a b 0]
  | .resumek d a b => [encSR 0x4D d a b 0]
  | .drop a => [encSR 0x4E 0 a 0 0]
  | .tcp a => [encSR 0x50 0 a 0 0]
  | .tcpr a => [encSR 0x51 0 a 0 0]
  | .sget d a idx => [encSI 0x60 d a ((0 : BitVec 7) ++ idx)]
  | .sset a idx => [encSI 0x61 0 a ((0 : BitVec 7) ++ idx)]
  | .sigchk lit => [encSJ 0x62 0, lit]
  | .trap a code => [encSI 0x63 0 a code]
  | .yield => [encSJ 0x64 0]
  | .tend => [encSJ 0x65 0]
  | _ => []

/-- A lane word (Table 4.8). -/
def encLane (opc : Nat) (f : LaneFields) : BitVec 96 :=
  f.ext ++ BitVec.ofNat 2 f.sat.code ++ BitVec.ofNat 3 f.rnd.code ++ BitVec.ofNat 5 f.ty.code ++ f.feb ++ f.sc ++ f.sb ++ f.sa ++
  f.dst ++ BitVec.ofBool f.pneg ++ f.pred ++ BitVec.ofNat 10 opc

/-- The lane word of an instruction; none for any other instruction. -/
def encodeLane (i : Instr) : Option (BitVec 96) :=
  match laneOf i with
  | some (opc, f) => some (encLane opc f)
  | none => if i = .vnop then some 0x3FF else none

/-- A matrix word (Table 12.1). -/
def encMat (imm boff : BitVec 16) (fl : BitVec 5) (acc : BitVec 3) (aux ta : BitVec 8) (mop : BitVec 6) : BitVec 64 :=
  imm ++ boff ++ fl ++ acc ++ aux ++ ta ++ (0 : BitVec 2) ++ mop

/-- F of MOUT (R206). -/
def MFmt.code : MFmt → Nat
  | .bf16 => 0 | .e4m3 => 1 | .e5m2 => 2 | .f32 => 3

/-- The matrix word of an instruction; none for any other instruction (Table 12.2). -/
def encodeMat : Instr → Option (BitVec 64)
  | .mnop => some (encMat 0 0 0 0 0 0 0)
  | .mbeg acc => some (encMat 0 0 0 acc 0 0 1)
  | .mstep acc ta tb kb ka => some (encMat ka kb 0 acc tb ta 2)
  | .mend acc => some (encMat 0 0 0 acc 0 0 3)
  | .mzero acc => some (encMat 0 0 0 acc 0 0 4)
  | .mout fmt sat scl acc ta aux off rows cols =>
    some (encMat ((0 : BitVec 2) ++ cols ++ rows) off
      ((0 : BitVec 1) ++ BitVec.ofBool scl ++ BitVec.ofBool sat ++ BitVec.ofNat 2 fmt.code) acc aux ta 5)
  | .mamax acc aux rows cols => some (encMat ((0 : BitVec 2) ++ cols ++ rows) 0 0 acc aux 0 6)
  | .mbind lvl sa sx sb sk => some (encMat sk sb 0 (BitVec.ofNat 3 lvl.toNat) sx sa 7)
  | .mmark n => some (encMat ((0 : BitVec 12) ++ n) 0 0 0 0 0 8)
  | .mwait n => some (encMat ((0 : BitVec 12) ++ n) 0 0 0 0 0 9)
  | .mloop fromMs k len cnt => some (encMat cnt len (BitVec.ofNat 5 fromMs.toNat) 0 k 0 10)
  | .mnext => some (encMat 0 0 0 0 0 0 11)
  | .mjmp off => some (encMat off 0 0 0 0 0 12)
  | .mset k v => some (encMat v 0 0 0 k 0 13)
  | .msetBf k v => some (encMat v 0 1 0 k 0 13)
  | .msetLd k off => some (encMat 0 off 2 0 k 0 13)
  | .mstop => some (encMat 0 0 0 0 0 0 14)
  | .mtrel ta => some (encMat 0 0 0 0 0 ta 15)
  | _ => none

/-- A copy packet (Table 11.2). -/
def encPacket (op : CopyOp) (p : CopyPacket) : BitVec 512 :=
  p.signal ++ p.cols ++ p.rows ++ (0 : BitVec 8) ++ (0 : BitVec 5) ++ BitVec.ofBool p.skind ++ p.gsize ++ p.dtype ++ p.stype ++
  p.scale ++ (0 : BitVec 32) ++ p.dpitch ++ (0 : BitVec 32) ++ p.spitch ++ p.dst ++ p.src ++ p.length ++ p.tile ++
  (0 : BitVec 1) ++ BitVec.ofBool p.tileEn ++ BitVec.ofBool p.ro ++ BitVec.ofBool p.mcast ++ p.token ++ BitVec.ofBool p.tokenEn ++
  BitVec.ofNat 8 op.code

/-- A launch packet (Table 10.6). -/
def encLaunch (p : LaunchPacket) : BitVec 512 :=
  p.sigVal ++ p.sigAddr ++ p.res ++ p.quota ++ p.args ++ p.mat ++ p.lane ++ p.entry ++ p.count ++ p.teamsPerFlock ++ p.groups ++
  p.flags ++ p.opcode

/-- The encoding of an instruction: its stream and its bytes in memory order; none for an event, which has no encoding. -/
def encode (i : Instr) : Option (Stream × List Byte) :=
  match encodeLane i, encodeMat i, copyOf i, i with
  | some w, _, _, _ => some (.lane, leBytes 12 w.toNat)
  | _, some w, _, _ => some (.mat, leBytes 8 w.toNat)
  | _, _, some (op, p), _ => some (.copy, leBytes 64 (encPacket op p).toNat)
  | _, _, _, .launch _ p => some (.launch, leBytes 64 (encLaunch p).toNat)
  | _, _, _, j =>
    match encodeShep j with
    | [] => none
    | ws => some (.shep, (ws.map (fun w => leBytes 4 w.toNat)).flatten)

end Sys2Proof
end

