-- ==== Sys2Proof/Machine/State.lean ====
section
/-! DEFINITION. The state of the machine, as plain data: everything the manual gives the package, from a group's
registers to the hub's management registers, and the state after reset. -/

namespace Sys2Proof.Machine

open Sys2Proof

/-- Why the model itself stops. A fault of the device is never one of these: the device TAKES its faults (R172). -/
inductive Fault where
  /-- Raised by a meaning when the selection of the state names no agent that could execute the instruction (no such
  team, group, sequencer or packet). The model's step never selects one. Safe: the machine stops where no hardware is. -/
  | noAgent
  deriving DecidableEq, Repr

/-- Why an instruction is refused. -/
inductive Refusal where
  /-- Raised by an arm of exec whose instruction has no meaning yet. Safe: the machine stops. -/
  | notModelled (mnemonic : String)
  deriving DecidableEq, Repr

/-- Bytes by address, in canonical form: addresses strictly rising, no byte equal to what an unlisted address reads as. -/
abbrev Memory := List Host.Cell

/-- 32-bit elements by index, in the same canonical form with default 0: an accumulator plane (R202). -/
abbrev Plane := List (Nat × Half)

/-- One 128-byte line or granule. -/
abbrev Line := Vector Byte 128

/-! ### A group -/

/-- A hardware loop level (R50). -/
structure Loop where
  count : Half
  len : Half
  endAddr : Word
  deriving DecidableEq, Repr

/-- An entry of a mask stack with its deferred path (R83, Tables 4.4, 4.5). -/
structure MaskEntry where
  lanes : Half
  dspc : Word
  dlpc : Word
  deriving DecidableEq, Repr

/-- A pending repeat: count − 1 and the step codes (R66, R67). -/
structure Repeat where
  cnt : BitVec 6
  steps : BitVec 8
  deriving DecidableEq, Repr

/-- What an arm waits for (R166). Holds at issue are no state: the instruction at SPC is tried again. -/
inductive Wait where
  | none
  | join                 -- at the outer JOIN (R84)
  | bar (n : Nat) (d : SReg)  -- a barrier phase, filling d (R87)
  | fork                 -- arrived at FORK (R246)
  | root                 -- a root effect whose token is not answered (R111)
  | exited               -- the arm has ended (R85)
  deriving DecidableEq, Repr

/-- One arm of a group (R47, Tables 4.4, 4.5). -/
structure Arm where
  regs : Vector Word 64
  full : BitVec 64
  spc : Word
  lpc : Word
  mask : Half
  stack : List MaskEntry      -- top first
  loops : List Loop           -- innermost first
  spare : List Loop           -- what the free levels hold, the lowest first; 0 in the others
  sig : Half
  code : Byte                 -- STATUS.CODE
  rep : Option Repeat
  wait : Wait
  yielded : Option Nat        -- a YIELD in force: cycles of its core until it ends at the latest; 0, it is due to end (R95)
  age : Nat                   -- the scheduler cycle of its last issue: the oldest is smallest (R166)
  lqLeft : Nat                -- words of an LQ begun and not fully enqueued
  lqWords : List (BitVec 96)  -- those words, as the LQ fetched them (R81)
  lqRun : Option Repeat       -- the repeat that it has consumed (R67)
  lqRep : Nat                 -- repetitions of its first word enqueued
  lqOwed : Bool               -- the words are owed by an LQ that a delivery interrupted (R110)
  fenceSig : BitVec 64        -- OR of SIG over home-served loads since the last fence (R229)
  relFence : Bool             -- a FENCE of device or system scope stands before in program order (R43, R228)
  relSys : Bool               -- a FENCE of system scope does (R43, R237)
  fencePo : Nat               -- the place in program order of its last FENCE below device scope; 0, none (R88)
  deriving DecidableEq, Repr

/-- The part of a group that its image holds and a snapshot restores (Tables 4.3 to 4.5). -/
structure Core where
  armA : Arm
  armB : Arm
  split : Bool
  live : Half
  vregs : Vector (Vector Half 32) 320
  vfull : Vector Half 320
  preds : Vector Half 16
  pfull : BitVec 16
  deriving DecidableEq, Repr

/-- An entry of the lane queue: the instruction, its word, the ACTIVE and scope it was enqueued with, and its three
broadcast values (R25, R54, R81, R99). -/
structure QEntry where
  instr : Instr
  word : BitVec 96
  active : Half
  scope : Half
  bcA : Word
  bcB : Word
  bcC : Word
  armB : Bool
  po : Nat                    -- its place in program order among the group's queue entries and accesses (R40)
  both : Bool                 -- enqueued before the SPLIT in force: po-before both arms (R40)
  marks : Bool                -- it has marked its predicate destination empty (R65)
  sdDrop : Bool               -- its arm's bank was discarded at JOIN: a scalar result is discarded too (R84)
  saved : Option (Nat × BitVec 16)  -- its scalar result belongs to the saved copy of a continuation: depth code, GEN (R103)
  deriving DecidableEq, Repr

/-- A lane fault that has frozen the queue and awaits delivery (R110). -/
structure LaneFault where
  code : Nat
  mask : Half
  addr : Word
  armB : Bool
  stopped : Bool              -- the shepherd has completed an instruction since: it stands at the boundary of R110
  after : Bool                -- and loop-end processing at that boundary is due (R69)
  deriving DecidableEq, Repr

/-- A handler frame and its record (Tables 6.2, 6.4). -/
structure Frame where
  id : BitVec 16
  k : Bool
  inh : Bool
  state : Nat
  gen : BitVec 16
  masker : Nat
  slot : Option Nat
  pc : Word
  ldep : Nat
  env : Vector Word 8
  save : Vector Word 12
  saveFe : BitVec 12
  prevBase : Nat
  hdep : Nat
  rkind : Nat
  dest : Nat
  kdest : Nat
  mask : Half
  prep : Option Repeat
  lqrem : Nat
  repj : Nat
  cspc : Word
  clpc : Word
  queue : List QEntry
  join : Half                 -- the join status that an entry of RKIND 4 delivers (R266)
  after : Bool                -- CSPC stands after a completed instruction: loop-end processing is due at RESUME (R69, R110)
  deriving DecidableEq, Repr

/-- One half of a multi-shot slot (Table 6.11). -/
structure Snapshot where
  core : Core
  lbase : Nat
  frames : List Frame         -- the frames above D, top first
  deriving DecidableEq, Repr

/-- A multi-shot slot (Table 6.3). -/
structure Slot where
  used : Bool
  cont : Option Snapshot
  save : Option Snapshot
  deriving DecidableEq, Repr

/-- A group (R27, R47 to R57, R97 to R99). -/
structure Group where
  gid : Nat                   -- global number (R104)
  grpidx : Nat
  core : Core
  queue : List QEntry         -- oldest first
  frozen : Option LaneFault
  tokens : BitVec 8           -- 1: busy (R26)
  frames : List Frame         -- top first
  stale : List Frame          -- what the records above the top hold, the lowest first (R99)
  inherited : List Frame      -- entry 0 first (R112)
  gen : BitVec 16
  lbase : Nat
  slot0 : Slot
  slot1 : Slot
  joinStatus : Half           -- the last FORK's (R252)
  joinCount : Half
  rootDest : Option (Nat × Half × SReg)  -- a pending root token: RKIND, MASK, DEST (R111)
  forkDest : SReg             -- destination of the FORK it waits at
  forkSb : Word               -- its join record address
  forkSig : Half              -- SIG before the words of that FORK: a fault of it leaves that value (R68, R249)
  abandoned : Bool            -- BARRIER_ABANDONED still to be delivered to arm A (R87)
  abandonedB : Bool           -- and to arm B
  peerLost : Bool             -- a peer store was dropped (R288)
  exiting : Bool              -- every lane has exited; awaits GROUP_RETIRE (R86)
  retired : Bool
  killed : Bool
  hist : List (Nat × Vector Half 32)  -- values overwritten since the SPLIT, newest first (R147)
  deriving DecidableEq, Repr

/-! ### A team -/

/-- State of a tile (R191). -/
inductive TileState where
  | empty | filling | ready | draining
  deriving DecidableEq, Repr

/-- A tile-table entry (R191, Table 13.3). `elem` is the TYPE code, 0 for a tile never defined. -/
structure Tile where
  off : Nat
  rows : Nat
  cols : Nat
  elem : Byte
  ops : Bool
  state : TileState
  deriving DecidableEq, Repr

/-- A barrier of a team (R87, Table 13.4). -/
structure Barrier where
  pword : Option Word
  arrived : Half
  parity : Bool
  lastPh : Half
  pend : Half
  pendB : Half                -- which arm of a pending group has executed its BAR: 1, arm B
  pendW : List (Nat × Word)   -- the participant word of that arm's BAR, by group
  seqArrived : Bool
  deriving DecidableEq, Repr

/-- A loop level of the matrix sequencer: count, start, MNEXT address and saved offsets (R201). -/
structure MLevel where
  count : Half
  start : Word
  next : Word
  oa : Byte
  ox : Byte
  ob : BitVec 16
  ok : BitVec 16
  deriving DecidableEq, Repr

/-- Steps of a loop level (MBIND, R209). -/
structure MSteps where
  sa : Byte
  sx : Byte
  sb : BitVec 16
  sk : BitVec 16
  deriving DecidableEq, Repr

/-- An accumulator: planes E and O and the step count of its chain (R202, R204). -/
structure Acc where
  e : Plane
  o : Plane
  steps : Nat
  deriving DecidableEq, Repr

/-- The matrix sequencer of a team (R201, Table 12.4). `run`: 0 running, 1 stopped, 2 no stream. -/
structure Seq where
  mpc : Word
  run : Nat
  opened : BitVec 6
  levels : List MLevel        -- innermost first
  steps0 : MSteps
  steps1 : MSteps
  lastBar : Nat               -- barrier of the last MMARK
  barPending : Bool           -- its phase has not completed
  ms : Vector Word 8
  oa : Byte
  ox : Byte
  ob : BitVec 16
  ok : BitVec 16
  accs : Vector Acc 6
  deriving DecidableEq, Repr

/-- Where a team is (R163, R168, R169): on a core, or the last core it ran on. -/
inductive Place where
  | running (core slot : Nat)
  | forked (core : Nat) (kept : Bool)  -- suspended by FORK; kept: its resources are still its own
  | folded (core : Nat) (kept : Bool)  -- its fold has ended; waits for resumption
  | preempted (core : Nat)
  | ended (core : Nat)        -- retired or killed, resources freed
  deriving DecidableEq, Repr

/-- The latched arguments of a round of arrivals at FORK (R246). -/
structure ForkRound where
  last : Nat                  -- the group that arrived last
  a : Word
  j : Word
  desc : BitVec 512
  deriving DecidableEq, Repr

/-- A team (R27). -/
structure Team where
  id : Nat
  ctx : Nat
  grid : Nat
  set : Nat                   -- the child set (launch or fork) it is a child of
  teamIdx : Nat
  flockIdx : Nat
  flockPos : Option Nat       -- k of a flock launch (R28)
  childIdx : Nat
  childN : Nat
  gridN : Nat
  run : Nat                   -- 0, or the run of a MIRROR child (R264)
  view : Option Nat
  depth : Nat                 -- view depth (R248)
  viewId : Word
  prio : Nat
  entry : Word
  laneBase : Word
  matEntry : Word
  kargs : Word
  vregs : Nat
  spch : Nat
  ntiles : Nat
  nacc : Nat
  groups : List Group
  spad : Memory
  ops : Memory                -- key: slice × 4096 + offset (R189)
  opsUsed : Bool              -- operand store written since placement (Table 10.10)
  tiles : List Tile
  bars : List Barrier
  seq : Seq
  place : Place
  stored : Bool               -- its chunks and operand store lie in its save area while FORK suspends it (R168)
  placedAt : Nat              -- order of placement, for R169
  saveArea : Nat              -- index of its team save area (R156)
  round : Option ForkRound
  deriving DecidableEq, Repr

/-! ### Memory accesses and engines -/

/-- Where a byte is. -/
inductive Loc where
  | dev (pa : Nat)
  | spad (team off : Nat)
  | host (pa : Nat)
  | peer (p pa : Nat)
  deriving DecidableEq, Repr

/-- A checked access of one lane or of a shepherd instruction: its address, location and page-table entry. -/
structure Target where
  va : Nat
  loc : Loc
  pte : BitVec 64
  size : Nat
  deriving DecidableEq, Repr

/-- Destination of a long-latency producer (R25). -/
inductive Dest where
  | none
  | s (r : SReg)
  | v (n : Nat) (ty : LType)
  | wide (n : Nat) (ty : LType) (mask : Half)   -- a block dealt out by lane number (R142)
  | packet                    -- the 64 bytes that a TCP or FORK waits for (R181, R246)
  deriving DecidableEq, Repr

/-- What an atomic does to its location (Tables 5.3, 8.3): the code of its operation, how its values are read, its operand `b` and its
expected value `e`. -/
structure Rmw where
  op : Nat
  sgn : Bool
  rnd : Rnd
  b : Nat
  e : Nat
  acqRel : Bool               -- AMAXRST: an acquire and a release at device scope (R145)
  wide : Bool                 -- a FENCE of device or system scope stands before it (R43)
  sys : Bool                  -- a FENCE of system scope does
  deriving DecidableEq, Repr

/-- One lane's access of an outstanding load or atomic: its value once bound. A remote one is answered by the fabric. -/
structure PItem where
  lane : Nat
  t : Target
  val : Option Nat
  remote : Bool
  upd : Option Rmw := none    -- of an atomic: its read and its write are one event
  deriving DecidableEq, Repr

/-- An outstanding load or atomic (R25, R53, R170). -/
structure Pending where
  id : Nat
  po : Nat                    -- its place in program order (R40)
  team : Nat
  grp : Nat
  armB : Bool
  dest : Dest
  hint : Nat
  items : List PItem
  rmw : Bool                  -- an atomic
  acq : Bool                  -- an acquire: what it does at its read is done when its value is bound (R229)
  scope : Nat                 -- scope code of the acquire
  both : Bool                 -- issued before the SPLIT in force: fills the register of both banks (R47)
  saved : Option (Nat × BitVec 16)  -- its scalar value belongs to the saved copy of a continuation: depth code, GEN (R103)
  after : Nat := 0            -- it follows the arm's writes before this place: that of a FENCE (R88)
  deriving DecidableEq, Repr

/-- A translation that a TLB holds, of the core or die `unit`, or that a copy keeps: its context, the first address of its page
and its leaf (R179, R194). -/
structure TlbEntry where
  unit : Nat
  ctx : Nat
  va : Nat
  pte : BitVec 64
  deriving DecidableEq, Repr

/-- The space of a hurdle range (R192). -/
inductive Space where
  | va (ctx : Nat)
  | spad (team : Nat)
  | ops (team : Nat)
  deriving DecidableEq, Repr

/-- Who registered a hurdle range. -/
inductive Owner where
  | copy (id : Nat)
  | mop (id : Nat)
  deriving DecidableEq, Repr

/-- An entry of a core's hurdle table (R24, R192): bytes lo to hi − 1. -/
structure Hurdle where
  core : Nat
  owner : Owner
  space : Space
  lo : Nat
  hi : Nat
  write : Bool
  deriving DecidableEq, Repr

/-- A range to register in the hurdle table: bytes lo to hi − 1 of a space (R192). -/
structure Rng where
  core : Nat
  space : Space
  lo : Nat
  hi : Nat
  write : Bool
  deriving DecidableEq, Repr

/-- A packet that a TCP or TCPR has read and checked, while it waits for its token, its ranges or its tile (R181). Its ranges are those of
the moment at which it issues: a DRAIN's follow from its tile (R192). -/
structure HeldPacket where
  team : Nat
  grp : Nat
  armB : Bool
  op : CopyOp
  pkt : CopyPacket
  deriving DecidableEq, Repr

/-- A copy packet in flight (R181 to R196). -/
structure CopyRec where
  id : Nat
  op : CopyOp
  pkt : CopyPacket
  team : Nat
  grp : Nat
  armB : Bool
  core : Nat                  -- whose copy engine has it
  addr : Word                 -- of the packet, or of the TCPR
  progress : Nat              -- destination bytes moved as a prefix of transfer order
  ahead : List Nat := []      -- pieces beyond the prefix that have been moved, by their offsets (R195, R305)
  turn : Option Nat := none   -- the piece beyond the prefix that this step moves
  dests : List Nat            -- the teams of an MCAST
  liveAt : Half               -- live lanes of a REGFILL target at issue
  suspended : Bool
  ranges : List Hurdle        -- its hurdle ranges while it is suspended
  trans : List TlbEntry       -- the translations it has used (R194)
  buf : List Byte             -- the second sector of the block that EXPAND has read (R190)
  faulted : Bool
  cancelled : Bool
  deriving DecidableEq, Repr

/-- A matrix operation in flight (R214), or a MOUT or MAMAX that a pre-emption suspended (R216). -/
structure MOp where
  id : Nat
  team : Nat
  instr : Instr
  tiles : List Nat            -- effective tiles it names
  off : Nat                   -- effective offset of MOUT
  mpc : Word
  rowsDone : Nat
  pmax : Half                 -- the running maximum of a MAMAX, an f32 (R207, Table 12.4)
  faulted : Bool              -- its fault has raised the halt line (R215)
  suspended : Bool
  ranges : List Hurdle        -- its hurdle ranges while it is suspended
  deriving DecidableEq, Repr

/-! ### Forks, views and grids -/

/-- View fields latched for a page (R35). -/
structure HeldPage where
  page : Nat                  -- its first 64 KiB frame
  frames : Nat                -- its size in frames: 1, 32 or 16,384 (Table 3.3)
  vop : Nat
  elem : Nat
  ztwin : Bool
  pte : BitVec 64             -- the entry of the page at its first store, for its HOMESEL (R222)
  own : Bool                  -- a view of the tree itself has stored to it (R36), and not only one of a nested tree
  deriving DecidableEq, Repr

/-- A dirty copy, a twin or a staged granule: its physical address and lowest virtual address. -/
structure Granule where
  ga : Nat
  va : Nat
  data : Line
  bad : BitVec 4              -- its poisoned 32-byte sectors (R241)
  deriving DecidableEq, Repr

/-- A child's view (R35, R253). -/
structure View where
  id : Nat
  set : Nat
  child : Nat
  run : Nat
  parent : Option Nat
  ctx : Nat
  quota : Nat
  dirty : List Granule
  deriving DecidableEq, Repr

/-- How a child set came about. -/
inductive SetKind where
  | openLaunch
  | viewedLaunch
  | rootFork
  | nestedFork
  deriving DecidableEq, Repr

/-- Where a child set stands (R249, R256, R258, R262). -/
inductive Phase where
  | poolWait                  -- waiting for its twin reservation
  | running
  | joined                    -- folded: prepare has ended
  | committed                 -- past the commit point
  | aborted
  | done
  deriving DecidableEq, Repr

/-- A conflict or mismatch (R261, R264). -/
structure Conflict where
  va : Nat
  a : Nat
  b : Nat
  tbyte : Byte
  abyte : Byte
  bbyte : Byte
  deriving DecidableEq, Repr

/-- A child set: the teams or flocks of a launch, or the children of a FORK (R163, R246 to R265). -/
structure ChildSet where
  id : Nat
  kind : SetKind
  ctx : Nat
  grid : Nat
  parent : Option Nat         -- the forking team
  parentView : Option Nat
  depth : Nat                 -- view depth of the children
  count : Nat
  groups : Nat
  tpf : Nat                   -- teams per flock, 0 for none
  mirror : Bool
  inherit : List Frame        -- frames every child group inherits (R112)
  scope : Nat                 -- 0 device, 1 die, 2 flock (R247)
  home : Nat                  -- core of the parent team at its last arrival
  entry : Word
  laneBase : Word
  matEntry : Word
  args : Word
  quota : Nat
  res : BitVec 32
  prio : Nat
  reserved : Nat
  recAddr : Word
  recSent : Bool              -- its join record is on its way as ordered traffic (R251, R267)
  phase : Phase
  nextChild : Nat
  ended : List (Nat × Nat)    -- (child, run) that have ended
  fault : Option (Nat × Nat × Nat)  -- lowest faulting child, its code and address
  held : List HeldPage
  twins : List Granule
  staged : List Granule
  conflicts : Nat
  conflict : Option Conflict
  mirrorBad : Bool
  granules : Nat
  poisoned : Option Nat       -- child whose copy was poisoned, 0xFFFF for a twin (R262)
  status : Half
  sigW : BitVec 64            -- applied at each child's die: SIG of the packet, or W of the parent's core (R230)
  foldW : BitVec 64           -- OR of W of the children's cores (R230)
  deriving DecidableEq, Repr

/-- A launch in progress (R165). -/
structure Grid where
  id : Nat
  ctx : Nat
  slot : Nat
  index : Nat
  pkt : LaunchPacket
  set : Nat
  startedAt : Option Nat
  startStep : Nat             -- the model's step number at its start (R141)
  sigSent : Bool              -- its completion signal is on its way as ordered traffic (R165)
  sigLost : Bool := false     -- that signal has been dropped (R280, R281)
  finished : Bool
  deriving DecidableEq, Repr

/-- A hardware queue slot bound to a launch queue (R157). -/
structure QBind where
  device : Nat
  slot : Nat
  ctx : Nat
  hdr : Nat
  prio : Nat
  halted : Bool               -- a packet error stopped it, and WRIDX has not been written since (R160)
  deriving DecidableEq, Repr

/-- The unit whose fault raised the halt line (R174, R176). -/
structure Origin where
  kind : Nat
  code : Nat
  unit : Nat
  armB : Bool
  core : Nat
  addr : Word
  mask : Half
  tcode : Nat
  data : Word
  copy : Nat := 0             -- the packet that faulted, of a copy engine
  deriving DecidableEq, Repr

/-- An engine that runs on within its skid bound (Table 10.12). -/
inductive Engine where
  | arm (team grp : Nat) (armB : Bool)
  | lane (team grp : Nat)
  | copy (id : Nat)
  deriving DecidableEq, Repr

/-- Halt state of a context. -/
inductive HaltState where
  | none
  | raised (o : Origin)
  | applied (code : Nat)
  deriving DecidableEq, Repr

/-- A context (R155). -/
structure Context where
  num : Nat
  ptRoot : Nat
  mode : Nat
  device : Nat
  ceiling : Nat
  watchdog : Nat
  memBytes : Nat
  eqBase : Nat
  eqLog : Nat
  nTeamAreas : Nat
  nGroupAreas : Nat
  imageBase : Nat
  rootMap : BitVec 4096
  poolCap : Nat
  poolFree : Nat
  eqwr : Word
  eqrd : Word
  eqlost : Word
  heldEffects : List (BitVec 256)
  halt : HaltState
  skid : List Engine          -- what its engines have done since the halt line rose (Table 10.12)
  faults : List Origin        -- faults of other engines in their skid (R174)
  removing : Bool
  removedPosted : Bool
  exited : Nat
  stops : Nat                 -- stop records written
  stopsLost : Nat
  rootTokens : List (Word × Nat × Nat)  -- pending root tokens: token, team, group
  deriving DecidableEq, Repr

/-! ### Slices and fabric -/

/-- Metadata of an infield line (Table 14.1); its data is the home memory. -/
structure InLine where
  line : Nat
  slice : Nat
  dirty : Bool
  pin : Bool
  pinCtx : Nat
  sigk : Bool
  sig : BitVec 64
  ctx : Option Nat            -- the one context that wrote it; none: none or several
  deriving DecidableEq, Repr

/-- An outfield line of a die: a clean copy of another die's line or of a peer's (R225). -/
structure OutLine where
  die : Nat
  peer : Option Nat
  slice : Nat
  line : Nat
  data : Line
  bad : BitVec 4              -- its poisoned 32-byte sectors (R241)
  deriving DecidableEq, Repr

/-- A line of a core's L1 (R140, R141): for a `.ro` line the grid that loaded it, and for a line homed on another die its bytes, which may
be older than those at home. -/
structure L1Line where
  core : Nat
  ro : Bool
  grid : Nat
  line : Nat
  data : Line
  bad : BitVec 4
  deriving DecidableEq, Repr

/-- A halo region with its descriptor (R233). -/
structure Region where
  ctx : Nat
  base : Nat
  tstride : Nat
  pstride : Nat
  w : Nat
  h : Nat
  hw : Nat
  esize : Nat
  tx : Nat
  ty : Nat
  rpitch : Nat
  corners : Bool
  die : Nat
  ownBase : Nat
  slices : List Nat
  pieces : List (Nat × Nat × Nat)  -- tile, 4 KiB piece of its storage, package address of the piece
  deriving DecidableEq, Repr

/-- A REL.halo whose push has not happened yet (R236). -/
structure HaloRel where
  id : Nat
  po : Nat
  team : Nat
  grp : Nat
  armB : Bool
  both : Bool                 -- issued before the SPLIT in force (R40)
  core : Nat
  region : Nat
  tile : Nat
  sys : Bool                  -- a FENCE of system scope stands before it (R43, R237)
  flag : Target
  value : Nat
  w : BitVec 64
  deriving DecidableEq, Repr

/-- A store through a peer window that the peer has not acknowledged (R237); `sent`: die 8 has sent it out. -/
structure PeerStore where
  id : Nat
  team : Nat
  grp : Nat
  armB : Bool
  both : Bool                 -- issued before the SPLIT in force (R40)
  die : Nat                   -- the writer's
  peer : Nat
  pa : Nat
  runs : List (Nat × List Byte)  -- its bytes, by address
  sent : Bool
  deriving DecidableEq, Repr

/-- A write that has been issued and is not performed yet: the device performs it when it chooses (R46, log 50), and one to a
device line that the host holds only after the host's response (R238). Its bytes are written as one write (R139). -/
structure HeldWrite where
  id : Nat
  po : Nat                    -- its place in program order
  owner : Option (Nat × Nat × Bool)  -- team, group and arm of the store; none: a request for the line alone
  both : Bool                 -- issued before the SPLIT in force (R40)
  t : Target                  -- its place, and the entry of its page
  runs : List (Nat × List Byte)  -- its bytes, by address in that place
  ctx : Option Nat
  view : Option Nat
  rel : Option (BitVec 64)    -- the W that it carries
  wide : Bool                 -- a release at device or system scope (R228)
  sys : Bool                  -- a release at system scope
  mask : Half                 -- the lanes of a lane store; 0: no lane store
  core : Option Nat
  after : Nat := 0            -- it follows the arm's writes before this place: that of a FENCE, or its own, of a release (R43, R88)
  seen : Bool := false        -- the queue engine has taken its bytes before it is performed (R21)
  deriving DecidableEq, Repr

/-- An access of an arm that has been performed, or injected, while an earlier lane instruction of the arm was queued whose addresses were not
known: the device took it that the instruction would touch none of its bytes (R73, log 83). -/
structure Guess where
  team : Nat
  grp : Nat
  armB : Bool
  both : Bool                 -- issued before the SPLIT in force (R40)
  po : Nat                    -- its place in program order
  t : Target
  write : Bool                -- a write, or a read whose value is not known yet
  causal : Bool               -- a causal access or an ordered packet (R270)
  bytes : List Byte           -- what a read returned
  deriving DecidableEq, Repr

/-- A remote causal store that has not been answered (R292). -/
structure CausalStore where
  id : Nat
  po : Nat                    -- its place in program order
  team : Nat
  grp : Nat
  armB : Bool
  both : Bool                 -- issued before the SPLIT in force (R40)
  deriving DecidableEq, Repr

/-- What an ordered packet carries (R269). -/
inductive Payload where
  | load (pid : Nat) (t : Target) (core : Nat)
  | store (id : Nat) (t : Target) (runs : List (Nat × List Byte)) (w : BitVec 64)
  | rmw (pid : Nat) (t : Target) (w : BitVec 64) (core : Nat) (last : Bool)
  | peerStore (id : Nat)
  | hostWrite (pa : Nat) (bytes : List Byte)
  | hostRead (pa len : Nat)
  | hostValue (bytes : List Byte) (poison : Bool)
  | hostDone
  | respValue (pid : Nat) (va : Nat) (value : Nat) (sig : BitVec 64)
  | respDone (id : Nat)
  | vector
  deriving DecidableEq, Repr

/-- The counts of the nine dies (R268). -/
abbrev Counts := Vector (BitVec 12) 9

/-- An item of the ORD virtual channel (R272, R273). A vector flit has payload `vector` and carries `full`. A held item takes
one of the shared entries of the pen or one of its source's (R277). -/
structure OrdItem where
  gen : BitVec 4
  own : BitVec 12
  pairs : List (Nat × BitVec 12)
  full : Option Counts
  payload : Payload
  shared : Bool := false
  deriving DecidableEq, Repr

/-- An item of the BELL virtual channel (Table 18.2). -/
inductive BellItem where
  | bell (gen : BitVec 4) (n last : BitVec 12)
  | request (gen : BitVec 4) (n : BitVec 12)
  | report (gen : BitVec 4) (floor : BitVec 12)
  | reportRequest
  deriving DecidableEq, Repr

/-- A channel from die `src` to die `dst` (R273, R274): the sender's last stamped vector, the items on the link, and
the receiver's last full vector, mark, last arrived OWN, waiting bells, vector flit and pen. -/
structure Chan where
  src : Nat
  dst : Nat
  sent : Counts
  lastOwn : BitVec 12
  sinceBell : Nat             -- advance of the sender's count since its last ORD item or bell here
  ord : List OrdItem
  bell : List BellItem
  lastFull : Counts
  mark : BitVec 12
  arrived : BitVec 12
  bellWait : List (BitVec 12 × BitVec 12)
  pen : List OrdItem
  floor : BitVec 12           -- the last floor that dst has reported to src (R278)
  floorSent : BitVec 12
  deriving DecidableEq, Repr

/-- An ordered request that die `src` has injected and has not been told the delivery of, with the vector of its stamp (R278). -/
structure Untold where
  src : Nat
  dst : Nat
  req : Payload
  stamp : Counts
  delivered : Bool
  deriving DecidableEq, Repr

/-- A frequency change in progress (Table 2.2). -/
structure FreqChange where
  target : BitVec 2
  acked : List Nat
  relocked : Bool
  deriving DecidableEq, Repr

/-- A wear record: count, last four times in seconds, lasting (R317). -/
structure Wear where
  u : WearUnit
  count : Nat
  times : List Nat
  lasting : Bool
  deriving DecidableEq, Repr

/-- An OFSTAT register (Table 18.5) and the wavelengths that are dark. -/
structure Fibre where
  num : Nat
  dark : BitVec 128
  loscnt : Nat
  peer : Nat
  los : Bool
  trained : Bool
  deriving DecidableEq, Repr

/-- SLCFG and SLSTAT of a die (Tables 14.2, 14.3) and a change in progress (R223). -/
structure SliceCfg where
  outways : Nat
  target : Option Nat
  heldWrites : List Nat       -- writes held until the change in progress ends, oldest first (R223)
  badval : Bool
  pinfail : Bool
  deriving DecidableEq, Repr

/-- The command in execution: its opcode, status and result, its context, and the VA range of INVALIDATE (R310). -/
structure RunCmd where
  op : Nat
  status : Nat
  result : Nat
  ctx : Nat
  lo : Nat
  hi : Nat
  deriving DecidableEq, Repr

/-- EQWR, EQRD and EQLOST of a context number that is not live (R307). -/
structure EqRegs where
  ctx : Nat
  wr : Word
  rd : Word
  lost : Word
  deriving DecidableEq, Repr

/-- The management registers of BAR0 (Tables 22.1, 22.2, 22.5, 22.7), the logs and the flash. -/
structure Mgmt where
  ready : BitVec 64
  cfgstat : Byte
  verified : Bool             -- the configuration image has verified since the reset (R313)
  freqctl : BitVec 2
  pcap : Nat
  cmdptr : Word
  cmdBusy : Bool
  cmdLost : Bool
  cmdStatus : Byte
  cmdres : Word
  running : Option RunCmd     -- the command that COMMAND_DONE will report
  eqIdle : List EqRegs        -- unlisted: 0
  eatok : Word
  eaval : Word
  eaStatus : Byte
  eaHeld : Option Bool := none -- BUSY of EACTL: an answer waits for the end of a frequency change; true, a resumption (R17, log 37)
  eaLog : List (Word × Nat) := []  -- answers that named no pending root token, with TIME, newest first (R111)
  mewr : Word
  meidx : Half
  melog : List (BitVec 256)   -- newest first, at most 1024
  bbwr : Word
  bbidx : Half
  frozen : Bool
  bblog : List (BitVec 256)   -- newest first, at most 4096
  wearidx : Half
  wear : List Wear
  fladdr : Word
  flBusy : Bool
  flStatus : Byte
  flPending : Option Byte     -- status that FLASH_COMMAND_DONE will report
  flbuf : Memory
  flash : Memory
  bootSig : List Byte := []   -- the signature of the configuration image that the last boot verified (R317)
  deriving DecidableEq, Repr

/-! ### Who moves next -/

/-- What one step of the model does: the choice of who moves next is plain data. -/
inductive Action where
  | arm (team grp : Nat) (armB : Bool)   -- a shepherd arm issues (R166)
  | lane (team grp : Nat) (armB : Bool)  -- the lane engine executes the arm's oldest queue entry (R82)
  | matrix (team : Nat)                  -- a sequencer issues a word (R200)
  | copy (id : Nat)                      -- the copy engine moves the next sector of a packet (R195)
  | sector (id off : Nat)                -- it moves a later one first (R305)
  | queue (slot : Nat)                   -- the queue engine reads a slot (R158)
  | cycle (core : Nat)                   -- the scheduler of a core issues up to four ready arms (R166)
  | attempt (team grp : Nat) (armB : Bool)  -- an arm that does not issue in a cycle
  | exit (team grp : Nat) (armB : Bool)  -- an arm of a removed context takes the exit injected into it (R178)
  | store (id : Nat)                     -- a write that has been issued is performed (R46)
  | item (id k : Nat)                    -- one lane of an outstanding load is read (R40)
  | row (id : Nat)                       -- a MOUT writes its next row (R206)
  | image (id : Nat)                     -- a group meets a line of its image that has been written (R55)
  | spoil (ga : Nat)                     -- a dirty line is found uncorrectable when it is read (R240)
  | hostWrite (pa : Nat) (bytes : List Byte)  -- the host writes to its own memory (R238)
  | any                                  -- any one of the open moves
  | event (i : Instr)                    -- an event of the opcode table
  deriving DecidableEq, Repr

/-- The agent that executes the instruction of the current step. -/
inductive Sel where
  | none
  | arm (team grp : Nat) (armB : Bool)
  | lane (team grp : Nat) (armB : Bool)
  | matrix (team : Nat)
  | copy (id : Nat)
  deriving DecidableEq, Repr

/-- The state of the package. -/
structure State where
  time : Nat
  fresh : Nat
  cycle : Nat                 -- scheduler cycles so far, of all cores
  agenda : List Action
  sel : Sel
  mode : Option Nat
  mem : Memory
  hostMem : Memory
  peerMem : List (Nat × Memory)
  hostHeld : List Nat
  hubLines : List Nat
  hostData : List Byte        -- what the last host or peer read returned
  hostPoison : Bool           -- and whether it was marked poisoned
  poison : List Nat           -- poisoned 32-byte sectors, by physical address
  tlb1 : List TlbEntry        -- the L1 TLBs of the cores, newest first (R179)
  tlb2 : List TlbEntry        -- the L2 TLBs of the dies
  retiredCores : List Nat
  retiredDies : List Nat
  removedDies : List Nat
  peerNumber : Nat
  step : BitVec 2             -- clock step in force (R17)
  capStep : BitVec 2          -- capper step (R316)
  capLow : Nat                -- samples of 10 µs in a row below 90 % of PCAP (R316)
  freq : Option FreqChange
  freqHeld : Option (BitVec 2)  -- the most recent request that has not been broadcast (R18, R282)
  laserEn : Bool
  nextId : Nat                -- names of created things
  contexts : List Context
  queues : List QBind
  grids : List Grid
  sets : List ChildSet
  views : List View
  teams : List Team
  pending : List Pending
  heldPackets : List HeldPacket
  copies : List CopyRec
  mops : List MOp
  hurdles : List Hurdle
  w : List (Nat × BitVec 64)  -- write accumulator by core, unlisted 0 (R227)
  l1 : List L1Line
  roPast : List (Nat × Byte × Nat)  -- bytes overwritten while a grid runs: address, byte, model's step number, newest first (R141)
  infield : List InLine       -- oldest first
  outfield : List OutLine     -- oldest first
  slices : Vector SliceCfg 8
  offWays : List Nat          -- slice ways (slice × 16 + way) that the wear overlay disabled at the last reset (R224)
  regions : List Region
  haloRels : List HaloRel
  guesses : List Guess
  peerStores : List PeerStore
  heldWrites : List HeldWrite
  causalStores : List CausalStore
  imageWrites : List (Nat × Nat × List Byte)  -- number, address and bytes of a write from outside to the image of a running group (R55)
  gen : BitVec 4
  vecs : Vector Counts 9
  chans : List Chan
  untold : List Untold        -- injected requests whose delivery their die has not been told of, oldest first (R278)
  outq : List (Nat × Nat × Payload)  -- ordered packets that wait for the count window at their die, oldest first (R278)
  resync : Option ResyncCause -- the cause of the one in progress (Table 18.3)
  resyncHeld : Option ResyncCause  -- requested during a frequency change (R282)
  removalDue : List (Nat × Nat)   -- live die, removed die: the broadcast has not arrived there (R280)
  removalHeld : List (Nat × Nat)  -- die and cause of a removal declared during a resynchronisation (R282)
  fibres : List Fibre         -- unlisted: at reset
  mgmt : Mgmt
  deriving DecidableEq, Repr

/-- The management registers after cold reset (Tables 22.1, 22.2, 22.5, 22.7). PCAP resets to the image's value:
DESIGN CHOICE (log 7) 3400 before an image is read; flash bytes: DESIGN CHOICE (log 7) zero. -/
def Mgmt.reset : Mgmt :=
  { ready := 0, cfgstat := 0, verified := false, freqctl := 0, pcap := 3400, cmdptr := 0, cmdBusy := false, cmdLost := false,
    cmdStatus := 0, cmdres := 0, running := none, eqIdle := [], eatok := 0, eaval := 0, eaStatus := 0, mewr := 0, meidx := 0,
    melog := [], bbwr := 0, bbidx := 0, frozen := false, bblog := [], wearidx := 0, wear := [], fladdr := 0,
    flBusy := false, flStatus := 0, flPending := none, flbuf := [], flash := [] }

/-- SLCFG at reset: OUTWAYS 4; SLSTAT 0 (Tables 14.2, 14.3). -/
def SliceCfg.reset : SliceCfg :=
  { outways := 4, target := none, heldWrites := [], badval := false, pinfail := false }

/-- The package right after reset: no context, nothing placed, every count of the fabric zero and GEN 0 (R268),
OUTWAYS 4 (Table 14.2), management registers at their reset values. Values the manual does not give: DESIGN CHOICE
(logs 2 to 10). -/
def State.reset : State :=
  { time := 0, fresh := 0, cycle := 0, agenda := [], sel := .none, mode := none, mem := [], hostMem := [], peerMem := [],
    hostHeld := [], hubLines := [], hostData := [], hostPoison := false, poison := [], tlb1 := [], tlb2 := [],
    retiredCores := [], retiredDies := [], removedDies := [], peerNumber := 0, step := 0, capStep := 0, capLow := 0, freq := none, freqHeld := none,
    laserEn := false, nextId := 1, contexts := [], queues := [], grids := [], sets := [], views := [], teams := [],
    pending := [], heldPackets := [], copies := [], mops := [], hurdles := [], w := [], l1 := [], roPast := [], infield := [], outfield := [],
    slices := Vector.replicate 8 SliceCfg.reset, offWays := [], regions := [], haloRels := [], guesses := [], peerStores := [], heldWrites := [],
    causalStores := [], imageWrites := [], gen := 0, vecs := Vector.replicate 9 (Vector.replicate 9 0), chans := [], untold := [], outq := [], resync := none,
    resyncHeld := none, removalDue := [], removalHeld := [], fibres := [], mgmt := Mgmt.reset }

end Sys2Proof.Machine
end

