-- ==== Sys2Proof/Machine/Ops.lean ====
section
/-! DEFINITION. The named operations over memory, registers, teams and records, and the courses a fault takes: handler
entry (R103), contained kill (R175), end of a fork child (R172, R259) and the halt line (R174). -/

namespace Sys2Proof.Machine

open Sys2Proof

/-! ### Memory in canonical form -/

/-- What a listing of words by address reads as at `a`; an unlisted address reads as 0 (log 5). -/
def cellRead {w : Nat} : List (Nat × BitVec w) → Nat → BitVec w
  | [], _ => 0
  | (k, v) :: m, a => if k = a then v else if a < k then 0 else cellRead m a

/-- The listing with `a` holding `b`, in canonical form again. -/
def cellWrite {w : Nat} : List (Nat × BitVec w) → Nat → BitVec w → List (Nat × BitVec w)
  | [], a, b => if b = 0 then [] else [(a, b)]
  | (k, v) :: m, a, b =>
    if a < k then (if b = 0 then (k, v) :: m else (a, b) :: (k, v) :: m)
    else if k = a then (if b = 0 then m else (a, b) :: m)
    else (k, v) :: cellWrite m a b

/-- Every listed address is above `lo` and rising, and no listed word is 0. -/
def cellWfFrom {w : Nat} : Option Nat → List (Nat × BitVec w) → Bool
  | _, [] => true
  | lo, (k, v) :: m => (match lo with | some l => decide (l < k) | none => true) && v != 0 && cellWfFrom (some k) m

/-- The canonical form: addresses strictly rising, no word equal to what an unlisted address reads as. -/
def cellWf {w : Nat} (m : List (Nat × BitVec w)) : Bool := cellWfFrom none m

/-- The canonical form of a memory. -/
def Memory.wf (m : Memory) : Bool := cellWf m

/-- `n` bytes from address `a`, lowest first. -/
def Memory.bytes (m : Memory) (a n : Nat) : List Byte := (List.range n).map (fun i => cellRead m (a + i))

/-- `n` bytes from `a` as a little-endian number (R3). -/
def Memory.le (m : Memory) (a n : Nat) : Nat := leNat (m.bytes a n)

/-- The memory with bytes stored from address `a` up. -/
def Memory.store : Memory → Nat → List Byte → Memory
  | m, _, [] => m
  | m, a, b :: bs => Memory.store (cellWrite m a b) (a + 1) bs

/-- The memory with the low `n` bytes of `v` stored little-endian at `a` (R3). -/
def Memory.storeLE (m : Memory) (a n v : Nat) : Memory := m.store a (leBytes n v)

/-! ### Small helpers -/

/-- Apply `f` to the members that satisfy `p`. -/
def updWhere {α : Type} (p : α → Bool) (f : α → α) (l : List α) : List α := l.map (fun x => if p x then f x else x)

/-- One entry of a vector changed. -/
def vecUpd {α : Type} {n : Nat} (v : Vector α n) (i : Nat) (f : α → α) : Vector α n :=
  if h : i < n then v.set i (f v[i]) else v

/-- 64-bit word of a number. -/
def toWord (n : Nat) : Word := BitVec.ofNat 64 n

/-- The set bits of a lane mask, ascending. -/
def lanesOf (m : Half) : List Nat := (List.range 32).filter (fun i => m.getLsbD i)

/-- A mask with the given lanes set. -/
def maskOf (ls : List Nat) : Half := ls.foldl (fun m i => m ||| (1#32 <<< i)) 0

/-- Entry of a list of counters by key; unlisted is 0. -/
def accOf (l : List (Nat × BitVec 64)) (k : Nat) : BitVec 64 :=
  match l.find? (fun e => e.1 == k) with | some e => e.2 | none => 0

/-- That list with an entry set. -/
def accSet (l : List (Nat × BitVec 64)) (k : Nat) (v : BitVec 64) : List (Nat × BitVec 64) :=
  (k, v) :: l.filter (fun e => e.1 != k)

/-- Die of a core (R14). -/
def dieOf (core : Nat) : Nat := core / 32
/-- Flock of a core (R14). -/
def flockOf (core : Nat) : Nat := dieOf core * 2 + core % 32 / 8 / 2
/-- Core-in-flock of a core (R14). -/
def inFlock (core : Nat) : Nat := core % 32 / 8 % 2 * 8 + core % 8
/-- The core that is core-in-flock `k` of flock `f` (R14). -/
def coreOf (f k : Nat) : Nat := f / 2 * 32 + (f % 2 * 2 + k / 8) * 8 + k % 8

/-! ### Fault codes (Table 10.16) -/

/-- Fault and status codes by name (Table 10.16). -/
def cILLEGAL : Nat := 0x01
def cRESERVED : Nat := 0x02
def cMISALIGNED : Nat := 0x03
def cPAGE : Nat := 0x04
def cPROTECTION : Nat := 0x05
def cHURDLE : Nat := 0x06
def cFETRAP : Nat := 0x07
def cCONFLICT : Nat := 0x08
def cTWINQUOTA : Nat := 0x09
def cINTRUSION : Nat := 0x0A
def cTOKEN : Nat := 0x0B
def cNOHANDLER : Nat := 0x0C
def cSIGNATURE : Nat := 0x0D
def cUNCORRECTABLE : Nat := 0x0E
def cABANDONED : Nat := 0x0F
def cMIRROR : Nat := 0x10
def cCOPYPACKET : Nat := 0x11
def cMCAST : Nat := 0x12
def cTILE : Nat := 0x13
def cHANDLERDEPTH : Nat := 0x14
def cLOOPDEPTH : Nat := 0x15
def cSPLITDEPTH : Nat := 0x16
def cWATCHDOG : Nat := 0x17
def cFABRICLOST : Nat := 0x18
def cREMOVED : Nat := 0x19
def cTRAP : Nat := 0x1A
def cFORKDESC : Nat := 0x1B

/-- The code of a decoder's rejection. -/
def decErrCode : DecErr → Nat
  | .illegal => cILLEGAL
  | .reserved => cRESERVED
  | .packet => cCOPYPACKET

/-! ### Registers of an arm (R47, R53) -/

/-- The lanes of the current path: the arm mask less every parked lane (R83; "ACTIVE", R51). -/
def Arm.active (a : Arm) : Half := a.mask &&& ~~~ (a.stack.foldl (fun m e => m ||| e.lanes) 0)

/-- A scalar register; s0 reads zero (R47). -/
def Arm.get (a : Arm) (r : SReg) : Word := if r = 0 then 0 else a.regs[r.toNat]

/-- A scalar register with a value and set full; a write to s0 is discarded (R47). -/
def Arm.put (a : Arm) (r : SReg) (v : Word) : Arm :=
  if r = 0 then a else { a with regs := a.regs.set r.toNat v, full := a.full ||| (1#64 <<< r.toNat) }

/-- Is a scalar register full? s0 always is. -/
def Arm.isFull (a : Arm) (r : SReg) : Bool := r == 0 || a.full.getLsbD r.toNat

/-- Mark a scalar register empty (R25). s0 stays full. -/
def Arm.empty (a : Arm) (r : SReg) : Arm :=
  if r = 0 then a else { a with full := a.full &&& ~~~ (1#64 <<< r.toNat) }

/-- Loop depth (R50). -/
def Arm.ldepth (a : Arm) : Nat := a.loops.length

/-- One of the two arms. -/
def Core.arm (c : Core) (b : Bool) : Arm := if b then c.armB else c.armA

/-- Change one of the two arms. -/
def Core.updArm (c : Core) (b : Bool) (f : Arm → Arm) : Core :=
  if b then { c with armB := f c.armB } else { c with armA := f c.armA }

/-- STATUS of an arm (Table 4.2). -/
def Core.status (c : Core) (b : Bool) : Half :=
  let a := c.arm b
  BitVec.ofNat 32 (a.ldepth * 0x800000 + a.stack.length * 0x40000 + c.split.toNat * 0x20000 + b.toNat * 0x10000 +
    a.code.toNat * 0x100)

/-- One lane of a vector register. -/
def Core.vget (c : Core) (n lane : Nat) : Half := (c.vregs.getD n (Vector.replicate 32 0)).getD lane 0

/-- One lane of a vector register replaced. -/
def Core.vset (c : Core) (n lane : Nat) (v : Half) : Core :=
  { c with vregs := vecUpd c.vregs n (fun l => l.setIfInBounds lane v) }

/-- Full bits of a vector register. -/
def Core.vfullOf (c : Core) (n : Nat) : Half := c.vfull.getD n 0

/-- Mark lanes of a vector register full or empty. -/
def Core.vmark (c : Core) (n : Nat) (m : Half) (full : Bool) : Core :=
  { c with vfull := vecUpd c.vfull n (fun f => if full then f ||| m else f &&& ~~~ m) }

/-- Numbers of the vector registers that hold a value of a type (R48). -/
def vnums (n : Nat) (ty : LType) : List Nat := if ty.is64 then [n, n + 1] else [n]

/-- A value of a type in one lane: the pair of a 64-bit type, or the register's 32 bits (R48). -/
def Core.vread (c : Core) (n : Nat) (is64 : Bool) (lane : Nat) : Nat :=
  (c.vget n lane).toNat + (if is64 then 0x100000000 * (c.vget (n + 1) lane).toNat else 0)

/-- Write 32 or 64 bits to one lane. -/
def Core.vwrite (c : Core) (n : Nat) (is64 : Bool) (lane : Nat) (v : Nat) : Core :=
  let c := c.vset n lane (BitVec.ofNat 32 v)
  if is64 then c.vset (n + 1) lane (BitVec.ofNat 32 (v / 0x100000000)) else c

/-- A predicate register; p0 reads all ones (R49). -/
def Core.pget (c : Core) (p : Nat) : Half := if p = 0 then allLanes else c.preds.getD p 0

/-- The predicate's bits of the lanes `m` replaced (R49). -/
def Core.pput (c : Core) (p : Nat) (m v : Half) : Core :=
  { c with preds := vecUpd c.preds p (fun o => (o &&& ~~~ m) ||| (v &&& m)) }

/-- Is a predicate full? p0 always is. -/
def Core.pIsFull (c : Core) (p : Nat) : Bool := p == 0 || c.pfull.getLsbD p

/-- Mark a predicate full or empty. -/
def Core.pmark (c : Core) (p : Nat) (full : Bool) : Core :=
  { c with pfull := if full then c.pfull ||| (1#16 <<< p) else c.pfull &&& ~~~ (1#16 <<< p) }

/-- Remember the values of registers before they are overwritten, while the group is split (R147, log 13). -/
def Group.note (g : Group) (ns : List Nat) : Group :=
  if g.core.split then { g with hist := ns.map (fun n => (n, g.core.vregs.getD n (Vector.replicate 32 0))) ++ g.hist } else g

/-! ### Finding and changing parts of the state -/

/-- A context by number. -/
def State.ctx? (s : State) (n : Nat) : Option Context := s.contexts.find? (fun c => c.num == n)
/-- Change a context. -/
def State.updCtx (s : State) (n : Nat) (f : Context → Context) : State :=
  { s with contexts := updWhere (fun c => c.num == n) f s.contexts }
/-- A team by number. -/
def State.team? (s : State) (t : Nat) : Option Team := s.teams.find? (fun x => x.id == t)
/-- Change a team. -/
def State.updTeam (s : State) (t : Nat) (f : Team → Team) : State :=
  { s with teams := updWhere (fun x => x.id == t) f s.teams }
/-- A group of a team by its number in the team. -/
def Team.group? (t : Team) (g : Nat) : Option Group := t.groups.find? (fun x => x.grpidx == g)
/-- A group. -/
def State.group? (s : State) (t g : Nat) : Option Group := (s.team? t).bind (fun x => x.group? g)
/-- Change a group of a team. -/
def Team.updGroup (t : Team) (g : Nat) (f : Group → Group) : Team :=
  { t with groups := updWhere (fun x => x.grpidx == g) f t.groups }
/-- Change a group. -/
def State.updGroup (s : State) (t g : Nat) (f : Group → Group) : State := s.updTeam t (fun x => x.updGroup g f)
/-- Change the register part of a group. -/
def State.updCore (s : State) (t g : Nat) (f : Core → Core) : State :=
  s.updGroup t g (fun x => { x with core := f x.core })
/-- Change an arm. -/
def State.updArm (s : State) (t g : Nat) (b : Bool) (f : Arm → Arm) : State :=
  s.updCore t g (fun c => c.updArm b f)
/-- A child set by number. -/
def State.set? (s : State) (n : Nat) : Option ChildSet := s.sets.find? (fun x => x.id == n)
/-- Change a child set. -/
def State.updSet (s : State) (n : Nat) (f : ChildSet → ChildSet) : State :=
  { s with sets := updWhere (fun x => x.id == n) f s.sets }
/-- A view by number. -/
def State.view? (s : State) (n : Nat) : Option View := s.views.find? (fun x => x.id == n)
/-- Change a view. -/
def State.updView (s : State) (n : Nat) (f : View → View) : State :=
  { s with views := updWhere (fun x => x.id == n) f s.views }
/-- A grid by number. -/
def State.grid? (s : State) (n : Nat) : Option Grid := s.grids.find? (fun x => x.id == n)
/-- A copy in flight by number. -/
def State.copy? (s : State) (n : Nat) : Option CopyRec := s.copies.find? (fun x => x.id == n)
/-- Change a copy in flight. -/
def State.updCopy (s : State) (n : Nat) (f : CopyRec → CopyRec) : State :=
  { s with copies := updWhere (fun x => x.id == n) f s.copies }
/-- A channel of the fabric. -/
def State.chan? (s : State) (i d : Nat) : Option Chan := s.chans.find? (fun c => c.src == i && c.dst == d)
/-- Slice registers of a die. -/
def State.sliceCfg (s : State) (d : Nat) : SliceCfg := s.slices.getD d SliceCfg.reset
/-- Change the slice registers of a die. -/
def State.updSliceCfg (s : State) (d : Nat) (f : SliceCfg → SliceCfg) : State := { s with slices := vecUpd s.slices d f }
/-- Change the management registers. -/
def State.updMgmt (s : State) (f : Mgmt → Mgmt) : State := { s with mgmt := f s.mgmt }
/-- A fresh name. -/
def State.bump (s : State) : State := { s with nextId := s.nextId + 1 }
/-- As many fresh names. -/
def State.bumpBy (s : State) (n : Nat) : State := { s with nextId := s.nextId + n }
/-- Use up one index of the free values (log 2). -/
def State.useFresh (s : State) : State := { s with fresh := s.fresh + 1 }

/-- The core a team runs on; none while it does not run. -/
def Team.core? (t : Team) : Option Nat := match t.place with | .running c _ => some c | _ => none
/-- The core a team runs on, or ran on last. -/
def Team.coreNum (t : Team) : Nat :=
  match t.place with | .running c _ | .forked c _ | .folded c _ | .preempted c | .ended c => c
/-- The team has ended. -/
def Team.isEnded (t : Team) : Bool := match t.place with | .ended _ => true | _ => false
/-- The team is pre-empted. -/
def Team.isPreempted (t : Team) : Bool := match t.place with | .preempted _ => true | _ => false
/-- The team is suspended by FORK, its fold not yet ended. -/
def Team.isForked (t : Team) : Bool := match t.place with | .forked _ _ => true | _ => false
/-- The team waits for resumption after its fold. -/
def Team.isFolded (t : Team) : Bool := match t.place with | .folded _ _ => true | _ => false
/-- The team's state lies in its image: it is pre-empted, or its resources were taken while FORK suspends it. -/
def Team.imaged (t : Team) : Bool :=
  match t.place with | .preempted _ | .forked _ false | .folded _ false => true | _ => false

/-- The package address of a physical address of a device: in modes TWO and EIGHT every device has memory of its own
(R13, R20), so the device number stands above the 56 address bits. -/
def gaOf (dev pa : Nat) : Nat := dev * 0x100000000000000 + pa

/-- The package address of a physical address of a context. -/
def Context.ga (c : Context) (pa : Nat) : Nat := gaOf c.device pa

/-! ### Records -/

/-- Append to the black box unless it is frozen (R318). -/
def State.blackBox (s : State) (r : BitVec 256) : State :=
  if s.mgmt.frozen then s else
  s.updMgmt (fun m => { m with bblog := (r :: m.bblog).take 4096, bbwr := m.bbwr + 1 })

/-- Append to the management event log, and so to the black box (R308). -/
def State.logEvent (s : State) (r : BitVec 256) : State :=
  (s.updMgmt (fun m => { m with melog := (r :: m.melog).take 1024, mewr := m.mewr + 1 })).blackBox r

/-- Bytes as one 256-bit record. -/
def record (bs : List Byte) : BitVec 256 := BitVec.ofNat 256 (leNat bs)

/-- A 32-byte record from its fields: bytes 0 to 3, then 4 to 7, 8 to 15, 16 to 23 and 24 to 31 (Table 10.14). -/
def eventRec (b0 b1 b2 b3 : Nat) (w4 d8 d16 d24 : Nat) : BitVec 256 :=
  record (leBytes 1 b0 ++ leBytes 1 b1 ++ leBytes 1 b2 ++ leBytes 1 b3 ++ leBytes 4 w4 ++ leBytes 8 d8 ++ leBytes 8 d16 ++
    leBytes 8 d24)

/-- Is the event queue full (R311)? -/
def Context.eqFull (c : Context) : Bool := (c.eqwr - c.eqrd).toNat == 2 ^ c.eqLog

/-- Keep the bytes that a write is about to replace, for the `.ro` loads of the grids that run (R141). -/
def State.notePast (s : State) (ga n : Nat) : State :=
  { s with roPast := if s.grids.all (fun g => g.finished) then []
      else (List.range n).map (fun i => (ga + i, cellRead s.mem (ga + i), s.fresh)) ++ s.roPast }

/-- Bytes from `a` up without those of a poisoned sector that they do not cover whole: a partial write of one is dropped (R241). -/
def State.cleanRuns (s : State) (a : Nat) (bs : List Byte) : List (Nat × Byte) :=
  (bs.mapIdx (fun i b => (a + i, b))).filter (fun p =>
    let x := p.1 / 32 * 32
    !s.poison.contains x || (a ≤ x && x + 32 ≤ a + bs.length))

/-- A write by a hub agent: it carries all ones as its signature (R230), and a host copy of its lines is invalidated in the
same step (log 32). -/
def State.hubBytes (s : State) (ga : Nat) (bs : List Byte) : State :=
  let hit := fun (line : Nat) => ga / 128 ≤ line && line * 128 < ga + bs.length
  { s.notePast ga bs.length with
           mem := (s.cleanRuns ga bs).foldl (fun (m : Memory) p => cellWrite m p.1 p.2) s.mem, hostHeld := s.hostHeld.filter (fun l => !hit l),
           infield := updWhere (fun (l : InLine) => hit l.line)
             (fun l => { l with dirty := true, ctx := none, sigk := true, sig := BitVec.allOnes 64 }) s.infield,
           poison := s.poison.filter (fun x => !(ga ≤ x && x + 32 ≤ ga + bs.length)) }

/-- Write a record at slot EQWR mod size and advance EQWR (R311). -/
def State.putRecord (s : State) (n : Nat) (r : BitVec 256) : State :=
  match s.ctx? n with
  | none => s
  | some c =>
    let s := s.hubBytes (c.ga (c.eqBase + 32 * (c.eqwr.toNat % 2 ^ c.eqLog))) (leBytes 32 r.toNat)
    (s.updCtx n (fun c => { c with eqwr := c.eqwr + 1 })).blackBox r

/-- Post an event record (R177, R311): dropped and counted when the queue is full. -/
def State.postEvent (s : State) (n : Nat) (r : BitVec 256) : State :=
  match s.ctx? n with
  | none => s
  | some c => if c.eqFull then s.updCtx n (fun c => { c with eqlost := c.eqlost + 1 }) else s.putRecord n r

/-- Post an EFFECT record: held while the queue is full (R311). -/
def State.postEffect (s : State) (n : Nat) (r : BitVec 256) : State :=
  match s.ctx? n with
  | none => s
  | some c =>
    if c.eqFull || !c.heldEffects.isEmpty then s.updCtx n (fun c => { c with heldEffects := c.heldEffects ++ [r] })
    else s.putRecord n r

/-- What a fault says: its code, address, lanes, TRAP code and TRAP data. -/
structure Flt where
  code : Nat
  addr : Word := 0
  mask : Half := 0
  tcode : Nat := 0
  data : Word := 0
  tile : Word := 0            -- tile index of a TILE_STATE (Table 6.8)
  deriving DecidableEq, Repr

/-- A stop record (Table 10.13). -/
structure StopRec where
  kind : Nat
  code : Nat
  flags : Nat := 0
  disc : Nat := 0
  unit : Nat := 0
  core : Nat := 0xFFFFFFFF
  tcode : Nat := 0
  spc : Nat := 0
  lpc : Nat := 0
  addr : Nat := 0
  data : Nat := 0
  mask : Nat := 0
  status : Nat := 0
  deriving DecidableEq, Repr

/-- The 64 bytes of a stop record at a time (Table 10.13). -/
def StopRec.bytes (r : StopRec) (time : Nat) : List Byte :=
  leBytes 1 r.kind ++ leBytes 1 r.code ++ leBytes 1 r.flags ++ leBytes 1 r.disc ++ leBytes 4 r.unit ++ leBytes 4 r.core ++
  leBytes 4 r.tcode ++ leBytes 8 r.spc ++ leBytes 8 r.lpc ++ leBytes 8 r.addr ++ leBytes 8 r.data ++ leBytes 4 r.mask ++
  leBytes 4 r.status ++ leBytes 8 time

/-- Write a stop record: records beyond the 1024th are dropped and counted (R176). The black box's summary is the
record's first half (log 16). -/
def State.writeStop (s : State) (n : Nat) (r : StopRec) : State :=
  match s.ctx? n with
  | none => s
  | some c =>
    if c.stops < 1024 then
      let bs := r.bytes s.time
      let s := s.hubBytes (c.ga (c.imageBase + 64 * c.stops)) bs
      (s.updCtx n (fun c => { c with stops := c.stops + 1 })).blackBox (record (bs.take 32))
    else s.updCtx n (fun c => { c with stopsLost := c.stopsLost + 1 })

/-! ### Loop ends (R69, R79) -/

/-- Loop-end processing: the loops, the free levels and the next address, for levels above `base` (R79, R103). -/
def loopEnd : Nat → List Loop → List Loop → Word → List Loop × List Loop × Word
  | _, [], spare, next => ([], spare, next)
  | base, l :: ls, spare, next =>
    if ls.length < base || next != l.endAddr + 4 then (l :: ls, spare, next)
    else if l.count - 1 != 0 then
      ({ l with count := l.count - 1 } :: ls, spare, l.endAddr - 4 * ((l.len - 1).zeroExtend 64))
    else loopEnd base ls ({ l with count := 0 } :: spare) next

/-- Set an arm's SPC to a next address after loop-end processing (R69). -/
def Arm.advance (a : Arm) (base : Nat) (next : Word) : Arm :=
  let r := loopEnd base a.loops a.spare next
  { a with loops := r.1, spare := r.2.1, spc := r.2.2 }

/-- A loop level that has never been used. -/
def Loop.zero : Loop := { count := 0, len := 0, endAddr := 0 }

/-- Open a loop level: the lowest free one (R50, R78). -/
def Arm.openLoop (a : Arm) (l : Loop) : Arm := { a with loops := l :: a.loops, spare := a.spare.tail }

/-- Set the loop depth: levels that it leaves out become free, and levels that it takes in are as they were left (R103, R106, R108). -/
def Arm.setDepth (a : Arm) (n : Nat) : Arm :=
  let k := a.loops.length - n
  let up := (List.range (n - a.loops.length)).map (fun i => a.spare.getD i Loop.zero)
  { a with loops := up.reverse ++ a.loops.drop k, spare := (a.loops.take k).reverse ++ a.spare.drop up.length }

/-- A lane fault waits for its delivery to a group that is not split: the shepherd completes the instruction it is in, and loop-end
processing there is left to RESUME (R69, R110). -/
def Group.due (g : Group) : Bool := g.frozen.isSome && !g.core.split

/-- The shepherd stands at the boundary where a lane fault is delivered (R110). `after`: after an instruction that goes on at the next
word. -/
def Group.atBoundary (g : Group) (after : Bool) : Group :=
  { g with frozen := g.frozen.map (fun f => { f with stopped := true, after }) }

/-- An arm of a group completes an instruction at a next address (R69, R110). -/
def Group.finish (g : Group) (b : Bool) (f : Arm → Arm) (next : Word) : Group :=
  if g.due then ({ g with core := g.core.updArm b (fun a => { f a with spc := next }) } : Group).atBoundary true
  else { g with core := g.core.updArm b (fun a => (f a).advance g.lbase next) }

/-- An arm completes at a next address, under LBASE of its group (R103). -/
def State.advance (s : State) (t g : Nat) (b : Bool) (next : Word) : State := s.updGroup t g (fun x => x.finish b (fun a => a) next)

/-! ### Team ends -/

/-- Every group of the team has retired. -/
def Team.allRetired (t : Team) : Bool := t.groups.all (fun g => g.retired)

/-- A team has retired: every group has, every copy and matrix operation it issued has completed (R86, R210, R258), and no
child set of it is open. -/
def State.teamOver (s : State) (t : Team) : Bool :=
  t.allRetired && s.copies.all (fun c => c.team != t.id) && s.mops.all (fun m => m.team != t.id) &&
  s.sets.all (fun x => x.parent != some t.id || x.phase == .done)

/-- W of a core. -/
def State.wOf (s : State) (core : Nat) : BitVec 64 := accOf s.w core
/-- OR bits into W of a core (R227). -/
def State.orW (s : State) (core : Nat) (m : BitVec 64) : State := { s with w := accSet s.w core (s.wOf core ||| m) }

/-- A team that has ended frees its resources and counts as an ended child (R27, R86, R258); the W of its core joins the
fold's (R230). -/
def State.endTeam (s : State) (t : Team) : State :=
  if t.isEnded then s else
  let w := match t.core? with | some c => s.wOf c | none => 0
  let s := s.updTeam t.id (fun x => { x with place := .ended t.coreNum })
  s.updSet t.set (fun x => { x with ended := (t.childIdx, t.run) :: x.ended, foldW := x.foldW ||| w })

/-- End a team when it is over. -/
def State.settleTeam (s : State) (t : Nat) : State :=
  match s.team? t with
  | some x => if s.teamOver x then s.endTeam x else s
  | none => s

/-! ### Kills -/

/-- A group as a kill leaves it: retired at once, queue discarded, frames and tokens dead, CODE set (R175). -/
def Group.kill (g : Group) (code : Nat) : Group :=
  let dead := fun (a : Arm) => { a with wait := .exited, mask := 0, code := BitVec.ofNat 8 code, lqLeft := 0, lqWords := [], lqRun := none, lqOwed := false, rep := none }
  { g with core := { g.core with armA := dead g.core.armA, armB := dead g.core.armB, live := 0 },
           queue := [], frozen := none, frames := [], inherited := [], rootDest := none, retired := true, killed := true,
           exiting := false, abandoned := false, abandonedB := false }

/-- A group as a kill without a code leaves it. -/
def Group.drop (g : Group) : Group := { (g.kill g.core.armA.code.toNat) with killed := g.killed }

/-- Discard some outstanding accesses. An atomic that has been issued is performed all the same, and fills nothing. -/
def State.discard (s : State) (go : Pending → Bool) : State :=
  { s with pending := (s.pending.filter (fun p => !go p || (p.rmw && p.items.any (fun i => i.val.isNone)))).map (fun p =>
      if go p then { p with dest := .none, saved := none } else p) }

/-- Discard what a group still has on its way to memory or registers. -/
def State.dropPending (s : State) (t g : Nat) : State :=
  { s.discard (fun p => p.team == t && p.grp == g) with
           heldPackets := s.heldPackets.filter (fun p => !(p.team == t && p.grp == g)) }

/-- The wait of an arm in BAR ends: its destination receives a value (R87). -/
def Group.endBar (g : Group) (b : Bool) (d : SReg) (code : Byte) (v : Word) : Group :=
  g.finish b (fun a => { a with wait := .none, code }.put d v) ((g.core.arm b).spc + 4)

/-- An arm receives 0x0F once: at the BAR it waits in, or at its next (Table 5.7). -/
def Group.abandonArm (g : Group) (b : Bool) : Group :=
  match (g.core.arm b).wait with
  | .bar _ d => g.endBar b d 0x0F 0x0F
  | _ => if b then { g with abandonedB := true } else { g with abandoned := true }

/-- A sibling of a group that was killed by containment (Table 5.7). -/
def Group.abandon (g : Group) : Group :=
  if g.retired then g else
  let g := ({ g with abandoned := false, abandonedB := false } : Group).abandonArm false
  if g.core.split then g.abandonArm true else g

/-- A sibling whose team is stored: its arms receive 0x0F when the team has been read back (Table 5.7, R219). -/
def Group.oweAbandon (g : Group) : Group :=
  if g.retired then g else { g with abandoned := true, abandonedB := g.core.split }

/-- Kill every group of a team, without stop records and without BARRIER_ABANDONED, and end it once its copies have
completed (R172, R259); suspended copies are discarded with it. Its sequencer stops and its matrix operations are abandoned. -/
def State.killTeam (s : State) (t : Nat) : State :=
  match s.team? t with
  | none => s
  | some x =>
    if x.isEnded then s else
    let dead := (s.mops.filter (fun m => m.team == t)).map (fun m => Owner.mop m.id)
    let s := { s.discard (fun p => p.team == t) with
                      heldPackets := s.heldPackets.filter (fun p => p.team != t), mops := s.mops.filter (fun m => m.team != t),
                      copies := s.copies.filter (fun c => !(c.team == t && c.suspended)),
                      hurdles := s.hurdles.filter (fun h => !dead.contains h.owner),
                      haloRels := s.haloRels.filter (fun h => h.team != t) }
    let s := s.updTeam t (fun x =>
      { x with groups := x.groups.map (fun g => if g.retired then g else g.drop), seq := { x.seq with run := if x.seq.run == 2 then 2 else 1 },
               round := none })
    s.settleTeam t

/-- The open child sets of a team. -/
def State.setsOf (s : State) (t : Nat) : List ChildSet :=
  s.sets.filter (fun x => x.parent == some t && !(x.phase == .done))

/-- Kill a team and, below it, the teams of its open forks, whose trees abort unless their commit point has passed (R259,
R265). `fuel` bounds the nesting. -/
def State.killTree : Nat → State → Nat → State
  | 0, s, _ => s
  | fuel + 1, s, t =>
    let s := (s.setsOf t).foldl (fun (s : State) x =>
      let s := (s.teams.filter (fun y => y.set == x.id)).foldl (fun (st : State) y => State.killTree fuel st y.id) s
      s.updSet x.id (fun y => { y with phase := if y.phase == .committed then .committed else .aborted, nextChild := y.count })) s
    s.killTeam t

/-- Nesting bound: view depth 8 (R248) and the launch above. -/
def treeFuel : Nat := 10

/-- Is the set one of children of a FORK instruction? -/
def ChildSet.isFork (x : ChildSet) : Bool := x.kind == .rootFork || x.kind == .nestedFork

/-- Child `k` of a set has faulted, in a run (R259, R264): the lowest faulting child is kept, with the code of run 0 when
both runs fault, and every child of a higher index is ended. The teams of an open launch run on (R165). Of two faults of one team that is
no end of it, the later one's code is kept: DESIGN CHOICE (log 98). -/
def State.childFault (s : State) (setId k run code : Nat) (addr : Word) : State :=
  match s.set? setId with
  | none => s
  | some x =>
    let keep := match x.fault with | some (j, _, _) => decide (j < k) || (j == k && run != 0) | none => false
    let s := if keep then s else s.updSet setId (fun x => { x with fault := some (k, code, addr.toNat) })
    if x.kind == .openLaunch then s else
    (s.teams.filter (fun y => y.set == setId && k < y.childIdx && !y.isEnded)).foldl
      (fun (s : State) y => State.killTree treeFuel s y.id) s

/-- The fault of a team, as its set counts it: by team in an open launch (R165), by child otherwise. -/
def State.teamFault (s : State) (t : Team) (code : Nat) (addr : Word) : State :=
  let k := match s.set? t.set with | some x => if x.kind == .openLaunch then t.teamIdx else t.childIdx | none => 0
  s.childFault t.set k t.run code addr

/-- Everything a stop record says of an arm. -/
def armStop (t : Team) (g : Group) (b : Bool) (f : Flt) (kind flags : Nat) : StopRec :=
  { kind, code := f.code, flags := flags + 2 * b.toNat, disc := if kind == 2 then g.queue.length else 0, unit := g.gid,
    core := t.coreNum, tcode := f.tcode, spc := (g.core.arm b).spc.toNat, lpc := (g.core.arm b).lpc.toNat,
    addr := f.addr.toNat, data := f.data.toNat, mask := f.mask.toNat, status := (g.core.status b).toNat }

/-- A contained kill (R175): the group retires at once, the faulting unit writes its stop record with ORIGIN = 0, the
siblings receive BARRIER_ABANDONED, and the child or the grid takes the fault. -/
def State.killGroup (s : State) (t : Team) (g : Group) (r : StopRec) : State :=
  let s := s.updTeam t.id (fun x =>
    { x with groups := x.groups.map (fun y => if y.grpidx == g.grpidx then g.kill r.code else if x.imaged then y.oweAbandon else y.abandon) })
  let s := (s.dropPending t.id g.grpidx).writeStop t.ctx { r with disc := if r.kind ≤ 2 then g.queue.length else 0 }
  let s := s.teamFault t r.code (toWord r.addr)
  s.settleTeam t.id

/-- Kill every group of a team, each as under R175 with a code and a stop record of its own; the team ends. -/
def State.killAll (s : State) (t : Team) (code flags : Nat) : State :=
  let live := t.groups.filter (fun g => !g.retired)
  let s := s.updTeam t.id (fun x => { x with groups := x.groups.map (fun g => if g.retired then g else g.kill code) })
  let s := live.foldl (fun (s : State) g =>
    let r := armStop t { g with core := g.core.updArm false (fun a => { a with code := BitVec.ofNat 8 code }) } false { code } 1 flags
    s.writeStop t.ctx { r with disc := g.queue.length }) s
  State.killTree treeFuel s t.id

/-- A contained kill by a fault of an arm (`kind` 1) or of the lane engine (2). -/
def State.containedKill (s : State) (t : Team) (g : Group) (b : Bool) (f : Flt) (kind : Nat) : State :=
  s.killGroup t g (armStop t { g with core := g.core.updArm b (fun a => { a with code := BitVec.ofNat 8 f.code }) } b f kind 0)

/-- Raise the halt line of a context; only the first fault is its origin, and another one is kept for the record of its engine (R174). -/
def State.raiseHalt (s : State) (n : Nat) (o : Origin) : State :=
  s.updCtx n (fun c =>
    match c.halt with
    | .none => { c with halt := .raised o, skid := [], faults := [] }
    | .raised _ => { c with faults := c.faults ++ [o] }
    | .applied _ => c)

/-- A fault that ends a child of a FORK instruction (R172): its groups are killed without BARRIER_ABANDONED, the faulting
unit writes one stop record with ORIGIN = 0, and the join aborts. -/
def State.endChild (s : State) (t : Team) (r : StopRec) : State :=
  let s := s.writeStop t.ctx r
  let s := State.killTree treeFuel s t.id
  s.teamFault t r.code (toWord r.addr)

/-- Is the team a child of a FORK instruction? -/
def State.isForkChild (s : State) (t : Team) : Bool :=
  match s.set? t.set with | some x => x.isFork | none => false

/-- The ordinary course of a group's fault (R172). `kind` 1: of an arm; 2: of the lane engine. -/
def State.ordinary (s : State) (t : Team) (g : Group) (b : Bool) (f : Flt) (kind : Nat) : State :=
  if f.code == cUNCORRECTABLE || f.code == cSIGNATURE then s.containedKill t g b f kind
  else if s.isForkChild t then s.endChild t (armStop t g b f kind 0)
  else
    s.raiseHalt t.ctx { kind, code := f.code, unit := g.gid, armB := b, core := t.coreNum, addr := f.addr, mask := f.mask,
                        tcode := f.tcode, data := f.data }

/-- The ordinary course of a fault of a team's matrix sequencer or of a copy (R172, R194, R215): `rec` is the unit's
record, and `copy` the packet. UNCORRECTABLE of the sequencer is handled where it is raised. -/
def State.unitFault (s : State) (t : Team) (r : StopRec) (copy : Nat := 0) : State :=
  if s.isForkChild t then s.endChild t r
  else
    s.raiseHalt t.ctx { kind := r.kind, code := r.code, unit := r.unit, armB := false, core := r.core, addr := toWord r.addr,
                        mask := 0, tcode := 0, data := toWord r.data, copy }

/-! ### Effects: search and handler entry (R102 to R104) -/

/-- Where a search ends. -/
inductive Found where
  | own (d : Nat)
  | inherited (j : Nat)
  | root
  | none
  deriving DecidableEq, Repr

/-- The own frame at a depth. -/
def Group.own? (g : Group) (d : Nat) : Option Frame :=
  if d = 0 || g.frames.length < d then Option.none else g.frames[g.frames.length - d]?

/-- Change the own frame at a depth. -/
def Group.updOwn (g : Group) (d : Nat) (f : Frame → Frame) : Group :=
  if d = 0 || g.frames.length < d then g else { g with frames := g.frames.modify (g.frames.length - d) f }

/-- The first frame of a list, from the top at depth `d` down, that answers an effect. -/
def searchOwn (id : BitVec 16) (dev : Bool) : List Frame → Option Nat
  | [] => Option.none
  | f :: fs =>
    if f.id == id && f.masker == 0 && !(dev && f.k) then some (fs.length + 1) else searchOwn id dev fs

/-- The resolution of an effect (R102). -/
def Group.search (g : Group) (rootMap : BitVec 4096) (id : BitVec 16) (dev : Bool) : Found :=
  match searchOwn id dev g.frames with
  | some d => .own d
  | Option.none =>
    match (List.range g.inherited.length).find? (fun j =>
      match g.inherited[j]? with | some f => f.id == id && f.masker == 0 | Option.none => false) with
    | some j => .inherited j
    | Option.none => if !dev && 0xF000 ≤ id.toNat && rootMap.getLsbD (id.toNat - 0xF000) then .root else .none

/-- The depth code of a found frame (R102). -/
def Found.code : Found → Nat
  | .own d => d
  | .inherited j => 0x81 + j
  | _ => 0

/-- The frame that a depth code names. -/
def Group.frameAt (g : Group) (code : Nat) : Option Frame :=
  if code ≤ 64 then g.own? code else if 0x81 ≤ code then g.inherited[code - 0x81]? else Option.none

/-- Change the frame that a depth code names. -/
def Group.updFrame (g : Group) (code : Nat) (f : Frame → Frame) : Group :=
  if code ≤ 64 then g.updOwn code f
  else if 0x81 ≤ code then { g with inherited := g.inherited.modify (code - 0x81) f } else g

/-! ### Arrival of a value at a scalar register -/

/-- Fill a scalar register. A value whose register a handler now uses for itself fills the continuation's saved copy,
while that continuation is suspended (R103). -/
def Group.fillScalar (g : Group) (b : Bool) (saved : Option (Nat × BitVec 16)) (r : SReg) (v : Word) : Group :=
  match saved with
  | some (c, gen) =>
    g.updFrame c (fun f =>
      if f.gen == gen && f.state == 1 then
        { f with save := f.save.setIfInBounds (r.toNat - 48) v, saveFe := f.saveFe ||| (1#12 <<< (r.toNat - 48)) }
      else f)
  | Option.none => { g with core := g.core.updArm b (fun a => a.put r v) }

/-- One of the registers s48 to s59, which a handler entry saves (R103). -/
def savedReg (r : SReg) : Bool := 48 ≤ r.toNat && r.toNat < 60

/-- The scalar destination of a queued VBALLOT or VRED (R147). -/
def QEntry.sdest (e : QEntry) : Option SReg :=
  match laneOf e.instr with
  | some (opc, f) => if f.sd && (opc == 0x143 || opc == 0x144) then some f.sn else Option.none
  | Option.none => Option.none

/-- The queued producers of registers s48 to s59 fill the continuation's saved copy from now on. -/
def tagQueue (c : Nat) (gen : BitVec 16) (q : List QEntry) : List QEntry :=
  q.map (fun e => match e.sdest with
    | some r => if savedReg r && e.saved.isNone then { e with saved := some (c, gen) } else e
    | Option.none => e)

/-- And so do the outstanding loads and atomics of the group. -/
def State.tagSaved (s : State) (t g c : Nat) (gen : BitVec 16) : State :=
  { s with pending := s.pending.map (fun p =>
      if p.team == t && p.grp == g && p.saved.isNone then
        (match p.dest with | .s r => if savedReg r then { p with saved := some (c, gen) } else p | _ => p)
      else p) }

/-- Mask every unmasked frame at or above a depth code (R103). -/
def Group.maskFrom (g : Group) (code : Nat) : Group :=
  let m := fun (f : Frame) => if f.masker == 0 then { f with masker := code } else f
  if code ≤ 64 then
    { g with frames := g.frames.mapIdx (fun i f => if code ≤ g.frames.length - i then m f else f) }
  else
    { g with frames := g.frames.map m, inherited := g.inherited.mapIdx (fun i f => if i ≤ code - 0x81 then m f else f) }

/-- A token (Table 6.5). -/
def tokenOf (gen : BitVec 16) (code kind gid : Nat) : Word :=
  gen ++ BitVec.ofNat 8 code ++ BitVec.ofNat 8 kind ++ BitVec.ofNat 32 gid

/-- What the raising event gives a handler entry. -/
structure Raise where
  rkind : Nat
  dest : Nat := 0
  join : Half := 0
  after : Bool := false
  mask : Half := 0
  cspc : Word
  clpc : Word
  lqrem : Nat := 0
  repj : Nat := 0
  queue : List QEntry := []
  arg : Word := 0
  deriving DecidableEq, Repr

/-- Registers s48 up, `n` of them. -/
def Arm.s48 (a : Arm) (i : Nat) : Word := a.regs.getD (48 + i) 0

/-- Set `n` registers from s48 on, with their full bits. -/
def Arm.restore48 (a : Arm) (save : Vector Word 12) (fe : BitVec 12) : Arm :=
  { a with regs := Vector.ofFn (fun i => if 48 ≤ i.val ∧ i.val < 60 then save.getD (i.val - 48) 0 else a.regs[i]),
           full := (a.full &&& ~~~ (0xFFF#64 <<< 48)) ||| (fe.zeroExtend 64 <<< 48) }

/-- The shepherd stands at the boundary where a lane fault is delivered: it issues nothing (R110). -/
def Group.stopped (g : Group) : Bool := g.due && (match g.frozen with | some f => f.stopped | Option.none => false)

/-- Handler entry into the frame of a depth code (R103), the K frame's snapshot included. none: EFFECT_TOKEN, the
frame's STATE is not 0. The group is not split. KDEST keeps what the record held: DESIGN CHOICE (log 101). -/
def Group.enter (g : Group) (code : Nat) (id : BitVec 16) (r : Raise) : Option Group :=
  match g.frameAt code with
  | Option.none => Option.none
  | some f =>
    if f.state != 0 then Option.none else
    let a := g.core.armA
    let snap : Snapshot := { core := g.core, lbase := g.lbase, frames := g.frames.take (g.frames.length - code) }
    let g := match f.k, f.slot with
      | true, some 0 => { g with slot0 := { g.slot0 with cont := some snap } }
      | true, some _ => { g with slot1 := { g.slot1 with cont := some snap } }
      | _, _ => g
    let gen := g.gen + 1
    let g := { g with gen }
    let g := g.updFrame code (fun f =>
      { f with gen, state := 1, save := Vector.ofFn (fun i => a.s48 i.val), saveFe := a.full.extractLsb' 48 12,
               cspc := r.cspc, clpc := r.clpc, rkind := r.rkind, dest := r.dest, mask := r.mask, lqrem := r.lqrem,
               repj := r.repj, queue := r.queue, join := r.join, after := r.after, prevBase := g.lbase, hdep := g.frames.length,
               prep := if a.lqRun.isSome then a.lqRun else a.rep })
    let g := g.maskFrom code
    let tok := tokenOf gen code (if f.k then 2 else 1) g.gid
    let regs := Vector.ofFn (fun (i : Fin 64) =>
      if 48 ≤ i.val ∧ i.val < 56 then f.env.getD (i.val - 48) 0
      else if i.val = 56 then tok else if i.val = 57 then r.arg
      else if i.val = 58 then id.zeroExtend 64 else if i.val = 59 then r.mask.zeroExtend 64 else a.regs[i])
    let a := { a with rep := Option.none, regs, full := a.full ||| (0xFFF#64 <<< 48), spc := f.pc, wait := .none,
                      lqLeft := 0, lqWords := [], lqRun := Option.none, lqRep := 0, lqOwed := false }
    some { g with lbase := a.ldepth, core := { g.core with armA := a }, queue := tagQueue code gen g.queue }

/-- A group that has entered a handler, with its outstanding values on their way to the saved copy. -/
def State.putEntered (s : State) (t g code : Nat) (y : Group) : State :=
  (s.updGroup t g (fun _ => y)).tagSaved t g code y.gen

/-- The device effect of a fault (Table 6.8); 0 when the fault is never one. `tcp`: TILE_STATE was raised by a TCP. -/
def effectOf (code : Nat) (tcp : Bool) : Nat :=
  if code == cTWINQUOTA then 0x0002 else if code == cPAGE then 0x0010 else if code == cHURDLE then 0x0011
  else if code == cTILE && tcp then 0x0012 else 0

/-- TAKING A FAULT of a shepherd instruction (R68, R109, R172): where an unmasked frame answers its device effect and the
group is not split, the handler is entered with RKIND 2 and CSPC at the instruction; otherwise the ordinary course. -/
def State.raiseArm (s : State) (t : Team) (g : Group) (b : Bool) (f : Flt) (tcp : Bool) : State :=
  let e := effectOf f.code tcp
  if e == 0 || g.core.split then s.ordinary t g b f 1 else
  match g.search 0 (BitVec.ofNat 16 e) true with
  | .none | .root => s.ordinary t g b f 1
  | fr =>
    let a := g.core.arm b
    let r : Raise := { rkind := 2, mask := a.active, cspc := a.spc, clpc := a.lpc, arg := if e == 0x0012 then f.tile else f.addr }
    match g.enter fr.code (BitVec.ofNat 16 e) r with
    | some g' => s.putEntered t.id g.grpidx fr.code g'
    | Option.none => s.ordinary t g b { f with code := cTOKEN } 1

end Sys2Proof.Machine
end

