-- ==== Sys2Proof/Machine/Flags.lean ====
section
/-! DEFINITION. Every flag-like computation: the signature (R92), scalar comparisons and results (R70, R75, R76), integer
ranges, wrapping and clamping of the lane types (R122, R124, R127, R128), and integer lane comparisons (R131). -/

namespace Sys2Proof.Machine

open Sys2Proof

/-! ### Signature -/

/-- `n` steps of crc_word over the low bits of `w` (R92). -/
def crcSteps : Nat → Half → Half → Half
  | 0, c, _ => c
  | n + 1, c, w =>
    let b := (c ^^^ w) &&& 1
    let c := c >>> 1
    crcSteps n (if b = 1 then c ^^^ 0x82F63B78 else c) (w >>> 1)

/-- crc_word (R92): CRC-32C, reflected, no inversion. -/
def crcWord (c w : Half) : Half := crcSteps 32 c w

/-- Several event words through the signature, in order. -/
def crcWords (c : Half) (ws : List Half) : Half := ws.foldl crcWord c

/-! ### Scalar results (Table 5.1) -/

/-- Leading zeros of the low `n` bits. -/
def clzAux {w : Nat} : Nat → BitVec w → Nat
  | 0, _ => 0
  | n + 1, x => if x.getLsbD n then 0 else 1 + clzAux n x

/-- Set bits among the low `n` bits. -/
def popAux {w : Nat} : Nat → BitVec w → Nat
  | 0, _ => 0
  | n + 1, x => (if x.getLsbD n then 1 else 0) + popAux n x

/-- Quotient rounded toward zero; all ones for b = 0; the minimum by −1 gives the minimum (R70, R128). -/
def sdivW {w : Nat} (a b : BitVec w) : BitVec w := if b = 0 then BitVec.allOnes w else a.sdiv b
/-- Remainder with the sign of a; a for b = 0 (R70, R128). -/
def sremW {w : Nat} (a b : BitVec w) : BitVec w := if b = 0 then a else a.srem b
/-- Unsigned quotient; all ones for b = 0. -/
def udivW {w : Nat} (a b : BitVec w) : BitVec w := if b = 0 then BitVec.allOnes w else a.udiv b
/-- Unsigned remainder; a for b = 0. -/
def uremW {w : Nat} (a b : BitVec w) : BitVec w := if b = 0 then a else a.umod b

/-- High half of a signed product. -/
def mulhS {w : Nat} (a b : BitVec w) : BitVec w := BitVec.ofInt w ((a.toInt * b.toInt) / (2 ^ w : Nat))
/-- High half of an unsigned product. -/
def mulhU {w : Nat} (a b : BitVec w) : BitVec w := BitVec.ofNat w (a.toNat * b.toNat / 2 ^ w)

/-- `width` bits of a from bit `pos`, zero-extended; positions at or above w read as zero (R70, R127). -/
def bitExtract {w : Nat} (a : BitVec w) (pos width : Nat) : BitVec w := BitVec.ofNat w (a.toNat / 2 ^ pos % 2 ^ width)

/-- d with `width` bits from bit `pos` taken from a; positions at or above w are not written (R70, R127). -/
def bitInsert {w : Nat} (d a : BitVec w) (pos width : Nat) : BitVec w :=
  let m := (BitVec.ofNat w (2 ^ width - 1)) <<< pos
  (d &&& ~~~ m) ||| ((a <<< pos) &&& m)

/-- Signed less-than as a 0 or 1 value. -/
def flag {w : Nat} (c : Bool) : BitVec w := if c then 1 else 0

/-- BPANY's condition (R76). -/
def predAny (p m : Half) : Bool := p &&& m != 0
/-- BPALL's condition (R76). -/
def predAll (p m : Half) : Bool := m &&& ~~~ p == 0

end Sys2Proof.Machine

namespace Sys2Proof

/-! ### Lane integer types -/

/-- Least value of an integer type (Table 7.1). -/
def LType.lo (t : LType) : Int := if t.isSigned then -((2 ^ (t.bits - 1) : Nat) : Int) else 0
/-- Greatest value of an integer type (Table 7.1). -/
def LType.hi (t : LType) : Int := if t.isSigned then ((2 ^ (t.bits - 1) : Nat) : Int) - 1 else ((2 ^ t.bits : Nat) : Int) - 1

/-- The low bits of a type's width. -/
def LType.low (t : LType) (n : Nat) : Nat := n % 2 ^ t.bits

/-- The value of a type's bits: two's complement for i types. -/
def LType.toInt (t : LType) (n : Nat) : Int :=
  let x := t.low n
  if t.isSigned && 2 ^ (t.bits - 1) ≤ x then (x : Int) - ((2 ^ t.bits : Nat) : Int) else (x : Int)

/-- An integer modulo 2^w. -/
def LType.wrap (t : LType) (x : Int) : Nat := (x % ((2 ^ t.bits : Nat) : Int)).toNat

/-- An integer clamped to the type's range (R124). -/
def LType.clamp (t : LType) (x : Int) : Int := if x < t.lo then t.lo else if t.hi < x then t.hi else x

/-- The exact result wrapped, or clamped under SAT 1 (R124, R127). -/
def LType.result (t : LType) (sat : Bool) (x : Int) : Nat := t.wrap (if sat then t.clamp x else x)

/-- A result as it stands in a register (R122): i types of 8 or 16 bits sign-extended to 32 bits. -/
def LType.written (t : LType) (n : Nat) : Nat :=
  let x := t.low n
  if t.isSigned && t.bits < 32 && 2 ^ (t.bits - 1) ≤ x then x + (0x100000000 - 2 ^ t.bits) else x

/-- A result as a 64-bit scalar: sign-extended for i types, zero-extended otherwise (R147). -/
def LType.scalar (t : LType) (n : Nat) : Word :=
  let x := t.low n
  if t.isSigned && 2 ^ (t.bits - 1) ≤ x then BitVec.ofNat 64 (x + (0x10000000000000000 - 2 ^ t.bits)) else BitVec.ofNat 64 x

end Sys2Proof

namespace Sys2Proof.Machine

open Sys2Proof

/-- A comparison of R131 by its order: −1, 0 or 1, or none when an operand is NaN. -/
def cmpHolds (opc : Nat) (c : Option Int) : Bool :=
  match c with
  | none => opc == 0x101 || opc == 0x106
  | some o =>
    if opc == 0x100 then o == 0
    else if opc == 0x101 then o != 0
    else if opc == 0x102 then o < 0
    else if opc == 0x103 then o ≤ 0
    else if opc == 0x104 then 0 < o
    else if opc == 0x105 then 0 ≤ o
    else false

/-- Order of two integers. -/
def ordInt (a b : Int) : Int := if a < b then -1 else if a = b then 0 else 1

end Sys2Proof.Machine
end

