-- ==== Sys2Proof/Machine/Operands.lean ====
section
/-! DEFINITION. Every operand form: scalar immediates and offsets (R70 to R78), lane source codes (Table 4.9, R122),
broadcasts (R54), lane address forms (R137), full/empty tests over a scope (R25, R53) and lane destinations. -/

namespace Sys2Proof.Machine

open Sys2Proof

/-! ### Scalar operands -/

/-- A signed 13-bit immediate as 64 bits. -/
def sext13 (i : BitVec 13) : Word := i.signExtend 64

/-- Target of an SB branch at an address (R75). -/
def target13 (pc : Word) (off : BitVec 13) : Word := pc + 4 * off.signExtend 64

/-- Target of an SJ branch at an address (R77). -/
def target25 (pc : Word) (off : BitVec 25) : Word := pc + 4 * off.signExtend 64

/-! ### Lane sources -/

/-- Is a source code a v register? -/
def isV (c : BitVec 9) : Bool := c.toNat < 320

/-- Is a source code a scalar broadcast (Table 4.9)? -/
def isS (c : BitVec 9) : Bool := 384 ≤ c.toNat && c.toNat ≤ 447

/-- The scalar of a broadcast code. -/
def sOf (c : BitVec 9) : SReg := BitVec.ofNat 6 (c.toNat - 384)

/-- Raw bits of a lane source (R122): 32 bits, or 64 for a 64-bit type. `signImm`: IMM of a 64-bit type is sign-extended. -/
def laneRaw (core : Core) (grpidx : Nat) (code : BitVec 9) (bc : Word) (imm : Half) (is64 signImm : Bool) (lane : Nat) : Nat :=
  let c := code.toNat
  if c < 320 then core.vread c is64 lane
  else if c ≤ 447 then (if is64 then bc.toNat else (bc.extractLsb' 0 32).toNat)
  else if c = 448 then 0
  else if c = 449 then lane
  else if c = 450 then lane / 4
  else if c = 451 then lane % 4
  else if c = 452 then grpidx
  else if is64 && signImm then (imm.signExtend 64 : Word).toNat
  else imm.toNat

/-- A source in a type: its low w bits. -/
def laneSrc (core : Core) (grpidx : Nat) (code : BitVec 9) (bc : Word) (imm : Half) (ty : LType) (lane : Nat) : Nat :=
  ty.low (laneRaw core grpidx code bc imm ty.is64 (ty == .i64) lane)

/-- The value that a broadcast field takes at enqueue (R54); 0 for any other code. -/
def broadcast (a : Arm) (code : BitVec 9) : Word := if isS code then a.get (sOf code) else 0

/-- An address base of lane L (R137). -/
def laneBase (core : Core) (code : BitVec 9) (bc : Word) (lane : Nat) : Word :=
  if isS code then bc else toWord (core.vread code.toNat true lane)

/-- The effective address of lane L (R137). -/
def laneAddr (core : Core) (grpidx : Nat) (f : LaneFields) (bcA bcB : Word) (lane : Nat) : Word :=
  let idx : Half := BitVec.ofNat 32 (laneRaw core grpidx f.sb bcB 0 false false lane)
  let ext : Word := if f.isign then idx.signExtend 64 else idx.zeroExtend 64
  laneBase core f.sa bcA lane + (ext <<< f.scale) + f.disp

/-! ### Full/empty tests -/

/-- Lanes in which a register (pair) is empty. -/
def Core.emptyLanes (c : Core) (n : Nat) (is64 : Bool) : Half :=
  ~~~ (c.vfullOf n &&& (if is64 then c.vfullOf (n + 1) else allLanes))

/-- A lane register operand: its number, width and FEB bit; `always` when FEB does not apply to it. -/
structure VOp where
  n : Nat
  is64 : Bool
  feb : Bool
  deriving DecidableEq, Repr

/-- Lanes in which an operand makes the instruction wait: an empty source of the scope that does not trap (R25). -/
def VOp.blocks (c : Core) (scope active : Half) (o : VOp) : Half :=
  c.emptyLanes o.n o.is64 &&& scope &&& (if o.feb then ~~~ active else allLanes)

/-- Lanes in which an operand traps: an empty source of an active lane under FEB (R25). -/
def VOp.traps (c : Core) (active : Half) (o : VOp) : Half :=
  if o.feb then c.emptyLanes o.n o.is64 &&& active else 0

/-- The v register operand of a source field, when it is one. -/
def vopOf (code : BitVec 9) (is64 feb : Bool) : List VOp := if isV code then [⟨code.toNat, is64, feb⟩] else []

/-- A destination as an operand that always blocks (R53). -/
def dstOp (n : Nat) (is64 : Bool) : List VOp := [⟨n, is64, false⟩]

end Sys2Proof.Machine
end

