-- ==== Sys2Proof/Machine/Translate.lean ====
section
/-! DEFINITION. Addresses: windows (R32), the table walk (R33, R34, R179), home dies and slices (R20, R222), halo cells
(R233 to R235), hurdles (R24, R192), view trees that hold a page (R35, R36), and the access checks of Tables 5.2 and 8.2. -/

namespace Sys2Proof.Machine

open Sys2Proof

/-! ### Windows -/

/-- Where a virtual address lies (R32, Table 3.2). -/
inductive Window where
  | lower
  | own (off : Nat)
  | flock (k off : Nat)
  | host
  | peer (p : Nat)
  | outside
  deriving DecidableEq, Repr

/-- The window of an address. -/
def windowOf (va : Nat) : Window :=
  if va < 0x80000000000000 then .lower
  else if inOwnWindow va then .own (va - ownWindow)
  else if flockWindow ≤ va && va < flockWindow + 16 * spadBytes then .flock ((va - flockWindow) / spadBytes) ((va - flockWindow) % spadBytes)
  else if 0xFFFFC00000000000 ≤ va && va < 0xFFFFC00000000000 + 0x200000000000 then .host
  else if 0xFFF0000000000000 ≤ va && va < 0xFFF0000000000000 + 0x400000000000 then .peer ((va - 0xFFF0000000000000) / 0x10000000000)
  else .outside

/-! ### Page-table entries -/

/-- V of a leaf (Table 3.3). -/
def pteV (e : BitVec 64) : Bool := e.getLsbD 0
/-- RO. -/
def pteRO (e : BitVec 64) : Bool := e.getLsbD 1
/-- VIEWED. -/
def pteViewed (e : BitVec 64) : Bool := e.getLsbD 2
/-- VOP. -/
def pteVop (e : BitVec 64) : Nat := (e.extractLsb' 3 4).toNat
/-- ELEM. -/
def pteElem (e : BitVec 64) : Nat := (e.extractLsb' 7 2).toNat
/-- ZTWIN. -/
def pteZtwin (e : BitVec 64) : Bool := e.getLsbD 9
/-- CAUSAL. -/
def pteCausal (e : BitVec 64) : Bool := e.getLsbD 10
/-- HALO. -/
def pteHalo (e : BitVec 64) : Bool := e.getLsbD 11
/-- SIZE. -/
def pteSize (e : BitVec 64) : Nat := (e.extractLsb' 12 2).toNat
/-- PA[55:16] in place. -/
def ptePA (e : BitVec 64) : Nat := (e.extractLsb' 16 40).toNat * 0x10000
/-- HOMESEL: the pinned slice, when the page is pinned (R33). -/
def ptePin (e : BitVec 64) : Option Nat := if e.getLsbD 61 then some (e.extractLsb' 56 5).toNat else none

/-- Bytes of a page by its SIZE. -/
def pageBytes (size : Nat) : Nat := if size = 0 then 0x10000 else if size = 1 then 0x200000 else 0x40000000

/-- A leaf entry is accepted (Tables 3.3, 3.4). `win`: the address lies in the host window or a peer window. -/
def leafOk (win : Bool) (size : Nat) (e : BitVec 64) : Bool :=
  pteV e && pteSize e == size && size < 3 && e.extractLsb' 62 2 == 0 && e.extractLsb' 14 2 == 0 &&
  ptePA e % pageBytes size == 0 &&
  (e.getLsbD 61 || e.extractLsb' 56 5 == 0) &&
  (pteViewed e || (pteVop e == 0 && pteElem e == 0 && !pteZtwin e)) &&
  !(pteViewed e && (pteCausal e || pteHalo e)) && !(pteCausal e && pteHalo e) &&
  pteVop e < 7 &&
  (!(pteVop e == 0 || pteVop e == 5 || pteVop e == 6) || pteElem e == 0) &&
  (pteVop e != 4 || pteElem e == 2) &&
  !(win && (pteViewed e || pteCausal e))

/-- A pointer entry to a table aligned on 2^`align` bytes: the table's physical address (R179). -/
def pointerOf (align : Nat) (e : BitVec 64) : Option Nat :=
  if e.getLsbD 0 && e.extractLsb' 14 2 == 1 && e.extractLsb' 1 13 == 0 then
    let pa := (e.extractLsb' 16 48).toNat * 0x100
    if pa % 2 ^ align == 0 then some pa else none
  else none

/-- Read a 64-bit entry of a table. -/
def State.tableEntry (s : State) (c : Context) (table idx : Nat) : BitVec 64 :=
  BitVec.ofNat 64 (s.mem.le (c.ga (table + 8 * idx)) 8)

/-- The leaf entry that a walk finds for a virtual address (R179); none: PAGE. -/
def State.walk (s : State) (c : Context) (win : Bool) (va : Nat) : Option (BitVec 64) :=
  let idx := fun (lo n : Nat) => va / 2 ^ lo % 2 ^ n
  match pointerOf 16 (s.tableEntry c c.ptRoot (idx 43 13)) with
  | none => none
  | some t2 =>
    let e2 := s.tableEntry c t2 (idx 30 13)
    if leafOk win 2 e2 then some e2
    else match pointerOf 12 e2 with
      | none => none
      | some t1 =>
        let e1 := s.tableEntry c t1 (idx 21 9)
        if leafOk win 1 e1 then some e1
        else match pointerOf 8 e1 with
          | none => none
          | some t0 =>
            let e0 := s.tableEntry c t0 (idx 16 5)
            if leafOk win 0 e0 then some e0 else none

/-- The first address of the page of an entry that an address lies in. -/
def pageBase (e : BitVec 64) (va : Nat) : Nat := va / pageBytes (pteSize e) * pageBytes (pteSize e)

/-- Does an entry of unit `unit` (a core or a die) translate an address of context `n`? -/
def TlbEntry.hits (x : TlbEntry) (unit n va : Nat) : Bool := x.unit == unit && x.ctx == n && x.va == pageBase x.pte va

/-- The translation of an address for a core: its L1 TLB, the L2 TLB of its die, else a walk (R179, R180). -/
def State.translate (s : State) (c : Context) (core : Nat) (win : Bool) (va : Nat) : Option (BitVec 64) :=
  match s.tlb1.find? (fun x => x.hits core c.num va) with
  | some x => some x.pte
  | none =>
    match s.tlb2.find? (fun x => x.hits (dieOf core) c.num va) with
    | some x => some x.pte
    | none => s.walk c win va

/-- A TLB with one more entry: when those of its unit are `cap`, one of them leaves (log 79). -/
def tlbAdd (cap pick : Nat) (l : List TlbEntry) (x : TlbEntry) : List TlbEntry :=
  if l.any (fun y => y.hits x.unit x.ctx x.va) then l
  else
    let mine := l.filter (fun y => y.unit == x.unit)
    x :: (if mine.length < cap then l
      else match mine[pick % mine.length]? with | some v => l.filter (fun y => y != v) | none => l)

/-- Keep a translation: 64 entries in the L1 TLB of a core, 8192 in the L2 TLB of a die (R179). -/
def State.fillTlb (s : State) (core n va : Nat) (e : BitVec 64) : State :=
  let x := fun (unit : Nat) => ({ unit, ctx := n, va := pageBase e va, pte := e } : TlbEntry)
  { s with tlb1 := tlbAdd 64 (Config.victim s.fresh) s.tlb1 (x core),
           tlb2 := tlbAdd 8192 (Config.victim s.fresh) s.tlb2 (x (dieOf core)) }

/-- The physical address of an address under its leaf. -/
def leafPa (e : BitVec 64) (va : Nat) : Nat := ptePA e + va % pageBytes (pteSize e)

/-! ### Homes -/

/-- The home die of a package address (R20). While no context exists no mode is in force, and mode ONE's places hold: DESIGN CHOICE
(log 81). -/
def State.homeDie (s : State) (ga : Nat) : Nat :=
  let dev := ga / 0x100000000000000
  match s.mode with
  | some 1 => dev % 2 * 4 + ga / 4096 % 4
  | some 2 => dev % 8
  | _ => ga / 4096 % 8

/-- The in-die number of the home slice (R20, R33). -/
def homeSlice (e : BitVec 64) (ga : Nat) : Nat :=
  match ptePin e with
  | some k => k
  | none => (ga / 128 % 32) ^^^ (ga / 32768 % 32)

/-- The bucket of a package address (R227). -/
def bucketOf (ga : Nat) : Nat := (ga / 0x10000 % 64) ^^^ (ga / 0x400000 % 64)

/-- The bit of a bucket. -/
def bucketBit (ga : Nat) : BitVec 64 := 1#64 <<< bucketOf ga

/-! ### Halo cells -/

/-- Element size of a region (Table 14.4). -/
def Region.esz (r : Region) : Nat := 2 ^ r.esize

/-- Bytes of one tile's storage (R233). -/
def Region.storage (r : Region) : Nat := (r.h + 2 * r.hw) * r.rpitch

/-- The region, tile and offset that a package address stands for; none outside every tile's storage. -/
def State.haloCell (s : State) (ga : Nat) : Option (Region × Nat × Nat) :=
  s.regions.findSome? (fun r =>
    match r.pieces.find? (fun p => p.2.2 == ga / 4096 * 4096) with
    | some (t, k, _) => if k * 4096 + ga % 4096 < r.storage then some (r, t, k * 4096 + ga % 4096) else none
    | none => none)

/-- Does the 64 KiB frame, or any part of the larger page, hold storage of a declared region (R234)? -/
def State.haloPage (s : State) (base bytes : Nat) : Bool :=
  s.regions.any (fun r => r.pieces.any (fun p => base ≤ p.2.2 && p.2.2 < base + bytes))

/-- The neighbour offset of one coordinate of a ring cell (R235). -/
def haloDir (x lo hi : Nat) : Int := if x < lo then -1 else if hi ≤ x then 1 else 0

/-- The source of a replica cell: tile, row and column; none when the byte at offset `o` of tile `t` is no replica (R235). -/
def Region.sourceOf (r : Region) (t o : Nat) : Option (Nat × Nat × Nat) :=
  let row := o / r.rpitch
  let col := o % r.rpitch / r.esz
  if r.w + 2 * r.hw ≤ col then none
  else
    let dx := haloDir col r.hw (r.w + r.hw)
    let dy := haloDir row r.hw (r.h + r.hw)
    if dx = 0 ∧ dy = 0 then none
    else if dx ≠ 0 ∧ dy ≠ 0 ∧ r.corners = false then none
    else
      let nx : Int := (t % r.tx : Nat) + dx
      let ny : Int := (t / r.tx : Nat) + dy
      if nx < 0 ∨ (r.tx : Int) ≤ nx ∨ ny < 0 ∨ (r.ty : Int) ≤ ny then none
      else some (ny.toNat * r.tx + nx.toNat, ((row : Int) - dy * r.h).toNat, ((col : Int) - dx * r.w).toNat)

/-- The virtual address of a tile's byte (R233). -/
def Region.addrOf (r : Region) (t o : Nat) : Nat := r.base + t * r.tstride + o / 4096 * r.pstride + o % 4096

/-- The package address of a tile's byte, as recorded at the declaration. -/
def Region.gaOf (r : Region) (t o : Nat) : Nat :=
  match r.pieces.find? (fun p => p.1 == t && p.2.1 == o / 4096) with
  | some p => p.2.2 + o % 4096
  | none => 0

/-! ### Who accesses -/

/-- The agent of an access: its context, team, view and core, and the translations that it keeps (R194). `engine`: a copy or a MAMAX, whose
writes to a CAUSAL page fault PROTECTION (R269). -/
structure Who where
  ctx : Context
  team : Option Team
  view : Option Nat
  core : Nat
  held : List TlbEntry := []
  engine : Bool := false
  deriving DecidableEq, Repr

/-- The agent of a team; none when the context is gone. -/
def State.who (s : State) (t : Team) : Option Who :=
  (s.ctx? t.ctx).map (fun c => { ctx := c, team := some t, view := t.view, core := t.coreNum })

/-- Kind of access: `atomic` is AMOS (Table 5.2), `vatomic` a lane atomic (Table 8.2). -/
inductive AKind where
  | load | store | atomic | vatomic
  deriving DecidableEq, Repr

/-- Does the access write? -/
def AKind.writes : AKind → Bool
  | .load => false
  | _ => true

/-- The view of an agent and its ancestors, nearest first. `fuel` bounds the depth (R248). -/
def State.viewChain (s : State) : Nat → Option Nat → List View
  | 0, _ => []
  | _, none => []
  | fuel + 1, some v =>
    match s.view? v with
    | some x => x :: State.viewChain s fuel x.parent
    | none => []

/-- Is a child set open (R35, R36)? -/
def ChildSet.opened (x : ChildSet) : Bool :=
  x.kind != .openLaunch && (x.phase == .running || x.phase == .joined || x.phase == .committed)

/-- The latched fields of the held page that a frame lies in. -/
def ChildSet.heldPage (x : ChildSet) (frame : Nat) : Option HeldPage :=
  x.held.find? (fun h => decide (h.page ≤ frame) && decide (frame < h.page + h.frames))

/-- The tree itself holds the page that a frame lies in: a view of its own has stored to it (R36). -/
def ChildSet.holds (x : ChildSet) (frame : Nat) : Bool := match x.heldPage frame with | some h => h.own | none => false

/-- A tree latches a page's fields (R35). `h.own`: by a store of its own view. -/
def ChildSet.latched (x : ChildSet) (h : HeldPage) : ChildSet :=
  if (x.heldPage h.page).isNone then { x with held := h :: x.held }
  else { x with held := updWhere (fun (y : HeldPage) => y.page == h.page) (fun y => { y with own := y.own || h.own }) x.held }

/-- Do latched fields agree with an entry (R37)? -/
def HeldPage.agrees (h : HeldPage) (e : BitVec 64) : Bool :=
  pteViewed e && h.vop == pteVop e && h.elem == pteElem e && h.ztwin == pteZtwin e

/-- The open sets of the trees an agent with a chain of views belongs to. -/
def State.treesOf (s : State) (ch : List View) : List ChildSet := ch.filterMap (fun v => s.set? v.set)

/-- A held page of a tree that the agent belongs to, in a view of it or as the team that forked it, disagrees with the entry now in
force (R37). -/
def State.latchClash (s : State) (w : Who) (frame : Nat) (e : BitVec 64) : Bool :=
  let forked := s.sets.filter (fun x => x.opened && (match w.team with | some t => x.parent == some t.id | none => false))
  (s.treesOf (s.viewChain treeFuel w.view) ++ forked).any (fun x => match x.heldPage frame with | some h => !h.agrees e | none => false)

/-- A store to committed memory meets a root tree that holds its page (R36, R254). Where only a nested tree of it holds the page, the
device chooses (Case 16.2, log 12). -/
def State.rootHolds (s : State) (frame va : Nat) : Bool :=
  let roots := s.sets.filter (fun x => x.opened && x.kind != .nestedFork && (x.heldPage frame).isSome)
  roots.any (fun x => x.holds frame) || (!roots.isEmpty && Config.intrusionFaults s.fresh va)

/-- Does a store through a VIEWED entry target the parent storage of a tree that holds it (R36, R254)? A store in a view of
another root tree is the device's choice (log 12). -/
def State.intrudes (s : State) (w : Who) (frame va : Nat) : Bool :=
  match w.view with
  | none => s.rootHolds frame va
  | some v =>
    s.sets.any (fun x => x.opened && x.kind == .nestedFork && x.parentView == some v && x.holds frame) ||
    (let own := s.treesOf (s.viewChain treeFuel w.view)
     s.sets.any (fun x => x.opened && x.kind != .nestedFork && (x.heldPage frame).isSome && !own.any (fun y => y.id == x.id)) &&
      Config.intrusionFaults s.fresh va)

/-- The targets in a view of writes that have been issued and are not performed yet: stores, and atomics. -/
def State.writesInView (s : State) (v : View) : List Target :=
  (s.heldWrites.filter (fun h => h.view == some v.id)).map (fun h => h.t) ++
  (s.pending.filter (fun p => (s.team? p.team).bind (fun t => t.view) == some v.id)).flatMap (fun p =>
    (p.items.filter (fun i => i.upd.isSome && i.val.isNone)).map (fun i => i.t))

/-- The granules of a view that are dirty, or become so with a write that has been issued (R257). -/
def State.dirtyIn (s : State) (v : View) : List Nat :=
  (s.writesInView v).foldl (fun (l : List Nat) t =>
    match t.loc with
    | .dev ga => if pteViewed t.pte && !l.contains (ga / 128 * 128) then (ga / 128 * 128) :: l else l
    | _ => l) (v.dirty.map (fun d => d.ga))

/-- Does a first store to a granule go beyond the view's quota (R257)? -/
def State.overQuota (s : State) (w : Who) (ga : Nat) : Bool :=
  match w.view.bind s.view? with
  | some v => !(s.dirtyIn v).contains (ga / 128 * 128) && v.quota ≤ (s.dirtyIn v).length
  | none => false

/-- A hurdle range meets bytes lo to hi − 1 of a space: memory ranges of the same core, scratchpad ranges by location,
whichever core's table holds them (R192). -/
def State.hurdled (s : State) (core : Nat) (sp : Space) (lo hi : Nat) : Bool :=
  s.hurdles.any (fun h => (h.core == core || (match sp with | .va _ => false | _ => true)) && h.space == sp && h.lo < hi && lo < h.hi)

/-- Is peer `p` unreachable: no live wavelength in one direction (R288)? -/
def State.peerDown (s : State) (p : Nat) : Bool :=
  let live := fun (rx : Bool) => s.fibres.any (fun f => f.peer == p && f.trained && (decide (8 ≤ f.num % 16) == rx) && f.dark != BitVec.allOnes 128)
  !(live false && live true)

/-- The team whose scratchpad a flock window names (R14, R28, Table 3.2). -/
def State.flockMate (s : State) (t : Team) (k : Nat) : Option Team :=
  if t.flockPos.isNone then none
  else s.teams.find? (fun x => x.set == t.set && x.childIdx == t.childIdx && x.run == t.run && x.flockPos == some k)

/-- The entry by which an agent reaches an address: one that it keeps, else the translation of its core (R179, R194). -/
def State.pteOf (s : State) (w : Who) (win : Bool) (va : Nat) : Option (BitVec 64) :=
  match w.held.find? (fun x => x.va == pageBase x.pte va) with
  | some x => some x.pte
  | none => s.translate w.ctx w.core win va

/-- Does one of `n` bytes lie in a replica cell, by the physical addresses that the declarations recorded (R234, R235)? -/
def State.meetsReplica (s : State) (ga n : Nat) : Bool :=
  (List.range n).any (fun i => match s.haloCell (ga + i) with | some (r, t, o) => (r.sourceOf t o).isSome | none => false)

/-- The checks of Tables 5.2 and 8.2 past alignment, in their order, for bytes of one page: the target, or the fault code. The
lost-die test comes last. Every PA[55:0] is an address of memory, above the 128 GiB of a die too: DESIGN CHOICE (log 80). -/
def State.checkAny (s : State) (w : Who) (k : AKind) (a size : Nat) : Except Nat Target :=
  let spad := fun (t : Team) (off : Nat) =>
    if t.spch * 4096 ≤ off then .error cPROTECTION
    else if s.hurdled w.core (.spad t.id) off (off + size) then .error cHURDLE
    else .ok { va := a, loc := .spad t.id off, pte := 0, size }
  match windowOf a with
  | .outside => .error cPAGE
  | .own off =>
    match w.team with
    | some t => spad t off
    | none => .error cPAGE
  | .flock k off =>
    match w.team.bind (fun t => s.flockMate t k) with
    | some t => spad t off
    | none => .error cPROTECTION
  | win =>
    let isWin := win != .lower
    match s.pteOf w isWin a with
    | none => .error cPAGE
    | some e =>
      let pa := leafPa e a
      let ga := w.ctx.ga pa
      let frame := ga / 0x10000
      if pteHalo e && (isWin || !s.haloPage (w.ctx.ga (ptePA e)) (pageBytes (pteSize e))) then .error cPAGE
      else if !isWin && s.latchClash w frame e then .error cPAGE
      else if k.writes && (pteRO e || (w.engine && pteCausal e)) then .error cPROTECTION
      else match win with
      | .host =>
        if s.hurdled w.core (.va w.ctx.num) a (a + size) then .error cHURDLE
        else .ok { va := a, loc := .host pa, pte := e, size }
      | .peer p =>
        if p == s.peerNumber || k == .vatomic then .error cPROTECTION
        else if s.hurdled w.core (.va w.ctx.num) a (a + size) then .error cHURDLE
        else if (k == .load || k == .atomic) && s.peerDown p then .error cFABRICLOST
        else .ok { va := a, loc := .peer p pa, pte := e, size }
      | _ =>
        if k.writes && s.meetsReplica ga size then .error cPROTECTION
        else if k.writes && (if pteViewed e then s.intrudes w frame a else s.rootHolds frame a) then .error cINTRUSION
        else if s.hurdled w.core (.va w.ctx.num) a (a + size) then .error cHURDLE
        else if k.writes && pteViewed e && s.overQuota w ga then .error cTWINQUOTA
        else if s.removedDies.contains (s.homeDie ga) then .error cFABRICLOST
        else .ok { va := a, loc := .dev ga, pte := e, size }

/-- The checks of Tables 5.2 and 8.2, in their order: alignment first. -/
def State.check (s : State) (w : Who) (k : AKind) (va : Word) (size : Nat) : Except Nat Target :=
  if va.toNat % size != 0 then .error cMISALIGNED else s.checkAny w k va.toNat size

/-- Keep the translation of a checked access. -/
def State.touch (s : State) (w : Who) (t : Target) : State :=
  match t.loc with
  | .spad _ _ => s
  | _ => s.fillTlb w.core w.ctx.num t.va t.pte

end Sys2Proof.Machine
end

