-- ==== Sys2Proof/Machine/Slices.lean ====
section
/-! DEFINITION. Performing loads and stores at their homes: views and twins (R35, R253), the caches and their metadata
(R221 to R232, R140, R141), poison (R240, R241), the host's lines (R238) and the scratchpads. -/

namespace Sys2Proof.Machine

open Sys2Proof

/-! ### Poison -/

/-- The 32-byte sectors that meet bytes a to a + n − 1. -/
def sectorsOf (a n : Nat) : List Nat := (List.range ((a + n + 31) / 32 - a / 32)).map (fun i => a / 32 * 32 + 32 * i)

/-- Is a sector poisoned (R241)? -/
def State.poisoned (s : State) (a n : Nat) : Bool := (sectorsOf a n).any (fun x => s.poison.contains x)

/-- A write that covers a whole sector clears its poison (R241). -/
def State.clearPoison (s : State) (a n : Nat) : State :=
  { s with poison := s.poison.filter (fun x => !(a ≤ x && x + 32 ≤ a + n)) }

/-- A write meets a poisoned sector that it does not cover whole: a consumption (R241). -/
def State.partialPoison (s : State) (a n : Nat) : Bool :=
  (sectorsOf a n).any (fun x => s.poison.contains x && !(a ≤ x && x + 32 ≤ a + n))

/-! ### Lines -/

/-- A line of zeros. -/
def zeroLine : Line := Vector.replicate 128 0

/-- Line number of a package address. -/
def lineOf (ga : Nat) : Nat := ga / 128

/-- The poisoned sectors of a line at home. -/
def State.lineBad (s : State) (line : Nat) : BitVec 4 :=
  (List.range 4).foldl (fun (m : BitVec 4) i => if s.poison.contains (line * 128 + 32 * i) then m ||| (1#4 <<< i) else m) 0

/-- Sectors of a granule that bytes from offset o to o + n − 1 cover whole. -/
def wholeSectors (o n : Nat) : BitVec 4 :=
  (List.range 4).foldl (fun (m : BitVec 4) i => if o ≤ 32 * i && 32 * i + 32 ≤ o + n then m ||| (1#4 <<< i) else m) 0

/-- Sectors of a granule that bytes from offset o to o + n − 1 meet. -/
def metSectors (o n : Nat) : BitVec 4 :=
  (List.range 4).foldl (fun (m : BitVec 4) i => if o < 32 * i + 32 && 32 * i < o + n then m ||| (1#4 <<< i) else m) 0

/-- The 128 bytes of a line as they stand at home. -/
def State.lineData (s : State) (line : Nat) : Line := Vector.ofFn (fun i => cellRead s.mem (line * 128 + i.val))

/-- The global number of the home slice (R20, R222). -/
def State.sliceOf (s : State) (e : BitVec 64) (ga : Nat) : Nat := s.homeDie ga * 32 + homeSlice e ga

/-- Set of an address in its slice (R221). -/
def setOf (line : Nat) : Nat := line / 256 % 4096

/-- Enabled ways of a slice (R224). -/
def State.waysOf (s : State) (slice : Nat) : Nat := 16 - (s.offWays.filter (fun x => x / 16 == slice)).length

/-- Infield ways of a slice (R221, R224). -/
def State.inWays (s : State) (slice : Nat) : Nat := s.waysOf slice - (s.sliceCfg (slice / 32)).outways

/-- The infield line of a package line. -/
def State.inLine? (s : State) (line : Nat) : Option InLine := s.infield.find? (fun l => l.line == line)

/-- Pins of a set. -/
def State.pinsIn (s : State) (slice set : Nat) : Nat :=
  (s.infield.filter (fun l => l.slice == slice && setOf l.line == set && l.pin)).length

/-- Remove the oldest member of a list that satisfies `p`. -/
def dropFirst {α : Type} (p : α → Bool) : List α → List α
  | [] => []
  | x :: xs => if p x then xs else x :: dropFirst p xs

/-- Make room in a set for one more infield line: the oldest unpinned line leaves, and its SIG is lost (R228). -/
def State.roomIn (s : State) (slice set : Nat) : State :=
  if (s.infield.filter (fun l => l.slice == slice && setOf l.line == set)).length < s.inWays slice then s
  else { s with infield := dropFirst (fun l => l.slice == slice && setOf l.line == set && !l.pin) s.infield }

/-- Bring a line into its home slice (SIGK = 0 when filled from HBM, R221); none of it when every infield way is pinned:
bypass (R232). -/
def State.fillIn (s : State) (slice line : Nat) : State :=
  if (s.inLine? line).isSome then s
  else if s.inWays slice ≤ s.pinsIn slice (setOf line) then s
  else
    let s := s.roomIn slice (setOf line)
    { s with infield := s.infield ++ [{ line, slice, dirty := false, pin := false, pinCtx := 0, sigk := false, sig := 0, ctx := none }] }

/-- The signature that a home-served load returns: SIG, or all ones when SIGK = 0 (R229). -/
def State.sigOf (s : State) (line : Nat) : BitVec 64 :=
  match s.inLine? line with
  | some l => if l.sigk then l.sig else BitVec.allOnes 64
  | none => BitVec.allOnes 64

/-- A write reaches an infield line: D, CTX (R221) and, for a release, W into SIG (R228). -/
def State.writeIn (s : State) (line : Nat) (ctx : Option Nat) (rel : Option (BitVec 64)) : State :=
  { s with infield := updWhere (fun l => l.line == line) (fun l =>
      { l with dirty := true, ctx := if l.dirty then (if l.ctx == ctx then l.ctx else none) else ctx,
               sigk := l.sigk || rel.isSome, sig := match rel with | some w => l.sig ||| w | none => l.sig }) s.infield }

/-- Drop L1 presence of a line in the L1s of a die other than core `keep`'s (R226). `.ro` lines stay (R141). -/
def State.dropL1 (s : State) (die line : Nat) (keep : Option Nat) : State :=
  { s with l1 := s.l1.filter (fun x => x.ro || !(x.line == line && dieOf x.core == die && some x.core != keep)) }

/-- Drop a die's outfield copy of a line. -/
def State.dropOut (s : State) (die : Nat) (peer : Option Nat) (line : Nat) : State :=
  { s with outfield := s.outfield.filter (fun x => !(x.die == die && x.peer == peer && x.line == line)) }

/-- An outfield copy. -/
def State.outLine? (s : State) (die : Nat) (peer : Option Nat) (line : Nat) : Option OutLine :=
  s.outfield.find? (fun x => x.die == die && x.peer == peer && x.line == line)

/-- Place a line in an outfield way of the proxy slice; the oldest line of the set leaves when its ways are full, with its copies in
the die's L1s (R221, R226). -/
def State.fillOut (s : State) (die : Nat) (peer : Option Nat) (slice line : Nat) (data : Line) (bad : BitVec 4) : State :=
  let ways := min (s.sliceCfg die).outways (s.waysOf (die * 32 + slice))
  if ways = 0 || (s.outLine? die peer line).isSome then s
  else
    let same := fun (x : OutLine) => x.die == die && x.slice == slice && setOf x.line == setOf line
    let s :=
      if (s.outfield.filter same).length < ways then s
      else match s.outfield.find? same with
      | some v => { (if v.peer.isNone then s.dropL1 die v.line none else s) with outfield := dropFirst same s.outfield }
      | none => s
    { s with outfield := s.outfield ++ [{ die, peer, slice, line, data, bad }] }

/-- A core's L1 copy of a line. -/
def State.l1Line? (s : State) (core line : Nat) : Option L1Line := s.l1.find? (fun x => x.core == core && x.line == line && !x.ro)

/-- Put a line into a core's L1: 256 KiB in 8 ways (R22). The set of a line is its number modulo 256, and in a full set one line leaves
(log 79). -/
def State.putL1 (s : State) (x : L1Line) : State :=
  let mine := s.l1.filter (fun y => y.core == x.core && y.line % 256 == x.line % 256)
  { s with l1 := x :: (if mine.length < 8 then s.l1
      else match mine[Config.victim s.fresh % mine.length]? with | some v => dropFirst (fun y => y == v) s.l1 | none => s.l1) }

/-- Allocate a line in a core's L1 (R140). `data` and `bad`: its bytes and poisoned sectors, when another die is its home. -/
def State.fillL1 (s : State) (core line : Nat) (data : Line) (bad : BitVec 4) : State :=
  if (s.l1Line? core line).isSome then s else s.putL1 { core, ro := false, grid := 0, line, data, bad }

/-- Allocate a line of the core's own die, unless it bypasses its slice (R140, R232). -/
def State.fillOwn (s : State) (core line : Nat) : State :=
  if (s.inLine? line).isSome then s.fillL1 core line zeroLine 0 else s

/-- Copies of a line of another die that the die has replaced leave: an outfield copy with its copies in the L1s, or the L1 copy of one
core (R140, R226, log 49). -/
def State.replaced (s : State) (die core line : Nat) : State :=
  let s := if Config.cacheKeeps s.fresh (2 * line + 1) then s else (s.dropOut die none line).dropL1 die line none
  if Config.cacheKeeps s.fresh (2 * line) then s
  else { s with l1 := s.l1.filter (fun x => x.ro || x.core != core || x.line != line) }

/-- Invalidate outfield lines of a die whose bucket is in `m`, with the L1 copies of lines of other dies in the same
buckets (R229). `peers`: every peer line too. -/
def State.invalidateOut (s : State) (die : Nat) (m : BitVec 64) (peers : Bool) : State :=
  let gone := fun (x : OutLine) => x.die == die && (if x.peer.isSome then peers else m &&& bucketBit (x.line * 128) != 0)
  { s with outfield := s.outfield.filter (fun x => !gone x),
           l1 := s.l1.filter (fun x => x.ro || !(dieOf x.core == die && s.homeDie (x.line * 128) != die && m &&& bucketBit (x.line * 128) != 0)) }

/-- Invalidate every outfield line of a die and every L1 copy of one (R227, R230). -/
def State.sweepDie (s : State) (die : Nat) : State := s.invalidateOut die (BitVec.allOnes 64) true

/-- The write accumulators of all cores of a die. -/
def State.dieW (s : State) (die : Nat) : BitVec 64 := s.w.foldl (fun m x => if dieOf x.1 == die then m ||| x.2 else m) 0

/-- An acquire of a core, at flock scope or wider, may synchronise with a release of another core of its die at flock or die scope, which
carries no signature: the core's later releases then stand for that core's writes too (R46, log 96). -/
def State.acquireW (s : State) (core scope : Nat) : State := if 2 ≤ scope then s.orW core (s.dieW (dieOf core)) else s

/-! ### Views (R35, R253) -/

/-- The view's dirty copy of a granule. -/
def View.granule? (v : View) (ga : Nat) : Option Granule := v.dirty.find? (fun d => d.ga == ga)

/-- A granule as a view chain sees it: the nearest dirty copy, else committed memory (R35). -/
def State.seen (s : State) (ch : List View) (ga : Nat) : Line :=
  match ch.findSome? (fun v => v.granule? ga) with
  | some g => g.data
  | none => s.lineData (ga / 128)

/-- The poisoned sectors of a granule as a view chain sees it (R241). -/
def State.seenBad (s : State) (ch : List View) (ga : Nat) : BitVec 4 :=
  match ch.findSome? (fun v => v.granule? ga) with
  | some g => g.bad
  | none => s.lineBad (ga / 128)

/-- Is a sector that bytes a to a + n − 1 meet poisoned, as a view chain sees them? -/
def State.seenPoison (s : State) (ch : List View) (ga n : Nat) : Bool :=
  (sectorsOf ga n).any (fun x => (s.seenBad ch (x / 128 * 128)).getLsbD (x % 128 / 32))

/-- One line with bytes stored at an offset. -/
def lineStore : Line → Nat → List Byte → Line
  | l, _, [] => l
  | l, o, b :: bs => lineStore (l.setIfInBounds o b) (o + 1) bs

/-- Latch a page's view fields in every tree of the chain, and let the tree of the storing view hold it (R35, R36). -/
def State.latch (s : State) (ch : List View) (frame : Nat) (e : BitVec 64) : State :=
  let ids := ch.map (fun v => v.set)
  let n := pageBytes (pteSize e) / 0x10000
  let h : HeldPage := { page := frame / n * n, frames := n, vop := pteVop e, elem := pteElem e, ztwin := pteZtwin e, pte := e, own := false }
  { s with sets := updWhere (fun x => ids.contains x.id) (fun x => x.latched { h with own := ids.head? == some x.id }) s.sets }

/-- A store in a view to a viewed page (R253): the twin of a first sibling store, the dirty copy, and the bytes. -/
def State.viewStore (s : State) (v : View) (va ga : Nat) (e : BitVec 64) (bs : List Byte) : State :=
  let g := ga / 128 * 128
  let gva := va / 128 * 128
  let ch := s.viewChain treeFuel (some v.id)
  let s := s.latch ch (ga / 0x10000) e
  let up := ch.tail
  let base := if pteZtwin e then zeroLine else s.seen up g
  let bad := if pteZtwin e then 0 else s.seenBad up g
  let whole := wholeSectors (ga % 128) bs.length
  let s := if pteZtwin e then s else
    s.updSet v.set (fun x => if x.twins.any (fun t => t.ga == g) then x else
      { x with twins := { ga := g, va := gva, data := base, bad } :: x.twins })
  s.updView v.id (fun x =>
    match x.granule? g with
    | some _ => { x with dirty := updWhere (fun d => d.ga == g) (fun d =>
        { d with va := min d.va gva, data := lineStore d.data (ga % 128) bs, bad := d.bad &&& ~~~ whole }) x.dirty }
    | none => { x with dirty := { ga := g, va := gva, data := lineStore base (ga % 128) bs, bad := bad &&& ~~~ whole } :: x.dirty })

/-- A store in a view meets a poisoned sector that it does not cover whole: a consumption (R241). -/
def State.viewPoison (s : State) (v : View) (ga n : Nat) (e : BitVec 64) : Bool :=
  let g := ga / 128 * 128
  let ch := s.viewChain treeFuel (some v.id)
  let bad := match v.granule? g with | some d => d.bad | none => if pteZtwin e then 0 else s.seenBad ch g
  bad &&& metSectors (ga % 128) n &&& ~~~ wholeSectors (ga % 128) n != 0

/-! ### Loads -/

/-- What a load returns: its bytes, the signature it counts for a later fence (R229), whether poison was consumed, and
the state. -/
structure LoadRes where
  bytes : List Byte
  sig : BitVec 64
  poison : Bool
  s : State

/-- Bytes of a line from an offset. -/
def lineBytes (l : Line) (o n : Nat) : List Byte := (List.range n).map (fun i => l.getD (o + i) 0)

/-- Bytes of a viewed location as a view chain sees them. -/
def State.seenBytes (s : State) (ch : List View) (ga n : Nat) : List Byte :=
  (List.range n).map (fun i =>
    match ch.findSome? (fun v => v.granule? ((ga + i) / 128 * 128)) with
    | some g => g.data.getD ((ga + i) % 128) 0
    | none => cellRead s.mem (ga + i))

/-- A `.ro` load allocates its line in the L1 for its grid (R141): a line of another die only while its proxy slice holds it (R225),
and one of the own die only when it does not bypass its slice (R232). -/
def State.fillRo (s : State) (core grid line : Nat) : State :=
  let die := dieOf core
  if s.l1.any (fun x => x.core == core && x.ro && x.grid == grid && x.line == line) ||
    (if s.homeDie (line * 128) == die then (s.inLine? line).isNone else (s.outLine? die none line).isNone) then s
  else s.putL1 { core, ro := true, grid, line, data := zeroLine, bad := 0 }

/-- The values that a byte has held since a grid started and before now, newest first (R141). -/
def State.pastOf (s : State) (grid a : Nat) : List Byte :=
  match s.grid? grid with
  | some g => (s.roPast.filter (fun x => x.1 == a && decide (g.startStep < x.2.2))).map (fun x => x.2.1)
  | none => []

/-- What a `.ro` load returns of bytes that an ordinary load would give as `bs`: a byte that has been stored to during the grid
has any one of the values of R141. -/
def State.roBytes (s : State) (grid ga : Nat) (bs : List Byte) : List Byte :=
  (List.range bs.length).map (fun i =>
    match s.pastOf grid (ga + i) with
    | [] => bs.getD i 0
    | old =>
      let vs := cellRead s.mem (ga + i) :: old
      vs.getD (Config.roPick s.fresh (ga + i) % vs.length) 0)

/-- An ordinary load of committed device memory (R140, R222, R225). `home`: at the home slice, past every copy (R229); the copies of the
line on the reader's die, which may be older than what it returns, leave (R42). A line that bypasses its home slice enters no L1 (R232). -/
def State.loadCommons (s : State) (w : Who) (e : BitVec 64) (ga n hint : Nat) (home : Bool) : LoadRes :=
  let die := dieOf w.core
  let line := lineOf ga
  let pz := s.poisoned ga n
  let own := s.homeDie ga == die
  let atHome := fun (s : State) => ({ bytes := s.mem.bytes ga n, sig := s.sigOf line, poison := pz, s } : LoadRes)
  if home then atHome (if own then s else (s.dropOut die none line).dropL1 die line none)
  else if own || pteCausal e || pteHalo e then atHome (if own && hint == 0 && !pz then s.fillOwn w.core line else s)
  else
    let s := s.replaced die w.core line
    let old := fun (d : Line) (bad : BitVec 4) (s : State) =>
      ({ bytes := lineBytes d (ga % 128) n, sig := BitVec.allOnes 64, poison := bad &&& metSectors (ga % 128) n != 0, s } : LoadRes)
    match s.l1Line? w.core line, s.outLine? die none line with
    | some x, _ => old x.data x.bad s
    | none, some o => old o.data o.bad (if hint == 0 then s.fillL1 w.core line o.data o.bad else s)
    | none, none =>
      let fill := fun (s : State) =>
        let s := if (s.inLine? line).isSome then s.fillOut die none (homeSlice e ga) line (s.lineData line) (s.lineBad line) else s
        if hint == 0 && (s.outLine? die none line).isSome then s.fillL1 w.core line (s.lineData line) (s.lineBad line) else s
      { bytes := s.mem.bytes ga n, sig := s.sigOf line, poison := pz, s := if pz then s else fill s }

/-- A load of device memory (R35, R140, R141, R222, R225). On a viewed page HINT 1 is HINT 0. -/
def State.loadDev (s : State) (w : Who) (e : BitVec 64) (ga n hint : Nat) (home : Bool) : LoadRes :=
  let line := lineOf ga
  let s := s.fillIn (s.sliceOf e ga) line
  if pteViewed e then
    let s := if s.homeDie ga == dieOf w.core && hint != 2 then s.fillOwn w.core line else s
    let ch := s.viewChain treeFuel w.view
    { bytes := s.seenBytes ch ga n, sig := s.sigOf line, poison := s.seenPoison ch ga n, s }
  else
    let r := s.loadCommons w e ga n hint home
    match w.team, hint == 1 && !pteCausal e && !home with
    | some t, true => { r with bytes := s.roBytes t.grid ga r.bytes, s := (r.s.fillRo w.core t.grid line).useFresh }
    | _, _ => r

/-- The memory of a peer package. -/
def State.peerBytes (s : State) (p pa n : Nat) : List Byte :=
  match s.peerMem.find? (fun x => x.1 == p) with
  | some x => x.2.bytes pa n
  | none => List.replicate n 0

/-- Store to the memory of a peer package. -/
def State.peerStore (s : State) (p pa : Nat) (bs : List Byte) : State :=
  let m := match s.peerMem.find? (fun x => x.1 == p) with | some x => x.2 | none => []
  { s with peerMem := (p, m.store pa bs) :: s.peerMem.filter (fun x => x.1 != p) }

/-- A load through a peer window (R237). -/
def State.loadPeer (s : State) (w : Who) (p pa n : Nat) (home : Bool) : LoadRes :=
  let die := dieOf w.core
  let line := pa / 128
  match (if home then none else s.outLine? die (some p) line) with
  | some o => { bytes := lineBytes o.data (pa % 128) n, sig := BitVec.allOnes 64, poison := false, s }
  | none =>
    let bs := s.peerBytes p pa n
    let s := if home then s else
      s.fillOut die (some p) ((pa / 128 % 32) ^^^ (pa / 32768 % 32)) line (Vector.ofFn (fun i => (s.peerBytes p (line * 128) 128).getD i.val 0)) 0
    { bytes := bs, sig := BitVec.allOnes 64, poison := false, s }

/-- Bring a host line into the hub cache of 512 MiB (R22): when it is full, one line leaves (log 79). -/
def State.fillHub (s : State) (line : Nat) : State :=
  if s.hubLines.contains line then s
  else { s with hubLines := line :: (if s.hubLines.length < 0x400000 then s.hubLines
    else s.hubLines.eraseIdx (Config.victim s.fresh % s.hubLines.length)) }

/-- A load at a checked target. A line of the host window or of a peer has no SIG, and counts as one whose SIGK is 0 (R229, log 97). -/
def State.loadAt (s : State) (w : Who) (t : Target) (hint : Nat) (home : Bool) : LoadRes :=
  match t.loc with
  | .spad tm off =>
    { bytes := match s.team? tm with | some x => x.spad.bytes off t.size | none => List.replicate t.size 0, sig := 0, poison := false, s }
  | .host pa =>
    { bytes := s.hostMem.bytes pa t.size, sig := BitVec.allOnes 64, poison := false, s := s.fillHub (pa / 128) }
  | .peer p pa => s.loadPeer w p pa t.size home
  | .dev ga => s.loadDev w t.pte ga t.size hint home

/-! ### Stores -/

/-- What a store did: whether poison was consumed (then nothing was written), and the state. -/
structure StoreRes where
  poison : Bool
  s : State

/-- A write of WRIDX, with a value that is not lower than the one before it, starts a queue again that a packet error had stopped, once its
STATE is 0 (R160). `old`: memory before the write. -/
def State.noteQueues (s : State) (old : Memory) (ga n : Nat) : State :=
  let hit := fun (q : QBind) =>
    let h := gaOf q.device q.hdr
    q.halted && h < ga + n && ga < h + 8 && cellRead s.mem (h + 17) == 0 && decide (old.le h 8 ≤ s.mem.le h 8)
  { s with queues := updWhere hit (fun q => { q with halted := false }) s.queues }

/-- A write of committed device memory at its home: the line's copies on the home die, its metadata, its bytes. -/
def State.writeHome (s : State) (e : BitVec 64) (ga : Nat) (bs : List Byte) (ctx : Option Nat) (rel : Option (BitVec 64))
    (keep : Option Nat) : State :=
  let line := lineOf ga
  let s := s.fillIn (s.sliceOf e ga) line
  let s := s.dropL1 (s.homeDie ga) line keep
  let s := s.writeIn line ctx rel
  let s := s.clearPoison ga bs.length
  ({ s.notePast ga bs.length with mem := s.mem.store ga bs }).noteQueues s.mem ga bs.length

/-- A core's own store updates its L1 copy of the line (R140, R226): a sector that it covers whole is no longer poisoned there (R241). -/
def State.storeL1 (s : State) (core ga : Nat) (bs : List Byte) : State :=
  { s with l1 := updWhere (fun x => x.core == core && x.line == lineOf ga && !x.ro) (fun x =>
      { x with data := lineStore x.data (ga % 128) bs, bad := x.bad &&& ~~~ wholeSectors (ga % 128) bs.length }) s.l1 }

/-- The team save area (Table 10.3), as a package address. -/
def Context.teamArea (c : Context) (i : Nat) : Nat := c.ga (c.imageBase + 0x200000 + 0x610000 * i)

/-- Store bytes in a team's scratchpad. While its chunks lie in its save area, a store by another team of its flock lands there
(R28, Table 10.4). -/
def State.storeSpad (s : State) (tm off : Nat) (bs : List Byte) : State :=
  let u := s.updTeam tm (fun x => { x with spad := x.spad.store off bs })
  match s.team? tm with
  | none => u
  | some x =>
    match x.imaged || x.stored, s.ctx? x.ctx with
    | true, some c => { u with mem := s.mem.store (c.teamArea x.saveArea + 0x10000 + off) bs }
    | _, _ => u

/-! ### Writes that are issued and performed -/

/-- A place at another address. -/
def Loc.to (l : Loc) (a : Nat) : Loc :=
  match l with | .dev _ => .dev a | .spad t _ => .spad t a | .host _ => .host a | .peer p _ => .peer p a

/-- The address of a place. -/
def Loc.addr (l : Loc) : Nat := match l with | .dev a => a | .spad _ a => a | .host a => a | .peer _ a => a

/-- A write of an agent at a target. -/
def Who.write (w : Who) (t : Target) (owner : Option (Nat × Nat × Bool)) (po : Nat) (runs : List (Nat × List Byte))
    (rel : Option (BitVec 64)) : HeldWrite :=
  { id := 0, po, owner, both := false, t, runs, ctx := some w.ctx.num, view := w.view, rel, wide := false, sys := false, mask := 0,
    core := some w.core }

/-- Runs in ascending order of their bytes, the later of two bytes at one address kept: insert one byte. -/
def runByte (a : Nat) (b : Byte) : List (Nat × List Byte) → List (Nat × List Byte)
  | [] => [(a, [b])]
  | (k, bs) :: rest =>
    if a + 1 < k then (a, [b]) :: (k, bs) :: rest
    else if a + 1 = k then (a, b :: bs) :: rest
    else if a < k + bs.length then (k, bs.set (a - k) b) :: rest
    else if a = k + bs.length then
      (match rest with
       | (k2, bs2) :: rest2 => if k2 = a + 1 then (k, bs ++ b :: bs2) :: rest2 else (k, bs ++ [b]) :: rest
       | [] => [(k, bs ++ [b])])
    else (k, bs) :: runByte a b rest

/-- The bytes of one write merged into runs: a later byte at an address is the one that is kept (R40, R139). -/
def mergeRuns (l : List (Nat × List Byte)) : List (Nat × List Byte) :=
  l.foldl (fun (acc : List (Nat × List Byte)) p => ((p.2.mapIdx (fun i b => (p.1 + i, b))).foldl (fun acc q => runByte q.1 q.2 acc) acc)) []

/-- The view whose private copies a write goes to (R253, R254). -/
def HeldWrite.inView (h : HeldWrite) : Option Nat := if pteViewed h.t.pte then h.view else none

/-- A write of one run at its home (R226, R228): the writer's die gives up its copies of the line, apart from the writer's own L1 copy,
which is updated (R140). -/
def State.writeCommons (s : State) (h : HeldWrite) (ga : Nat) (bs : List Byte) : State :=
  let line := lineOf ga
  let s := match h.core with
    | some core =>
      let die := dieOf core
      let s := s.orW core (bucketBit ga)
      if s.homeDie ga == die then s else ((s.dropOut die none line).dropL1 die line (some core)).storeL1 core ga bs
    | none => s
  s.writeHome h.t.pte ga bs h.ctx (h.rel.map (fun w => match h.core with | some core => w ||| s.wOf core | none => w)) h.core

/-- Perform a write of the package at its place, all of its bytes at once. A write in a view that is gone has nowhere to go. A write to
device memory that meets a poisoned sector that it does not cover whole is dropped, and is a consumption (R241). -/
def State.putWrite (s : State) (h : HeldWrite) : StoreRes :=
  match h.t.loc with
  | .spad tm _ => { poison := false, s := h.runs.foldl (fun (s : State) r => s.storeSpad tm r.1 r.2) s }
  | .host _ =>
    { poison := false, s := h.runs.foldl (fun (s : State) r => { s.fillHub (r.1 / 128) with hostMem := s.hostMem.store r.1 r.2 }) s }
  | .peer _ _ => { poison := false, s }
  | .dev _ =>
    match h.inView with
    | some v =>
      (match s.view? v with
       | none => { poison := false, s }
       | some x =>
         if h.runs.any (fun r => s.viewPoison x r.1 r.2.length h.t.pte) then { poison := true, s }
         else
           { poison := false, s := h.runs.foldl (fun (s : State) r =>
               let s := match h.core with | some core => s.orW core (bucketBit r.1) | none => s
               match s.view? v with | some x => s.viewStore x h.t.va r.1 h.t.pte r.2 | none => s) s })
    | none =>
      if h.runs.any (fun r => s.partialPoison r.1 r.2.length) then { poison := true, s }
      else { poison := false, s := h.runs.foldl (fun (s : State) r => s.writeCommons h r.1 r.2) s }

/-- The host holds the line of a write to device memory (R238). -/
def State.hostHas (s : State) (h : HeldWrite) : Bool :=
  match h.t.loc with
  | .dev ga => h.inView.isNone && s.hostHeld.contains (lineOf ga)
  | _ => false

/-- Keep a write that has been issued. -/
def State.keepWrite (s : State) (h : HeldWrite) : State := { s.bump with heldWrites := s.heldWrites ++ [{ h with id := s.nextId }] }

/-- A write by the host or a peer package (R230, R238): every copy on every other die goes first. -/
def State.foreignWrite (s : State) (e : BitVec 64) (ga : Nat) (bs : List Byte) : State :=
  let line := lineOf ga
  let home := s.homeDie ga
  let s := { s with outfield := s.outfield.filter (fun x => !(x.peer.isNone && x.line == line && x.die != home)),
                    l1 := s.l1.filter (fun x => x.ro || x.line != line) }
  s.writeHome e ga bs none none none

/-- The entry that a live translation of the device gives for a physical page: how the slices know its attributes (log 36). -/
def State.pteFor (s : State) (ga : Nat) : BitVec 64 :=
  match (s.tlb1 ++ s.tlb2).find? (fun x => match s.ctx? x.ctx with
    | some c => decide (c.ga (ptePA x.pte) ≤ ga) && decide (ga < c.ga (ptePA x.pte) + pageBytes (pteSize x.pte)) && windowOf x.va == .lower
    | none => false) with
  | some x => x.pte
  | none => 0

/-- A write from outside the package meets a page that an open tree holds, or a replica cell: it faults, and nothing is
written (R36, R235). -/
def State.foreignFaults (s : State) (ga n : Nat) : Bool :=
  s.rootHolds (ga / 0x10000) ga || s.meetsReplica ga n

/-- A write of the host, or of a peer package, as it is performed (R230, R237, R238): every other copy goes first, and a
partial write of a poisoned sector is dropped (R241). One that faults is dropped with no record: DESIGN CHOICE (log 82). -/
def State.hostWriteAt (s : State) (ga : Nat) (bs : List Byte) : State :=
  if s.foreignFaults ga bs.length || s.partialPoison ga bs.length then s
  else s.foreignWrite (s.pteFor ga) ga bs

end Sys2Proof.Machine
end

