-- ==== Sys2Proof/Machine/Fabric.lean ====
section
/-! DEFINITION. The Enper causal fabric (R268 to R282): vectors, channels, stamps, injection and its count window, bells,
delivery and the pen, what an ordered packet does when it is delivered, and the filling of registers by replies. -/

namespace Sys2Proof.Machine

open Sys2Proof

/-! ### Counts -/

/-- Serial comparison of counts (R268). -/
def serGe (a b : BitVec 12) : Bool := (a - b).toNat < 2048
/-- Serial maximum. -/
def serMax (a b : BitVec 12) : BitVec 12 := if serGe a b then a else b
/-- Entry-by-entry maximum of two vectors. -/
def vecMax (a b : Counts) : Counts := Vector.ofFn (fun i => serMax a[i] b[i])
/-- A vector of zeros. -/
def zeroCounts : Counts := Vector.replicate 9 0
/-- The vector of a die (R268). -/
def State.vec (s : State) (d : Nat) : Counts := s.vecs.getD d zeroCounts
/-- One entry of a die's vector. -/
def State.vecAt (s : State) (d k : Nat) : BitVec 12 := (s.vec d).getD k 0
/-- Change a die's vector. -/
def State.updVec (s : State) (d : Nat) (f : Counts → Counts) : State := { s with vecs := vecUpd s.vecs d f }
/-- The other dies by ascending relative index (R272). -/
def relDies (i : Nat) : List Nat := (List.range 8).map (fun r => (i + r + 1) % 9)
/-- A die is live: neither retired nor removed (R15, R280). -/
def State.liveDie (s : State) (d : Nat) : Bool := !s.removedDies.contains d && !s.retiredDies.contains d
/-- Die i waits for nothing of die d: it is retired, or its removal has been broadcast to i (R280). -/
def State.ignores (s : State) (i d : Nat) : Bool :=
  s.retiredDies.contains d || (s.removedDies.contains d && !s.removalDue.contains (i, d))

/-- The die has stopped issue for a frequency change (Table 2.2). -/
def State.dieStopped (s : State) (die : Nat) : Bool :=
  match s.freq with
  | some f => f.acked.contains die
  | none => false

/-! ### Channels -/

/-- A channel on which nothing has been sent. -/
def Chan.fresh (i d : Nat) : Chan :=
  { src := i, dst := d, sent := zeroCounts, lastOwn := 0, sinceBell := 0, ord := [], bell := [], lastFull := zeroCounts,
    mark := 0, arrived := 0, bellWait := [], pen := [], floor := 0, floorSent := 0 }

/-- The channel (i, d). -/
def State.chan (s : State) (i d : Nat) : Chan := (s.chan? i d).getD (Chan.fresh i d)

/-- Put a channel back. -/
def State.putChan (s : State) (c : Chan) : State :=
  { s with chans := c :: s.chans.filter (fun x => !(x.src == c.src && x.dst == c.dst)) }

/-- Change a channel. -/
def State.updChan (s : State) (i d : Nat) (f : Chan → Chan) : State := s.putChan (f (s.chan i d))

/-- Send an item on BELL. -/
def State.sendBell (s : State) (i d : Nat) (b : BellItem) : State :=
  s.updChan i d (fun c => { c with bell := c.bell ++ [b] })

/-- A bell of die i to die d: its count and the OWN of its last ORD item there (Table 18.2). -/
def State.ring (s : State) (i d : Nat) : State :=
  s.updChan i d (fun c => { c with bell := c.bell ++ [.bell s.gen (s.vecAt i i) c.lastOwn], sinceBell := 0 })

/-! ### Packets that are lost -/

/-- The context of a lost packet receives FABRIC_LOST: its halt line rises (R281, R174). -/
def State.lostCtx (s : State) (n : Nat) : State :=
  s.raiseHalt n { kind := 6, code := cFABRICLOST, unit := 0, armB := false, core := 0xFFFFFFFF, addr := 0, mask := 0, tcode := 0, data := 0 }

/-- RECLOST of a join status (Table 16.2). -/
def recLost : Half := 0x20

/-- A record or a signal that the hub wrote for a child set or a grid has been dropped: it is not written (R251, R165, R267). -/
def State.hubLost (s : State) (n : Nat) : State :=
  { s with sets := updWhere (fun x => x.id == n) (fun x => { x with status := x.status ||| recLost }) s.sets,
           grids := updWhere (fun x => x.id == n) (fun x => { x with sigLost := true }) s.grids }

/-- The context for which the hub wrote it. -/
def State.hubCtx (s : State) (n : Nat) : Option Nat := ((s.set? n).map (fun x => x.ctx)).orElse (fun _ => (s.grid? n).map (fun x => x.ctx))

/-- The context of a write of the hub that is lost receives FABRIC_LOST (R280, R281). -/
def State.lostHub (s : State) (n : Nat) : State := match s.hubCtx n with | some c => s.lostCtx c | none => s

/-- The group that issued an access kept under a group number: a copy's is its issuing group's (R39). -/
def State.issuer (s : State) (g : Nat) (b : Bool) : Option (Nat × Bool) :=
  if g < 64 then some (g, b) else (s.copy? (g - 64)).map (fun c => (c.grp, c.armB))

/-- The group whose packet is lost receives FABRIC_LOST, or failing it the context (R280, R281). -/
def State.lostGroup (s : State) (t g : Nat) (b : Bool) (va : Nat) : State :=
  match s.team? t with
  | none => if t == 0 then s.lostHub g else s
  | some x =>
    match s.issuer g b with
    | none => s.lostCtx x.ctx
    | some k =>
      match x.group? k.1 with
      | some y => if y.retired then s.lostCtx x.ctx else s.ordinary x y k.2 { code := cFABRICLOST, addr := toWord va } 1
      | none => s.lostCtx x.ctx

/-- The group that a payload belongs to, and its address. -/
def State.ownerOf (s : State) : Payload → Option (Nat × Nat × Bool × Nat)
  | .load pid t _ => (s.pending.find? (fun p => p.id == pid)).map (fun p => (p.team, p.grp, p.armB, t.va))
  | .store id t _ _ => (s.causalStores.find? (fun c => c.id == id)).map (fun c => (c.team, c.grp, c.armB, t.va))
  | .rmw pid t _ _ _ => (s.pending.find? (fun p => p.id == pid)).map (fun p => (p.team, p.grp, p.armB, t.va))
  | .peerStore id => (s.peerStores.find? (fun p => p.id == id)).map (fun p => (p.team, p.grp, p.armB, 0))
  | .respValue pid va _ _ => (s.pending.find? (fun p => p.id == pid)).map (fun p => (p.team, p.grp, p.armB, va))
  | .respDone id => (s.causalStores.find? (fun c => c.id == id)).map (fun c => (c.team, c.grp, c.armB, 0))
  | .hostWrite _ _ | .hostRead _ _ | .hostValue _ _ | .hostDone | .vector => none

/-- A response answers a request (R269, R292). -/
def Payload.answers : Payload → Payload → Bool
  | .respValue pid va _ _, .load q t _ => pid == q && va == t.va
  | .respValue pid va _ _, .rmw q t _ _ _ => pid == q && va == t.va
  | .respDone id, .store q _ _ _ => id == q
  | .hostDone, .hostWrite _ _ => true
  | .hostValue _ _, .hostRead _ _ => true
  | _, _ => false

/-- A request that is answered by a response on the fabric. -/
def Payload.answered : Payload → Bool
  | .load _ _ _ | .store _ _ _ _ | .rmw _ _ _ _ _ | .hostWrite _ _ | .hostRead _ _ => true
  | _ => false

/-- Change the oldest member of a list that satisfies `p`. -/
def updFirst {α : Type} (p : α → Bool) (f : α → α) : List α → List α
  | [] => []
  | x :: xs => if p x then f x :: xs else x :: updFirst p f xs

/-- A request is delivered at die d: its sender hears of it by the response (R292). -/
def State.noteDelivery (s : State) (i d : Nat) (p : Payload) : State :=
  { s with untold := updFirst (fun u => u.src == i && u.dst == d && u.req == p && !u.delivered) (fun u => { u with delivered := true }) s.untold }

/-- A response of die i tells die d of the delivery of its request (R278, R292). -/
def State.toldBy (s : State) (i d : Nat) (p : Payload) : State :=
  { s with untold := dropFirst (fun u => u.src == d && u.dst == i && p.answers u.req) s.untold }

/-- A report request tells its receiver d of every packet that the stalled die i has had delivered: R278 has the reports release a sender
that stalls. DESIGN CHOICE (log 102). -/
def State.toldAll (s : State) (i d : Nat) : State :=
  { s with untold := s.untold.filter (fun u => !(u.src == d && u.dst == i && u.delivered)) }

/-- A request that has been dropped is not waited for. -/
def State.untoldDrop (s : State) (p : Payload) : State :=
  { s with untold := dropFirst (fun u => u.req == p || p.answers u.req) s.untold }

/-- A remote causal store has been answered (R292). -/
def State.causalDone (s : State) (id : Nat) : State := { s with causalStores := s.causalStores.filter (fun x => x.id != id) }

/-- A remote causal store has been dropped. -/
def State.causalLost (s : State) (id : Nat) : State :=
  match s.causalStores.find? (fun x => x.id == id) with
  | some c => (if c.team == 0 then s.hubLost c.grp else s).causalDone id
  | none => s

/-- The access of an item that has been dropped is no longer on its way: nothing answers it. -/
def State.abandonItem (s : State) (p : Payload) : State :=
  let s := s.untoldDrop p
  match p with
  | .load pid _ _ | .rmw pid _ _ _ _ | .respValue pid _ _ _ => { s with pending := s.pending.filter (fun q => q.id != pid) }
  | .store id _ _ _ => s.causalLost id
  | .respDone id => s.causalDone id
  | .peerStore id => { s with peerStores := s.peerStores.filter (fun q => q.id != id) }
  | .hostWrite _ _ | .hostRead _ _ | .hostValue _ _ | .hostDone | .vector => s

/-- The group that consumed poison is killed (R241). -/
def State.consume (s : State) (t g : Nat) (b : Bool) (va : Nat) (mask : Half) (kind : Nat) : State :=
  match s.team? t with
  | none => s
  | some x =>
    match x.group? g with
    | some y => if y.retired then s else s.ordinary x y b { code := cUNCORRECTABLE, addr := toWord va, mask } kind
    | none => s

/-- A packet is lost: its issuing group, or failing it the context, receives FABRIC_LOST. A host's or a peer's access has
neither. -/
def State.lose (s : State) (p : Payload) : State :=
  match s.ownerOf p with
  | some o => (s.abandonItem p).lostGroup o.1 o.2.1 o.2.2.1 o.2.2.2
  | none => s

/-- A packet is lost after the fabric has been released: its sender's context receives FABRIC_LOST (Table 18.3 step 5,
Table 18.7), which for a child ends the child (R280). -/
def State.loseLate (s : State) (p : Payload) : State :=
  match s.ownerOf p with
  | some o =>
    let s := s.abandonItem p
    match s.team? o.1 with
    | some x =>
      if s.isForkChild x && !x.isEnded then s.endChild x { kind := 6, code := cFABRICLOST, core := 0xFFFFFFFF } else s.lostCtx x.ctx
    | none => if o.1 == 0 then s.lostHub o.2.1 else s
  | none => s

/-- A response of an access, as opposed to a request. -/
def isResponse : Payload → Bool
  | .respValue _ _ _ _ | .respDone _ | .hostValue _ _ | .hostDone | .vector => true
  | _ => false

/-! ### Injection -/

/-- Pairs of a stamp: the entries other than the sender's own that changed since its last item on the channel (R272). -/
def pairsOf (i : Nat) (now sent : Counts) : List (Nat × BitVec 12) :=
  (relDies i).filterMap (fun k => if now.getD k 0 == sent.getD k 0 then none else some (k, now.getD k 0))

/-- The relative index of die `k` at a sender `i` (R272). -/
def relIndex (i k : Nat) : Nat := (k + 8 - i) % 9

/-- The 64-bit stamp of an item that die `i` has sent (Table 18.1). -/
def OrdItem.stampWord (i : Nat) (x : OrdItem) : Word :=
  let pair := fun (n : Nat) => match x.pairs[n]? with | some p => relIndex i p.1 * 0x1000 + p.2.toNat | none => 0
  toWord (pair 2 * 2 ^ 48 + pair 1 * 2 ^ 33 + pair 0 * 2 ^ 18 + min 3 x.pairs.length * 2 ^ 16 + x.own.toNat * 16 + x.gen.toNat)

/-- The count window of R278: the last report of every live die shows a floor of at least n − 1024. -/
def State.window (s : State) (i : Nat) : Bool :=
  let n := s.vecAt i i + 1
  (relDies i).all (fun d => s.ignores i d || serGe ((s.chan i d).floor) (n - 1024))

/-- The die injects: no resynchronisation is in progress, it has not stopped for a frequency change, and the count window
is open (R17, R278, R281). -/
def State.injects (s : State) (i : Nat) : Bool := s.resync.isNone && !s.dieStopped i && s.window i

/-- May die i inject an ordered packet now? Packets already waiting there go first. -/
def State.canInject (s : State) (i : Nat) : Bool :=
  s.injects i && !s.outq.any (fun x => x.1 == i)

/-- A sender that stalls sends every live die a bell and a report request (R278), unless one is on its way. -/
def State.stall (s : State) (i : Nat) : State :=
  (relDies i).foldl (fun s d =>
    if s.ignores i d || (s.chan i d).bell.any (fun b => b == .reportRequest) then s
    else (s.ring i d).sendBell i d .reportRequest) s

/-- Inject an ordered packet (R272, R273): a vector flit goes ahead when more than three entries changed; every other
channel whose sender's count has advanced 256 since its last item gets a bell. -/
def State.inject (s : State) (i d : Nat) (p : Payload) : State :=
  let before := s.vecAt i i
  let c := s.chan i d
  let ps := pairsOf i (s.vec i) c.sent
  let flit : List OrdItem := if ps.length ≤ 3 then [] else
    [{ gen := s.gen, own := before, pairs := [], full := some (s.vec i), payload := .vector }]
  let own := before + 1
  let s := s.updVec i (fun v => v.setIfInBounds i own)
  let item : OrdItem := { gen := s.gen, own, pairs := if ps.length ≤ 3 then ps else [], full := none, payload := p }
  let s := s.updChan i d (fun c => { c with ord := c.ord ++ flit ++ [item], sent := s.vec i, lastOwn := own, sinceBell := 0 })
  let s := if p.answered then { s with untold := s.untold ++ [{ src := i, dst := d, req := p, stamp := s.vec i, delivered := false }] } else s
  (relDies i).foldl (fun s k =>
    if k == d || s.ignores i k then s
    else
      let s := s.updChan i k (fun c => { c with sinceBell := c.sinceBell + 1 })
      if 256 ≤ (s.chan i k).sinceBell then s.ring i k else s) s

/-- Inject, or wait at the die. A request bound for a removed die is dropped, and the hub answers it with FABRIC_LOST
(R280); a response bound for one has no receiver. -/
def State.send (s : State) (i d : Nat) (p : Payload) : State :=
  if s.ignores i d then (if isResponse p then s.abandonItem p else s.lose p)
  else if s.canInject i then s.inject i d p
  else
    let s := if s.window i then s else s.stall i
    { s with outq := s.outq ++ [(i, d, p)] }

/-- Inject the oldest waiting packet of a die, when it may go. -/
def State.flushOne (s : State) (i : Nat) : State :=
  match s.outq.find? (fun x => x.1 == i) with
  | none => s
  | some x =>
    if s.injects i then
      ({ s with outq := dropFirst (fun y => y.1 == i) s.outq }).inject i x.2.1 x.2.2
    else s

/-- Inject waiting packets of every die, as far as the windows allow. -/
def State.flush (s : State) : State :=
  (List.range s.outq.length).foldl (fun s _ => (List.range 9).foldl (fun s i => s.flushOne i) s) s

/-! ### Images that a reply may land in (R53, R170) -/

/-- Start of the group areas of a context (Table 10.3). -/
def Context.groupBase (c : Context) : Nat :=
  let x := c.imageBase + 0x200000 + c.nTeamAreas * 0x610000
  (x + 0x1FFFFF) / 0x200000 * 0x200000

/-- The group area of a group (Table 10.3), as a package address. -/
def Context.groupArea (c : Context) (gid : Nat) : Nat := c.ga (c.groupBase + 0xB0000 * gid)

/-- Set bits of a word in memory. -/
def State.orMem (s : State) (a n v : Nat) : State := { s with mem := s.mem.storeLE a n (s.mem.le a n ||| v) }

/-- A scalar value lands in the image of a pre-empted group: the register and its full bit (Tables 4.4, 4.5), or the
saved copy in a record (Table 6.4). -/
def State.landScalar (s : State) (c : Context) (g : Group) (b : Bool) (r : SReg) (v : Word) (frame : Option Nat) : State :=
  let base := c.groupArea g.gid
  match frame with
  | some code =>
    let rec0 := base + 0xC000 + (if code ≤ 64 then 0x1000 + 1024 * (code - 1) else 0x11000 + 1024 * (code - 0x81))
    let s := { s with mem := s.mem.storeLE (rec0 + 0x40 + 8 * (r.toNat - 48)) 8 v.toNat }
    s.orMem (rec0 + 0xA0) 2 (2 ^ (r.toNat - 48))
  | none =>
    let s := { s with mem := s.mem.storeLE (base + (if b then 0xB000 else 0) + 8 * r.toNat) 8 v.toNat }
    s.orMem (base + (if b then 0xB240 else 0x2D0)) 8 (2 ^ r.toNat)

/-- A lane value lands in the image of a pre-empted group. -/
def State.landVector (s : State) (c : Context) (g : Group) (n lane v : Nat) : State :=
  let base := c.groupArea g.gid
  let s := { s with mem := s.mem.storeLE (base + 0x400 + 128 * n + 4 * lane) 4 v }
  s.orMem (base + 0xA400 + 4 * n) 4 (2 ^ lane)

/-! ### Filling -/

/-- The context whose image region a team's replies land in (R53, R170): its state lies in its image, or its context has been
halted (Table 8.9). -/
def State.landsIn (s : State) (x : Team) : Option Context :=
  (s.ctx? x.ctx).filter (fun c => x.imaged || (!x.isEnded && match c.halt with | .applied _ => true | _ => false))

/-- Write a scalar value to a group's register and set it full (R25), in both banks when asked (R47). -/
def State.fillScalar (s : State) (t g : Nat) (b both : Bool) (saved : Option (Nat × BitVec 16)) (r : SReg) (v : Word) : State :=
  match s.team? t, s.group? t g with
  | some x, some y =>
    let s := s.updGroup t g (fun y =>
      let y := y.fillScalar b saved r v
      if both && y.core.split then { y with core := y.core.updArm (!b) (fun a => if a.isFull r then a else a.put r v) } else y)
    match s.landsIn x with
    | some c =>
      let gone := match saved with
        | some (code, gen) => (match y.frameAt code with | some f => f.gen != gen || f.state != 1 | none => true)
        | none => false
      if r = 0 || gone then s
      else
        let s := s.landScalar c y b r v (saved.map (fun p => p.1))
        if both && y.core.split && !(y.core.arm (!b)).isFull r then s.landScalar c y (!b) r v none else s
    | none => s
  | _, _ => s

/-- Write one lane's value of a type and set the lane full (R122). -/
def State.fillLane (s : State) (t g n : Nat) (ty : LType) (lane v : Nat) : State :=
  match s.team? t, s.group? t g with
  | some x, some y =>
    let w := ty.written v
    let s := s.updGroup t g (fun y =>
      let y := y.note (vnums n ty)
      { y with core := (vnums n ty).foldl (fun c k => c.vmark k (maskOf [lane]) true) (y.core.vwrite n ty.is64 lane w) })
    match s.landsIn x with
    | some c =>
      let s := s.landVector c y n lane (w % 0x100000000)
      if ty.is64 then s.landVector c y (n + 1) lane (w / 0x100000000) else s
    | none => s
  | _, _ => s

/-- A reply is complete: its values fill the destination and it is no longer outstanding (R25, R170). -/
def State.fillPending (s : State) (p : Pending) : State :=
  if p.dest == .packet then s else
  let s1 := match p.dest with
    | .none | .packet => s
    | .s r => s.fillScalar p.team p.grp p.armB p.both p.saved r (toWord ((p.items.head?.bind (fun i => i.val)).getD 0))
    | .v n ty => p.items.foldl (fun s (i : PItem) => s.fillLane p.team p.grp n ty i.lane (i.val.getD 0)) s
    | .wide n ty mask =>
      let blk := p.items.foldl (fun (acc : Nat) (i : PItem) => acc + i.val.getD 0 * 2 ^ (1024 * i.lane)) 0
      (lanesOf mask).foldl (fun s l => s.fillLane p.team p.grp n ty l (blk / 2 ^ (ty.bits * l) % 2 ^ ty.bits)) s
  { s1 with pending := s1.pending.filter (fun q => q.id != p.id) }

/-- Every item of a reply has its value. -/
def Pending.done (p : Pending) : Bool := p.items.all (fun i => i.val.isSome)

/-! ### Read-modify-write (Tables 5.3, 8.3) -/

/-- Operations of AMOS and VAMO. -/
inductive RmwOp where
  | swap | add | and | or | xor | min | max | cas | fadd | fmin | fmax | amaxrst
  deriving DecidableEq, Repr

/-- The code by which a packet carries an operation. -/
def RmwOp.code : RmwOp → Nat
  | .swap => 0 | .add => 1 | .and => 2 | .or => 3 | .xor => 4 | .min => 5 | .max => 6 | .cas => 7 | .fadd => 8 | .fmin => 9
  | .fmax => 10 | .amaxrst => 11

/-- The operation of a code. -/
def RmwOp.ofCode (n : Nat) : RmwOp :=
  match n with
  | 0 => .swap | 1 => .add | 2 => .and | 3 => .or | 4 => .xor | 5 => .min | 6 => .max | 7 => .cas | 8 => .fadd | 9 => .fmin
  | 10 => .fmax | _ => .amaxrst

/-- A two's-complement value of `bits` bits. -/
def sInt (bits x : Nat) : Int := if 2 ^ (bits - 1) ≤ x then (x : Int) - ((2 ^ bits : Nat) : Int) else (x : Int)

/-- The new memory value: x old, b operand, e expected (Tables 5.3, 8.3). -/
def rmwNew (op : RmwOp) (sgn : Bool) (rnd : Rnd) (bits x b e : Nat) : Nat :=
  let m := 2 ^ bits
  let b := b % m
  let lt := if sgn then decide (sInt bits x < sInt bits b) else decide (x < b)
  let f := fun (v : FV) => fmtF32.finish rnd .none (fmtF32.round rnd v)
  match op with
  | .swap => b
  | .add => (x + b) % m
  | .and => x &&& b
  | .or => x ||| b
  | .xor => x ^^^ b
  | .min => if lt then x else b
  | .max => if lt then b else x
  | .cas => if x = e % m then b else x
  | .fadd => f (FV.add rnd (fmtF32.decode x) (fmtF32.decode b))
  | .fmin => f (FV.minMax false (fmtF32.decode x) (fmtF32.decode b))
  | .fmax => f (FV.minMax true (fmtF32.decode x) (fmtF32.decode b))
  | .amaxrst => 0

/-! ### What a delivered packet does -/

/-- OR bits into an arm's record of signatures since its last fence (R229); of a load issued before the SPLIT in force, into that of both
arms (R40, R43). -/
def State.noteSig (s : State) (t g : Nat) (b both : Bool) (m : BitVec 64) : State :=
  let note := fun (a : Arm) => { a with fenceSig := a.fenceSig ||| m }
  let s := s.updArm t g b note
  if both then s.updArm t g (!b) note else s

/-- The old value of a bound item arrives. -/
def State.answer (s : State) (pid va value : Nat) : State :=
  match s.pending.find? (fun p => p.id == pid) with
  | none => s
  | some p =>
    let hit := fun (i : PItem) => i.remote && i.val.isNone && i.t.va == va
    let p' := { p with items := (p.items.foldl (fun (acc : Bool × List PItem) i =>
      if !acc.1 && hit i then (true, acc.2 ++ [{ i with val := some value }]) else (acc.1, acc.2 ++ [i])) (false, [])).2 }
    let s := { s with pending := updWhere (fun q => q.id == pid) (fun _ => p') s.pending }
    if p'.done then s.fillPending p' else s

/-- The agent of a core with no view: causal pages are never viewed (R34). -/
def whoOf (c : Context) (core : Nat) : Who := { ctx := c, team := none, view := none, core }

/-- A write by the home slice on behalf of the fabric takes back the host's copy of the line in the same step (log 32). -/
def State.takeBack (s : State) (ga : Nat) : State := { s with hostHeld := s.hostHeld.filter (fun l => l != ga / 128) }

/-- Device bytes of a causal target. -/
def Target.ga (t : Target) : Nat := match t.loc with | .dev ga => ga | _ => 0

/-- A delivered packet meets poison: its access is dropped, and its group has consumed it (R241). -/
def State.consumeItem (s : State) (p : Payload) : State :=
  match s.ownerOf p with
  | some o => (s.abandonItem p).consume o.1 o.2.1 o.2.2.1 o.2.2.2 0 1
  | none => s

/-- The context that writes for a team; none: no one context (R221). -/
def State.ctxOfTeam (s : State) (t : Nat) : Option Nat := (s.team? t).map (fun x => x.ctx)

/-- The value that an atomic leaves (Tables 5.3, 8.3). -/
def Rmw.new (u : Rmw) (size x : Nat) : Nat := rmwNew (RmwOp.ofCode u.op) u.sgn u.rnd (8 * size) x u.b u.e

/-- An atomic of the fabric is performed at its home (R271): it ORs W into SIG, and its old value travels back. -/
def State.rmwAtHome (s : State) (d : Nat) (p : Pending) (core : Nat) (w : BitVec 64) (i : PItem) : State :=
  match i.upd with
  | none => s
  | some u =>
    let s := s.fillIn (s.sliceOf i.t.pte i.t.ga) (lineOf i.t.ga)
    let x := s.mem.le i.t.ga i.t.size
    let sig := s.sigOf (lineOf i.t.ga)
    let s := (s.takeBack i.t.ga).writeHome i.t.pte i.t.ga (leBytes i.t.size (u.new i.t.size x)) (s.ctxOfTeam p.team) (some w) none
    s.send d (dieOf core) (.respValue p.id i.t.va x sig)

/-- The atomics of an access on one location that have not been answered, by ascending lane (R144). -/
def Pending.lanesAt (p : Pending) (l : Loc) : List PItem := p.items.filter (fun i => i.upd.isSome && i.val.isNone && i.t.loc == l)

/-- What a team that moves to another die has counted on the fabric stays before its later causal accesses there (R279): the new die's vector
takes in the old one's. DEDUCED (log 99). -/
def State.carryVec (s : State) (old new : Nat) : State := if old == new then s else s.updVec new (fun v => vecMax v (s.vec old))

/-- What a delivered item does at die d (R275, R269, R271). What a team's access brings back to a die that the team has left reaches the die
where it is now (R279, log 99). The lanes of an atomic on one location are performed together, with the last of
their packets, so that each reads what the lane before it left (R144, log 90). -/
def State.performItem (s : State) (i d : Nat) (p : Payload) : State :=
  match p with
  | .vector => s
  | .load pid t core =>
    if s.poisoned t.ga t.size then s.consumeItem p else
    let s := s.fillIn (s.sliceOf t.pte t.ga) (lineOf t.ga)
    s.send d (dieOf core) (.respValue pid t.va (s.mem.le t.ga t.size) (s.sigOf (lineOf t.ga)))
  | .store id t runs w =>
    if runs.any (fun r => s.partialPoison r.1 r.2.length) then s.consumeItem p else
    let ctx := (s.causalStores.find? (fun c => c.id == id)).bind (fun c => s.ctxOfTeam c.team)
    let s := runs.foldl (fun (s : State) r => (s.takeBack r.1).writeHome t.pte r.1 r.2 ctx (some w) none) s
    s.send d i (.respDone id)
  | .rmw pid t w core last =>
    if !last then s
    else if s.poisoned t.ga t.size then s.consumeItem p else
    (match s.pending.find? (fun p => p.id == pid) with
     | none => s
     | some p => (p.lanesAt t.loc).foldl (fun (s : State) i => s.rmwAtHome d p core w i) s)
  | .peerStore id =>
    -- die 8 forwards it out of the package: the sent ones stand in the order of their delivery (R269)
    { s with peerStores := s.peerStores.filter (fun p => p.id != id) ++
        (s.peerStores.filter (fun p => p.id == id)).map (fun p => { p with sent := true }) }
  | .hostWrite pa bs => (s.hostWriteAt pa bs).send d i .hostDone
  | .hostRead pa n => s.send d i (.hostValue (s.mem.bytes pa n) (s.poisoned pa n))
  | .hostValue bs pz => { s with hostData := bs, hostPoison := pz }
  | .hostDone => s
  | .respValue pid va value sig =>
    match s.pending.find? (fun p => p.id == pid) with
    | none => s
    | some p =>
      let core := ((s.team? p.team).map (fun x => x.coreNum)).getD 0
      let s := (s.carryVec d (dieOf core)).orW core sig
      let s := s.noteSig p.team p.grp p.armB p.both sig
      let s := if p.acq then s.acquireW core p.scope else s
      let s := if p.acq && 4 ≤ p.scope then s.invalidateOut (dieOf core) sig (p.scope == 5) else s
      s.answer pid va value
  | .respDone id => s.causalDone id

/-! ### Delivery (R274, R275) -/

/-- The packet that a bell names as its LAST has arrived: it is not on the link any more (R274). A count wraps while a channel is idle, so the
order of LAST and the OWN of the item that arrived last says nothing of it. -/
def Chan.lastIn (c : Chan) (gen : BitVec 4) (last : BitVec 12) : Bool :=
  !c.ord.any (fun x => x.full.isNone && x.gen == gen && x.own == last)

/-- Bells whose LAST item has arrived now count: they raise the mark, and merge into the vector (R274, R276). -/
def State.takeBells (s : State) (i d : Nat) : State :=
  let c := s.chan i d
  let ready := c.bellWait.filter (fun b => c.lastIn s.gen b.2)
  let s := s.putChan { c with bellWait := c.bellWait.filter (fun b => !c.lastIn s.gen b.2),
                              mark := ready.foldl (fun m b => serMax m b.1) c.mark }
  s.updVec d (fun v => ready.foldl (fun v b => v.setIfInBounds i (serMax (v.getD i 0) b.1)) v)

/-- The test of R275 for one pair at die d. -/
def State.pairOk (s : State) (d k : Nat) (c : BitVec 12) : Bool :=
  k == d || s.ignores d k ||
  (let ch := s.chan k d
   serGe ch.mark c && !ch.pen.any (fun x => serGe c x.own))

/-- The entries an item carries. -/
def OrdItem.entries (x : OrdItem) (i : Nat) : List (Nat × BitVec 12) :=
  match x.full with
  | some v => (relDies i).map (fun k => (k, v.getD k 0))
  | none => x.pairs

/-- The full stamp of an item, rebuilt from the channel's last full vector (R274). -/
def OrdItem.stamp (x : OrdItem) (last : Counts) (i : Nat) : Counts :=
  let v := match x.full with | some v => v | none => x.pairs.foldl (fun v (p : Nat × BitVec 12) => v.setIfInBounds p.1 p.2) last
  v.setIfInBounds i x.own

/-- Deliver the head of the pen of channel (i, d) when its tests pass (R275). -/
def State.deliverHead (s : State) (i d : Nat) : Option State :=
  let c := s.chan i d
  match c.pen with
  | [] => none
  | x :: rest =>
    if (x.entries i).all (fun p => p.1 == i || s.pairOk d p.1 p.2) then
      let v := x.stamp c.lastFull i
      let s := s.putChan { c with pen := rest, lastFull := v }
      let s := s.updVec d (fun u => vecMax u v)
      some (((s.noteDelivery i d x.payload).toldBy i d x.payload).performItem i d x.payload)
    else none

/-- Deliver whatever the pen of die d allows, for at most `fuel` items. -/
def State.drainPen : Nat → State → Nat → State
  | 0, s, _ => s
  | fuel + 1, s, d =>
    match (relDies d).findSome? (fun i => s.deliverHead i d) with
    | some s' => State.drainPen fuel s' d
    | none => s

/-- Number of items held at die d. -/
def State.heldAt (s : State) (d : Nat) : Nat := ((relDies d).map (fun i => (s.chan i d).pen.length)).sum

/-- Shared entries of the pen of die d that are taken (R277). -/
def State.sharedUsed (s : State) (d : Nat) : Nat := ((relDies d).map (fun k => ((s.chan k d).pen.filter (fun x => x.shared)).length)).sum

/-- Room in the pen of die d for an item from die i: a shared entry, or one of its 16 reserved entries (R277). -/
def State.penRoom (s : State) (i d : Nat) : Bool :=
  s.sharedUsed d < 128 || ((s.chan i d).pen.filter (fun x => !x.shared)).length < 16

/-- Bell requests for the counts that an item of die i, just held at die d, waits for (R276). -/
def State.askBells (s : State) (i d : Nat) (x : OrdItem) : State :=
  (x.entries i).foldl (fun s (p : Nat × BitVec 12) =>
    if p.1 == i || p.1 == d || s.ignores d p.1 || serGe (s.chan p.1 d).mark p.2 then s
    else s.sendBell d p.1 (.request s.gen p.2)) s

/-- The full stamps of the items of a channel that have not been delivered, held and on the link. -/
def Chan.stamps (c : Chan) : List Counts :=
  ((c.pen ++ c.ord).foldl (fun (acc : Counts × List Counts) (x : OrdItem) =>
    let v := x.stamp acc.1 c.src
    (v, acc.2 ++ [v])) (c.lastFull, [])).2

/-- The full stamps of the held items of a channel. -/
def Chan.heldStamps (c : Chan) : List Counts := c.stamps.take c.pen.length

/-- The floor of die d for entry k: the lowest value of it that the die holds, in its vector, in a held item or in a packet
that it has injected and whose delivery it has not been told of (R278); a response or a flit, which nothing answers, until it is delivered
(log 102). -/
def State.floorOf (s : State) (d k : Nat) : BitVec 12 :=
  let lower := fun (m : BitVec 12) (v : Counts) => if serGe m (v.getD k 0) then v.getD k 0 else m
  let m := (relDies d).foldl (fun (m : BitVec 12) i => (s.chan i d).heldStamps.foldl lower m) (s.vecAt d k)
  let m := (relDies d).foldl (fun (m : BitVec 12) j => (s.chan d j).stamps.foldl lower m) m
  (s.untold.filter (fun u => u.src == d)).foldl (fun (m : BitVec 12) u => lower m u.stamp) m

/-- Report the floor of die d to die k (Table 18.2). -/
def State.report (s : State) (d k : Nat) : State :=
  let f := s.floorOf d k
  (s.sendBell d k (.report s.gen f)).updChan k d (fun c => { c with floorSent := f })

/-- Reports of die d whose floor has advanced 256 since the last (Table 18.2). -/
def State.reports (s : State) (d : Nat) : State :=
  (relDies d).foldl (fun (s : State) k =>
    let adv := (s.floorOf d k - (s.chan k d).floorSent).toNat
    if !s.ignores d k && 256 ≤ adv && adv < 2048 then s.report d k else s) s

/-- After anything that may free a held item at die d. -/
def State.settleDie (s : State) (d : Nat) : State :=
  ((State.drainPen (s.heldAt d + 1) s d).reports d).flush

end Sys2Proof.Machine
end

