-- ==== Sys2Proof/Machine/Access.lean ====
section
/-! DEFINITION. How an arm's accesses are issued and performed (R40 to R43, R73, R74, R139, R144): what each waits for in
its own arm's program order, binding of the values of outstanding loads, stores, atomics, fences and releases. -/

namespace Sys2Proof.Machine

open Sys2Proof

/-- The arm an access belongs to, as it stands. `both`: what acts for it was enqueued before the SPLIT in force, and is po-before the events
of both arms (R40). -/
structure Ag where
  t : Team
  g : Group
  b : Bool
  w : Who
  both : Bool := false
  deriving DecidableEq, Repr

/-- The arm's registers. -/
def Ag.arm (a : Ag) : Arm := a.g.core.arm a.b
/-- The arm's context number. -/
def Ag.ctx (a : Ag) : Nat := a.t.ctx
/-- Team, group and arm. -/
def Ag.key (a : Ag) : Nat × Nat × Bool := (a.t.id, a.g.grpidx, a.b)
/-- The die it runs on. -/
def Ag.die (a : Ag) : Nat := dieOf a.w.core

/-- The arm as an agent. -/
def State.agent (s : State) (t g : Nat) (b : Bool) : Option Ag :=
  match s.team? t with
  | none => none
  | some x =>
    match x.group? g, s.who x with
    | some y, some w => some { t := x, g := y, b, w }
    | _, _ => none

/-- The result of issuing an access. -/
inductive Iss where
  | hold (s : State)         -- not issued; tried again
  | fault (code : Nat)
  | dead (s : State)         -- poison was consumed: the group is gone
  | ok (s : State)

/-- Do two byte ranges of one place overlap? -/
def locOverlap (l1 : Loc) (n1 : Nat) (l2 : Loc) (n2 : Nat) : Bool :=
  let r := fun (x y : Nat) => x < y + n2 && y < x + n1
  match l1, l2 with
  | .dev a, .dev b => r a b
  | .spad t a, .spad u b => t == u && r a b
  | .host a, .host b => r a b
  | .peer p a, .peer q b => p == q && r a b
  | _, _ => false

/-- Is something issued by an arm po-before the events of arm `k`: by that arm, or before the SPLIT in force (R40)? -/
def armOf (k : Nat × Nat × Bool) (team grp : Nat) (armB both : Bool) : Bool :=
  team == k.1 && grp == k.2.1 && (armB == k.2.2 || both)

/-- Does a pending access belong to an arm? -/
def Pending.ofArm (p : Pending) (k : Nat × Nat × Bool) : Bool := armOf k p.team p.grp p.armB p.both

/-- Does a write belong to an arm? -/
def HeldWrite.ofArm (h : HeldWrite) (k : Nat × Nat × Bool) : Bool :=
  match h.owner with | some o => armOf k o.1 o.2.1 o.2.2 h.both | none => false

/-- Does a REL.halo belong to an arm? -/
def HaloRel.ofArm (h : HaloRel) (k : Nat × Nat × Bool) : Bool := armOf k h.team h.grp h.armB h.both

/-- An access of the arm that still waits for an answer of the fabric. -/
def Pending.waits (p : Pending) : Bool := p.items.any (fun i => i.remote && i.val.isNone)

/-- Unbound items that memory answers. -/
def Pending.unbound (p : Pending) : Bool := p.items.any (fun i => !i.remote && i.val.isNone)

/-- A write touches bytes of a location. -/
def HeldWrite.meets (h : HeldWrite) (l : Loc) (n : Nat) : Bool := h.runs.any (fun r => locOverlap (h.t.loc.to r.1) r.2.length l n)

/-- Two writes touch a byte in common. -/
def HeldWrite.overlaps (h x : HeldWrite) : Bool := x.runs.any (fun r => h.meets (x.t.loc.to r.1) r.2.length)

/-- The write of an atomic has not been performed; with `remote`, one that is on its way on the fabric counts too. -/
def Pending.unwritten (p : Pending) (remote : Bool) : Bool := p.items.any (fun i => i.upd.isSome && i.val.isNone && (remote || !i.remote))

/-- Stores of the arm before a place `po` in its program order that have not been performed yet: writes that have been issued, atomics and
flags of REL.halo; with `causal`, remote causal stores and atomics, and with `peers`, stores that a peer has not acknowledged (R228, R236,
R237, R292). -/
def State.writesBefore (s : State) (k : Nat × Nat × Bool) (po : Nat) (causal peers : Bool) : Bool :=
  s.heldWrites.any (fun h => h.ofArm k && decide (h.po < po)) ||
  s.haloRels.any (fun h => h.ofArm k && decide (h.po < po)) ||
  s.pending.any (fun p => p.ofArm k && decide (p.po < po) && p.unwritten causal) ||
  (causal && s.causalStores.any (fun c => armOf k c.team c.grp c.armB c.both && decide (c.po < po))) ||
  (peers && s.peerStores.any (fun p => armOf k p.team p.grp p.armB p.both))

/-- The same for every store that the arm has issued. -/
def State.writesOut (s : State) (k : Nat × Nat × Bool) (causal peers : Bool) : Bool := s.writesBefore k s.nextId causal peers

/-- A location that a load at a place `po` may not be read from yet: a peer store to it is not acknowledged, or the flag of an earlier
REL.halo of the arm is not stored. -/
def State.loadBlocked (s : State) (k : Nat × Nat × Bool) (po : Nat) (l : Loc) (n : Nat) : Bool :=
  s.peerStores.any (fun p => p.runs.any (fun r => locOverlap l n (.peer p.peer r.1) r.2.length)) ||
  s.haloRels.any (fun h => h.ofArm k && decide (h.po < po) && locOverlap l n h.flag.loc h.flag.size)

/-- A location that an access at a place `po` may not be performed at its home yet: so, or an earlier store of the arm to it is not
performed. -/
def State.blockedFor (s : State) (k : Nat × Nat × Bool) (po : Nat) (l : Loc) (n : Nat) : Bool :=
  s.loadBlocked k po l n || s.heldWrites.any (fun h => h.ofArm k && decide (h.po < po) && h.meets l n)

/-- The byte that a write puts at a place. -/
def HeldWrite.byteAt (h : HeldWrite) (l : Loc) : Option Byte :=
  h.runs.findSome? (fun r => if locOverlap l 1 (h.t.loc.to r.1) r.2.length then r.2[l.addr - r.1]? else none)

/-- The byte of the latest store of the arm before a place `po` that has been issued and is not performed: a load of the arm may take it
from there (R42, R46). -/
def State.ownByte (s : State) (k : Nat × Nat × Bool) (po : Nat) (l : Loc) : Option Byte :=
  let hs := s.heldWrites.filter (fun h => h.ofArm k && decide (h.po < po) && h.meets l 1)
  (hs.foldl (fun (m : Option HeldWrite) h =>
    match m with
    | some x => if x.po < h.po || (x.po == h.po && x.id < h.id) then some h else m
    | none => some h) none).bind (fun h => h.byteAt l)

/-- The bytes of a location as a load of the arm sees them, given those that memory holds. -/
def State.ownBytes (s : State) (k : Nat × Nat × Bool) (po : Nat) (l : Loc) (bs : List Byte) : List Byte :=
  bs.mapIdx (fun i b => (s.ownByte k po (l.to (l.addr + i))).getD b)

/-- Every byte of a location comes from such stores. -/
def State.ownAll (s : State) (k : Nat × Nat × Bool) (po : Nat) (l : Loc) (n : Nat) : Bool :=
  (List.range n).all (fun i => (s.ownByte k po (l.to (l.addr + i))).isSome)

/-! ### The arm's lane queue -/

/-- Entries that are po-before the arm's next event. -/
def Group.entriesOf (g : Group) (b : Bool) : List QEntry := g.queue.filter (fun e => e.armB == b || e.both)

/-- OPC of an instruction that is a memory event (Tables 8.1, 8.4), VPREF excepted. -/
def isLaneMem (opc : Nat) : Bool := (0x180 ≤ opc && opc ≤ 0x1FF && opc != 0x184) || opc == 0x200 || opc == 0x201

/-- OPC of a queue entry; 0 for VNOP. -/
def QEntry.opc (e : QEntry) : Nat := match laneOf e.instr with | some (o, _) => o | none => 0

/-- Fields of a queue entry. -/
def QEntry.fields (e : QEntry) : Option LaneFields := (laneOf e.instr).map (fun x => x.2)

/-- A lane memory instruction of the arm is still queued. -/
def Group.memQueued (g : Group) (b : Bool) : Bool := (g.entriesOf b).any (fun e => isLaneMem e.opc && e.active != 0)

/-- Is a queued entry a lane store or atomic: a memory instruction other than VLD, VLDW and VTLD? -/
def QEntry.stores (e : QEntry) : Bool :=
  isLaneMem e.opc && e.active != 0 && e.opc != 0x180 && e.opc != 0x182 && e.opc != 0x200

/-- A lane store or atomic of the arm before a place `po` is still queued. -/
def Group.storeQueued (g : Group) (b : Bool) (po : Nat) : Bool := (g.entriesOf b).any (fun e => e.stores && decide (e.po < po))

/-- An AMAXRST of the arm before a place `po` is still queued: later events follow its read (R145). -/
def Group.amaxQueued (g : Group) (b : Bool) (po : Nat) : Bool :=
  (g.entriesOf b).any (fun e => e.opc == 0x19B && e.active != 0 && decide (e.po < po))

/-- The place of an address, without checks; none when it has none. -/
def State.placeOf (s : State) (w : Who) (va : Nat) : Option Loc :=
  match windowOf va with
  | .outside => none
  | .own off => w.team.map (fun t => .spad t.id off)
  | .flock k off => (w.team.bind (fun t => s.flockMate t k)).map (fun t => .spad t.id off)
  | win =>
    match s.pteOf w (win != .lower) va with
    | none => none
    | some e =>
      match win with
      | .host => some (.host (leafPa e va))
      | .peer p => some (.peer p (leafPa e va))
      | _ => some (.dev (w.ctx.ga (leafPa e va)))

/-- Active lanes of a queue entry under its predicate. -/
def QEntry.lanes (c : Core) (e : QEntry) (f : LaneFields) : Half :=
  let p := c.pget f.pred.toNat
  e.active &&& (if f.pneg then ~~~ p else p)

/-- A tile-table entry that has never been defined (R191). -/
def Tile.none_ : Tile := { off := 0, rows := 0, cols := 0, elem := 0, ops := false, state := .empty }

/-- A tile of a team. -/
def Team.tile (t : Team) (i : Nat) : Tile := t.tiles.getD i Tile.none_

/-- The scratchpad address of a lane's element in a tile window, or its fault code (Table 8.4, orders 1 and 2). A tile index at or above
TILES names no tile of the team (log 23). -/
def Team.tileAddr (t : Team) (c : Core) (grpidx : Nat) (f : LaneFields) (bcA bcB : Word) (lane : Nat) : Except Nat Word :=
  let x := t.tile f.tile
  let row := laneSrc c grpidx f.sa bcA f.ext .n32 lane
  let col := laneSrc c grpidx f.sb bcB f.ext .n32 lane
  if t.ntiles ≤ f.tile then .error cPROTECTION
  else if x.state == .empty || x.ops || x.elem.toNat != f.ty.code then .error cTILE
  else if x.rows ≤ row || x.cols ≤ col then .error cPROTECTION
  else .ok (toWord (ownWindow + x.off + (row * x.cols + col) * (f.ty.bits / 8)))

/-- The v registers that the address of a lane memory instruction comes from. -/
def addrRegs (opc : Nat) (f : LaneFields) : List Nat :=
  (if isV f.sa then (if opc == 0x200 || opc == 0x201 then [f.sa.toNat] else [f.sa.toNat, f.sa.toNat + 1]) else []) ++
  (if isV f.sb then [f.sb.toNat] else [])

/-- The v registers and the predicates that an entry writes. -/
def QEntry.writesRegs (e : QEntry) : List Nat × List Nat :=
  match laneOf e.instr with
  | none => ([], [])
  | some (opc, f) =>
    match laneRow opc with
    | none => ([], [])
    | some r =>
      match r.dst with
      | .v => (vnums f.dst.toNat f.ty, [])
      | .v32 => ([f.dst.toNat], [])
      | .vsd => (if f.sd then [] else vnums f.dst.toNat f.ty, [])
      | .p => ([], [f.dst.toNat])
      | .none => ([], [])

/-- The v registers that an entry names. -/
def QEntry.names (e : QEntry) : List Nat :=
  match e.fields with
  | some f => e.writesRegs.1 ++ ([f.sa, f.sb, f.sc].filter isV).map (fun c => c.toNat)
  | none => []

/-- An entry waits for a register that only the use of a token will fill (R101). -/
def Group.tokenHeld (g : Group) (e : QEntry) : Bool :=
  (g.frames ++ g.inherited).any (fun f => f.state != 0 && f.rkind == 1 && e.scope &&& f.mask != 0 && e.names.contains f.dest)

/-- The lanes whose accesses a queued lane memory instruction will make are known, with their addresses: nothing before it in its arm's
queue writes its address registers or its predicate, and they are full. -/
def QEntry.known (c : Core) (before : List QEntry) (e : QEntry) (opc : Nat) (f : LaneFields) : Bool :=
  c.pIsFull f.pred.toNat && before.all (fun x => !x.writesRegs.2.contains f.pred.toNat && !(addrRegs opc f).any (fun r => x.writesRegs.1.contains r)) &&
  (addrRegs opc f).all (fun r => e.lanes c f &&& ~~~ c.vfullOf r == 0)

/-- The address of a lane of a queued memory instruction; none when it makes no access there. -/
def QEntry.addrIn (t : Team) (c : Core) (grpidx : Nat) (e : QEntry) (opc : Nat) (f : LaneFields) (lane : Nat) : Option Word :=
  if opc == 0x182 then some (e.bcA + f.disp)
  else if opc == 0x200 || opc == 0x201 then
    (match t.tileAddr c grpidx f e.bcA e.bcB lane with | .ok va => some va | .error _ => none)
  else some (laneAddr c grpidx f e.bcA e.bcB lane)

/-- A queued lane memory instruction makes accesses whose lanes or addresses are not known yet. `before`: the entries of its arm before it. -/
def QEntry.unknown (c : Core) (before : List QEntry) (e : QEntry) : Bool :=
  match laneOf e.instr with
  | some (opc, f) => isLaneMem opc && e.active != 0 && !e.known c before opc f
  | none => false

/-- Does a queued lane memory instruction satisfy `p` in a lane, by the lane's address and the size of its access? Where its addresses are not
known yet, the device takes it for one that does, and waits, or for one that does not: as it chooses (`pass`), and for one that does not where
it stands behind a register that only a token fills (log 83). -/
def State.entryMay (a : Ag) (pass : Bool) (before : List QEntry) (e : QEntry) (p : Word → Nat → Bool) : Bool :=
  match laneOf e.instr with
  | none => false
  | some (opc, f) =>
    if !isLaneMem opc || e.active == 0 then false
    else if !e.known a.g.core before opc f then !(pass || (before ++ [e]).any (fun x => a.g.tokenHeld x))
    else
      let size := if opc == 0x182 then (if f.ty.is64 then 256 else 128) else f.ty.bits / 8
      (lanesOf (e.lanes a.g.core f)).any (fun lane =>
        match e.addrIn a.t a.g.core a.g.grpidx opc f lane with | some va => p va size | none => false)

/-- Some entry of the arm before a place `po` satisfies `q`, given the entries before it. -/
def Ag.anyEntry (a : Ag) (po : Nat) (q : List QEntry → QEntry → Bool) : Bool :=
  let es := (a.g.entriesOf a.b).filter (fun e => decide (e.po < po))
  (List.range es.length).any (fun i => match es[i]? with | some e => q (es.take i) e | none => false)

/-- A lane memory instruction of the arm before a place `po`, still queued, may touch bytes of a location (R42, R73). -/
def State.laneOverlap (s : State) (a : Ag) (po : Nat) (l : Loc) (n : Nat) : Bool :=
  a.anyEntry po (fun before e => State.entryMay a (Config.lanePasses s.fresh) before e (fun va size =>
    match s.placeOf a.w va.toNat with | some m => locOverlap m size l n | none => false))

/-- A guess concerns an access, or a queue entry, of a group: it is po-after it (R40). -/
def Guess.follows (x : Guess) (team grp : Nat) (armB both : Bool) (po : Nat) : Bool :=
  x.team == team && x.grp == grp && (both || x.both || x.armB == armB) && decide (po < x.po)

/-- Something that a guess is about has not been performed yet. -/
def State.guessLive (s : State) (x : Guess) : Bool :=
  (match s.group? x.team x.grp with | some g => g.queue.any (fun e => x.follows x.team x.grp e.armB e.both e.po) | none => false) ||
  s.pending.any (fun p => x.follows p.team p.grp p.armB p.both p.po)

/-- An access of the arm at a place `po` is performed or injected: where an earlier lane instruction is queued whose addresses are not known,
that is a guess (log 83). -/
def State.guess (s : State) (a : Ag) (po : Nat) (t : Target) (write causal : Bool) (bytes : List Byte) : State :=
  if a.anyEntry po (fun before e => e.unknown a.g.core before) then
    { s with guesses := s.guesses.filter (fun x => s.guessLive x) ++
        [{ team := a.t.id, grp := a.g.grpidx, armB := a.b, both := a.both, po, t, write, causal, bytes }] }
  else s

/-- A lane instruction whose addresses have become known has turned out to touch what a later access of its arm has been guessed not to: it
does not execute, so that no run in which it does breaks R42 or R44 (log 83). `ts`: its targets; `store`: it is a store or an atomic. -/
def State.guessStops (s : State) (a : Ag) (e : QEntry) (ts : List (Nat × Target)) (store : Bool) : Bool :=
  s.guesses.any (fun x => x.follows a.t.id a.g.grpidx a.b e.both e.po &&
    ts.any (fun t => ((store || x.write) && locOverlap x.t.loc x.t.size t.2.loc t.2.size) || (x.causal && pteCausal t.2.pte)))

/-- The arm of a pending access as it stands, and a location that an earlier lane instruction of it may still touch. -/
def State.queueBlocks (s : State) (p : Pending) (l : Loc) (n : Nat) : Bool :=
  match s.agent p.team p.grp p.armB with
  | some a => s.laneOverlap a p.po l n
  | none => false

/-- The arm that issued a pending access. -/
def Pending.key (p : Pending) : Nat × Nat × Bool := (p.team, p.grp, p.armB)

/-- The access acts as an acquire at device or system scope: it is read at the home slice (R229). -/
def Pending.wideAcq (p : Pending) : Bool := p.acq && 4 ≤ p.scope

/-- The host holds the line of a device location that an agent of a view, or of none, reaches (R238). -/
def State.hostHasLine (s : State) (t : Target) (view : Option Nat) : Bool :=
  match t.loc with
  | .dev ga => !(pteViewed t.pte && view.isSome) && s.hostHeld.contains (lineOf ga)
  | _ => false

/-- A lane store or atomic before a place `po` is still queued in the arm of a key. -/
def State.storesQueued (s : State) (k : Nat × Nat × Bool) (po : Nat) : Bool :=
  match s.group? k.1 k.2.1 with | some g => g.storeQueued k.2.2 po | none => false

/-- An atomic may be performed: one that is a release at device or system scope follows every earlier write of its arm, those of lane
instructions still queued included (R43, R228), and the host gives up its copy of the line first (R238). -/
def State.rmwReady (s : State) (p : Pending) (t : Target) (u : Rmw) : Bool :=
  !(u.wide && (s.writesBefore p.key p.po true u.sys || s.storesQueued p.key p.po)) && !s.hostHasLine t ((s.team? p.team).bind (fun x => x.view))

/-- Do the arm's earlier accesses to its bytes let an item of a pending access be read? A load may take the bytes of the arm's own stores before
they are performed; an atomic, and an acquire at device or system scope, may not. -/
def State.readable (s : State) (p : Pending) (i : PItem) : Bool :=
  !s.loadBlocked p.key p.po i.t.loc i.t.size && !s.queueBlocks p i.t.loc i.t.size &&
  (match i.upd with
   | some u => !s.blockedFor p.key p.po i.t.loc i.t.size && s.rmwReady p i.t u
   | none => !p.wideAcq || !s.blockedFor p.key p.po i.t.loc i.t.size)

/-- A later load of the arm that was read on a guess returned other bytes of the place of an earlier one than memory holds now: the earlier
one is not read (R42, log 83). -/
def State.guessReads (s : State) (p : Pending) (i : PItem) : Bool :=
  s.guesses.any (fun x => x.follows p.team p.grp p.armB p.both p.po && locOverlap x.t.loc x.t.size i.t.loc i.t.size &&
    (x.write || (match s.agent p.team p.grp p.armB with | some a => (s.loadAt a.w x.t 0 true).bytes != x.bytes | none => false)))

/-- May an item of a pending access be read now, after the arm's FENCE before it (R88) and its guesses? -/
def State.canRead (s : State) (p : Pending) (i : PItem) : Bool :=
  i.remote || i.val.isSome ||
  (s.readable p i && !(decide (0 < p.after) && s.writesBefore p.key p.after false false) && !s.guessReads p i)

/-- May the memory items of a pending access be read now? -/
def State.canBind (s : State) (p : Pending) : Bool := p.items.all (fun i => s.canRead p i)

/-! ### Performing a read, and an atomic -/

/-- Is a target a causal location (R44)? -/
def Target.causal (t : Target) : Bool := (match t.loc with | .dev _ => true | _ => false) && pteCausal t.pte

/-- Does a target lie in device memory, whose lines have a SIG? -/
def Target.isDev (t : Target) : Bool := match t.loc with | .dev _ => true | _ => false

/-- The signature a store of the arm carries as a release (R228, R271): W with the store's own bucket, for a causal store,
a store after FENCE.dev or FENCE.sys, and a release of such scope. -/
def State.relW (s : State) (a : Ag) (t : Target) (rel : Bool) : Option (BitVec 64) :=
  if rel || a.arm.relFence || t.causal then
    some (s.wOf a.w.core ||| (match t.loc with | .dev ga => bucketBit ga | _ => 0))
  else none

/-- The value an atomic of the arm reads (R74, R145): the view's private copy on a viewed page, the home otherwise. On a page with
ZTWIN = 1 a granule that the view has not stored to yet starts as zeros (R253). -/
def State.atomRead (s : State) (a : Ag) (t : Target) : LoadRes :=
  let r := s.loadAt a.w t 0 true
  match t.loc, a.w.view.bind s.view? with
  | .dev ga, some v =>
    if pteViewed t.pte && pteZtwin t.pte && (v.granule? (ga / 128 * 128)).isNone then
      { r with bytes := List.replicate t.size 0, poison := false }
    else r
  | _, _ => r

/-- Perform one read-modify-write at a local target: the old value, the state, and whether poison was consumed. AMAXRST is an acquire and
a release at device scope (R145); an atomic after a FENCE of such scope is a release (R43). -/
def State.doRmw (s : State) (a : Ag) (po : Nat) (t : Target) (u : Rmw) : Nat × State × Bool :=
  let r := s.atomRead a t
  let x := leNat r.bytes
  let sig := if t.isDev then r.sig else BitVec.allOnes 64
  let s := r.s.noteSig a.t.id a.g.grpidx a.b a.both r.sig
  let s := if t.causal then s.orW a.w.core r.sig else s
  let s := if u.acqRel then ((s.orW a.w.core sig).acquireW a.w.core 4).invalidateOut a.die sig false else s
  let new := leBytes t.size (u.new t.size x)
  if r.poison then (x, s, true)
  else match t.loc with
    | .peer p pa => (x, (s.dropOut a.die (some p) (pa / 128)).peerStore p pa new, false)
    | _ =>
      let rel := if u.acqRel || u.wide || t.causal then s.relW a t true else none
      let w := s.putWrite (a.w.write t (some a.key) po [(t.loc.addr, new)] rel)
      (x, w.s, w.poison)

/-- Read one item's value now (R25): its signature counts for a later fence, a causal load takes it into W (R271), and an acquire applies it
(R229), all ones where the location has none (log 97). An atomic is performed. -/
def State.bindItem (s : State) (a : Ag) (p : Pending) (i : PItem) : PItem × State × Bool :=
  if i.remote || i.val.isSome then (i, s, false)
  else match i.upd with
  | some u =>
    let r := s.doRmw a p.po i.t u
    ({ i with val := some r.1 }, r.2.1, r.2.2)
  | none =>
    let r := s.loadAt a.w i.t p.hint (p.wideAcq || i.t.causal)
    let sig := if p.wideAcq && !i.t.isDev then BitVec.allOnes 64 else r.sig
    let s1 := r.s.noteSig p.team p.grp p.armB p.both sig
    let s2 := if p.acq then s1.acquireW a.w.core p.scope else s1
    let s3 := if p.wideAcq || i.t.causal then s2.orW a.w.core sig else s2
    let s4 := if p.wideAcq then s3.invalidateOut a.die sig (p.scope == 5) else s3
    ({ i with val := some (leNat (s.ownBytes p.key p.po i.t.loc r.bytes)) }, s4, r.poison && !s.ownAll p.key p.po i.t.loc i.t.size)

/-- How a group consumes poison that an access of it has met (R241): the lanes concerned, and the kind of the unit. -/
def Pending.poisonOf (p : Pending) (lane : Nat) : Half × Nat :=
  match p.dest with
  | .v _ _ => (maskOf [lane], 2)
  | .wide _ _ m => (m, 2)
  | _ => (0, 1)

/-- Read the memory items of a pending access that `sel` names by their places, now. -/
def State.bindSome (s : State) (p : Pending) (sel : Nat → Bool) : State :=
  match s.agent p.team p.grp p.armB with
  | none => s
  | some a =>
    let r := (p.items.mapIdx (fun k i => (k, i))).foldl (fun (acc : List PItem × State × Option PItem) q =>
      if sel q.1 then
        let x := acc.2.1.bindItem { a with both := p.both } p q.2
        let u := if q.2.remote || q.2.val.isSome then x.2.1
          else x.2.1.guess { a with both := p.both } p.po q.2.t q.2.upd.isSome q.2.t.causal (leBytes q.2.t.size (x.1.val.getD 0))
        (acc.1 ++ [x.1], u, if x.2.2 then some (acc.2.2.getD q.2) else acc.2.2)
      else (acc.1 ++ [q.2], acc.2)) ([], s, none)
    let s := { r.2.1 with pending := updWhere (fun q => q.id == p.id) (fun q => { q with items := r.1 }) r.2.1.pending }
    match r.2.2 with
    | some i => s.consume p.team p.grp p.armB i.t.va (p.poisonOf i.lane).1 (p.poisonOf i.lane).2
    | none => s

/-- Read every memory item of a pending access now. -/
def State.bindOne (s : State) (p : Pending) : State := s.bindSome p (fun _ => true)

/-- The items of an access that are performed with item `k`: an atomic's on one location go together, in ascending lane order (R144). -/
def Pending.withItem (p : Pending) (k j : Nat) : Bool :=
  match p.items[k]?, p.items[j]? with
  | some x, some y => j == k || (x.upd.isSome && y.upd.isSome && x.t.loc == y.t.loc)
  | _, _ => false

/-- Do the items of an access that `sel` names by their places touch the bytes of a target? -/
def Pending.touches (p : Pending) (sel : Nat → Bool) (t : Target) : Bool :=
  (p.items.mapIdx (fun k i => sel k && locOverlap i.t.loc i.t.size t.loc t.size)).any (fun b => b)

/-- Put an access into its place among others, the latest in program order first. -/
def poInsert (p : Pending) : List Pending → List Pending
  | [] => [p]
  | q :: l => if q.po < p.po then p :: q :: l else q :: poInsert p l

/-- Accesses by their places in program order, the latest first. -/
def byPo (l : List Pending) : List Pending := l.foldl (fun acc p => poInsert p acc) []

/-- The items of a pending access, still to be read, that a later access of the arm must follow: every one of an acquire (R89), those whose
target `hit` names, those that touch one of `ts` (R42), and with an atomic's lane the others on its location. The other lanes are not ordered
with the later access (Table 21.2). -/
def Pending.needed (q : Pending) (hit : Target → Bool) (ts : List Target) : List Nat :=
  let due := fun (k : Nat) => match q.items[k]? with | some i => !i.remote && i.val.isNone | none => false
  let first := (List.range q.items.length).filter (fun k => due k && (q.acq || (match q.items[k]? with
    | some i => hit i.t || ts.any (fun t => locOverlap t.loc t.size i.t.loc i.t.size)
    | none => false)))
  (List.range q.items.length).filter (fun k => due k && first.any (fun j => q.withItem j k))

/-- The items of the accesses of arm `k` before a place `po` that must be read before what `hit` describes, and those that must be read before
them in turn. Latest first in the list; earliest first in the answer. -/
def olderNeeded (k : Nat × Nat × Bool) (po : Nat) (hit : Target → Bool) :
    List Pending → List Target → List (Pending × List Nat) → List (Pending × List Nat)
  | [], _, acc => acc
  | q :: l, ts, acc =>
    let ks := if q.ofArm k && decide (q.po < po) then q.needed hit ts else []
    if ks.isEmpty then olderNeeded k po hit l ts acc
    else olderNeeded k po hit l (ks.filterMap (fun j => (q.items[j]?).map (fun i => i.t)) ++ ts) ((q, ks) :: acc)

/-- Read what an access or a write of arm `k` at a place `po` must follow, as far as memory answers it (R42, R89); none when one of it may not
be read yet. -/
def State.bindBefore (s : State) (k : Nat × Nat × Bool) (po : Nat) (hit : Target → Bool) : Option State :=
  let need := olderNeeded k po hit (byPo s.pending) [] []
  if need.all (fun x => x.2.all (fun j => match x.1.items[j]? with | some i => s.canRead x.1 i | none => true)) then
    some (need.foldl (fun (s : State) x => s.bindSome x.1 (fun j => x.2.contains j)) s)
  else none

/-- Read a pending access, and first what it must follow; none when something may not be read yet. -/
def State.bind (s : State) (p : Pending) : Option State :=
  if s.canBind p then (s.bindBefore p.key p.po (p.touches (fun _ => true))).map (fun s => s.bindOne p) else none

/-- A device line that the host holds: an atomic waits for the back-invalidation response, and asks for it once (R238). -/
def State.askHost (s : State) (a : Ag) (t : Target) : State :=
  if s.hostHasLine t a.w.view && !s.heldWrites.any (fun h => h.owner.isNone && lineOf h.t.ga == lineOf t.ga) then
    s.keepWrite (a.w.write t none 0 [] none)
  else s

/-- Read one item of a pending access, and first the items of older ones that it must follow: the lanes of one instruction are not
ordered among themselves (R40, R139, R142, R144). None of a die that has stopped for a frequency change (R17). -/
def State.bindLane (s : State) (id k : Nat) : State :=
  match s.pending.find? (fun p => p.id == id) with
  | none => s
  | some p =>
    match p.items[k]?, s.agent p.team p.grp p.armB with
    | some i, some a =>
      if s.dieStopped a.die then s
      else if s.canRead p i then (match s.bindBefore p.key p.po (p.touches (p.withItem k)) with | some s => s.bindSome p (p.withItem k) | none => s)
      else if i.upd.isSome then s.askHost a i.t else s
    | _, _ => s

/-- Read every pending access of an arm that satisfies `f`, oldest first; none when one may not be read yet. -/
def State.bindWhere (s : State) (k : Nat × Nat × Bool) (f : Pending → Bool) : Option State :=
  (s.pending.filter (fun p => p.unbound && p.ofArm k && f p)).foldl (fun o p =>
    match o with
    | none => none
    | some s => (match s.pending.find? (fun q => q.id == p.id) with | some q => if q.unbound then s.bind q else some s | none => some s)) (some s)

/-- What a write of the arm at a place `po` to a location must follow is read. -/
def State.bindOverlaps (s : State) (k : Nat × Nat × Bool) (po : Nat) (l : Loc) (n : Nat) : Option State :=
  s.bindBefore k po (fun t => locOverlap t.loc t.size l n)

/-- Every access of the arm in flight is performed; none while one waits for the fabric or may not be performed yet. `causal`: remote
causal atomics are waited for too (R292). `atomics`: the others are performed, but for AMAXRST's, only then. -/
def State.bindAll (s : State) (k : Nat × Nat × Bool) (causal : Bool) (atomics : Bool := true) : Option State :=
  if s.pending.any (fun p => p.ofArm k && p.waits && (causal || !p.rmw)) then none else s.bindWhere k (fun p => atomics || !p.rmw || p.acq)

/-- An acquire of the arm before a place `po` still waits for the fabric. -/
def State.acqWaits (s : State) (k : Nat × Nat × Bool) (po : Nat) : Bool :=
  s.pending.any (fun p => p.ofArm k && p.acq && p.waits && decide (p.po < po))

/-! ### Causal accesses -/

/-- Is a target reached through a peer window? -/
def Target.isPeer (t : Target) : Bool := match t.loc with | .peer _ _ => true | _ => false

/-- A causal location of another die (R269). -/
def State.remoteCausal (s : State) (a : Ag) (t : Target) : Bool := t.causal && s.homeDie t.ga != a.die

/-- Ordered traffic of the arm: a remote causal access, or a store through a peer window (R269). -/
def State.ordered (s : State) (a : Ag) (t : Target) : Bool := s.remoteCausal a t || t.isPeer

/-- A causal access holds the arm's next one until its value has returned or, a local one, it is performed; but not a remote atomic whose
value is not used (R270). -/
def Pending.holdsCausal (p : Pending) : Bool :=
  p.items.any (fun i => i.val.isNone && (if i.remote then !(p.rmw && p.dest == .none) else i.t.causal))

/-- A request of the group still waits at its die to be injected. -/
def State.uninjected (s : State) (k : Nat × Nat × Bool) : Bool :=
  s.outq.any (fun x => !isResponse x.2.2 && match s.ownerOf x.2.2 with | some o => o.1 == k.1 && o.2.1 == k.2.1 | none => false)

/-- The earlier events of the arm let a causal access go (R270, R89): every earlier causal access has been injected, has returned its value
or has been performed, every earlier acquire is performed, and so is every earlier store that is not ordered traffic. -/
def State.causalReady (s : State) (k : Nat × Nat × Bool) (po : Nat) : Bool :=
  !s.pending.any (fun p => p.ofArm k && (p.holdsCausal || (p.acq && p.unbound)) && decide (p.po < po)) && !s.uninjected k &&
  !s.writesBefore k po false false

/-- Does an address lie on a CAUSAL page (R44)? -/
def State.causalAddr (s : State) (w : Who) (va : Nat) : Bool :=
  match windowOf va with
  | .lower => (match s.pteOf w false va with | some e => pteCausal e | none => false)
  | _ => false

/-- An earlier lane instruction of the arm, still queued, stands before a causal access or an ordered packet (R270): one that may access a
causal location, and a store. -/
def State.laneBeforeCausal (s : State) (a : Ag) (po : Nat) : Bool :=
  a.g.storeQueued a.b po || a.anyEntry po (fun before e => State.entryMay a (Config.lanePasses s.fresh) before e (fun va _ => s.causalAddr a.w va.toNat))

/-- The causal access or ordered packet of an arm must wait: the state with what a stalled sender sends (R278), or none. `store`: it is a
store or an atomic. A load through a peer window is no ordered traffic. -/
def State.causalHold (s : State) (a : Ag) (po : Nat) (t : Target) (store : Bool) : Option State :=
  if !(t.causal || (store && t.isPeer)) then none
  else if !s.causalReady a.key po || s.laneBeforeCausal a po then some s
  else if s.ordered a t && !s.canInject a.die then some (if s.resync.isSome then s else s.stall a.die)
  else none

/-! ### Loads -/

/-- Add an outstanding access. -/
def State.addPending (s : State) (p : Pending) : State := { s.bump with pending := s.pending ++ [p] }

/-- One item of a load as it issues, at its place `po` in program order: a remote causal one is injected (R270), and any other is read later. -/
def State.startItem (s : State) (a : Ag) (po pid lane : Nat) (t : Target) : PItem × State :=
  let s := s.touch a.w t
  if s.remoteCausal a t then ({ lane, t, val := none, remote := true }, (s.guess a po t true true []).send a.die (s.homeDie t.ga) (.load pid t a.w.core))
  else ({ lane, t, val := none, remote := false }, s)

/-- Issue a scalar load or ACQ of a size into a register (R73, R89). It waits for no lane access of its arm that touches none of its bytes;
it is read after those that do. `scope`: 6 for a plain load. -/
def State.issueLoad (s : State) (a : Ag) (d : SReg) (va : Word) (size scope : Nat) : Iss :=
  match s.check a.w .load va size with
  | .error c => .fault c
  | .ok t =>
    let pid := s.nextId
    if a.g.amaxQueued a.b pid || s.acqWaits a.key pid then .hold s
    else match s.causalHold a pid t false with
    | some s => .hold s
    | none =>
      let x := s.startItem a pid pid 0 t
      let p : Pending := { after := a.arm.fencePo, id := pid, po := pid, team := a.t.id, grp := a.g.grpidx, armB := a.b, dest := if d = 0 then .none else .s d, hint := 0,
                           items := [x.1], rmw := false, acq := scope ≤ 5, scope, both := false, saved := none }
      .ok ((x.2.addPending p).updArm a.t.id a.g.grpidx a.b (fun m => m.empty d))

/-! ### Stores -/

/-- How far a write that has been issued came. -/
inductive Perf where
  | wait (s : State)         -- not performed yet; accesses may have been read on its account
  | poison (s : State)       -- poison was consumed, and the write is dropped
  | done (s : State)

/-- A group takes part: it has not retired. -/
def State.alive (s : State) (k : Nat × Nat × Bool) : Bool := match s.group? k.1 k.2.1 with | some g => !g.retired | none => false

/-- What of its own arm a write must follow (R42, R88, R89, R145): earlier writes and flags to its bytes, lane instructions that may touch them,
acquires that have not been answered, and every write before the FENCE that it stands after, or, for a release, before itself. -/
def State.mustFollow (s : State) (k : Nat × Nat × Bool) (h : HeldWrite) : Bool :=
  s.heldWrites.any (fun x => x.ofArm k && x.id != h.id && (decide (x.po < h.po) || (x.po == h.po && decide (x.id < h.id))) && x.overlaps h) ||
  s.haloRels.any (fun x => x.ofArm k && decide (x.po < h.po) && h.meets x.flag.loc x.flag.size) ||
  s.acqWaits k h.po || (decide (0 < h.after) && s.writesBefore k h.after false false) ||
  (match s.agent k.1 k.2.1 k.2.2 with
   | some a => a.g.amaxQueued a.b h.po || h.runs.any (fun r => s.laneOverlap a h.po (h.t.loc.to r.1) r.2.length)
   | none => false)

/-- What a release at device or system scope must follow (R228, R237, R292): every earlier write of the arm. -/
def State.relFollows (s : State) (k : Nat × Nat × Bool) (h : HeldWrite) : Bool :=
  h.wide && (s.writesBefore k h.po true h.sys || s.storesQueued k h.po)

/-- A write of an arm is performed: where an earlier lane instruction is queued whose addresses are not known, that is a guess. -/
def State.guessWrite (s : State) (k : Nat × Nat × Bool) (h : HeldWrite) : State :=
  match s.agent k.1 k.2.1 k.2.2 with
  | some a => h.runs.foldl (fun (s : State) r =>
      s.guess { a with both := h.both } h.po { h.t with loc := h.t.loc.to r.1, size := r.2.length } true h.t.causal []) s
  | none => s

/-- Perform a write that has been issued, when it may be performed now: the accesses of its arm that must be read before it are read first
(R42). -/
def State.tryWrite (s : State) (h : HeldWrite) : Perf :=
  if s.hostHas h then .wait s
  else match h.owner with
  | none => .wait s
  | some k =>
    if s.mustFollow k h || s.relFollows k h then .wait s
    else match s.bindBefore k h.po (fun t => h.meets t.loc t.size) with
    | none => .wait s
    | some u =>
      if s.alive k && !u.alive k then .wait u
      else
        let r := u.putWrite h
        if r.poison then .poison r.s else .done (r.s.guessWrite k h)

/-- The result of a store of an arm as it issues: `poison`, the write was dropped. -/
def State.issueKept (s : State) (h : HeldWrite) (late : Bool) : StoreRes :=
  if late then { poison := false, s := s.keepWrite h }
  else match s.tryWrite h with
  | .wait s => { poison := false, s := s.keepWrite h }
  | .poison s => { poison := true, s }
  | .done s => { poison := false, s }

/-- One ordered packet of a store of the arm (R237, R269), at its place in program order: of a store through a peer window, or of a remote
causal one. -/
def State.sendStore (s : State) (a : Ag) (po : Nat) (t : Target) (runs : List (Nat × List Byte)) (rel : Bool) : State :=
  let id := s.nextId
  let s := s.guess a po t true true []
  match t.loc with
  | .peer p pa =>
    let s := s.dropOut a.die (some p) (pa / 128)
    let ps : PeerStore := { id, team := a.t.id, grp := a.g.grpidx, armB := a.b, both := a.both, die := a.die, peer := p, pa, runs, sent := false }
    ({ s.bump with peerStores := s.peerStores ++ [ps] }).send a.die 8 (.peerStore id)
  | _ =>
    let s := s.orW a.w.core (bucketBit t.ga)
    let x : CausalStore := { id, po, team := a.t.id, grp := a.g.grpidx, armB := a.b, both := a.both }
    let w := (s.relW a t rel).getD 0
    ({ s.bump with causalStores := s.causalStores ++ [x] }).send a.die (s.homeDie t.ga) (.store id t runs w)

/-- A store or an atomic of a view lets its tree hold the page as it issues: it has passed every check of its access (R36). -/
def State.holdPage (s : State) (w : Who) (t : Target) : State :=
  match t.loc, w.view with
  | .dev ga, some v => if pteViewed t.pte then s.latch (s.viewChain treeFuel (some v)) (ga / 0x10000) t.pte else s
  | _, _ => s

/-- A target lies in parent storage of a tree, whose parent view is `pv` (R254), in one of `n` frames from `frame` on. -/
def Target.inFrames (t : Target) (view pv : Option Nat) (frame n : Nat) : Bool :=
  match t.loc with
  | .dev ga => (if pteViewed t.pte then view else none) == pv && decide (frame ≤ ga / 0x10000) && decide (ga / 0x10000 < frame + n)
  | _ => false

/-- The target of a write that travels on the fabric. -/
def Payload.written : Payload → Option Target
  | .store _ t _ _ | .rmw _ t _ _ _ => some t
  | _ => none

/-- A write that passed its checks before the page was held, by an agent outside the tree and to its parent storage, has not been performed
yet: to some frames, for a tree whose parent view is `pv`. -/
def State.parentWrites (s : State) (pv : Option Nat) (frame n : Nat) : Bool :=
  s.heldWrites.any (fun h => h.t.inFrames h.view pv frame n) ||
  s.pending.any (fun p => p.items.any (fun i => i.upd.isSome && i.val.isNone &&
    i.t.inFrames ((s.team? p.team).bind (fun x => x.view)) pv frame n)) ||
  ((s.chans.flatMap (fun c => (c.pen ++ c.ord).map (fun x => x.payload))) ++ s.outq.map (fun x => x.2.2)).any (fun p =>
    match p.written with | some t => t.inFrames none pv frame n | none => false)

/-- A store or an atomic of a view, the first of its tree to a page, waits for the writes that have been issued to the tree's parent storage
there: none of them reaches the page while the tree holds it (R36, Case 16.2, log 104). -/
def State.viewWait (s : State) (w : Who) (t : Target) : Bool :=
  match t.loc, w.view.bind s.view? with
  | .dev ga, some v =>
    (match s.set? v.set with
     | some x =>
       let n := pageBytes (pteSize t.pte) / 0x10000
       pteViewed t.pte && !x.holds (ga / 0x10000) && s.parentWrites (if x.kind == .nestedFork then x.parentView else none) (ga / 0x10000 / n * n) n
     | none => false)
  | _, _ => false

/-- Issue a store of the arm at a checked target (R73, R237, R269): its bytes by address, and its place in program order. A store through a
peer window and a remote causal one leave as a packet; any other is performed now or later, as the device chooses (R46, log 50). `mask`: the
lanes of a lane store, else 0. `after`: of a release, its own place (R43). -/
def State.doStore (s : State) (a : Ag) (po : Nat) (t : Target) (runs : List (Nat × List Byte)) (mask : Half) (rel sys : Bool) (after : Nat := 0) : StoreRes :=
  let s := (s.touch a.w t).holdPage a.w t
  if s.ordered a t then { poison := false, s := s.sendStore a po t runs rel }
  else
    let s := match t.loc with | .dev ga => s.orW a.w.core (bucketBit ga) | _ => s
    let h : HeldWrite := { a.w.write t (some a.key) po runs (s.relW a t rel) with
      id := s.nextId, both := a.both, wide := rel || a.arm.relFence, sys, mask, after := max a.arm.fencePo after }
    s.useFresh.issueKept h (Config.storeWaits s.fresh)

/-- May a store or an atomic of the arm that leaves as ordered traffic go (R42, R89, R145, R270)? The state to go on from, or `hold`. -/
def State.storeReady (s : State) (a : Ag) (t : Target) (n : Nat) : Iss :=
  let po := s.nextId
  if a.g.amaxQueued a.b po || s.acqWaits a.key po || s.laneOverlap a po t.loc n || s.blockedFor a.key po t.loc n then .hold s
  else match s.causalHold a po t true with
  | some s => .hold s
  | none =>
    match s.bindOverlaps a.key po t.loc n with
    | none => .hold s
    | some s => .ok s

/-- May a store or an atomic of the arm issue now? One that is no ordered traffic waits only where it is a causal access (R270), or where its
tree does not hold the page yet (R36). -/
def State.writeReady (s : State) (a : Ag) (t : Target) (n : Nat) : Iss :=
  if s.viewWait a.w t then .hold s
  else if s.ordered a t then s.storeReady a t n
  else match s.causalHold a s.nextId t true with
  | some s => .hold s
  | none => .ok s

/-- Is the group gone after a step of its own accesses? -/
def State.gone (s : State) (a : Ag) : Bool := match s.group? a.t.id a.g.grpidx with | some g => g.retired | none => true

/-- A release of the arm at system scope learns of a dropped peer store (R288): a store after FENCE.sys is one (R43). -/
def Ag.lostPeer (a : Ag) (sys : Bool) : Bool := (sys || a.arm.relSys) && a.g.peerLost

/-- A store at a place `po` that leaves as ordered traffic, and is a release, waits at issue for the stores that it must follow (R228, R237,
R292). -/
def State.relHold (s : State) (a : Ag) (po : Nat) (t : Target) (rel sys : Bool) : Bool :=
  s.ordered a t && (rel || a.arm.relFence) && s.writesBefore a.key po true (sys || a.arm.relSys)

/-- Issue a scalar store (R73). -/
def State.issueStore (s : State) (a : Ag) (va : Word) (size v : Nat) : Iss :=
  match s.check a.w .store va size with
  | .error c => .fault c
  | .ok t =>
    if a.lostPeer false then .fault cFABRICLOST
    else if s.relHold a s.nextId t false false then .hold s
    else match s.writeReady a t size with
    | .ok s =>
      if s.gone a then .dead s
      else
        let r := s.doStore a s.nextId t [(t.loc.addr, leBytes size v)] 0 false a.arm.relSys
        if r.poison then .dead (r.s.consume a.t.id a.g.grpidx a.b t.va 0 1)
        else if r.s.gone a then .dead r.s else .ok r.s
    | x => x

/-! ### Atomics -/

/-- An atomic of the arm as it issues: what it does, with the releases that it counts among (R43). -/
def Ag.rmw (a : Ag) (op : RmwOp) (sgn : Bool) (rnd : Rnd) (b e : Nat) (acqRel : Bool) : Rmw :=
  { op := op.code, sgn, rnd, b, e, acqRel, wide := a.arm.relFence, sys := a.arm.relSys }

/-- One item of an atomic as it issues: the host is asked for a line that it holds; a remote causal one is injected, carrying W (R271), and
any other is performed later. `po`: its place in program order; `last`: of the lanes on its location. -/
def State.startRmw (s : State) (a : Ag) (po pid lane : Nat) (t : Target) (u : Rmw) (last : Bool) : PItem × State :=
  let s := (s.touch a.w t).holdPage a.w t
  let item := fun (remote : Bool) => ({ lane, t, val := none, remote, upd := some u } : PItem)
  if s.remoteCausal a t then
    let s := (s.guess a po t true true []).orW a.w.core (bucketBit t.ga)
    (item true, s.send a.die (s.homeDie t.ga) (.rmw pid t ((s.relW a t true).getD 0) a.w.core last))
  else (item false, s.askHost a t)

/-- Issue AMOS (R74): the read and the write are one event, relaxed, which is performed later; sd receives the old value when the reply
arrives. One after a FENCE of device or system scope is a release (R43). -/
def State.issueAmos (s : State) (a : Ag) (d : SReg) (va : Word) (size : Nat) (op : RmwOp) (sgn : Bool) (b e : Nat) : Iss :=
  match s.check a.w .atomic va size with
  | .error c => .fault c
  | .ok t =>
    if a.lostPeer false then .fault cFABRICLOST
    else if s.relHold a s.nextId t false false || a.g.amaxQueued a.b s.nextId || s.acqWaits a.key s.nextId then .hold s
    else match s.writeReady a t size with
    | .ok s =>
      if s.gone a then .dead s
      else
        let pid := s.nextId
        let x := s.bump.startRmw a pid pid 0 t (a.rmw op sgn .rne b e false) true
        let p : Pending := { after := a.arm.fencePo, id := pid, po := pid, team := a.t.id, grp := a.g.grpidx, armB := a.b,
                             dest := if d = 0 then .none else .s d, hint := 0, items := [x.1], rmw := true, acq := false, scope := 6, both := false, saved := none }
        .ok (({ x.2 with pending := x.2.pending ++ [p] }).updArm a.t.id a.g.grpidx a.b (fun m => m.empty d))
    | x => x

/-! ### Fences and releases -/

/-- Every memory event of the arm po-before is performed (R88, R89): the state to go on from, or `hold`. Remote causal stores and atomics,
and peer stores, are waited for where asked (R237, R292). -/
def State.quietArm (s : State) (a : Ag) (causal peers : Bool) : Iss :=
  if a.g.memQueued a.b then .hold s
  else match s.bindAll a.key causal with
    | none => .hold s
    | some s => if s.gone a then .dead s else if s.writesOut a.key causal peers then .hold s else .ok s

/-- Every load of the arm po-before is performed, and the order of its stores and atomics is kept by what comes later, each of which follows
them (R88): they may still be seen later by an agent outside the scope (R21). The state to go on from, or `hold`. -/
def State.loadsQuiet (s : State) (a : Ag) : Iss :=
  if a.g.memQueued a.b then .hold s
  else match s.bindAll a.key false false with
    | none => .hold s
    | some s => if s.gone a then .dead s else .ok s

/-- FENCE (R88, R229): a fence of device or system scope follows every earlier event, applies the signatures of the arm's loads since the last
one and makes later stores releases; one of a narrower scope stands before later events (R21). No fence waits for a remote causal store or for a
peer: a release does (R237, R292). -/
def State.issueFence (s : State) (a : Ag) (sc : Scope) : Iss :=
  match (if sc.code < 4 then s.loadsQuiet a else s.quietArm a false false) with
  | .ok s =>
    let s := s.acquireW a.w.core sc.code
    if sc.code < 4 then .ok (s.updArm a.t.id a.g.grpidx a.b (fun x => { x with fencePo := s.nextId }))
    else
      match s.group? a.t.id a.g.grpidx with
      | none => .dead s
      | some g =>
        let m := (g.core.arm a.b).fenceSig
        let s := (s.invalidateOut a.die m (sc == .sys)).orW a.w.core m
        .ok (s.updArm a.t.id a.g.grpidx a.b (fun x => { x with fenceSig := 0, relFence := true, relSys := x.relSys || sc == .sys }))
  | x => x

/-- REL (R89, R228): a store after every earlier memory event of the arm. At device or system scope it waits at issue until they are performed;
at a narrower one it is performed after them, and a hub agent may see it before (R21). A system-scope release of a group that lost a peer store
faults FABRIC_LOST (R288). -/
def State.issueRel (s : State) (a : Ag) (va : Word) (size v : Nat) (sc : Scope) : Iss :=
  match s.check a.w .store va size with
  | .error c => .fault c
  | .ok t =>
    let wide := decide (4 ≤ sc.code) || a.arm.relFence
    let sys := sc == .sys || a.arm.relSys
    if a.lostPeer (sc == .sys) then .fault cFABRICLOST
    else match (if wide then s.quietArm a true sys else s.loadsQuiet a) with
    | .ok s =>
      match s.writeReady a t size with
      | .ok s =>
        if s.gone a then .dead s
        else
          let r := s.doStore a s.nextId t [(t.loc.addr, leBytes size v)] 0 (4 ≤ sc.code) sys s.nextId
          if r.poison then .dead (r.s.consume a.t.id a.g.grpidx a.b t.va 0 1) else .ok r.s
      | x => x
    | x => x

/-- REL.halo (R236): the push and the flag store follow every earlier memory event of the arm, and HALO_PUSH performs them; the arm is not
held for them. -/
def State.issueRelHalo (s : State) (a : Ag) (va : Word) (size v : Nat) : Iss :=
  match s.check a.w .store va size with
  | .error c => .fault c
  | .ok t =>
    match (match t.loc with | .dev ga => s.haloCell ga | _ => none) with
    | none => .fault cPROTECTION
    | some (r, tile, _) =>
      if a.t.teamIdx != r.ownBase + tile then .fault cPROTECTION
      else if a.lostPeer false then .fault cFABRICLOST
      else
        let idx := (List.range s.regions.length).find? (fun i => match s.regions[i]? with | some x => x == r | none => false)
        let h : HaloRel := { id := s.nextId, po := s.nextId, team := a.t.id, grp := a.g.grpidx, armB := a.b, both := false, core := a.w.core,
                             region := idx.getD 0, tile, sys := a.arm.relSys, flag := t, value := v, w := (s.relW a t true).getD 0 }
        .ok { (s.touch a.w t).bump with haloRels := s.haloRels ++ [h] }

end Sys2Proof.Machine
end

