-- ==== Sys2Proof/Machine/Issue.lean ====
section
/-! DEFINITION. Fetching words (R60, R81, R198), and the issue of a shepherd instruction: readiness (R68, R166), the
signature event (R92), the fate of a fault (R68, R109, R172), and completion (R69). -/

namespace Sys2Proof.Machine

open Sys2Proof

/-! ### Fetching -/

/-- Four bytes at an address through a context's translation at a core, read from committed memory (log 18); none: PAGE. -/
def State.fetch4 (s : State) (c : Context) (core va : Nat) : Option (List Byte) :=
  match windowOf va with
  | .lower => (s.translate c core false va).map (fun e => s.mem.bytes (c.ga (leafPa e va)) 4)
  | .host => (s.translate c core true va).map (fun e => s.hostMem.bytes (leafPa e va) 4)
  | .peer p => (s.translate c core true va).map (fun e => s.peerBytes p (leafPa e va) 4)
  | _ => none

/-- `n` words of four bytes from an address. -/
def State.fetchWords (s : State) (c : Context) (core : Nat) (va : Word) (n : Nat) : Option (List Byte) :=
  ((List.range n).mapM (fun i => s.fetch4 c core (va + toWord (4 * i)).toNat)).map (fun l => l.flatten)

/-- Keep the translation of a fetched word (R179). -/
def State.keepFetch (s : State) (c : Context) (core : Nat) (va : Word) : State :=
  match s.translate c core (windowOf va.toNat != .lower) va.toNat with
  | some e => s.fillTlb core c.num va.toNat e
  | none => s

/-- Does one of `n` fetched words of four bytes lie in a poisoned sector (R241)? -/
def State.fetchPoison (s : State) (c : Context) (core : Nat) (va : Word) (n : Nat) : Bool :=
  (List.range n).any (fun i =>
    let a := (va + toWord (4 * i)).toNat
    match windowOf a with
    | .lower => (match s.translate c core false a with | some e => s.poisoned (c.ga (leafPa e a)) 4 | none => false)
    | _ => false)

/-- The shepherd instruction at an address (R60), or its fault code. A literal is fetched before the first word is decoded, so that one
that cannot be fetched is PAGE whatever the word's other fields hold: DESIGN CHOICE (log 84), as the rule gives the two faults no order. -/
def State.fetchShep (s : State) (c : Context) (core : Nat) (pc : Word) : Except Nat Instr :=
  match s.fetchWords c core pc 1 with
  | none => .error cPAGE
  | some bs =>
    if s.fetchPoison c core pc 1 then .error cUNCORRECTABLE
    else
      let w : Half := BitVec.ofNat 32 (leNat bs)
      if isLiteral w then
        match s.fetchWords c core (pc + 4) 1 with
        | none => .error cPAGE
        | some ls =>
          if s.fetchPoison c core (pc + 4) 1 then .error cUNCORRECTABLE
          else match decodeBytes .shep (bs ++ ls) with
          | .ok r => .ok r.1
          | .error e => .error (decErrCode e)
      else match decodeBytes .shep bs with
        | .ok r => .ok r.1
        | .error e => .error (decErrCode e)

/-- The 96 bits of the lane word at an address (R61), or its fault code. -/
def State.fetchLane (s : State) (c : Context) (core : Nat) (pc : Word) : Except Nat (BitVec 96) :=
  match s.fetchWords c core pc 3 with
  | none => .error cPAGE
  | some bs => if s.fetchPoison c core pc 3 then .error cUNCORRECTABLE else .ok (BitVec.ofNat 96 (leNat bs))

/-- The matrix instruction at an address (R198), or its fault code. -/
def State.fetchMat (s : State) (c : Context) (core : Nat) (pc : Word) : Except Nat Instr :=
  if pc.toNat % 8 != 0 then .error cMISALIGNED
  else match s.fetchWords c core pc 2 with
  | none => .error cPAGE
  | some bs =>
    if s.fetchPoison c core pc 2 then .error cUNCORRECTABLE
    else match decodeBytes .mat bs with
    | .ok r => .ok r.1
    | .error e => .error (decErrCode e)

/-! ### Readiness -/

/-- A commit of the context has passed its commit point and has not completed (R174, R262). -/
def State.committing (s : State) (ctx : Nat) : Bool := s.sets.any (fun x => x.ctx == ctx && x.phase == .committed)

/-- The stop of a raised halt line is held: during a frequency change, and until a commit has completed (R18, R174). -/
def State.haltHeld (s : State) (ctx : Nat) : Bool := s.freq.isSome || s.committing ctx

/-- The engines of a context have stopped: its halt line has risen, and the stop is not held (R174). -/
def State.ctxStopped (s : State) (c : Context) : Bool :=
  match c.halt with | .none => false | .raised _ => !s.haltHeld c.num | .applied _ => true

/-- The team's engines may run: it is placed, its die issues, and its context is not stopped (R166, R17, R174). -/
def State.teamLive (s : State) (t : Team) : Bool :=
  match t.place with
  | .running c _ => !s.dieStopped (dieOf c) && (match s.ctx? t.ctx with | some x => !s.ctxStopped x | none => false)
  | _ => false

/-- Did a fault of a unit raise the halt line, or follow in its skid (R174)? The engine of such a unit has stopped. -/
def Context.faulted (c : Context) (kind unit : Nat) (armB : Bool) : Bool :=
  let is := fun (o : Origin) => o.kind == kind && o.unit == unit && o.armB == armB
  match c.halt with | .none => false | .raised o => is o || c.faults.any is | .applied _ => true

/-- May an engine of a context go on (R174)? After the halt line has risen it may within its skid bound, which counts `bound` actions of it
(Table 10.12), and without that bound while the stop is held. -/
def State.ctxLets (s : State) (ctx : Nat) (e : Engine) (bound : Nat) : Bool :=
  match s.ctx? ctx with
  | some x => !s.ctxStopped x || (match x.halt with | .raised _ => decide ((x.skid.filter (fun y => y == e)).length < bound) | _ => false)
  | none => false

/-- May an engine of a team that runs go on (R17, R166, R174)? -/
def State.engineLive (s : State) (t : Team) (e : Engine) (bound : Nat) : Bool :=
  match t.place with
  | .running c _ => !s.dieStopped (dieOf c) && s.ctxLets t.ctx e bound
  | _ => false

/-- An engine has acted: after the halt line has risen, that counts for its skid bound. -/
def State.noteSkid (s : State) (ctx : Nat) (e : Engine) : State :=
  s.updCtx ctx (fun c => if s.ctxStopped c then { c with skid := e :: c.skid } else c)

/-- The arm waits for nothing but R68 (R166). -/
def State.armLive (s : State) (a : Ag) : Bool :=
  s.engineLive a.t (.arm a.t.id a.g.grpidx a.b) 1 && (match s.ctx? a.t.ctx with | some c => !c.faulted 1 a.g.gid a.b | none => false) &&
  !a.g.retired && !a.g.exiting && !a.g.stopped && (!a.b || a.g.core.split) && a.arm.wait == .none && a.arm.yielded.isNone

/-! ### Outcomes of a shepherd instruction -/

/-- What the effect of a shepherd instruction does. -/
inductive Eff where
  /-- It does not issue now; the state carries no effect of it but accesses that were performed on its account. -/
  | hold (s : State)
  /-- It faults and changes nothing (R68). `tcp`: TILE_STATE of a TCP or TCPR (Table 6.8). -/
  | fault (f : Flt) (tcp : Bool)
  /-- It faults in a state that its earlier tries have left (R181), or, for an LQ, after a part of its effect (R81). -/
  | faultAt (s : State) (f : Flt) (tcp : Bool)
  /-- It completes at the word after it (R69). -/
  | next (s : State)
  /-- It transfers control; no loop-end processing (R69). -/
  | goto (s : State) (pc : Word)
  /-- SPC stays as the effect left it. -/
  | stay (s : State)

/-- A fault with its code alone. -/
def Eff.flt (code : Nat) : Eff := .fault { code } false

/-- A fault with an address. -/
def Eff.fltAt (code : Nat) (addr : Word) : Eff := .fault { code, addr } false

/-- What R68 and R53 ask of the registers: the sources, the scalar destination, the predicates an instruction reads, and the vector
registers that it will fill, in every lane of the arm whatever the predicate. -/
structure Needs where
  src : List SReg
  dst : List SReg
  preds : List Nat
  vdst : List Nat := []
  deriving DecidableEq, Repr

/-- Every register that R68 names is full. -/
def Ag.ready (a : Ag) (n : Needs) : Bool :=
  n.src.all (fun r => a.arm.isFull r) && n.dst.all (fun r => a.arm.isFull r) && n.preds.all (fun p => a.g.core.pIsFull p) &&
  n.vdst.all (fun v => decide (a.t.vregs ≤ v) || a.arm.mask &&& ~~~ a.g.core.vfullOf v == 0)

/-- The arm as the state holds it. -/
def State.arm? (s : State) (a : Ag) : Option Arm := (s.group? a.t.id a.g.grpidx).map (fun g => g.core.arm a.b)

/-- Change the arm of an agent. -/
def State.setArm (s : State) (a : Ag) (f : Arm → Arm) : State := s.updArm a.t.id a.g.grpidx a.b f

/-- Give a scalar destination its value (R47). -/
def State.setReg (s : State) (a : Ag) (d : SReg) (v : Word) : State := s.setArm a (fun x => x.put d v)

/-- A fault of the agent's arm takes its course in a state (R68, R109, R172). -/
def State.armFault (s : State) (a : Ag) (f : Flt) (tcp : Bool) : State :=
  match s.team? a.t.id, s.group? a.t.id a.g.grpidx with
  | some t, some g => if g.retired then s else s.raiseArm t g a.b f tcp
  | _, _ => s

/-- The instruction is one that a pending repeat allows (R67). -/
def takesRepeat : Instr → Bool
  | .lq _ | .lj _ => true
  | _ => false

/-- Is the instruction SIGCHK, whose words never enter SIG (R92)? -/
def isSigchk : Instr → Bool
  | .sigchk _ => true
  | _ => false

/-- Is the instruction LQ? -/
def isLq : Instr → Bool
  | .lq _ => true
  | _ => false

/-- Words of a shepherd instruction, at least one. -/
def shepBytes (i : Instr) : Word := toWord (4 * (encodeShep i).length)

/-- The signature event of an instruction's words (R92). An LQ already begun has had its event. An instruction that reads or writes SIG
(SGET, SSET) finds its own words in it: DESIGN CHOICE (log 87). -/
def Arm.signed (x : Arm) (i : Instr) : Arm :=
  if isSigchk i || (isLq i && x.lqLeft != 0) then x else { x with sig := crcWords x.sig (encodeShep i) }

/-- The arm has issued in the scheduler's present cycle (R166). -/
def State.issued (s : State) (a : Ag) : State :=
  (s.noteSkid a.t.ctx (.arm a.t.id a.g.grpidx a.b)).updCore a.t.id a.g.grpidx (fun c => c.updArm (a.b && c.split) (fun x => { x with age := s.cycle }))

/-- The words of an instruction that has faulted after all do not stand in SIG (R68). An LQ that has enqueued words has been executed so far,
and its own word stays with theirs (log 87). -/
def State.unsigned (s : State) (a : Ag) (i : Instr) : State := if isLq i then s else s.setArm a (fun x => { x with sig := a.arm.sig })

/-- Issue of a shepherd instruction of an arm: its needs, and its effect on the state in which its words have entered
SIG. A hold leaves SIG as it was. -/
def State.shepRun (s : State) (a : Ag) (i : Instr) (n : Needs) (body : State → Ag → Eff) : State :=
  if !s.armLive a then s
  else if a.arm.rep.isSome && !takesRepeat i then
    let s := s.setArm a (fun x => { x with rep := none })
    (s.armFault a { code := cILLEGAL } false).issued a
  else if !a.ready n then s
  else
    let sign := fun (x : Arm) => x.signed i
    let s1 := s.setArm a sign
    let a1 := { a with g := { a.g with core := a.g.core.updArm a.b sign } }
    match body s1 a1 with
    | .hold s2 => s2.setArm a (fun x => { x with sig := a.arm.sig })
    | .fault f tcp => (s.armFault a f tcp).issued a
    | .faultAt s2 f tcp => ((s2.unsigned a i).armFault a f tcp).issued a
    | .next s2 => (s2.advance a.t.id a.g.grpidx a.b (a.arm.spc + shepBytes i)).issued a
    | .goto s2 pc =>
      ((s2.setArm a (fun x => { x with spc := pc })).updGroup a.t.id a.g.grpidx (fun g => if g.due then g.atBoundary false else g)).issued a
    | .stay s2 =>
      (s2.updGroup a.t.id a.g.grpidx (fun g =>
        let x := g.core.armA
        if g.due && !g.stopped && x.wait == .none && x.lqLeft == 0 then g.atBoundary false else g)).issued a

/-- The outcome of a step of the model. -/
abbrev Out := Host.Outcome State Fault Refusal

/-- A shepherd instruction executed by the arm that the state selects. -/
def State.shep (s : State) (i : Instr) (n : Needs) (body : State → Ag → Eff) : Out :=
  match s.sel with
  | .arm t g b =>
    match s.agent t g b with
    | some a => .next (s.shepRun a i n body)
    | none => .fault .noAgent
  | _ => .fault .noAgent

/-- An access's issue as an effect: `ok` completes at the next word. -/
def Iss.eff (r : Iss) (addr : Word) : Eff :=
  match r with
  | .hold s => .hold s
  | .fault c => .fltAt c addr
  | .dead s => .stay s
  | .ok s => .next s

end Sys2Proof.Machine
end

