-- ==== Sys2Proof/Machine/Alu.lean ====
section
/-! DEFINITION. The scalar arithmetic of an arm: ALU operations (R70), immediates (R71) and constants (R72). -/

namespace Sys2Proof.Machine

open Sys2Proof

/-- Shift and rotate counts, and bit-field positions: b[5:0] (R70). -/
def shiftN (b : Word) : Nat := (b.extractLsb' 0 6).toNat

/-- Bit-field width: b[11:6] + 1 (R70). -/
def bfWidth (b : Word) : Nat := (b.extractLsb' 6 6).toNat + 1

/-- An instruction whose whole effect is sd (R68, R70): it needs its sources and sd full, and writes sd. -/
def State.alu (s : State) (i : Instr) (d : SReg) (src : List SReg) (f : Arm → Word) : Out :=
  s.shep i { src, dst := [d], preds := [] } (fun s a => .next (s.setReg a d (f a.arm)))

/-- An ALU instruction of two sources (Table 5.1). -/
def State.alu2 (s : State) (i : Instr) (d a b : SReg) (f : Word → Word → Word) : Out :=
  s.alu i d [a, b] (fun x => f (x.get a) (x.get b))

/-- ADD (R70). -/
def execAdd (d a b : SReg) (s : State) : Out := s.alu2 (.add d a b) d a b (fun x y => x + y)

/-- SUB (R70). -/
def execSub (d a b : SReg) (s : State) : Out := s.alu2 (.sub d a b) d a b (fun x y => x - y)

/-- AND (R70). -/
def execAnd (d a b : SReg) (s : State) : Out := s.alu2 (.and d a b) d a b (fun x y => x &&& y)

/-- OR (R70). -/
def execOr (d a b : SReg) (s : State) : Out := s.alu2 (.or d a b) d a b (fun x y => x ||| y)

/-- XOR (R70). -/
def execXor (d a b : SReg) (s : State) : Out := s.alu2 (.xor d a b) d a b (fun x y => x ^^^ y)

/-- SHL: count b[5:0] (R70). -/
def execShl (d a b : SReg) (s : State) : Out := s.alu2 (.shl d a b) d a b (fun x y => x <<< shiftN y)

/-- SHR: zero fill (R70). -/
def execShr (d a b : SReg) (s : State) : Out := s.alu2 (.shr d a b) d a b (fun x y => x >>> shiftN y)

/-- SRA: sign fill (R70). -/
def execSra (d a b : SReg) (s : State) : Out := s.alu2 (.sra d a b) d a b (fun x y => x.sshiftRight (shiftN y))

/-- MUL: bits [63:0] of the product (R70). -/
def execMul (d a b : SReg) (s : State) : Out := s.alu2 (.mul d a b) d a b (fun x y => x * y)

/-- MULH: bits [127:64], signed (R70). -/
def execMulh (d a b : SReg) (s : State) : Out := s.alu2 (.mulh d a b) d a b (fun x y => mulhS x y)

/-- MULHN: bits [127:64], unsigned (R70). -/
def execMulhn (d a b : SReg) (s : State) : Out := s.alu2 (.mulhn d a b) d a b (fun x y => mulhU x y)

/-- DIV, signed (R70). -/
def execDiv (d a b : SReg) (s : State) : Out := s.alu2 (.div d a b) d a b (fun x y => sdivW x y)

/-- DIVN, unsigned (R70). -/
def execDivn (d a b : SReg) (s : State) : Out := s.alu2 (.divn d a b) d a b (fun x y => udivW x y)

/-- REM, signed (R70). -/
def execRem (d a b : SReg) (s : State) : Out := s.alu2 (.rem d a b) d a b (fun x y => sremW x y)

/-- REMN, unsigned (R70). -/
def execRemn (d a b : SReg) (s : State) : Out := s.alu2 (.remn d a b) d a b (fun x y => uremW x y)

/-- MIN, signed (R70). -/
def execMin (d a b : SReg) (s : State) : Out := s.alu2 (.min d a b) d a b (fun x y => if x.slt y then x else y)

/-- MINN, unsigned (R70). -/
def execMinn (d a b : SReg) (s : State) : Out := s.alu2 (.minn d a b) d a b (fun x y => if x.ult y then x else y)

/-- MAX, signed (R70). -/
def execMax (d a b : SReg) (s : State) : Out := s.alu2 (.max d a b) d a b (fun x y => if x.slt y then y else x)

/-- MAXN, unsigned (R70). -/
def execMaxn (d a b : SReg) (s : State) : Out := s.alu2 (.maxn d a b) d a b (fun x y => if x.ult y then y else x)

/-- SEQ (R70). -/
def execSeq (d a b : SReg) (s : State) : Out := s.alu2 (.seq d a b) d a b (fun x y => flag (x == y))

/-- SNE (R70). -/
def execSne (d a b : SReg) (s : State) : Out := s.alu2 (.sne d a b) d a b (fun x y => flag (x != y))

/-- SLT, signed (R70). -/
def execSlt (d a b : SReg) (s : State) : Out := s.alu2 (.slt d a b) d a b (fun x y => flag (x.slt y))

/-- SLTN, unsigned (R70). -/
def execSltn (d a b : SReg) (s : State) : Out := s.alu2 (.sltn d a b) d a b (fun x y => flag (x.ult y))

/-- ROTL (R70). -/
def execRotl (d a b : SReg) (s : State) : Out := s.alu2 (.rotl d a b) d a b (fun x y => x.rotateLeft (shiftN y))

/-- BFX (R70). -/
def execBfx (d a b : SReg) (s : State) : Out := s.alu2 (.bfx d a b) d a b (fun x y => bitExtract x (shiftN y) (bfWidth y))

/-- CLZ: leading zeros, 64 for 0 (R70). -/
def execClz (d a : SReg) (s : State) : Out := s.alu (.clz d a) d [a] (fun x => toWord (clzAux 64 (x.get a)))

/-- POPC: number of set bits (R70). -/
def execPopc (d a : SReg) (s : State) : Out := s.alu (.popc d a) d [a] (fun x => toWord (popAux 64 (x.get a)))

/-- BFI: sd is also a source (R70). -/
def execBfi (d a b : SReg) (s : State) : Out :=
  s.alu (.bfi d a b) d [d, a, b] (fun x => bitInsert (x.get d) (x.get a) (shiftN (x.get b)) (bfWidth (x.get b)))

/-- SEL: a if sd ≠ 0, otherwise b; sd is also a source (R70). -/
def execSel (d a b : SReg) (s : State) : Out :=
  s.alu (.sel d a b) d [d, a, b] (fun x => if x.get d != 0 then x.get a else x.get b)

/-- An immediate instruction with a sign-extended imm13 (R71). -/
def State.aluI (s : State) (i : Instr) (d a : SReg) (imm : BitVec 13) (f : Word → Word → Word) : Out :=
  s.alu i d [a] (fun x => f (x.get a) (sext13 imm))

/-- ADDI (R71). -/
def execAddi (d a : SReg) (imm : BitVec 13) (s : State) : Out := s.aluI (.addi d a imm) d a imm (fun x y => x + y)

/-- ANDI (R71). -/
def execAndi (d a : SReg) (imm : BitVec 13) (s : State) : Out := s.aluI (.andi d a imm) d a imm (fun x y => x &&& y)

/-- ORI (R71). -/
def execOri (d a : SReg) (imm : BitVec 13) (s : State) : Out := s.aluI (.ori d a imm) d a imm (fun x y => x ||| y)

/-- XORI (R71). -/
def execXori (d a : SReg) (imm : BitVec 13) (s : State) : Out := s.aluI (.xori d a imm) d a imm (fun x y => x ^^^ y)

/-- SLTI (R71). -/
def execSlti (d a : SReg) (imm : BitVec 13) (s : State) : Out := s.aluI (.slti d a imm) d a imm (fun x y => flag (x.slt y))

/-- SHLI: count imm13[5:0] (R71). -/
def execShli (d a : SReg) (n : BitVec 6) (s : State) : Out := s.alu (.shli d a n) d [a] (fun x => x.get a <<< n.toNat)

/-- SHRI: count imm13[5:0] (R71). -/
def execShri (d a : SReg) (n : BitVec 6) (s : State) : Out := s.alu (.shri d a n) d [a] (fun x => x.get a >>> n.toNat)

/-- SRAI: count imm13[5:0] (R71). -/
def execSrai (d a : SReg) (n : BitVec 6) (s : State) : Out := s.alu (.srai d a n) d [a] (fun x => (x.get a).sshiftRight n.toNat)

/-- LI: imm13 sign-extended (R72). -/
def execLi (d : SReg) (imm : BitVec 13) (s : State) : Out := s.alu (.li d imm) d [] (fun _ => sext13 imm)

/-- LIS: (s[sa] << 13) OR imm13 zero-extended (R72). -/
def execLis (d a : SReg) (imm : BitVec 13) (s : State) : Out :=
  s.alu (.lis d a imm) d [a] (fun x => (x.get a <<< 13) ||| imm.zeroExtend 64)

/-- LI32: the literal sign-extended (R72). -/
def execLi32 (d : SReg) (lit : BitVec 32) (s : State) : Out := s.alu (.li32 d lit) d [] (fun _ => lit.signExtend 64)

/-- LI32.N: the literal zero-extended (R72). -/
def execLi32N (d : SReg) (lit : BitVec 32) (s : State) : Out := s.alu (.li32N d lit) d [] (fun _ => lit.zeroExtend 64)

/-- LI32.HI: the literal into sd[63:32], sd[31:0] kept; sd is also a source (R72). -/
def execLi32Hi (d : SReg) (lit : BitVec 32) (s : State) : Out :=
  s.alu (.li32Hi d lit) d [d] (fun x => lit ++ (x.get d).extractLsb' 0 32)

end Sys2Proof.Machine
end

