-- ==== Sys2Proof/Machine/Barrier.lean ====
section
/-! DEFINITION. Barriers (R87, R211), the end of an arm (R85), and the outer JOIN (R84). -/

namespace Sys2Proof.Machine

open Sys2Proof

/-- An arm that holds nothing: arm B of a group that is not split (R56). Every register is full. -/
def Arm.zero : Arm :=
  { regs := Vector.replicate 64 0, full := BitVec.allOnes 64, spc := 0, lpc := 0, mask := 0, stack := [], loops := [], spare := [], sig := 0,
    code := 0, rep := none, wait := .none, yielded := none, age := 0, lqLeft := 0, lqWords := [], lqRun := none, lqRep := 0, lqOwed := false,
    fenceSig := 0, relFence := false, relSys := false, fencePo := 0 }

/-! ### Faults of a matrix sequencer -/

/-- The stop record of a sequencer (R215). -/
def State.seqStop (s : State) (t : Team) (code addr : Nat) : StopRec :=
  let spc := match s.mops.find? (fun m => m.team == t.id) with | some m => m.mpc | none => t.seq.mpc
  let rows := match s.mops.find? (fun m => m.team == t.id && m.rowsDone != 0) with | some m => m.rowsDone | none => 0
  { kind := 3, code, unit := t.saveArea, core := t.coreNum, spc := spc.toNat, addr, data := rows }

/-- A fault of the sequencer takes its course (R215, R172): UNCORRECTABLE kills the team. -/
def State.seqFault (s : State) (tid code addr : Nat) : State :=
  match s.team? tid with
  | none => s
  | some t =>
    let r := s.seqStop t code addr
    if code == cUNCORRECTABLE then
      let s := (s.writeStop t.ctx r).killAll t code 0
      s.teamFault t code (toWord addr)
    else s.unitFault t r

/-! ### Barriers -/

/-- A barrier that no group has arrived at, in its first phase (R218). -/
def Barrier.fresh : Barrier :=
  { pword := none, arrived := 0, parity := false, lastPh := 0, pend := 0, pendB := 0, pendW := [], seqArrived := false }

/-- A barrier of a team. -/
def Team.bar (t : Team) (n : Nat) : Barrier := t.bars.getD n Barrier.fresh

/-- Change a barrier of a team. -/
def State.updBar (s : State) (t n : Nat) (f : Barrier → Barrier) : State :=
  s.updTeam t (fun x => { x with bars := x.bars.modify n f })

/-- Bit of a group. -/
def grpBit (g : Nat) : Half := 1#32 <<< g

/-- The reserved bits of a participant word are zero (R87, Table 5.7, first row). -/
def pwordClear (w : Word) : Bool := w &&& 0x00000000FFFEFFFF == 0

/-- A participant word that obeys the first row of Table 5.7 for an arriving group. -/
def pwordOk (w : Word) (g : Nat) : Bool := pwordClear w && w.getLsbD (32 + g)

/-- Every participant of the open phase has arrived or retired (R87). -/
def Team.phaseDone (t : Team) (b : Barrier) : Bool :=
  match b.pword with
  | none => false
  | some w =>
    (List.range 32).all (fun i => !w.getLsbD (32 + i) || b.arrived.getLsbD i ||
      (match t.group? i with | some g => g.retired | none => true)) &&
    (!w.getLsbD 16 || b.seqArrived || t.seq.run != 0)

/-- A group arrives at the open phase with a participant word that agrees with the latched one. The first arrival
latches its word; a sequencer that has arrived at a phase whose word leaves it out faults (R211). -/
def State.arrive (s : State) (t g n : Nat) (w : Word) : State :=
  match s.team? t with
  | none => s
  | some x =>
    let b := x.bar n
    let clash := b.pword.isNone && b.seqArrived && !w.getLsbD 16
    let s := s.updBar t n (fun b =>
      { b with pword := some (b.pword.getD w), arrived := b.arrived ||| grpBit g,
               lastPh := if b.parity then b.lastPh ||| grpBit g else b.lastPh &&& ~~~ grpBit g,
               pend := b.pend &&& ~~~ grpBit g, pendB := b.pendB &&& ~~~ grpBit g,
               pendW := b.pendW.filter (fun p => p.1 != g) })
    if clash then s.seqFault t cILLEGAL 0 else s

/-- The arm has executed its BAR of the group's coming arrival. -/
def Barrier.armPending (b : Barrier) (g : Nat) (armB : Bool) : Bool := b.pend.getLsbD g && b.pendB.getLsbD g == armB

/-- The other arm of a split group still lives. -/
def Group.partnerLive (g : Group) (b : Bool) : Bool := g.core.split && (g.core.arm (!b)).wait != .exited

/-- A BAR whose participant word is `w` (R87). op 0 ARRIVE, 1 WAIT, 2 SYNC. WAIT is no arrival: its word is checked for reserved bits
alone: DEDUCED (log 66). After a kill a BAR completes with 0x0F before its word is checked, and an ARRIVE or SYNC that does so is no arrival:
DESIGN CHOICE (log 98). -/
def State.barEff (s : State) (a : Ag) (d : SReg) (w : Word) (n op : Nat) : Eff :=
  let gi := a.g.grpidx
  let b := a.t.bar n
  if (if a.b then a.g.abandonedB else a.g.abandoned) then
    let s := s.updGroup a.t.id gi (fun g => if a.b then { g with abandonedB := false } else { g with abandoned := false })
    .next (s.setArm a (fun x => { x with code := 0x0F }.put d 0x0F))
  else
    let open_ := b.arrived.getLsbD gi
    let mine := b.armPending gi a.b
    let park := fun (s : State) => Eff.stay (s.setArm a (fun x => { x.empty d with wait := .bar n d }))
    if op == 1 then
      (if !pwordClear w then .flt cILLEGAL else if mine || open_ then park s else .next (s.setReg a d 0))
    else if mine || open_ then .hold s
    else if !pwordOk w gi then .flt cILLEGAL
    else
      let last := !a.g.partnerLive a.b || b.pend.getLsbD gi
      if last && (match b.pword with | some p => p != w | none => false) then .flt cILLEGAL
      else match s.quietArm a false false with
      | .ok s =>
        let s := if last then s.arrive a.t.id gi n w
          else s.updBar a.t.id n (fun b => { b with pend := b.pend ||| grpBit gi, pendW := (gi, w) :: b.pendW,
                                                     pendB := if a.b then b.pendB ||| grpBit gi else b.pendB &&& ~~~ grpBit gi })
        if op == 0 then .next (s.setReg a d 0) else park s
      | .hold s => .hold s
      | .dead s => .stay s
      | .fault c => .flt c

/-- A group whose last live arm had executed its BAR before the other arm ended arrives now (R87). -/
def State.barSettle (s : State) (t g : Nat) : State :=
  match s.team? t with
  | none => s
  | some x =>
    match x.group? g with
    | none => s
    | some y =>
      (List.range x.bars.length).foldl (fun (s : State) n =>
        let b := (match s.team? t with | some x => x.bar n | none => Barrier.fresh)
        if !b.pend.getLsbD g then s
        else
          let arm := b.pendB.getLsbD g
          let drop := s.updBar t n (fun b => { b with pend := b.pend &&& ~~~ grpBit g, pendB := b.pendB &&& ~~~ grpBit g,
                                                      pendW := b.pendW.filter (fun p => p.1 != g) })
          if y.retired || (y.core.arm arm).wait == .exited then drop
          else if y.partnerLive arm then s
          else
            let w := match b.pendW.find? (fun p => p.1 == g) with | some p => p.2 | none => 0
            if (match b.pword with | some p => p != w | none => false) then drop.raiseArm x y arm { code := cILLEGAL } false
            else s.arrive t g n w) s

/-- End of the wait of an arm in a BAR of barrier `n`: sd receives 0 (R87). -/
def Group.wakeBar (g : Group) (n : Nat) (b : Bool) : Group :=
  match (g.core.arm b).wait with
  | .bar m d => if m == n then g.endBar b d (g.core.arm b).code 0 else g
  | _ => g

/-- A phase of a barrier completes: every arm that waits for it goes on (R87). -/
def State.phaseComplete (s : State) (t n : Nat) : State :=
  match s.team? t with
  | none => s
  | some x =>
    let b := x.bar n
    let s := s.updTeam t (fun x =>
      { x with groups := x.groups.map (fun g =>
          if b.arrived.getLsbD g.grpidx && !g.retired then
            let g := if b.armPending g.grpidx false then g else g.wakeBar n false
            if b.armPending g.grpidx true then g else g.wakeBar n true
          else g),
               seq := if b.seqArrived && x.seq.lastBar == n then { x.seq with barPending := false } else x.seq })
    s.updBar t n (fun b => { b with pword := none, arrived := 0, seqArrived := false, parity := !b.parity })

/-- BARRIER_PHASE_COMPLETE (R87): it takes place when every participant has arrived or retired. -/
def execBarrierPhaseComplete (team bar : Nat) (s : State) : Out :=
  match s.team? team with
  | some t => .next (if s.teamLive t && t.phaseDone (t.bar bar) then s.phaseComplete team bar else s)
  | none => .next s

/-- BAR.ARRIVE (R87). -/
def execBarArrive (d a : SReg) (n : BitVec 4) (s : State) : Out :=
  s.shep (.barArrive d a n) { src := [a], dst := [d], preds := [] } (fun s g => s.barEff g d (g.arm.get a) n.toNat 0)

/-- BAR.WAIT (R87). -/
def execBarWait (d a : SReg) (n : BitVec 4) (s : State) : Out :=
  s.shep (.barWait d a n) { src := [a], dst := [d], preds := [] } (fun s g => s.barEff g d (g.arm.get a) n.toNat 1)

/-- BAR.SYNC (R87). -/
def execBarSync (d a : SReg) (n : BitVec 4) (s : State) : Out :=
  s.shep (.barSync d a n) { src := [a], dst := [d], preds := [] } (fun s g => s.barEff g d (g.arm.get a) n.toNat 2)

/-! ### The outer JOIN -/

/-- Accesses and copies of a group become those of its one arm (R40). -/
def State.retag (s : State) (t g : Nat) (dead : Bool) : State :=
  { s with
    pending := s.pending.map (fun p =>
      if p.team == t && p.grp == g then
        { p with armB := false, both := false,
                 dest := match p.dest with | .s r => if p.armB == dead && !p.both then .none else .s r | d => d }
      else p),
    copies := s.copies.map (fun c => if c.team == t && c.grp == g then { c with armB := false } else c),
    haloRels := s.haloRels.map (fun h => if h.team == t && h.grp == g then { h with armB := false, both := false } else h),
    guesses := s.guesses.map (fun h => if h.team == t && h.grp == g then { h with armB := false, both := false } else h),
    peerStores := s.peerStores.map (fun p => if p.team == t && p.grp == g then { p with armB := false, both := false } else p),
    heldWrites := s.heldWrites.map (fun h =>
      if h.owner == some (t, g, false) || h.owner == some (t, g, true) then { h with owner := some (t, g, false), both := false } else h),
    causalStores := s.causalStores.map (fun c => if c.team == t && c.grp == g then { c with armB := false, both := false } else c) }

/-- The outer JOIN (R84): the group is no longer split. It keeps the bank, loops, SIG, STATUS, SPC and LPC of arm A, or of
arm B when arm A has retired, and goes on after that arm's JOIN. -/
def Group.merge (g : Group) : Group :=
  let a := g.core.armA
  let b := g.core.armB
  let keepB := a.wait == .exited
  let x := if keepB then b else a
  let x := { x with mask := a.mask ||| b.mask, wait := .none, stack := [], fenceSig := a.fenceSig ||| b.fenceSig,
                    relFence := a.relFence || b.relFence, relSys := a.relSys || b.relSys, fencePo := max a.fencePo b.fencePo }
  let y : Group :=
    { g with core := { g.core with armA := x, armB := Arm.zero, split := false },
             queue := g.queue.map (fun e => { e with armB := false, both := false, sdDrop := e.sdDrop || (e.armB != keepB && !e.both) }),
             frozen := g.frozen.map (fun f => { f with armB := false }),
             abandoned := if keepB then g.abandonedB else g.abandoned, abandonedB := false, hist := [] }
  y.finish false (fun m => m) (x.spc + 4)

/-- Carry out the outer JOIN of a group. -/
def State.mergeGroup (s : State) (t g : Nat) : State :=
  match s.group? t g with
  | none => s
  | some y =>
    let keepB := y.core.armA.wait == .exited
    let s := (s.updGroup t g Group.merge).retag t g (!keepB)
    -- a BAR that the discarded arm alone had executed is no arrival of the group (log 20)
    let s := match s.team? t with
      | some x => (List.range x.bars.length).foldl (fun (s : State) n =>
          s.updBar t n (fun b => if b.armPending g (!keepB) then
            { b with pend := b.pend &&& ~~~ grpBit g, pendB := b.pendB &&& ~~~ grpBit g, pendW := b.pendW.filter (fun p => p.1 != g) }
            else { b with pendB := b.pendB &&& ~~~ grpBit g })) s
      | none => s
    s.barSettle t g

/-! ### The end of an arm (R85) -/

/-- retire_arm: a partner that waits at the outer JOIN passes it; when both have ended, or the group is not split, the
group retires once its accesses are performed (R86). -/
def State.retireArm (s : State) (t g : Nat) (b : Bool) : State :=
  let s := s.updArm t g b (fun a => { a with wait := .exited, mask := 0, stack := [] })
  match s.group? t g with
  | none => s
  | some y =>
    if !y.core.split then s.updGroup t g (fun y => { y with exiting := true })
    else
      match (y.core.arm (!b)).wait with
      | .exited => s.updGroup t g (fun y => { y with exiting := true })
      | .join => s.mergeGroup t g
      | _ => s.barSettle t g

end Sys2Proof.Machine
end

