-- ==== Sys2Proof/Machine/Control.lean ====
section
/-! DEFINITION. Control of an arm: branches and calls (R75 to R77), hardware loops (R78 to R80), lane issue (R65 to R67,
R81), divergence (R83 to R85), state registers (R51, R91), signatures (R93), TRAP, YIELD and TEND (R94, R95). -/

namespace Sys2Proof.Machine

open Sys2Proof

/-! ### Branches and calls -/

/-- A conditional branch (R75). -/
def State.branch (s : State) (i : Instr) (a b : SReg) (off : BitVec 13) (c : Word → Word → Bool) : Out :=
  s.shep i { src := [a, b], dst := [], preds := [] } (fun s g =>
    if c (g.arm.get a) (g.arm.get b) then .goto s (target13 g.arm.spc off) else .next s)

/-- BEQ (R75). -/
def execBeq (a b : SReg) (off : BitVec 13) (s : State) : Out := s.branch (.beq a b off) a b off (fun x y => x == y)
/-- BNE (R75). -/
def execBne (a b : SReg) (off : BitVec 13) (s : State) : Out := s.branch (.bne a b off) a b off (fun x y => x != y)
/-- BLT, signed (R75). -/
def execBlt (a b : SReg) (off : BitVec 13) (s : State) : Out := s.branch (.blt a b off) a b off (fun x y => x.slt y)
/-- BGE, signed (R75). -/
def execBge (a b : SReg) (off : BitVec 13) (s : State) : Out := s.branch (.bge a b off) a b off (fun x y => !x.slt y)
/-- BLTN, unsigned (R75). -/
def execBltn (a b : SReg) (off : BitVec 13) (s : State) : Out := s.branch (.bltn a b off) a b off (fun x y => x.ult y)
/-- BGEN, unsigned (R75). -/
def execBgen (a b : SReg) (off : BitVec 13) (s : State) : Out := s.branch (.bgen a b off) a b off (fun x y => !x.ult y)

/-- A predicate branch (R76). -/
def State.branchP (s : State) (i : Instr) (p : PReg) (off : BitVec 13) (c : Half → Half → Bool) : Out :=
  s.shep i { src := [], dst := [], preds := [p.toNat] } (fun s g =>
    if c (g.g.core.pget p.toNat) g.arm.active then .goto s (target13 g.arm.spc off) else .next s)

/-- BPANY (R76). -/
def execBpany (p : PReg) (off : BitVec 13) (s : State) : Out := s.branchP (.bpany p off) p off predAny
/-- BPALL (R76). -/
def execBpall (p : PReg) (off : BitVec 13) (s : State) : Out := s.branchP (.bpall p off) p off predAll

/-- BR (R77). -/
def execBr (off : BitVec 25) (s : State) : Out :=
  s.shep (.br off) { src := [], dst := [], preds := [] } (fun s g => .goto s (target25 g.arm.spc off))

/-- CALL: s63 receives the return address (R77). -/
def execCall (off : BitVec 25) (s : State) : Out :=
  s.shep (.call off) { src := [], dst := [63], preds := [] } (fun s g =>
    .goto (s.setReg g 63 (g.arm.spc + 4)) (target25 g.arm.spc off))

/-- JR (R77). -/
def execJr (d a : SReg) (s : State) : Out :=
  s.shep (.jr d a) { src := [a], dst := [d], preds := [] } (fun s g =>
    let t := g.arm.get a
    if t.extractLsb' 0 2 != 0 then .fltAt cMISALIGNED t else .goto (s.setReg g d (g.arm.spc + 4)) t)

/-! ### Loops -/

/-- LOOP and LOOPI (R78). A count of 0 transfers to the word after the body (log 19). -/
def State.startLoop (s : State) (a : Ag) (count : Half) (off : BitVec 13) : Eff :=
  let n := off.toInt
  if n < 2 then .flt cILLEGAL
  else
    let len : Half := BitVec.ofInt 32 (n - 1)
    let fin : Word := a.arm.spc + 4 * len.zeroExtend 64
    let inner := if a.g.lbase < a.arm.ldepth then a.arm.loops.head? else none
    if (match inner with | some l => l.endAddr.ult fin | none => false) then .flt cILLEGAL
    else if count == 0 then .goto s (fin + 4)
    else if a.arm.ldepth == 4 then .flt cLOOPDEPTH
    else .next (s.setArm a (fun x => x.openLoop { count, len, endAddr := fin }))

/-- LOOP (R78). -/
def execLoop (a : SReg) (off : BitVec 13) (s : State) : Out :=
  s.shep (.loop a off) { src := [a], dst := [], preds := [] } (fun s g => s.startLoop g ((g.arm.get a).extractLsb' 0 32) off)

/-- LOOPI (R78). -/
def execLoopi (n : BitVec 12) (off : BitVec 13) (s : State) : Out :=
  s.shep (.loopi n off) { src := [], dst := [], preds := [] } (fun s g => s.startLoop g (n.zeroExtend 32) off)

/-- LBRK (R80): only on levels above LBASE. -/
def execLbrk (s : State) : Out :=
  s.shep .lbrk { src := [], dst := [], preds := [] } (fun s g =>
    match g.arm.loops with
    | [] => .flt cLOOPDEPTH
    | l :: ls =>
      if g.arm.ldepth ≤ g.g.lbase then .flt cLOOPDEPTH
      else .goto (s.setArm g (fun x => x.setDepth ls.length)) (l.endAddr + 4))

/-! ### Lane issue -/

/-- The result of one enqueue. -/
inductive Enq where
  | wait
  | fault (code : Nat)
  | ok (s : State)

/-- Is the destination of a lane instruction a predicate (R131, R149)? -/
def predDest (opc : Nat) : Bool := match laneRow opc with | some r => r.dst == .p | none => false

/-- The lanes in which an entry may write, as far as they are known when it is enqueued: its active lanes, and all of ACTIVE while its
predicate is empty (R61, R65). -/
def QEntry.mayWrite (c : Core) (e : QEntry) : Half :=
  match e.fields with
  | some f => if c.pIsFull f.pred.toNat then e.lanes c f else e.active
  | none => 0

/-- check_and_enqueue (R65): the checks of Table 4.13, then the waits of R53, R54 and R82, then the entry, at its place in program order
(R40). A predicate destination is marked empty, but not under an empty mask. -/
def State.enqueue (s : State) (a : Ag) (w : BitVec 96) : Enq :=
  match decodeLane a.t.vregs w with
  | .error e => .fault (decErrCode e)
  | .ok i =>
    match s.group? a.t.id a.g.grpidx with
    | none => .wait
    | some g =>
      let x := g.core.arm a.b
      let act := x.active
      let opc := laneOpc w
      let codes := match laneOf i with | some (_, f) => [f.sa, f.sb, f.sc] | none => []
      let bc := fun (k : Nat) => broadcast x (codes.getD k 0)
      let sd := match laneOf i with | some (_, f) => if f.sd && (opc == 0x143 || opc == 0x144) then [f.sn] else [] | none => []
      let pd := match laneOf i with | some (o, f) => if predDest o then [f.dst.toNat] else [] | none => []
      if 16 ≤ g.queue.length then .wait
      else if !codes.all (fun c => !isS c || x.isFull (sOf c)) || !sd.all (fun r => x.isFull r) ||
          !pd.all (fun p => g.core.pIsFull p) then .wait
      else
        let e : QEntry := { instr := i, word := w, active := act, scope := x.mask, bcA := bc 0, bcB := bc 1, bcC := bc 2,
                            armB := a.b, po := s.nextId, both := false, marks := false, sdDrop := false, saved := none }
        let e := { e with marks := !pd.isEmpty && e.mayWrite g.core != 0 }
        let mark := fun (y : Arm) =>
          let y := sd.foldl (fun y r => y.empty r) y
          { y with sig := crcWords y.sig [BitVec.ofNat 32 opc, act &&& ~~~ y.mask] }
        .ok (s.bump.updGroup a.t.id a.g.grpidx (fun g =>
          let c := g.core.updArm a.b mark
          let c := if !e.marks then c else pd.foldl (fun c p => c.pmark p false) c
          { g with core := c, queue := g.queue ++ [e] }))

/-- The step of a step code (R66). -/
def stepOf (code : BitVec 2) : Nat :=
  match code.toNat with | 0 => 0 | 1 => 1 | 2 => 2 | _ => 4

/-- A lane word with its register fields stepped for repetition j (R66); none when a field goes above 511. -/
def stepWord (w : BitVec 96) (steps : BitVec 8) (j : Nat) : Option (BitVec 96) :=
  let d := (w.extractLsb' 15 9).toNat + j * stepOf (steps.extractLsb' 6 2)
  let a := (w.extractLsb' 24 9).toNat + j * stepOf (steps.extractLsb' 4 2)
  let b := (w.extractLsb' 33 9).toNat + j * stepOf (steps.extractLsb' 2 2)
  let c := (w.extractLsb' 42 9).toNat + j * stepOf (steps.extractLsb' 0 2)
  if 511 < d || 511 < a || 511 < b || 511 < c then none
  else some (w.extractLsb' 51 45 ++ BitVec.ofNat 9 c ++ BitVec.ofNat 9 b ++ BitVec.ofNat 9 a ++ BitVec.ofNat 9 d ++ w.extractLsb' 0 15)

/-- The arm as an LQ begins, with the words that it has fetched: it consumes the pending repeat (R67, R81). -/
def Arm.lqBegin (x : Arm) (n : Nat) (ws : List (BitVec 96)) : Arm :=
  { x with lqLeft := n, lqWords := ws, lqRun := x.rep, rep := none, lqRep := 0, lqOwed := false }

/-- The arm after one enqueue of an LQ: the next repetition of its first word, or the next word (R66, R81). -/
def Arm.lqStep (x : Arm) : Arm :=
  match x.lqRun with
  | some r =>
    if x.lqRep < r.cnt.toNat then { x with lqRep := x.lqRep + 1 }
    else { x with lqRun := none, lqRep := 0, lpc := x.lpc + 12, lqLeft := x.lqLeft - 1, lqWords := x.lqWords.tail }
  | none => { x with lpc := x.lpc + 12, lqLeft := x.lqLeft - 1, lqWords := x.lqWords.tail }

/-- An LQ that a fault ends: the words after the faulting one are not enqueued, and the repeat stays consumed. -/
def Arm.lqEnd (x : Arm) : Arm := { x with lqLeft := 0, lqWords := [], lqRun := none, lqRep := 0, lqOwed := false }

/-- How much of an LQ is still to be done. -/
def Arm.lqRest (x : Arm) : Nat × Nat := (x.lqLeft, x.lqRep)

/-- How far an LQ came. -/
inductive Pump where
  | waiting (s : State)
  | done (s : State)
  | fault (s : State) (code : Nat) (addr : Word)

/-- Enqueue the words an LQ still owes, as they were fetched (R81); `fuel` bounds the repetitions and words of one LQ. -/
def State.pumpLq : Nat → State → Ag → Pump
  | 0, s, _ => .waiting s
  | fuel + 1, s, a =>
    match s.arm? a with
    | none => .done s
    | some x =>
      if x.lqLeft == 0 then .done s
      else
        let stop := s.setArm a Arm.lqEnd
        match x.lqWords.head?.bind (fun w => match x.lqRun with | some r => stepWord w r.steps x.lqRep | none => some w) with
        | none => .fault stop cRESERVED x.lpc
        | some w =>
          match s.enqueue a w with
          | .wait => .waiting s
          | .fault c => .fault stop c x.lpc
          | .ok s => State.pumpLq fuel (s.setArm a Arm.lqStep) a

/-- `n` lane words from an address, each fetched, or the first that cannot be, with its fault code (R81). -/
def State.lqFetch (s : State) (c : Context) (core : Nat) : Nat → Word → Except (Nat × Word) (List (BitVec 96))
  | 0, _ => .ok []
  | n + 1, p =>
    match s.fetchLane c core p with
    | .error k => .error (k, p)
    | .ok w =>
      match State.lqFetch s c core n (p + 12) with
      | .error e => .error e
      | .ok ws => .ok (w :: ws)

/-- The translations of `n` lane words are kept (R179). -/
def State.lqKeep (s : State) (c : Context) (core : Nat) (p : Word) (n : Nat) : State :=
  (List.range n).foldl (fun s i => s.keepFetch c core (p + toWord (12 * i))) s

/-- The words of an LQ are enqueued, from a state in which it has begun; `before`: what it had still to do. -/
def State.lqRun (s t : State) (a : Ag) (before : Nat × Nat) : Eff :=
  match State.pumpLq 192 t a with
  | .waiting u => (match u.arm? a with | some x => if x.lqRest == before then .hold s else .stay u | none => .stay u)
  | .done u =>
    if a.arm.lqOwed then .stay (u.setArm a (fun x => { x with lqOwed := false })) else .next u
  | .fault u c p => .faultAt u { code := c, addr := p } false

/-- LQ (R81): its words are fetched before the first is enqueued. The words that a lane-fault delivery left owed are fetched and finished
in the same way, and complete nothing (R110); a fault of fetching or enqueuing them is raised at CSPC, and they are then no longer owed:
DESIGN CHOICE (log 67). While nothing can be enqueued it is held at issue (R68, R54). -/
def State.lqEff (s : State) (a : Ag) (n : Nat) : Eff :=
  let x := a.arm
  if x.lqLeft != 0 && x.lqWords.length == x.lqLeft then s.lqRun s a x.lqRest
  else if a.t.laneBase == 0 then .flt cILLEGAL
  else if 16 ≤ a.g.queue.length then .hold s
  else
    let m := if x.lqLeft != 0 then x.lqLeft else n
    match s.lqFetch a.w.ctx a.w.core m x.lpc with
    | .error e => if x.lqLeft != 0 then .faultAt (s.setArm a Arm.lqEnd) { code := e.1, addr := e.2 } false else .fltAt e.1 e.2
    | .ok ws =>
      let t := (s.lqKeep a.w.ctx a.w.core x.lpc m).setArm a (fun y => if y.lqLeft != 0 then { y with lqWords := ws } else y.lqBegin m ws)
      s.lqRun t a (m, x.lqRep)

/-- LQ (R81). -/
def execLq (n : BitVec 6) (s : State) : Out :=
  s.shep (.lq n) { src := [], dst := [], preds := [] } (fun s g => s.lqEff g (n.toNat + 1))

/-- LREP arms a repeat (R66, R67). -/
def execLrep (cnt : BitVec 6) (steps : BitVec 8) (s : State) : Out :=
  s.shep (.lrep cnt steps) { src := [], dst := [], preds := [] } (fun s g =>
    .next (s.setArm g (fun x => { x with rep := some { cnt, steps } })))

/-- LJ (R81). -/
def execLj (w : BitVec 25) (s : State) : Out :=
  s.shep (.lj w) { src := [], dst := [], preds := [] } (fun s g =>
    if g.t.laneBase == 0 then .flt cILLEGAL
    else .next (s.setArm g (fun x => { x with lpc := g.t.laneBase + 12 * w.zeroExtend 64 })))

/-! ### Divergence -/

/-- The split of a group that is not split (R83, R47): arm B is a copy of arm A but for its pending repeat, and what was
issued or enqueued before is po-before both (R40). -/
def State.outerSplit (s : State) (a : Ag) (t f : Half) (target : Word) : State :=
  let s := s.updGroup a.t.id a.g.grpidx (fun g =>
    let x := g.core.armA
    { g with core := { g.core with armA := { x with mask := t }, armB := { x with mask := f, spc := target, rep := none, age := s.cycle }, split := true },
             queue := g.queue.map (fun e => { e with both := true }), hist := [], abandonedB := g.abandoned })
  let mine := fun (t g : Nat) => t == a.t.id && g == a.g.grpidx
  { s with
    pending := s.pending.map (fun p => if mine p.team p.grp then { p with both := true } else p),
    haloRels := s.haloRels.map (fun h => if mine h.team h.grp then { h with both := true } else h),
    guesses := s.guesses.map (fun h => if mine h.team h.grp then { h with both := true } else h),
    peerStores := s.peerStores.map (fun p => if mine p.team p.grp then { p with both := true } else p),
    heldWrites := s.heldWrites.map (fun h => match h.owner with | some o => if mine o.1 o.2.1 then { h with both := true } else h | none => h),
    causalStores := s.causalStores.map (fun c => if mine c.team c.grp then { c with both := true } else c) }

/-- SPLIT (R83). -/
def State.splitEff (s : State) (a : Ag) (p : PReg) (off : BitVec 13) : Eff :=
  let act := a.arm.active
  let pk := a.g.core.pget p.toNat
  let t := act &&& pk
  let f := act &&& ~~~ pk
  let target := target13 a.arm.spc off
  if !a.g.core.split then
    if f == 0 then .next s
    else if t == 0 then .goto s target
    else .next (s.outerSplit a t f target)
  else if a.arm.stack.length == 16 then .flt cSPLITDEPTH
  else
    let push := fun (e : MaskEntry) => s.setArm a (fun x => { x with stack := e :: x.stack })
    let none_ : MaskEntry := { lanes := 0, dspc := 0, dlpc := 0 }
    if t != 0 && f == 0 then .next (push none_)
    else if t != 0 then .next (push { lanes := f, dspc := target, dlpc := a.arm.lpc })
    else .goto (push none_) target

/-- SPLIT (R83). -/
def execSplit (p : PReg) (off : BitVec 13) (s : State) : Out :=
  s.shep (.split p off) { src := [], dst := [], preds := [p.toNat] } (fun s g => s.splitEff g p off)

/-- JOIN (R84). Its third signature event is M_r XOR M_c, zero when the hardware is correct (R92). The entry of a path that is over has dspc 0, and
its dlpc is 0 too: DESIGN CHOICE (log 101). -/
def State.joinEff (s : State) (a : Ag) : Eff :=
  let s := s.setArm a (fun x => { x with sig := crcWord x.sig 0 })
  if !a.g.core.split then .next s
  else match a.arm.stack with
  | e :: rest =>
    if e.dspc != 0 then
      .goto (s.setArm a (fun x => { x with stack := { lanes := a.arm.active, dspc := 0, dlpc := 0 } :: rest, lpc := e.dlpc })) e.dspc
    else .next (s.setArm a (fun x => { x with stack := rest }))
  | [] =>
    let s := s.setArm a (fun x => { x with wait := .join })
    match (a.g.core.arm (!a.b)).wait with
    | .join | .exited => .stay (s.mergeGroup a.t.id a.g.grpidx)
    | _ => .stay s

/-- JOIN (R84). -/
def execJoin (s : State) : Out := s.shep .join { src := [], dst := [], preds := [] } (fun s g => s.joinEff g)

/-- LEXIT (R85): enqueued lane instructions carry their lanes and execute all the same. -/
def State.lexitEff (s : State) (a : Ag) (x : Half) : Eff :=
  let s := s.updCore a.t.id a.g.grpidx (fun c =>
    { c.updArm a.b (fun y => { y with mask := y.mask &&& ~~~ x }) with live := c.live &&& ~~~ x })
  if a.arm.mask &&& ~~~ x == 0 then .stay (s.retireArm a.t.id a.g.grpidx a.b) else .next s

/-- LEXIT (R85). -/
def execLexit (p : PReg) (s : State) : Out :=
  s.shep (.lexit p) { src := [], dst := [], preds := [p.toNat] } (fun s g =>
    s.lexitEff g (g.arm.active &&& g.g.core.pget p.toNat))

/-- TEND: every lane of the arm mask exits, parked lanes included (R95). -/
def execTend (s : State) : Out :=
  s.shep .tend { src := [], dst := [], preds := [] } (fun s g => s.lexitEff g g.arm.mask)

/-! ### State registers, signatures, traps and yields -/

/-- The value of a state register (Table 4.1). `k`: sa[3:0], for STAMP. -/
def State.stateReg (s : State) (a : Ag) (idx : Nat) (k : Nat) : Word :=
  let core := a.w.core
  match idx with
  | 0 => a.g.core.live.zeroExtend 64
  | 1 => a.arm.active.zeroExtend 64
  | 2 => toWord a.g.grpidx
  | 3 => toWord a.t.teamIdx
  | 4 => toWord a.t.flockIdx
  | 5 => toWord a.t.gridN
  | 6 => toWord a.t.childIdx
  | 7 => toWord a.t.childN
  | 8 => a.t.viewId
  | 9 => toWord core
  | 10 => toWord (dieOf core)
  | 11 => toWord s.time
  | 12 => a.arm.sig.zeroExtend 64
  | 13 => (a.g.core.status a.b).zeroExtend 64
  | 14 => a.arm.lpc
  | 15 => toWord a.g.frames.length
  | 16 => a.t.kargs
  | 17 => (match a.t.flockPos with | some p => toWord (flockWindow + p * spadBytes) | none => 0)
  | 18 => toWord (s.sliceCfg (dieOf core)).outways
  | _ => if k < 9 then (s.gen.zeroExtend 52 ++ s.vecAt (dieOf core) k : BitVec 64) else 0

/-- SGET (R91, R51). -/
def execSget (d a : SReg) (idx : BitVec 6) (s : State) : Out :=
  s.shep (.sget d a idx) { src := if idx == 19 then [a] else [], dst := [d], preds := [] } (fun s g =>
    if 20 ≤ idx.toNat then .flt cRESERVED
    else .next (s.setReg g d (s.stateReg g idx.toNat ((g.arm.get a).extractLsb' 0 4).toNat)))

/-- SSET (R91, R51): SIG alone is writable. -/
def execSset (a : SReg) (idx : BitVec 6) (s : State) : Out :=
  s.shep (.sset a idx) { src := [a], dst := [], preds := [] } (fun s g =>
    if 20 ≤ idx.toNat then .flt cRESERVED
    else if idx == 12 then .next (s.setArm g (fun x => { x with sig := (g.arm.get a).extractLsb' 0 32 }))
    else .flt cPROTECTION)

/-- SIGCHK (R93): a mismatch kills the group with SIGNATURE. -/
def execSigchk (lit : BitVec 32) (s : State) : Out :=
  s.shep (.sigchk lit) { src := [], dst := [], preds := [] } (fun s g =>
    if g.arm.sig != lit then .flt cSIGNATURE else .next (s.setArm g (fun x => { x with sig := 0 })))

/-- TRAP (R94). -/
def execTrap (a : SReg) (code : BitVec 13) (s : State) : Out :=
  s.shep (.trap a code) { src := [a], dst := [], preds := [] } (fun _ g =>
    .fault { code := cTRAP, tcode := code.toNat, data := g.arm.get a } false)

/-- YIELD (R95): the arm is not ready for at most 64 cycles of its core. -/
def execYield (s : State) : Out :=
  s.shep .yield { src := [], dst := [], preds := [] } (fun s g => .next (s.setArm g (fun x => { x with yielded := some 64 })))

/-- YIELD_EXPIRY (R95): the arm may issue again, once the scheduler of its core has found the hold at its end. -/
def execYieldExpiry (team grp : Nat) (armB : Bool) (s : State) : Out :=
  .next (s.updArm team grp armB (fun x => { x with yielded := if x.yielded == some 0 then none else x.yielded }))

end Sys2Proof.Machine
end

