-- ==== Sys2Proof/Machine/Effects.lean ====
section
/-! DEFINITION. Effects: HANDLE and UNHANDLE (R100, R101), PERFORM and PERFORML (R105), RESUME, RESUMEK and DROP (R106 to
R108), and root effects (R111). -/

namespace Sys2Proof.Machine

open Sys2Proof

/-! ### Slots and quiet groups -/

/-- A multi-shot slot that is not in use. -/
def Slot.free : Slot := { used := false, cont := none, save := none }

/-- A slot of a group. -/
def Group.slot (g : Group) (k : Nat) : Slot := if k == 0 then g.slot0 else g.slot1

/-- Change a slot of a group. -/
def Group.updSlot (g : Group) (k : Nat) (f : Slot → Slot) : Group :=
  if k == 0 then { g with slot0 := f g.slot0 } else { g with slot1 := f g.slot1 }

/-- Free the slots of popped frames (R113). -/
def Group.freeSlots (g : Group) (fs : List Frame) : Group :=
  fs.foldl (fun g f => match f.k, f.slot with | true, some k => g.updSlot k (fun _ => Slot.free) | _, _ => g) g

/-- Scalar registers that only the use of a token can fill (R101). -/
def Frame.tokenRegs (f : Frame) : BitVec 64 :=
  if f.state == 0 then 0
  else (if f.rkind == 0 || f.rkind == 4 then 1#64 <<< f.dest else 0) ||| (if f.state == 2 then 1#64 <<< f.kdest else 0)

/-- Lanes of a vector register that only the use of a token can fill (R101). -/
def Frame.tokenLanes (f : Frame) (v : Nat) : Half := if f.state != 0 && f.rkind == 1 && f.dest == v then f.mask else 0

/-- wait_quiet is over (R101): the lane queue is empty, no register is empty but those that only a token fills, and every
copy token is free. -/
def Group.quiet (g : Group) : Bool :=
  let fs := g.frames ++ g.inherited
  let exc := fs.foldl (fun m f => m ||| f.tokenRegs) 1
  g.queue.isEmpty && g.frozen.isNone && g.tokens == 0 &&
  g.core.armA.full ||| exc == BitVec.allOnes 64 && g.core.pfull ||| 1 == BitVec.allOnes 16 &&
  (List.range 320).all (fun v => fs.foldl (fun m f => m ||| f.tokenLanes v) (g.core.vfullOf v) == allLanes)

/-- An access of the group is still outstanding whose value some register awaits. -/
def State.groupBusy (s : State) (t g : Nat) : Bool :=
  s.pending.any (fun p => p.team == t && p.grp == g && p.dest != .none)

/-! ### HANDLE and UNHANDLE -/

/-- A frame whose record holds zeros (R98). -/
def Frame.zero : Frame :=
  { id := 0, k := false, inh := false, state := 0, gen := 0, masker := 0, slot := none, pc := 0, ldep := 0, env := Vector.replicate 8 0,
    save := Vector.replicate 12 0, saveFe := 0, prevBase := 0, hdep := 0, rkind := 0, dest := 0, kdest := 0, mask := 0, prep := none,
    lqrem := 0, repj := 0, cspc := 0, clpc := 0, queue := [], join := 0, after := false }

/-- A frame as HANDLE pushes it (R100): of its record it writes ENV alone, and the rest stays as it stood (R99). -/
def newFrame (old : Frame) (id : BitVec 16) (k inh : Bool) (slot : Option Nat) (pc : Word) (ldep : Nat) (env : Vector Word 8) : Frame :=
  { old with id, k, inh, state := 0, gen := 0, masker := 0, slot, pc, ldep, env }

/-- The records of frames that are popped, top first, stay where they are (R99). -/
def Group.leave (g : Group) (fs : List Frame) : Group := { g with stale := fs.reverse ++ g.stale }

/-- HANDLE (R100). -/
def State.handleEff (s : State) (a : Ag) (id : Word) (k inh : Bool) (lit : Half) : Eff :=
  if a.g.core.split then .flt cTOKEN
  else if id.extractLsb' 16 48 != 0 || id == 0 then .flt cPROTECTION
  else if a.g.frames.length == 64 then .flt cHANDLERDEPTH
  else if k && a.g.slot0.used && a.g.slot1.used then .flt cHANDLERDEPTH
  else
    let slot := if k then some (if a.g.slot0.used then 1 else 0) else none
    let f := newFrame (a.g.stale.head?.getD Frame.zero) (id.extractLsb' 0 16) k inh slot (a.arm.spc + 4 * lit.signExtend 64) a.arm.ldepth
      (Vector.ofFn (fun i => a.arm.s48 i.val))
    .next (s.updGroup a.t.id a.g.grpidx (fun g =>
      let g := match slot with | some n => g.updSlot n (fun _ => { Slot.free with used := true }) | none => g
      { g with frames := f :: g.frames, stale := g.stale.tail }))

/-- HANDLE (R100): it reads s48 to s55 into ENV. -/
def execHandle (e : SReg) (k inh : Bool) (lit : BitVec 32) (s : State) : Out :=
  s.shep (.handle e k inh lit) { src := [e, 48, 49, 50, 51, 52, 53, 54, 55], dst := [], preds := [] } (fun s g =>
    s.handleEff g (g.arm.get e) k inh lit)

/-- A snapshot's image as a run starts from it: what the arm's memory events owe to later fences stays, for restoring registers
undoes no memory event (R115). -/
def Snapshot.restored (sn : Snapshot) (now : Arm) : Core :=
  sn.core.updArm false (fun x => { x with fenceSig := now.fenceSig, relFence := now.relFence, relSys := now.relSys, fencePo := now.fencePo, age := now.age })

/-- The continuation of a multi-shot frame returns to its handler (R101): the handler save is restored. -/
def Group.unhandleReturn (g : Group) (sv : Snapshot) (v : Word) : Group :=
  match g.frames with
  | [] => g
  | f :: rest =>
    let d := g.frames.length
    let f := { f with state := 1, masker := d }
    let core := (sv.restored g.core.armA).updArm false (fun x => x.put (BitVec.ofNat 6 f.kdest) v)
    let core := core.updArm false (fun x => x.advance sv.lbase x.spc)
    { g with core, lbase := sv.lbase, frames := sv.frames ++ f :: rest, stale := g.stale.drop sv.frames.length }

/-- UNHANDLE (R101). A return whose slot holds no save, because an inner run has popped its frame and an outer snapshot has restored it,
faults EFFECT_TOKEN: DESIGN CHOICE (log 98). -/
def State.unhandleEff (s : State) (a : Ag) (v : Word) : Eff :=
  match a.g.core.split, a.g.frames with
  | true, _ => .flt cTOKEN
  | _, [] => .flt cTOKEN
  | false, f :: rest =>
    if f.masker != 0 then .flt cTOKEN
    else if f.state == 0 then
      .next (s.updGroup a.t.id a.g.grpidx (fun g => { (g.freeSlots [f]).leave [f] with frames := rest }))
    else if !a.g.quiet || s.groupBusy a.t.id a.g.grpidx then .hold s
    else match f.slot.bind (fun k => (a.g.slot k).save) with
    | some sv => .stay (s.updGroup a.t.id a.g.grpidx (fun g => g.unhandleReturn sv v))
    | none => .flt cTOKEN

/-- UNHANDLE (R101). -/
def execUnhandle (a : SReg) (s : State) : Out :=
  s.shep (.unhandle a) { src := [a], dst := [], preds := [] } (fun s g => s.unhandleEff g (g.arm.get a))

/-! ### PERFORM and PERFORML -/

/-- Post a root effect and suspend the group (R111). It is a release at system scope whose store is the EFFECT record
(R115): it follows remote causal stores and peer stores, and learns of a dropped one (R237, R288, R292). The token's GEN is the group's
(log 21). -/
def State.postRoot (s : State) (a : Ag) (id : BitVec 16) (arg : Word) (rkind : Nat) (mask : Half) (d : SReg) : Eff :=
  if a.lostPeer true then .flt cFABRICLOST
  else match s.quietArm a true true with
  | .ok s =>
    let tok := tokenOf a.g.gen 0 3 a.g.gid
    let s := s.updGroup a.t.id a.g.grpidx (fun g =>
      { g with rootDest := some (rkind, mask, d), core := g.core.updArm false (fun x => { x with wait := .root }) })
    let s := s.updCtx a.t.ctx (fun c => { c with rootTokens := c.rootTokens ++ [(tok, a.t.id, a.g.grpidx)] })
    .stay (s.postEffect a.t.ctx (eventRec 0x10 0 (id.toNat % 256) (id.toNat / 256) a.g.gid tok.toNat arg.toNat mask.toNat))
  | .hold s => .hold s
  | .dead s => .stay s
  | .fault c => .flt c

/-- Raise an effect (R105): `mark` empties the destination. -/
def State.performEff (s : State) (a : Ag) (id arg : Word) (rkind : Nat) (mask : Half) (d : SReg) (mark : Core → Core) : Eff :=
  let id16 := id.extractLsb' 0 16
  match a.g.search a.w.ctx.rootMap id16 false with
  | .none => .flt cNOHANDLER
  | .root =>
    (match s.postRoot a id16 arg rkind mask d with
     | .stay s => .stay (s.updCore a.t.id a.g.grpidx mark)
     | x => x)
  | fr =>
    match a.g.frameAt fr.code with
    | none => .flt cTOKEN
    | some f =>
      if f.state != 0 then .flt cTOKEN
      else if f.k && (!a.g.quiet || s.groupBusy a.t.id a.g.grpidx) then .hold s
      else
        let g := { a.g with core := mark a.g.core }
        let r : Raise := { rkind, dest := d.toNat, mask, cspc := a.arm.spc + 4, clpc := a.arm.lpc, arg }
        match g.enter fr.code id16 r with
        | some g' => .stay (s.putEntered a.t.id a.g.grpidx fr.code g')
        | none => .flt cTOKEN

/-- PERFORM and PERFORML refuse an ID below 0x0100 or above 16 bits (R96, R105). -/
def badEffect (id : Word) : Bool := id.extractLsb' 16 48 != 0 || id.toNat < 0x100

/-- PERFORM (R105). -/
def execPerform (d a b : SReg) (s : State) : Out :=
  s.shep (.perform d a b) { src := [a, b], dst := [d], preds := [] } (fun s g =>
    if g.g.core.split then .flt cTOKEN
    else if badEffect (g.arm.get a) then .flt cPROTECTION
    else s.performEff g (g.arm.get a) (g.arm.get b) 0 g.arm.active d (fun c => c.updArm false (fun x => x.empty d)))

/-- PERFORML (R105): its destination is lanes of v0 to v63, which must be full in every lane of the arm (R53). -/
def execPerforml (vd : BitVec 6) (a b : SReg) (p : PReg) (s : State) : Out :=
  s.shep (.performl vd a b p) { src := [a, b], dst := [], preds := [p.toNat], vdst := [vd.toNat] } (fun s g =>
    if g.g.core.split then .flt cTOKEN
    else if badEffect (g.arm.get a) then .flt cPROTECTION
    else if g.t.vregs ≤ vd.toNat then .flt cRESERVED
    else
      let mask := g.arm.active &&& g.g.core.pget p.toNat
      if mask == 0 then .next s
      else s.performEff g (g.arm.get a) (g.arm.get b) 1 mask vd (fun c => c.vmark vd.toNat mask false))

/-! ### Tokens (R104) -/

/-- The frame of a live token: its depth code and the frame. A KIND that is none of R104's names no frame, an own single-shot one included:
DESIGN CHOICE (log 101). -/
def Group.liveToken (g : Group) (tok : Word) : Option (Nat × Frame) :=
  let code := (tok.extractLsb' 40 8).toNat
  let kind := (tok.extractLsb' 32 8).toNat
  if (tok.extractLsb' 0 32).toNat != g.gid then none
  else match g.frameAt code with
  | some f =>
    if f.gen == tok.extractLsb' 48 16 && f.state != 0 && kind == (if f.k then 2 else 1) then some (code, f) else none
  | none => none

/-- A one-lane-mask delivery of a value to a vector register (Table 6.6). -/
def Core.deliverV (c : Core) (n : Nat) (mask v : Half) : Core :=
  ((lanesOf mask).foldl (fun c l => c.vset n l v) c).vmark n mask true

/-- deliver(r, v) of Table 6.6, on the group's control thread. A PERFORML's value goes to every lane of MASK, those that have retired in the
meantime included, as the table reads: DESIGN CHOICE (log 101). -/
def Group.deliver (g : Group) (rkind dest : Nat) (mask : Half) (v : Word) : Group :=
  match rkind with
  | 0 | 4 => { g with core := g.core.updArm false (fun x => x.put (BitVec.ofNat 6 dest) v) }
  | 1 => { g with core := g.core.deliverV dest mask (v.extractLsb' 0 32) }
  | _ => g

/-- Is OPC an exchange instruction, which executes again in its whole saved ACTIVE (Table 6.6)? -/
def isXchg (opc : Nat) : Bool := 0x140 ≤ opc && opc ≤ 0x145

/-- The saved queue as RESUME enqueues it again, in its order, from the place `po` in program order on (R82): the faulting entry only in the
lanes of MASK (Table 6.6). -/
def Frame.again (f : Frame) (po : Nat) : List QEntry :=
  (match f.queue with
   | [] => []
   | e :: es => (if isXchg e.opc then e else { e with active := f.mask }) :: es).mapIdx (fun i (e : QEntry) => { e with po := po + i, both := false })

/-- Unmask the frames that a depth code masks. -/
def Group.unmask (g : Group) (code : Nat) : Group :=
  let u := fun (f : Frame) => if f.masker == code then { f with masker := 0 } else f
  { g with frames := g.frames.map u, inherited := g.inherited.map u }

/-- Is loop-end processing due at CSPC (R69)? Not where the instruction at CSPC executes again. -/
def Frame.ends (f : Frame) : Bool := f.rkind == 0 || f.rkind == 1 || f.rkind == 4 || f.after

/-- RESUME of frame `code` (R106), from the place `po` in program order on. The record stays as it is (R99). -/
def Group.resume (g : Group) (code : Nat) (f : Frame) (v : Word) (po : Nat) : Group :=
  let g := g.unmask code
  let owed := decide (f.rkind = 3) && f.lqrem != 0
  let g := { g with core := g.core.updArm false (fun x =>
    let x := (x.restore48 f.save f.saveFe).setDepth g.lbase
    { x with spc := f.cspc, lpc := f.clpc, rep := if owed then none else f.prep }) }
  let g := { g with lbase := f.prevBase }
  let g := g.deliver f.rkind f.dest f.mask v
  let g := if f.rkind == 3 then
      { g with queue := g.queue ++ f.again po,
               core := g.core.updArm false (fun x =>
                 if owed then { x with lqLeft := f.lqrem, lqWords := [], lqRun := f.prep, lqRep := f.repj, lqOwed := true } else x) }
    else g
  let g := if f.ends then { g with core := g.core.updArm false (fun x => x.advance g.lbase f.cspc) } else g
  g.updFrame code (fun x => { x with state := 0 })

/-- What is on its way to s48 to s59 when a handler ends: values of the handler go nowhere, and values of the continuation
go to its registers again. `keep`: the continuation goes on. -/
def State.untag (s : State) (t g code : Nat) (gen : BitVec 16) (keep : Bool) : State :=
  let mine := fun (o : Option (Nat × BitVec 16)) => o == some (code, gen)
  let s := { s with pending := s.pending.map (fun (p : Pending) =>
    if p.team == t && p.grp == g then
      (match p.dest with
       | .s r =>
         if !savedReg r then p
         else if mine p.saved then { p with saved := none, dest := if keep then p.dest else .none }
         else if p.saved.isNone && keep then { p with dest := .none } else p
       | _ => p)
    else p) }
  s.updGroup t g (fun y =>
    { y with queue := y.queue.map (fun (e : QEntry) =>
        match e.sdest with
        | some r =>
          if !savedReg r then e
          else if mine e.saved then { e with saved := none, sdDrop := e.sdDrop || !keep }
          else if e.saved.isNone && keep then { e with sdDrop := true } else e
        | none => e) })

/-- RESUME (R106). -/
def State.resumeEff (s : State) (a : Ag) (tok v : Word) : Eff :=
  if a.g.core.split then .flt cTOKEN
  else match a.g.liveToken tok with
  | none => .flt cTOKEN
  | some (code, f) =>
    if f.state != 1 || f.k then .flt cTOKEN
    else if a.g.frames.length != f.hdep then .flt cTOKEN
    else if 16 < a.g.queue.length + f.queue.length then .hold s
    else
      let s := s.untag a.t.id a.g.grpidx code f.gen true
      .stay ((s.bumpBy (f.queue.length + 1)).updGroup a.t.id a.g.grpidx (fun g => g.resume code f v s.nextId))

/-- RESUME (R106). -/
def execResume (a b : SReg) (s : State) : Out :=
  s.shep (.resume a b) { src := [a, b], dst := [], preds := [] } (fun s g => s.resumeEff g (g.arm.get a) (g.arm.get b))

/-- RESUMEK of frame `d` (R107): the handler is saved with SPC after the RESUMEK, and the snapshot starts again. -/
def Group.resumek (g : Group) (d : Nat) (f : Frame) (sn : Snapshot) (kd : SReg) (v : Word) : Group :=
  let core := g.core.updArm false (fun x => { x.empty kd with spc := x.spc + 4 })
  let sv : Snapshot := { core, lbase := g.lbase, frames := g.frames.take (g.frames.length - d) }
  let g := match f.slot with | some k => g.updSlot k (fun y => { y with save := some sv }) | none => g
  let f' := { f with state := 2, masker := 0, kdest := kd.toNat }
  let records := (g.frames.take (g.frames.length - d)).reverse ++ g.stale
  let g := { g with core := sn.restored g.core.armA, lbase := sn.lbase, frames := sn.frames ++ f' :: g.frames.drop (g.frames.length - d + 1),
                    stale := records.drop sn.frames.length }
  let g := { g with core := g.core.updArm false (fun x => { x with lpc := f.clpc, wait := .none }) }
  let g := g.deliver f.rkind f.dest f.mask v
  { g with core := g.core.updArm false (fun x => x.advance g.lbase f.cspc) }

/-- RESUMEK (R107). One whose slot holds no snapshot, because an inner run has popped its frame and an outer snapshot has restored it, faults
EFFECT_TOKEN: DESIGN CHOICE (log 98). -/
def State.resumekEff (s : State) (a : Ag) (d : SReg) (tok v : Word) : Eff :=
  if a.g.core.split then .flt cTOKEN
  else match a.g.liveToken tok with
  | none => .flt cTOKEN
  | some (code, f) =>
    if f.state != 1 || !f.k then .flt cTOKEN
    else if a.g.frames.length != f.hdep then .flt cTOKEN
    else if !a.g.quiet || s.groupBusy a.t.id a.g.grpidx then .hold s
    else match f.slot.bind (fun k => (a.g.slot k).cont) with
    | some sn => .stay (s.updGroup a.t.id a.g.grpidx (fun g => g.resumek code f sn d v))
    | none => .flt cTOKEN

/-- RESUMEK (R107). -/
def execResumek (d a b : SReg) (s : State) : Out :=
  s.shep (.resumek d a b) { src := [a, b], dst := [d], preds := [] } (fun s g =>
    s.resumekEff g d (g.arm.get a) (g.arm.get b))

/-- The pending destination on DROP (Table 6.6). The join status of RKIND 4 is that of the join which entered the handler, kept beside
the frame, for Table 6.4 has no field for it: DESIGN CHOICE (log 86). -/
def Group.dropDest (g : Group) (f : Frame) : Group :=
  match f.rkind with
  | 0 => { g with core := g.core.updArm false (fun x => x.put (BitVec.ofNat 6 f.dest) 0) }
  | 1 => { g with core := g.core.deliverV f.dest f.mask 0 }
  | 3 =>
    { g with core := f.queue.foldl (fun c e =>
        let c := match e.sdest with
          | some r => if savedReg r then c else c.updArm false (fun x => x.put r (x.get r))
          | none => c
        match e.fields with
        | some fl => if e.marks then c.pmark fl.dst.toNat true else c
        | none => c) g.core }
  | 4 => { g with core := g.core.updArm false (fun x => x.put (BitVec.ofNat 6 f.dest) (f.join.zeroExtend 64)) }
  | _ => g

/-- DROP of frame `code` (R108). -/
def Group.dropFrame (g : Group) (code : Nat) (f : Frame) : Group :=
  let loops := fun (n : Nat) (c : Core) => c.updArm false (fun x => { x.setDepth n with rep := none })
  let g := if code ≤ 64 then
      let n := g.frames.length + 1 - code
      let g := (g.freeSlots (g.frames.take n)).leave (g.frames.take n)
      { g with frames := g.frames.drop n, core := loops f.ldep g.core }
    else
      let g := (g.freeSlots g.frames).leave g.frames
      let g := { g with frames := [], core := loops 0 g.core }
      { g with inherited := g.inherited.mapIdx (fun i e =>
          let e := if e.masker == code && i ≤ code - 0x81 then { e with masker := 0 } else e
          if i == code - 0x81 then { e with state := 0 } else e) }
  ({ g with lbase := f.prevBase }).dropDest f

/-- DROP (R108). -/
def State.dropEff (s : State) (a : Ag) (tok : Word) : Eff :=
  if a.g.core.split then .flt cTOKEN
  else match a.g.liveToken tok with
  | none => .flt cTOKEN
  | some (code, f) =>
    if f.state != 1 then .flt cTOKEN
    else
      let popped := if code ≤ 64 then a.g.frames.take (a.g.frames.length + 1 - code) else a.g.frames
      let s := s.untag a.t.id a.g.grpidx code f.gen false
      let s := (List.range popped.length).foldl (fun (s : State) i =>
        match popped[i]? with
        | some e => s.untag a.t.id a.g.grpidx (a.g.frames.length - i) e.gen false
        | none => s) s
      .next (s.updGroup a.t.id a.g.grpidx (fun g => g.dropFrame code f))

/-- DROP (R108). -/
def execDrop (a : SReg) (s : State) : Out :=
  s.shep (.drop a) { src := [a], dst := [], preds := [] } (fun s g => s.dropEff g (g.arm.get a))

end Sys2Proof.Machine
end

