-- ==== Sys2Proof/Machine/Lane.lean ====
section
/-! DEFINITION. Execution of a lane-queue entry: which entry runs (R82, R110), waiting and FE_TRAP (R25, R53), active lanes
(R61), results (R122), faults that freeze the queue (R110), and the completion of an entry. -/

namespace Sys2Proof.Machine

open Sys2Proof

/-! ### The entry that runs -/

/-- Index of the oldest entry of an arm in program order (R40, R82). -/
def oldestOf (b : Bool) : Nat → List QEntry → Option (Nat × QEntry)
  | _, [] => none
  | i, e :: es => if e.armB == b then some (i, e) else if e.both then none else oldestOf b (i + 1) es

/-- Index of the faulting entry of a frozen queue: the oldest of its arm (R110). -/
def Group.faultIdx (g : Group) : Option Nat :=
  match g.frozen with
  | some f => (oldestOf f.armB 0 g.queue).map (fun x => x.1)
  | none => none

/-- The entry of an arm that may execute now: its oldest one, and none behind a faulting entry (R110). -/
def Group.nextEntry (g : Group) (b : Bool) : Option (Nat × QEntry) :=
  match oldestOf b 0 g.queue with
  | none => none
  | some (i, e) =>
    match g.faultIdx with
    | some k => if i < k then some (i, e) else none
    | none => some (i, e)

/-- What a lane instruction executes with: its arm, its entry and the entry's place, its fields, and its active lanes
under the predicate (R61), less those that trapped. -/
structure LC where
  a : Ag
  idx : Nat
  e : QEntry
  f : LaneFields
  act : Half
  deriving DecidableEq, Repr

/-- What a lane instruction does. -/
inductive LEff where
  /-- It does not execute now. -/
  | hold (s : State)
  /-- Lanes fault; the lanes whose checks passed have been performed in the state. -/
  | fault (s : State) (code : Nat) (mask : Half) (addr : Word)
  /-- The group is gone. -/
  | dead (s : State)
  | done (s : State)

/-! ### Operands -/

/-- The v registers that a lane instruction reads or writes, with their FEB bits (R25, R53). -/
def rowOps (opc : Nat) (f : LaneFields) : List VOp :=
  match laneRow opc with
  | none => []
  | some r =>
    let src := fun (k : SKind) (code : BitVec 9) (feb : Bool) =>
      match k with
      | .src | .vonly => vopOf code f.ty.is64 feb
      | .src32 | .index => vopOf code false feb
      | .srcS => vopOf code (match f.srcType with | some t => t.is64 | none => false) feb
      | .base => vopOf code true feb
      | _ => []
    let dst := match r.dst with
      | .v => dstOp f.dst.toNat f.ty.is64
      | .v32 => dstOp f.dst.toNat false
      | .vsd => if f.sd then [] else dstOp f.dst.toNat f.ty.is64
      | _ => []
    src r.sa f.sa (f.feb.getLsbD 0) ++ src r.sb f.sb (f.feb.getLsbD 1) ++ src r.sc f.sc (f.feb.getLsbD 2) ++ dst

/-- Lanes of a list of operands that hold the instruction back. -/
def blockLanes (c : Core) (scope act : Half) (ops : List VOp) : Half := ops.foldl (fun m o => m ||| o.blocks c scope act) 0

/-- Lanes of a list of operands that trap FE_TRAP. -/
def trapLanes (c : Core) (act : Half) (ops : List VOp) : Half := ops.foldl (fun m o => m ||| o.traps c act) 0

/-- A value source of one lane in a type. -/
def LC.src (x : LC) (c : Core) (code : BitVec 9) (bc : Word) (ty : LType) (lane : Nat) : Nat :=
  laneSrc c x.a.g.grpidx code bc x.f.ext ty lane
/-- Source A in TYPE. -/
def LC.sa (x : LC) (c : Core) (lane : Nat) : Nat := x.src c x.f.sa x.e.bcA x.f.ty lane
/-- Source B in TYPE. -/
def LC.sb (x : LC) (c : Core) (lane : Nat) : Nat := x.src c x.f.sb x.e.bcB x.f.ty lane
/-- Source C in TYPE. -/
def LC.sc (x : LC) (c : Core) (lane : Nat) : Nat := x.src c x.f.sc x.e.bcC x.f.ty lane
/-- The old destination in TYPE. -/
def LC.sd (x : LC) (c : Core) (lane : Nat) : Nat := x.f.ty.low (c.vread x.f.dst.toNat x.f.ty.is64 lane)

/-! ### Writing -/

/-- Write one value a lane into a v register of a type (R122). -/
def Core.writeLanes (c : Core) (n : Nat) (is64 : Bool) (act : Half) (v : Nat → Nat) : Core :=
  (lanesOf act).foldl (fun c l => c.vwrite n is64 l (v l)) c

/-- Write lanes of a v register of the executing group. -/
def State.putV (s : State) (x : LC) (n : Nat) (is64 : Bool) (v : Nat → Nat) : State :=
  s.updGroup x.a.t.id x.a.g.grpidx (fun g =>
    let g := g.note (if is64 then [n, n + 1] else [n])
    { g with core := g.core.writeLanes n is64 x.act v })

/-- Write bits of a predicate of the executing group (R49). -/
def State.putP (s : State) (x : LC) (v : Nat → Bool) : State :=
  s.updCore x.a.t.id x.a.g.grpidx (fun c =>
    c.pput x.f.dst.toNat x.act (maskOf ((lanesOf x.act).filter v)))

/-- Give an entry's scalar destination its value and set it full (R147). -/
def State.putSd (s : State) (x : LC) (v : Word) : State :=
  if x.e.sdDrop then s else s.fillScalar x.a.t.id x.a.g.grpidx x.a.b x.e.both x.e.saved x.f.sn v

/-! ### Running an entry -/

/-- An entry has executed: it leaves the queue, and the predicate it writes is full (R49). -/
def Group.complete (g : Group) (idx : Nat) (e : QEntry) : Group :=
  let c := match e.fields with
    | some f => if e.marks then g.core.pmark f.dst.toNat true else g.core
    | none => g.core
  { g with queue := g.queue.eraseIdx idx, core := c }

/-- A lane fault freezes the queue at its entry (R110). -/
def Group.freeze (g : Group) (b : Bool) (code : Nat) (mask : Half) (addr : Word) : Group :=
  { g with frozen := some { code, mask, addr, armB := b, stopped := false, after := false } }

/-- Lanes that an instruction waits for, and lanes that trap FE_TRAP, from its entry and its active lanes. -/
abbrev Pre := Group → QEntry → Half → Half × Half

/-- Waiting and traps of an instruction whose lanes read their own registers (R25, R53). -/
def ownPre (opc : Nat) (f : LaneFields) : Pre := fun g e act =>
  (blockLanes g.core e.scope act (rowOps opc f), trapLanes g.core act (rowOps opc f))

/-- The lane engine of a group may go on (R166, R174). -/
def State.laneLive (s : State) (a : Ag) : Bool :=
  s.engineLive a.t (.lane a.t.id a.g.grpidx) 4 && (match s.ctx? a.t.ctx with | some c => !c.faulted 2 a.g.gid false && !c.faulted 2 a.g.gid true | none => false) &&
  !a.g.retired

/-- Run an arm's next queue entry as a lane instruction with fields `f`. `solo`: an instruction whose trap stops it in
every lane (R147). Where some lanes trap on an empty register and others fail a check, the code and the address are the check's, and MASK holds
both: DESIGN CHOICE (log 101). -/
def State.laneRun (s : State) (a : Ag) (f : LaneFields) (pre : Pre) (solo : Bool) (body : State → LC → LEff) : State :=
  if !s.laneLive a then s
  else match a.g.nextEntry a.b with
  | none => s
  | some (i, e) =>
    let act := e.lanes a.g.core f
    let bt := pre a.g e act
    if bt.1 != 0 then s
    else
      let trap := bt.2
      let note := fun (s : State) => s.noteSkid a.t.ctx (.lane a.t.id a.g.grpidx)
      let fz := fun (s : State) (code : Nat) (m : Half) (addr : Word) =>
        (note s).updGroup a.t.id a.g.grpidx (fun g => g.freeze a.b code m addr)
      let x : LC := { a := { a with both := e.both }, idx := i, e, f, act := act &&& ~~~ trap }
      if solo && trap != 0 then fz s cFETRAP trap 0
      else match body s x with
      | .hold s => s
      | .dead s => s
      | .fault s code m addr => if trap != 0 && code == cFETRAP then fz s cFETRAP (m ||| trap) 0 else fz s code (m ||| trap) addr
      | .done s =>
        if trap != 0 then fz s cFETRAP trap 0
        else (note s).updGroup a.t.id a.g.grpidx (fun g => g.complete i e)

/-- A lane instruction executed by the lane engine for the arm that the state selects. -/
def State.lane (s : State) (f : LaneFields) (pre : Pre) (solo : Bool) (body : State → LC → LEff) : Out :=
  match s.sel with
  | .lane t g b =>
    match s.agent t g b with
    | some a => .next (s.laneRun a f pre solo body)
    | none => .fault .noAgent
  | _ => .fault .noAgent

/-- A lane instruction that computes each active lane's value of TYPE from registers (R126). -/
def State.laneV (s : State) (opc : Nat) (f : LaneFields) (v : LC → Core → Nat → Nat) : Out :=
  s.lane f (ownPre opc f) false (fun s x => .done (s.putV x f.dst.toNat f.ty.is64 (fun l => f.ty.written (v x x.a.g.core l))))

/-- A lane instruction that computes a 32-bit value whatever TYPE is. -/
def State.lane32 (s : State) (opc : Nat) (f : LaneFields) (v : LC → Core → Nat → Nat) : Out :=
  s.lane f (ownPre opc f) false (fun s x => .done (s.putV x f.dst.toNat false (fun l => v x x.a.g.core l)))

/-- A lane instruction that computes a bit of a predicate in each active lane. -/
def State.laneP (s : State) (opc : Nat) (f : LaneFields) (v : LC → Core → Nat → Bool) : Out :=
  s.lane f (ownPre opc f) false (fun s x => .done (s.putP x (fun l => v x x.a.g.core l)))

/-- VNOP (R64): its entry does nothing. -/
def execVnop (s : State) : Out :=
  match s.sel with
  | .lane t g b =>
    match s.agent t g b with
    | some a =>
      if !s.laneLive a then .next s
      else match a.g.nextEntry b with
      | some (i, e) => .next ((s.noteSkid a.t.ctx (.lane t g)).updGroup t g (fun y => y.complete i e))
      | none => .next s
    | none => .fault .noAgent
  | _ => .fault .noAgent

end Sys2Proof.Machine
end

