-- ==== Sys2Proof/Machine/LaneMem.lean ====
section
/-! DEFINITION. Lane memory: addressed loads and stores (R136 to R139), the wide load (R142), prefetches (R143), atomics
(R144, R145) and the tile windows (R146). -/

namespace Sys2Proof.Machine

open Sys2Proof

/-! ### The lanes of an access -/

/-- One lane's access: its address, and its target or its fault code (R138). -/
structure LaneAcc where
  lane : Nat
  va : Word
  res : Except Nat Target

/-- The access of a lane passed its checks. -/
def LaneAcc.ok (x : LaneAcc) : Bool := match x.res with | .ok _ => true | .error _ => false

/-- The lanes that failed, and the fault of the lowest (R138). -/
def failed (l : List LaneAcc) : Option (Nat × Half × Word) :=
  match l.find? (fun x => !x.ok) with
  | none => none
  | some x =>
    some ((match x.res with | .error c => c | .ok _ => 0), maskOf ((l.filter (fun y => !y.ok)).map (fun y => y.lane)), x.va)

/-- The targets of the lanes that passed. -/
def passed (l : List LaneAcc) : List (Nat × Target) :=
  l.filterMap (fun x => match x.res with | .ok t => some (x.lane, t) | .error _ => none)

/-- The effective address of a lane (R137). -/
def LC.ea (x : LC) (lane : Nat) : Word := laneAddr x.a.g.core x.a.g.grpidx x.f x.e.bcA x.e.bcB lane

/-- The accesses of the active lanes (R138). -/
def State.laneAccs (s : State) (x : LC) (k : AKind) (size : Nat) : List LaneAcc :=
  (lanesOf x.act).map (fun l => { lane := l, va := x.ea l, res := s.check x.a.w k (x.ea l) size })

/-- The outcome of a lane access: a fault of the lanes that failed, or completion. -/
def laneOutcome (s : State) (f : Option (Nat × Half × Word)) : LEff :=
  match f with
  | some (c, m, a) => .fault s c m a
  | none => .done s

/-- Must a lane access wait for earlier accesses of its arm: an acquire that the fabric has not answered (R89), a later access that was guessed
to touch other bytes (log 83), a store for the first writes to its page (R36), and for
causal locations and ordered packets the rules of R270 and the count window (R278)? The state to wait in. `store`: it is a store or an
atomic. -/
def State.laneHold (s : State) (x : LC) (ts : List (Nat × Target)) (store : Bool) : Option State :=
  if s.acqWaits x.a.key x.e.po || s.guessStops x.a x.e ts store || (store && ts.any (fun t => s.viewWait x.a.w t.2)) then some s
  else ts.findSome? (fun t => s.causalHold x.a x.e.po t.2 store)

/-- What a lane store or atomic must follow is read now: the items that it overlaps, and acquires. -/
def State.laneBind (s : State) (x : LC) (ts : List (Nat × Target)) : Option State :=
  s.bindBefore x.a.key x.e.po (fun u => ts.any (fun t => locOverlap u.loc u.size t.2.loc t.2.size))

/-- A lane access that leaves as ordered traffic may not yet: an earlier store of its arm to the same bytes is not performed (R42). -/
def State.laneBlocked (s : State) (x : LC) (ts : List (Nat × Target)) : Bool :=
  ts.any (fun t => s.blockedFor x.a.key x.e.po t.2.loc t.2.size)

/-! ### Loads -/

/-- Start the items of a load: DST is empty in its lanes until the values arrive (R25, R139). -/
def State.startLoad (s : State) (x : LC) (ts : List (Nat × Target)) (hint : Nat) (dest : Dest) (mark : Core → Core) : State :=
  let pid := s.nextId
  let r := ts.foldl (fun (acc : List PItem × State) t =>
    let y := acc.2.startItem x.a x.e.po pid t.1 t.2
    (acc.1 ++ [y.1], y.2)) ([], s)
  let p : Pending := { after := x.a.arm.fencePo, id := pid, po := x.e.po, team := x.a.t.id, grp := x.a.g.grpidx, armB := x.a.b, dest, hint,
                       items := r.1, rmw := false, acq := false, scope := 6, both := x.e.both, saved := none }
  (r.2.addPending p).updCore x.a.t.id x.a.g.grpidx mark

/-- A lane load of elements of TYPE (R139, R146). Its lanes are read one by one or together, in any order. -/
def State.laneLoad (s : State) (x : LC) (l : List LaneAcc) (hint : Nat) : LEff :=
  let ts := passed l
  match s.laneHold x ts false with
  | some s => .hold s
  | none =>
    if ts.isEmpty then laneOutcome s (failed l)
    else
      let n := x.f.dst.toNat
      let m := maskOf (ts.map (fun t => t.1))
      laneOutcome (s.startLoad x ts hint (.v n x.f.ty) (fun c => (vnums n x.f.ty).foldl (fun c k => c.vmark k m false) c)) (failed l)

/-- VLD (R139). -/
def execVld (f : LaneFields) (s : State) : Out :=
  s.lane f (ownPre 0x180 f) false (fun s x => s.laneLoad x (s.laneAccs x .load (f.ty.bits / 8)) f.hint)

/-- VLDW (R142): one access of 128 or 256 bytes, each line read at one point, and two lines not together. -/
def execVldw (f : LaneFields) (s : State) : Out :=
  s.lane f (ownPre 0x182 f) false (fun s x =>
    if x.act == 0 then .done s
    else
      let ea := x.e.bcA + f.disp
      let n := if f.ty.is64 then 256 else 128
      match s.check x.a.w .load ea n with
      | .error c => .fault s c x.act ea
      | .ok t =>
        let part := fun (k : Nat) =>
          ({ va := t.va + 128 * k, size := 128, pte := t.pte,
             loc := t.loc.to (t.loc.addr + 128 * k) } : Target)
        let ts := (List.range (n / 128)).map (fun k => (k, part k))
        match s.laneHold x ts false with
        | some s => .hold s
        | none =>
          let d := f.dst.toNat
          .done (s.startLoad x ts f.hint (.wide d f.ty x.act) (fun c => (vnums d f.ty).foldl (fun c k => c.vmark k x.act false) c)))

/-- Waiting of VPREF, which traps in no lane. -/
def prefPre (f : LaneFields) : Pre := fun g e act => ((ownPre 0x184 f g e act).1, 0)

/-- VPREF (R143): lines are fetched for the lanes that pass every check; a line with a poisoned sector is not (Table 14.7), and a lane whose address
register is empty under its FEB bit is left out, since VPREF never faults. -/
def execVpref (f : LaneFields) (s : State) : Out :=
  s.lane f (prefPre f) false (fun s x =>
    .done ((lanesOf (x.act &&& ~~~ trapLanes x.a.g.core x.act (rowOps 0x184 f))).foldl (fun (s : State) l =>
      match s.check x.a.w .load (x.ea l) 4 with
      | .ok t =>
        (match t.loc with
         | .dev ga => if s.poisoned (lineOf ga * 128) 128 || t.causal then s else (s.loadAt x.a.w t f.hint false).s
         | _ => s)
      | .error _ => s) s))

/-! ### Stores -/

/-- Do two targets lie in one line, of memory or, in a view, of its private copies? By whatever mappings they reach it. -/
def Target.sameLine (inView : Bool) (t u : Target) : Bool :=
  (!inView || pteViewed t.pte == pteViewed u.pte) && t.loc.to (t.loc.addr / 128) == u.loc.to (u.loc.addr / 128)

/-- The lanes of a store by line, each line's in ascending order, and the lines by their lowest lanes (R139). -/
def byLine (inView : Bool) (ts : List (Nat × Target)) : List (List (Nat × Target)) :=
  ts.foldl (fun (acc : List (List (Nat × Target))) t =>
    if acc.any (fun g => g.any (fun u => u.2.sameLine inView t.2)) then
      acc.map (fun g => if g.any (fun u => u.2.sameLine inView t.2) then g ++ [t] else g)
    else acc ++ [[t]]) []

/-- The lowest lane comes first. -/
def sortLanes (l : List LaneAcc) : List LaneAcc := (List.range 32).flatMap (fun i => l.filter (fun y => y.lane == i))

/-- The target that stands for the lanes of one line: one on a CAUSAL page where there is one (R270), else the one of the lowest virtual
address (R261). -/
def lineTarget (t : Target) (ts : List (Nat × Target)) : Target :=
  ts.foldl (fun (m : Target) u =>
    if u.2.causal && !m.causal then u.2 else if u.2.causal == m.causal && u.2.va < m.va then u.2 else m) t

/-- A packet of a lane store that leaves as ordered traffic: its lane, target and bytes. -/
abbrev LanePkt := Nat × Target × List (Nat × List Byte)

/-- The packets of a line, one for each lane: the bytes of the line travel with the last, so that they are written as one write (R139, R270,
log 90). -/
def linePkts (t : Target) (runs : List (Nat × List Byte)) (lanes : List Nat) : List LanePkt :=
  lanes.mapIdx (fun i l => (l, t, if i + 1 == lanes.length then runs else []))

/-- The packets of a lane store are injected in ascending lane order (R270). -/
def State.sendPkts (s : State) (x : LC) (out : List LanePkt) : State :=
  ((List.range 32).flatMap (fun i => out.filter (fun y => y.1 == i))).foldl (fun (s : State) p =>
    s.sendStore x.a x.e.po p.2.1 p.2.2 false) s

/-- A lane store by lines, in the order of their lowest lanes: the lanes of one line are checked and written as one write, the higher lane
last (R40, R138, R139). A line's lanes pass TWIN_QUOTA together or not at all. `bad`: the lanes that have failed; `out`: the packets to
inject at the end. -/
def State.storeLines (s : State) (x : LC) (size : Nat) (v : Nat → Nat) : List (List (Nat × Target)) → List LaneAcc → List LanePkt → LEff
  | [], bad, out => laneOutcome (s.sendPkts x out) (failed (sortLanes bad))
  | g :: gs, bad, out =>
    let acc := g.map (fun t => ({ lane := t.1, va := toWord t.2.va, res := s.check x.a.w .store (toWord t.2.va) size } : LaneAcc))
    let bad := bad ++ acc.filter (fun y => !y.ok)
    match passed acc with
    | [] => State.storeLines s x size v gs bad out
    | (n, t) :: ts =>
      let runs := mergeRuns (((n, t) :: ts).map (fun p => (p.2.loc.addr, leBytes size (v p.1))))
      let lanes := ((n, t) :: ts).map (fun p => p.1)
      let u := lineTarget t ts
      if s.ordered x.a u then State.storeLines (s.touch x.a.w u) x size v gs bad (out ++ linePkts u runs lanes)
      else
        let r := s.doStore x.a x.e.po u runs (maskOf lanes) false x.a.arm.relSys
        if r.poison then .dead (r.s.consume x.a.t.id x.a.g.grpidx x.a.b t.va (maskOf lanes) 2)
        else if r.s.gone x.a then .dead r.s
        else State.storeLines r.s x size v gs bad out

/-- A lane store of elements of TYPE to the lanes of `acc` that pass their checks. A store that leaves as ordered traffic, and one that is a
release of a group which has lost a peer store, act as a scalar one does (R237, R270, R288). -/
def State.laneStore (s : State) (x : LC) (size : Nat) (acc : List LaneAcc) : LEff :=
  let ts := passed acc
  let ordered := ts.any (fun t => s.ordered x.a t.2)
  if !ts.isEmpty && x.a.lostPeer false then .fault s cFABRICLOST (maskOf (ts.map (fun t => t.1))) 0
  else match s.laneHold x ts true with
  | some s => .hold s
  | none =>
    if ts.any (fun t => s.relHold x.a x.e.po t.2 false false) || (ordered && s.laneBlocked x ts) then .hold s
    else match (if ordered then s.laneBind x ts else some s) with
    | none => .hold s
    | some s =>
      if s.gone x.a then .dead s
      else s.storeLines x size (fun l => x.sc x.a.g.core l) (byLine x.a.w.view.isSome ts) (acc.filter (fun y => !y.ok)) []

/-- VST (R139). -/
def execVst (f : LaneFields) (s : State) : Out :=
  s.lane f (ownPre 0x181 f) false (fun s x => s.laneStore x (f.ty.bits / 8) (s.laneAccs x .store (f.ty.bits / 8)))

/-! ### Atomics -/

/-- The lane is the last of those that name its location (R144). -/
def lastAt (t : Target) (l : List LaneAcc) : Bool := !l.any (fun y => match y.res with | .ok u => u.loc == t.loc | .error _ => false)

/-- The lanes of an atomic as it issues, in ascending order (R144, R270): each that passes its checks joins the pending access `pid`. The
lanes that have been checked come back. -/
def State.rmwLanes (s : State) (x : LC) (pid size : Nat) (op : RmwOp) (rel : Bool) : List LaneAcc → List LaneAcc → State × List LaneAcc
  | [], l => (s, l.reverse)
  | y :: ys, l =>
    match s.check x.a.w .vatomic y.va size with
    | .error c => State.rmwLanes s x pid size op rel ys ({ y with res := .error c } :: l)
    | .ok t =>
      let u := x.a.rmw op x.f.ty.isSigned x.f.rnd (x.sc x.a.g.core y.lane) (x.sd x.a.g.core y.lane) rel
      let r := s.startRmw x.a x.e.po pid y.lane t u (lastAt t ys)
      let s := { r.2 with pending := updWhere (fun p => p.id == pid) (fun p => { p with items := p.items ++ [r.1] }) r.2.pending }
      State.rmwLanes s x pid size op rel ys ({ y with res := .ok t } :: l)

/-- The accesses of the arm before a lane access are performed (R145, R292): a release at device scope waits for every earlier write. The
state to go on from. -/
def State.laneQuiet (s : State) (x : LC) : Option State :=
  if s.pending.any (fun p => p.ofArm x.a.key && p.waits && decide (p.po < x.e.po)) then none
  else (s.bindWhere x.a.key (fun p => decide (p.po < x.e.po))).filter (fun s => !s.writesBefore x.a.key x.e.po true false)

/-- VAMO (R144, R145): its lanes issue, and are performed one by one or together, in any order but that of R144 on one location. `rel`:
AMAXRST, an acquire and a release at device scope. -/
def State.vamoEff (s : State) (x : LC) (op : RmwOp) (rel : Bool) : LEff :=
  let size := x.f.ty.bits / 8
  let acc := s.laneAccs x .vatomic size
  let ts := passed acc
  let ordered := ts.any (fun t => s.ordered x.a t.2)
  if !ts.isEmpty && x.a.lostPeer false then .fault s cFABRICLOST (maskOf (ts.map (fun t => t.1))) 0
  else match s.laneHold x ts true with
  | some s => .hold s
  | none =>
    if ts.any (fun t => s.relHold x.a x.e.po t.2 false false) || (ordered && s.laneBlocked x ts) then .hold s
    else match (if rel && !ts.isEmpty then s.laneQuiet x else if ordered then s.laneBind x ts else some s) with
    | none => .hold s
    | some s =>
      if s.gone x.a then .dead s
      else if ts.isEmpty then laneOutcome s (failed acc)
      else
        let pid := s.nextId
        let n := x.f.dst.toNat
        let p : Pending := { after := x.a.arm.fencePo, id := pid, po := x.e.po, team := x.a.t.id, grp := x.a.g.grpidx, armB := x.a.b,
                             dest := .v n x.f.ty, hint := 0, items := [], rmw := true, acq := rel, scope := if rel then 4 else 6, both := x.e.both, saved := none }
        let r := (s.addPending p).rmwLanes x pid size op rel acc []
        let m := maskOf ((passed r.2).map (fun t => t.1))
        laneOutcome (r.1.updCore x.a.t.id x.a.g.grpidx (fun c => (vnums n x.f.ty).foldl (fun c k => c.vmark k m false) c)) (failed r.2)

/-- A lane atomic of one operation. -/
def State.vamo (s : State) (opc : Nat) (f : LaneFields) (op : RmwOp) (rel : Bool) : Out :=
  s.lane f (ownPre opc f) false (fun s x => s.vamoEff x op rel)

/-- VAMO.SWAP (R144). -/
def execVamoSwap (f : LaneFields) (s : State) : Out := s.vamo 0x190 f .swap false
/-- VAMO.ADD (R144). -/
def execVamoAdd (f : LaneFields) (s : State) : Out := s.vamo 0x191 f .add false
/-- VAMO.AND (R144). -/
def execVamoAnd (f : LaneFields) (s : State) : Out := s.vamo 0x192 f .and false
/-- VAMO.OR (R144). -/
def execVamoOr (f : LaneFields) (s : State) : Out := s.vamo 0x193 f .or false
/-- VAMO.XOR (R144). -/
def execVamoXor (f : LaneFields) (s : State) : Out := s.vamo 0x194 f .xor false
/-- VAMO.MIN (R144). -/
def execVamoMin (f : LaneFields) (s : State) : Out := s.vamo 0x195 f .min false
/-- VAMO.MAX (R144). -/
def execVamoMax (f : LaneFields) (s : State) : Out := s.vamo 0x196 f .max false
/-- VAMO.CAS: DST holds the expected value (R144). -/
def execVamoCas (f : LaneFields) (s : State) : Out := s.vamo 0x197 f .cas false
/-- VAMO.FADD (R144). -/
def execVamoFadd (f : LaneFields) (s : State) : Out := s.vamo 0x198 f .fadd false
/-- VAMO.FMIN (R144). -/
def execVamoFmin (f : LaneFields) (s : State) : Out := s.vamo 0x199 f .fmin false
/-- VAMO.FMAX (R144). -/
def execVamoFmax (f : LaneFields) (s : State) : Out := s.vamo 0x19A f .fmax false
/-- VAMO.AMAXRST (R144, R145). -/
def execVamoAmaxrst (f : LaneFields) (s : State) : Out := s.vamo 0x19B f .amaxrst true

/-! ### Tile windows (R146) -/

/-- The scratchpad address of a lane's element, or its fault code (Table 8.4, orders 1 and 2). -/
def LC.tileAddr (x : LC) (lane : Nat) : Except Nat Word := x.a.t.tileAddr x.a.g.core x.a.g.grpidx x.f x.e.bcA x.e.bcB lane

/-- The accesses of a tile window. An element of a tile whose base is not a multiple of its size fails order 1 of Table 8.2: DESIGN CHOICE
(log 101). -/
def State.tileAccs (s : State) (x : LC) (k : AKind) : List LaneAcc :=
  (lanesOf x.act).map (fun l =>
    match x.tileAddr l with
    | .error c => { lane := l, va := 0, res := .error c }
    | .ok va => { lane := l, va, res := s.check x.a.w k va (x.f.ty.bits / 8) })

/-- VTLD (R146). -/
def execVtld (f : LaneFields) (s : State) : Out :=
  s.lane f (ownPre 0x200 f) false (fun s x => s.laneLoad x (s.tileAccs x .load) 0)

/-- VTST (R146). -/
def execVtst (f : LaneFields) (s : State) : Out :=
  s.lane f (ownPre 0x201 f) false (fun s x => s.laneStore x (f.ty.bits / 8) (s.tileAccs x .store))

end Sys2Proof.Machine
end

