-- ==== Sys2Proof/Machine/Engine.lean ====
section
/-! DEFINITION. What the copy engine and the matrix engine share: a new group, ranges in the hurdle table (R24, R192,
R214), tiles (R191), and the sequencer as an agent of its team. -/

namespace Sys2Proof.Machine

open Sys2Proof

/-- A group as placement makes it (R10, R27, R50, R51, R98): every register zero and full (for predicates log 11), arm A at the entry. -/
def Group.fresh (gid grpidx : Nat) (spc lpc : Word) (inherited : List Frame) : Group :=
  { gid, grpidx,
    core := { armA := { Arm.zero with spc, lpc, mask := allLanes }, armB := Arm.zero, split := false, live := allLanes,
              vregs := Vector.replicate 320 (Vector.replicate 32 0), vfull := Vector.replicate 320 allLanes,
              preds := Vector.replicate 16 0, pfull := BitVec.allOnes 16 },
    queue := [], frozen := none, tokens := 0, frames := [], stale := [], inherited, gen := 0, lbase := 0, slot0 := Slot.free, slot1 := Slot.free,
    joinStatus := 0, joinCount := 0, rootDest := none, forkDest := 0, forkSb := 0, forkSig := 0, abandoned := false, abandonedB := false,
    peerLost := false, exiting := false, retired := false, killed := false, hist := [] }

/-! ### Hurdle ranges -/

/-- Is the space one that every core compares by location (R192)? -/
def Space.located : Space → Bool
  | .spad _ => true
  | _ => false

/-- A new range meets a registered one, and either is a write (R192). -/
def State.rngClash (s : State) (r : Rng) : Bool :=
  s.hurdles.any (fun h => (h.core == r.core || r.space.located) && h.space == r.space && h.lo < r.hi && r.lo < h.hi && (h.write || r.write))

/-- Entries of a core's hurdle table in use (R24). -/
def State.hurdlesOn (s : State) (core : Nat) : Nat := (s.hurdles.filter (fun h => h.core == core)).length

/-- May the ranges be registered now (R24, R192)? Each core's table has 64 entries. -/
def State.canRegister (s : State) (rs : List Rng) : Bool :=
  !rs.any (fun r => s.rngClash r) &&
  rs.all (fun r => s.hurdlesOn r.core + (rs.filter (fun q => q.core == r.core)).length ≤ 64)

/-- Register ranges. -/
def State.register (s : State) (o : Owner) (rs : List Rng) : State :=
  { s with hurdles := s.hurdles ++ rs.map (fun r => { core := r.core, owner := o, space := r.space, lo := r.lo, hi := r.hi, write := r.write }) }

/-- Release the ranges of an operation. -/
def State.release (s : State) (o : Owner) : State := { s with hurdles := s.hurdles.filter (fun h => h.owner != o) }

/-! ### Tiles -/

/-- Change a tile of a team. -/
def State.updTile (s : State) (t i : Nat) (f : Tile → Tile) : State :=
  s.updTeam t (fun x => { x with tiles := x.tiles.modify i f })

/-- Bytes of an element of a tile (R191). -/
def Tile.size (t : Tile) : Nat := tileElem t.elem

/-- Bytes of a tile in the own window. -/
def Tile.bytes (t : Tile) : Nat := t.rows * t.cols * t.size

/-- The range of a tile: its extent in the scratchpad, or its bytes in every slice of the operand store (R189, R192). -/
def Team.tileRng (t : Team) (x : Tile) (write : Bool) : Rng :=
  if x.ops then { core := t.coreNum, space := .ops t.id, lo := x.off, hi := x.off + 2 * x.rows, write }
  else { core := t.coreNum, space := .spad t.id, lo := x.off, hi := x.off + x.bytes, write }

/-- A copy in flight names the tile (R206). -/
def State.copyNames (s : State) (t i : Nat) : Bool :=
  s.copies.any (fun c => c.team == t && c.pkt.tileEn && c.pkt.tile.toNat == i)

/-- A matrix operation in flight names the tile. -/
def State.mopNames (s : State) (t i : Nat) : Bool := s.mops.any (fun m => m.team == t && m.tiles.contains i)

/-- A part of the operand store of a team: `n` bytes of a slice (R189). -/
def Team.opsBytes (t : Team) (slice off n : Nat) : List Byte := t.ops.bytes (4096 * slice + off) n

/-! ### Reading a 64-byte block (R181, R246) -/

/-- The result of a shepherd load of a packet or a descriptor. -/
inductive Blk where
  | hold (s : State)
  | fault (code : Nat)
  | dead (s : State)
  | ok (s : State) (bs : List Byte)

/-- A shepherd load of 64 bytes, checked by Table 5.2. A block on a causal page of another die is ordered traffic, and its
answer is kept for the instruction that waits for it. -/
def State.readBlock (s : State) (a : Ag) (va : Word) : Blk :=
  match s.pending.find? (fun p => p.ofArm a.key && p.dest == .packet && p.items.any (fun i => i.t.va == va.toNat)) with
  | some p =>
    if p.done then
      .ok { s with pending := s.pending.filter (fun q => q.id != p.id) } (leBytes 64 ((p.items.head?.bind (fun i => i.val)).getD 0))
    else .hold s
  | none =>
    match s.check a.w .load va 64 with
    | .error c => .fault c
    | .ok t =>
      let pid := s.nextId
      if a.g.amaxQueued a.b pid || s.acqWaits a.key pid || s.laneOverlap a pid t.loc 64 || s.blockedFor a.key pid t.loc 64 ||
        s.writesBefore a.key a.arm.fencePo false false then .hold s
      else match s.causalHold a pid t false with
      | some s => .hold s
      | none =>
        if s.remoteCausal a t then
          let x := s.startItem a pid pid 0 t
          .hold (x.2.addPending { id := pid, po := pid, team := a.t.id, grp := a.g.grpidx, armB := a.b, dest := .packet, hint := 0,
                                    items := [x.1], rmw := false, acq := false, scope := 6, both := false, saved := none })
        else
          let r := (s.touch a.w t).loadAt a.w t 0 t.causal
          let s := r.s.noteSig a.t.id a.g.grpidx a.b a.both r.sig
          let s := if t.causal then s.orW a.w.core r.sig else s
          if r.poison then .dead (s.consume a.t.id a.g.grpidx a.b t.va 0 1) else .ok (s.guess a pid t false t.causal r.bytes) r.bytes

/-! ### The sequencer as an agent -/

/-- The group number under which accesses of a team's sequencer are kept. No group has it. -/
def seqGroup : Nat := 32

/-- A team's sequencer as an agent; none when its context is gone. -/
def State.seqAgent (s : State) (t : Team) : Option Ag :=
  (s.who t).map (fun w => { t, g := Group.fresh 0 seqGroup 0 0 [], b := false, w := { w with engine := true } })

end Sys2Proof.Machine
end

