-- ==== Sys2Proof/Machine/Matrix.lean ====
section
/-! DEFINITION. The matrix engine (R198 to R216): the sequencer's words, chains and their exact order of rounding, MOUT and
MAMAX, and the completion, suspension and stopping of its operations. -/

namespace Sys2Proof.Machine

open Sys2Proof

/-! ### Accumulator planes (R202) -/

/-- An accumulator that holds +0 everywhere, with no chain steps. -/
def Acc.zero : Acc := { e := [], o := [], steps := 0 }

/-- The first entry of a plane when it is element `k`, and the rest. -/
def planeHead (k : Nat) : Plane → Half × Plane
  | [] => (0, [])
  | (j, v) :: r => if j = k then (v, r) else (0, (j, v) :: r)

/-- Apply a function of the index and both planes' elements to `n` elements from `k` on. Unlisted elements are +0. -/
def planeMap (f : Nat → Half → Half → Half) : Nat → Nat → Plane → Plane → Plane
  | 0, _, _, _ => []
  | n + 1, k, p, q =>
    let a := planeHead k p
    let b := planeHead k q
    let v := f k a.1 b.1
    if v = 0 then planeMap f n (k + 1) a.2 b.2 else (k, v) :: planeMap f n (k + 1) a.2 b.2

/-- Element (i, j) of a plane (Table 12.3). -/
def Plane.at (p : Plane) (i j : Nat) : Half := cellRead p (128 * i + j)

/-- chain_add of R204 for the product of two bf16 codes: exact product, one rounding. -/
def chainAdd (acc : Half) (a b : Nat) : Half :=
  BitVec.ofNat 32 (fmtF32.finish .rne .none (fmtF32.round .rne
    (FV.add .rne (fmtF32.decode acc.toNat) (FV.mul (fmtBF16.decode a) (fmtBF16.decode b)))))

/-- The even- or odd-numbered members of a list. -/
def alternate {α : Type} : Bool → List α → List α
  | _, [] => []
  | true, x :: xs => x :: alternate false xs
  | false, _ :: xs => alternate true xs

/-- One element of a plane after a k-step: the products of its chain in ascending k (R204). -/
def chainStep (odd : Bool) (row col : List Nat) (acc : Half) : Half :=
  (alternate (!odd) (row.zip col)).foldl (fun acc (p : Nat × Nat) => chainAdd acc p.1 p.2) acc

/-- Little-endian halfwords of a list of bytes. -/
def halves : List Byte → List Nat
  | a :: b :: r => (a.toNat + 256 * b.toNat) :: halves r
  | _ => []

/-- The 32 elements of A that a k-step reads in row i: columns ka to ka + 31 of a tile in the own window. -/
def Team.rowA (t : Team) (a : Tile) (ka i : Nat) : List Nat := halves (t.spad.bytes (a.off + 2 * (i * a.cols + ka)) 64)

/-- The 32 elements of B that a k-step reads in column j: rows kb to kb + 31 of a tile in the operand store. -/
def Team.colB (t : Team) (b : Tile) (kb j : Nat) : List Nat := halves (t.opsBytes j (b.off + 2 * kb) 64)

/-- One k-step (R204). -/
def Acc.mstep (x : Acc) (m n : Nat) (rows cols : List (List Nat)) : Acc :=
  let go := fun (odd : Bool) (k : Nat) (v : Half) =>
    if k / 128 < m && k % 128 < n then chainStep odd (rows.getD (k / 128) []) (cols.getD (k % 128) []) v else v
  { e := planeMap (fun k v _ => go false k v) 16384 0 x.e [], o := planeMap (fun k v _ => go true k v) 16384 0 x.o [],
    steps := x.steps + 1 }

/-- MEND of an accumulator: E = rne32(E + O), O = +0 (R203). -/
def Acc.mend (x : Acc) : Acc :=
  { x with e := planeMap (fun _ e o => BitVec.ofNat 32 (fadd32 e.toNat o.toNat)) 16384 0 x.e x.o, o := [] }

/-! ### Sequencer state -/

/-- An accumulator of a sequencer. -/
def Seq.acc (q : Seq) (n : Nat) : Acc := q.accs.getD n Acc.zero

/-- Change an accumulator. -/
def Seq.updAcc (q : Seq) (n : Nat) (f : Acc → Acc) : Seq := { q with accs := vecUpd q.accs n f }

/-- Is a chain open on an accumulator? -/
def Seq.isOpen (q : Seq) (n : Nat) : Bool := q.opened.getLsbD n

/-- Open or close the chain of an accumulator. -/
def Seq.setOpen (q : Seq) (n : Nat) (b : Bool) : Seq :=
  { q with opened := if b then q.opened ||| (1#6 <<< n) else q.opened &&& ~~~ (1#6 <<< n) }

/-- Change the sequencer of a team. -/
def State.updSeq (s : State) (t : Nat) (f : Seq → Seq) : State := s.updTeam t (fun x => { x with seq := f x.seq })

/-- The effective tile of a TA field (R201). -/
def Seq.ta (q : Seq) (v : BitVec 8) : Nat := (v + q.oa).toNat
/-- The effective tile of MSTEP's AUX field. -/
def Seq.tx (q : Seq) (v : BitVec 8) : Nat := (v + q.ox).toNat
/-- The effective BOFF of MSTEP and MOUT. -/
def Seq.boff (q : Seq) (v : BitVec 16) : Nat := (v + q.ob).toNat
/-- The effective IMM16 of MSTEP. -/
def Seq.kimm (q : Seq) (v : BitVec 16) : Nat := (v + q.ok).toNat

/-! ### Issue (R199, R200) -/

/-- What a matrix word does. -/
inductive MEff where
  /-- It does not issue now. -/
  | hold
  /-- It faults, with no state changed and MPC at the word. -/
  | fault (code : Nat) (addr : Nat)
  /-- It faults after it has arrived at a barrier (R211). -/
  | faultAt (s : State) (code : Nat)
  /-- It issues; MPC goes to the next word. -/
  | next (s : State)
  /-- It issues; MPC goes to an address. -/
  | goto (s : State) (pc : Word)
  /-- It issues; MPC as the effect left it. -/
  | stay (s : State)

/-- A sequencer may issue a word: its stream runs, the team has a group that has not retired (R210), the halt line of its context has not
risen (R216), and no MOUT or MAMAX is in flight (log 24). -/
def State.seqLive (s : State) (t : Team) : Bool :=
  s.teamLive t && t.seq.run == 0 && !t.allRetired && (match s.ctx? t.ctx with | some c => c.halt == .none | none => false) &&
  !s.mops.any (fun m => m.team == t.id && (match m.instr with | .mout .. | .mamax .. => true | _ => false))

/-- Issue of a matrix word by a team's sequencer (R199). `acc`: the accumulator it names; `tiles`: its effective tiles. -/
def State.matRun (s : State) (t : Team) (acc : Option (BitVec 3)) (tiles : List Nat) (body : State → Team → MEff) : State :=
  if !s.seqLive t then s
  else if (match acc with | some a => decide (t.nacc ≤ a.toNat) | none => false) || tiles.any (fun i => decide (t.ntiles ≤ i)) then
    s.seqFault t.id cPROTECTION 0
  else match body s t with
    | .hold => s
    | .fault c a => s.seqFault t.id c a
    | .faultAt s c => s.seqFault t.id c 0
    | .next s => s.updSeq t.id (fun q => { q with mpc := q.mpc + 8 })
    | .goto s pc => s.updSeq t.id (fun q => { q with mpc := pc })
    | .stay s => s

/-- A matrix word executed by the sequencer that the state selects. `names`: what it names, from the team's offsets. -/
def State.mat (s : State) (acc : Option (BitVec 3)) (names : Seq → List Nat) (body : State → Team → MEff) : Out :=
  match s.sel with
  | .matrix t =>
    match s.team? t with
    | some x => .next (s.matRun x acc (names x.seq) body)
    | none => .fault .noAgent
  | _ => .fault .noAgent

/-- A word that names nothing and changes the sequencer alone. -/
def State.matCtl (s : State) (f : Seq → Seq) : Out := s.mat none (fun _ => []) (fun s t => .next (s.updSeq t.id f))

/-- Put an operation in flight with its ranges (R214). -/
def State.addMop (s : State) (t : Team) (i : Instr) (tiles : List Nat) (off : Nat) (rs : List Rng) : State :=
  let m : MOp := { id := s.nextId, team := t.id, instr := i, tiles, off, mpc := t.seq.mpc, rowsDone := 0, pmax := 0, faulted := false, suspended := false,
                   ranges := [] }
  ({ s.bump with mops := s.mops ++ [m] }).register (.mop s.nextId) rs

/-! ### Chains (R203, R204) -/

/-- MNOP (R210). -/
def execMnop (s : State) : Out := s.matCtl id

/-- MBEG (R203). -/
def execMbeg (acc : BitVec 3) (s : State) : Out :=
  s.mat (some acc) (fun _ => []) (fun s t =>
    if t.seq.isOpen acc.toNat then .fault cTILE 0
    else .next (s.updSeq t.id (fun q => (q.updAcc acc.toNat (fun x => { x with o := [], steps := 0 })).setOpen acc.toNat true)))

/-- MEND (R203). -/
def execMend (acc : BitVec 3) (s : State) : Out :=
  s.mat (some acc) (fun _ => []) (fun s t =>
    if !t.seq.isOpen acc.toNat then .fault cTILE 0
    else .next (s.updSeq t.id (fun q => (q.updAcc acc.toNat Acc.mend).setOpen acc.toNat false)))

/-- MZERO (R203). -/
def execMzero (acc : BitVec 3) (s : State) : Out :=
  s.mat (some acc) (fun _ => []) (fun s t =>
    if t.seq.isOpen acc.toNat then .fault cTILE 0
    else .next (s.updSeq t.id (fun q => q.updAcc acc.toNat (fun x => { x with e := [], o := [] }))))

/-- The checks of MSTEP once both tiles are READY, in the order of R204. -/
def mstepOk (q : Seq) (acc : Nat) (a b : Tile) (kb ka : Nat) : Bool :=
  q.isOpen acc && !a.ops && b.ops && a.elem == 0x0A && b.elem == 0x0A && a.rows ≤ 128 && ka % 32 == 0 && kb % 32 == 0 &&
  ka + 32 ≤ a.cols && kb + 32 ≤ b.rows

/-- MSTEP (R204): it waits for both tiles, and its reads take place as it issues. -/
def State.mstepEff (s : State) (t : Team) (i : Instr) (acc ta tb kb ka : Nat) : MEff :=
  let a := t.tile ta
  let b := t.tile tb
  if a.state != .ready || b.state != .ready then .hold
  else if !mstepOk t.seq acc a b kb ka then .fault cTILE 0
  else
    let rs := [t.tileRng a false, t.tileRng b false]
    if !s.canRegister rs then .hold
    else
      let rows := (List.range a.rows).map (fun i => t.rowA a ka i)
      let cols := (List.range b.cols).map (fun j => t.colB b kb j)
      let s := s.updSeq t.id (fun q => q.updAcc acc (fun x => x.mstep a.rows b.cols rows cols))
      .next (s.addMop t i [ta, tb] 0 rs)

/-- MSTEP (R204). -/
def execMstep (acc : BitVec 3) (ta tb : BitVec 8) (kb ka : BitVec 16) (s : State) : Out :=
  s.mat (some acc) (fun q => [q.ta ta, q.tx tb]) (fun s t =>
    s.mstepEff t (.mstep acc ta tb kb ka) acc.toNat (t.seq.ta ta) (t.seq.tx tb) (t.seq.boff kb) (t.seq.kimm ka))

/-! ### MOUT (R206) -/

/-- The float format of a MOUT. -/
def moutFmt : MFmt → FFmt
  | .bf16 => fmtBF16 | .e4m3 => fmtE4M3 | .e5m2 => fmtE5M2 | .f32 => fmtF32

/-- Bytes of an element. -/
def moutSize : MFmt → Nat
  | .bf16 => 2 | .e4m3 => 1 | .e5m2 => 1 | .f32 => 4

/-- The TYPE code of the tile that a MOUT writes (Table 4.10). -/
def moutType : MFmt → Byte
  | .bf16 => 0x0A | .e4m3 => 0 | .e5m2 => 0 | .f32 => 0x08

/-- Does a MOUT of the format write a tile? -/
def moutTiled : MFmt → Bool
  | .bf16 => true | .f32 => true | _ => false

/-- One element of a MOUT (R206). `scale`: the f32 of the scale register, when SCL is set. -/
def moutElem (fmt : MFmt) (sat : Bool) (scale : Option Nat) (x : Half) : Nat :=
  let v := fmtF32.decode x.toNat
  let sc : Sat := if sat then .sat else .none
  match fmt, scale with
  | .f32, none =>
    (match v with
     | .num _ _ _ => x.toNat
     | v => if sat then fmtF32.finish .rne .sat (fmtF32.round .rne v) else x.toNat)
  | f, none => (moutFmt f).finish .rne sc ((moutFmt f).round .rne v)
  | f, some k => (moutFmt f).finish .rne sc ((moutFmt f).round .rne (FV.mul v (fmtF32.decode k)))

/-- The bytes of row i of a MOUT. -/
def Seq.moutRow (q : Seq) (fmt : MFmt) (sat scl : Bool) (acc aux cols i : Nat) : List Byte :=
  let scale := if scl then some ((q.ms.getD aux 0).toNat % 0x100000000) else none
  ((List.range cols).map (fun j => leBytes (moutSize fmt) (moutElem fmt sat scale (Plane.at (q.acc acc).e i j)))).flatten

/-- Store row i of a MOUT to the own window. -/
def State.moutStore (s : State) (tid off : Nat) (fmt : MFmt) (sat scl : Bool) (acc aux cols i : Nat) : State :=
  s.updTeam tid (fun x => { x with spad := x.spad.store (off + i * cols * moutSize fmt) (x.seq.moutRow fmt sat scl acc aux cols i) })

/-- The tile test of MOUT (Table 12.5): may it issue now? -/
def State.moutTile (s : State) (t : Team) (i : Nat) : Bool :=
  match (t.tile i).state with
  | .empty => true
  | .ready => !s.copyNames t.id i && !s.mopNames t.id i
  | _ => false

/-- The range that a MOUT registers (R214). -/
def Team.moutRng (t : Team) (fmt : MFmt) (off rows cols : Nat) : Rng :=
  { core := t.coreNum, space := .spad t.id, lo := off, hi := off + rows * cols * moutSize fmt, write := true }

/-- MOUT at issue (R206, R214, Table 12.5). -/
def State.moutEff (s : State) (t : Team) (i : Instr) (fmt : MFmt) (acc tile off rows cols : Nat) : MEff :=
  let size := rows * cols * moutSize fmt
  if t.spch * 4096 < off + size then .fault cPROTECTION 0
  else if t.seq.isOpen acc then .fault cTILE 0
  else if moutTiled fmt && !s.moutTile t tile then .hold
  else
    let rs := [t.moutRng fmt off rows cols]
    if !s.canRegister rs then .hold
    else
      let s := if moutTiled fmt then
          s.updTile t.id tile (fun _ => { off, rows, cols, elem := moutType fmt, ops := false, state := .filling })
        else s
      .next (s.addMop t i (if moutTiled fmt then [tile] else []) off rs)

/-- MOUT (R206): the offset and the tile are effective values (R201); fp8 names no tile. -/
def execMout (fmt : MFmt) (sat scl : Bool) (acc : BitVec 3) (ta aux : BitVec 8) (off : BitVec 16) (rows cols : BitVec 7)
    (s : State) : Out :=
  s.mat (some acc) (fun q => if moutTiled fmt then [q.ta ta] else []) (fun s t =>
    s.moutEff t (.mout fmt sat scl acc ta aux off rows cols) fmt acc.toNat (t.seq.ta ta) (64 * t.seq.boff off)
      (rows.toNat + 1) (cols.toNat + 1))

/-! ### MAMAX (R207) -/

/-- The magnitude of an element, a NaN counting as +∞. -/
def amaxBits (v : Half) : Nat := min (v.toNat % 0x80000000) 0x7F800000

/-- The largest of `m` and the magnitudes over rows `lo` to `hi` − 1 and `cols` columns of plane E. -/
def Seq.amaxFrom (q : Seq) (acc lo hi cols m : Nat) : Nat :=
  (q.acc acc).e.foldl (fun m (p : Nat × Half) =>
    if lo ≤ p.1 / 128 && p.1 / 128 < hi && p.1 % 128 < cols then max m (amaxBits p.2) else m) m

/-- The largest magnitude over rows × cols elements of plane E. -/
def Seq.amax (q : Seq) (acc rows cols : Nat) : Nat := q.amaxFrom acc 0 rows cols 0

/-- The range that a MAMAX registers (R214), for an address whose access passes its checks. -/
def Team.mamaxRng (t : Team) (s : State) (va : Nat) : Rng :=
  let spad := fun (u off : Nat) => ({ core := t.coreNum, space := .spad u, lo := off, hi := off + 4, write := true } : Rng)
  match windowOf va with
  | .own off => spad t.id off
  | .flock k off => (match s.flockMate t k with | some u => spad u.id off | none => spad t.id off)
  | _ => { core := t.coreNum, space := .va t.ctx, lo := va, hi := va + 4, write := true }

/-- MAMAX at issue: its checks in their order, a CAUSAL page among them (R269). A range in flight holds it, and is no
HURDLE (R214). -/
def State.mamaxEff (s : State) (t : Team) (i : Instr) (acc aux : Nat) : MEff :=
  let va := t.seq.ms.getD aux 0
  if t.seq.isOpen acc then .fault cTILE 0
  else match s.seqAgent t with
  | none => .hold
  | some a =>
    match s.check a.w .vatomic va 4 with
    | .error c => if c == cHURDLE then .hold else .fault c va.toNat
    | .ok _ =>
      let rs := [t.mamaxRng s va.toNat]
      if !s.canRegister rs then .hold else .next (s.addMop t i [] 0 rs)

/-- MAMAX (R207). -/
def execMamax (acc : BitVec 3) (aux : BitVec 8) (rows cols : BitVec 7) (s : State) : Out :=
  s.mat (some acc) (fun _ => []) (fun s t => s.mamaxEff t (.mamax acc aux rows cols) acc.toNat aux.toNat)

/-! ### Sequencer control (R208 to R211) -/

/-- MBIND (R209). -/
def execMbind (lvl : Bool) (sa sx : BitVec 8) (sb sk : BitVec 16) (s : State) : Out :=
  s.matCtl (fun q => if lvl then { q with steps1 := { sa, sx, sb, sk } } else { q with steps0 := { sa, sx, sb, sk } })

/-- MMARK (R211): it waits for every earlier operation, and for the phase at which the sequencer has already arrived. -/
def State.mmarkEff (s : State) (t : Team) (n : Nat) : MEff :=
  let b := t.bar n
  if s.mops.any (fun m => m.team == t.id) || b.seqArrived then .hold
  else
    let s := s.updBar t.id n (fun b => { b with seqArrived := true })
    let s := s.updSeq t.id (fun q => { q with lastBar := n, barPending := true })
    if (match b.pword with | some w => !w.getLsbD 16 | none => false) then .faultAt s cILLEGAL else .next s

/-- MMARK (R211). -/
def execMmark (n : BitVec 4) (s : State) : Out := s.mat none (fun _ => []) (fun s t => s.mmarkEff t n.toNat)

/-- MWAIT (R211). -/
def execMwait (n : BitVec 4) (s : State) : Out :=
  s.mat none (fun _ => []) (fun s t => if (t.bar n.toNat).seqArrived then .hold else .next s)

/-- MLOOP (R209). -/
def execMloop (fromMs : Bool) (k : BitVec 8) (len cnt : BitVec 16) (s : State) : Out :=
  s.mat none (fun _ => []) (fun s t =>
    let q := t.seq
    let count : Half := if fromMs then (q.ms.getD k.toNat 0).extractLsb' 0 32 else cnt.zeroExtend 32
    let far : Word := q.mpc + 8 * len.zeroExtend 64
    if count == 0 then .goto s (far + 8)
    else if q.levels.length == 2 then .fault cLOOPDEPTH 0
    else
      let lvl : MLevel := { count, start := q.mpc + 8, next := far, oa := q.oa, ox := q.ox, ob := q.ob, ok := q.ok }
      .next (s.updSeq t.id (fun q => { q with levels := lvl :: q.levels })))

/-- The offsets of a sequencer with steps added (R209). -/
def Seq.addSteps (q : Seq) (m : MSteps) : Seq :=
  { q with oa := q.oa + m.sa, ox := q.ox + m.sx, ob := q.ob + m.sb, ok := q.ok + m.sk }

/-- MNEXT (R209). -/
def execMnext (s : State) : Out :=
  s.mat none (fun _ => []) (fun s t =>
    let q := t.seq
    match q.levels with
    | [] => .fault cLOOPDEPTH 0
    | l :: ls =>
      if l.next != q.mpc then .fault cLOOPDEPTH 0
      else if l.count - 1 != 0 then
        .goto (s.updSeq t.id (fun q => { (q.addSteps (if ls.isEmpty then q.steps0 else q.steps1)) with levels := { l with count := l.count - 1 } :: ls })) l.start
      else .next (s.updSeq t.id (fun q => { q with levels := ls, oa := l.oa, ox := l.ox, ob := l.ob, ok := l.ok })))

/-- MJMP (R209). -/
def execMjmp (off : BitVec 16) (s : State) : Out :=
  s.mat none (fun _ => []) (fun s t => .goto s (t.seq.mpc + 8 * off.signExtend 64))

/-- Write a register ms k (R208). -/
def Seq.setMs (q : Seq) (k : Nat) (v : Word) : Seq := { q with ms := q.ms.setIfInBounds k v }

/-- MSET (R208). -/
def execMset (k : BitVec 8) (v : BitVec 16) (s : State) : Out := s.matCtl (fun q => q.setMs k.toNat (v.signExtend 64))

/-- MSET.bf: bf16 widened exactly to f32 (R208). -/
def execMsetBf (k : BitVec 8) (v : BitVec 16) (s : State) : Out :=
  s.matCtl (fun q => q.setMs k.toNat (0#32 ++ (v ++ 0#16)))

/-- MSET.ld (R208): its 8 bytes are read as it issues, unless a write to them is in flight, and it is in flight with their range until it
completes (R200, R214). -/
def execMsetLd (k : BitVec 8) (off : BitVec 16) (s : State) : Out :=
  s.mat none (fun _ => []) (fun s t =>
    let lo := 8 * off.toNat
    let rs : List Rng := [{ core := t.coreNum, space := .spad t.id, lo, hi := lo + 8, write := false }]
    if t.spch * 4096 < lo + 8 then .fault cPROTECTION 0
    else if !s.canRegister rs then .hold
    else .next ((s.updSeq t.id (fun q => q.setMs k.toNat (toWord (t.spad.le lo 8)))).addMop t (.msetLd k off) [] 0 rs))

/-- MSTOP (R210). -/
def execMstop (s : State) : Out := s.matCtl (fun q => { q with run := 1 })

/-- MTREL (R213, Table 12.5). -/
def execMtrel (ta : BitVec 8) (s : State) : Out :=
  s.mat none (fun q => [q.ta ta]) (fun s t =>
    let i := t.seq.ta ta
    match (t.tile i).state with
    | .filling => .hold
    | .ready => if s.mopNames t.id i then .hold else .next (s.updTile t.id i (fun x => { x with state := .empty }))
    | _ => .fault cTILE 0)

/-! ### Completion and stopping (R214, R216) -/

/-- Take an operation out of flight and release its ranges. -/
def State.dropMop (s : State) (m : MOp) : State :=
  ({ s with mops := s.mops.filter (fun x => x.id != m.id) }).release (.mop m.id)

/-- Rows of a MOUT or MAMAX; 0 for MSTEP. -/
def MOp.rows (m : MOp) : Nat :=
  match m.instr with
  | .mout _ _ _ _ _ _ _ rows _ => rows.toNat + 1
  | .mamax _ _ rows _ => rows.toNat + 1
  | _ => 0

/-- The running maximum of a MAMAX with its next `n` rows (R207); 0 for another operation. -/
def MOp.maxWith (m : MOp) (q : Seq) (n : Nat) : Nat :=
  match m.instr with
  | .mamax acc _ _ cols => q.amaxFrom acc.toNat m.rowsDone (m.rowsDone + n) (cols.toNat + 1) m.pmax.toNat
  | _ => 0

/-- The next row of a MOUT is written, or of a MAMAX is taken into its maximum (R206, R207). -/
def State.mopRow (s : State) (m : MOp) : State :=
  let s := match m.instr with
    | .mout fmt sat scl acc _ aux _ _ cols => s.moutStore m.team m.off fmt sat scl acc.toNat aux.toNat (cols.toNat + 1) m.rowsDone
    | _ => s
  let pmax := match s.team? m.team with | some t => m.maxWith t.seq 1 | none => 0
  { s with mops := updWhere (fun x => x.id == m.id) (fun x => { x with rowsDone := x.rowsDone + 1, pmax := BitVec.ofNat 32 pmax }) s.mops }

/-- A fault of a MAMAX at its end (R215): every row is done, and the operation stays in flight for the stop record. -/
def State.mamaxFault (s : State) (t : Team) (m : MOp) (code va : Nat) : State :=
  ({ s with mops := updWhere (fun x => x.id == m.id) (fun x => { x with rowsDone := m.rows, faulted := true }) s.mops } : State).seqFault t.id code va

/-- The atomic of a MAMAX whose maximum is formed (R207). -/
def State.mamaxAtomic (s : State) (t : Team) (m : MOp) (aux : Nat) : State :=
  let va := t.seq.ms.getD aux 0
  match s.seqAgent t with
  | none => s
  | some a =>
    match (s.release (.mop m.id)).check a.w .vatomic va 4 with
    | .error c => s.mamaxFault t m c va.toNat
    | .ok tg =>
      if s.blockedFor a.key s.nextId tg.loc 4 || s.viewWait a.w tg then s
      else if s.hostHasLine tg a.w.view then s.askHost a tg
      else
        let r := s.doRmw a s.nextId tg (a.rmw .fmax false .rne (m.maxWith t.seq (m.rows - m.rowsDone)) 0 false)
        if r.2.2 then r.2.1.mamaxFault t m cUNCORRECTABLE va.toNat else r.2.1.dropMop m

/-- Complete an operation of a team: the rows left are performed, a MOUT's tile becomes READY, a MAMAX performs its atomic. -/
def State.mopFinish (s : State) (t : Team) (m : MOp) : State :=
  match m.instr with
  | .mout fmt sat scl acc _ aux _ rows cols =>
    let s := (List.range (rows.toNat + 1 - m.rowsDone)).foldl (fun (s : State) i =>
      s.moutStore t.id m.off fmt sat scl acc.toNat aux.toNat (cols.toNat + 1) (m.rowsDone + i)) s
    (m.tiles.foldl (fun (s : State) i => s.updTile t.id i (fun x => { x with state := .ready })) s).dropMop m
  | .mamax _ aux _ _ => s.mamaxAtomic t m aux.toNat
  | _ => s.dropMop m

/-- An operation has at most one row left. -/
def MOp.atEnd (m : MOp) : Bool := decide (m.rows ≤ m.rowsDone + 1)

/-- A row of a MOUT or MAMAX that is not its last (R206). -/
def State.moveRow (s : State) (id : Nat) : State :=
  match s.mops.find? (fun m => m.id == id) with
  | none => s
  | some m =>
    match s.team? m.team with
    | some t => if s.teamLive t && !m.atEnd && !m.faulted then s.mopRow m else s
    | none => s

/-- MATRIX_OPERATION_COMPLETE (R206, R214): the oldest operation of the team completes, with its last row. -/
def execMatrixOperationComplete (team : Nat) (s : State) : Out :=
  .next (match s.team? team with
    | none => s
    | some t =>
      if !s.teamLive t then s
      else match s.mops.find? (fun m => m.team == team) with
      | none => s
      | some m => if m.atEnd && !m.faulted then (s.mopFinish t m).settleTeam team else s)

/-- A sequencer stops at a halt or a pre-emption (R216): k-steps complete, and a MOUT or MAMAX completes its current row. -/
def State.stopSeq (s : State) (tid : Nat) : State :=
  (s.mops.filter (fun m => m.team == tid)).foldl (fun (s : State) m =>
    match s.team? tid with
    | none => s
    | some t =>
      if m.faulted || m.suspended then s
      else if m.rows == 0 then s.dropMop m
      else if m.atEnd then s.mopFinish t m
      else s.mopRow m) s

end Sys2Proof.Machine
end

