-- ==== Sys2Proof/Machine/Image.lean ====
section
/-! DEFINITION. Images (R55 to R57, R97 to R99, R156, R196, R202, R218): how the state of a group and of a team is laid out in
the context's image region, and how it is checked and read back. -/

namespace Sys2Proof.Machine

open Sys2Proof

/-! ### Regions of memory -/

/-- Fields of a layout: offset, bytes and value. -/
abbrev Fields := List (Nat × Nat × Nat)

/-- Fields moved up by an offset. -/
def Fields.at (fs : Fields) (o : Nat) : Fields := fs.map (fun f => (f.1 + o, f.2))

/-- Every byte of a region zero. -/
def Memory.clear (m : Memory) (a n : Nat) : Memory := m.filter (fun c => !(a ≤ c.1 && c.1 < a + n))

/-- A cleared region with fields written little-endian. -/
def Memory.putFields (m : Memory) (a n : Nat) (fs : Fields) : Memory :=
  fs.foldl (fun (m : Memory) f => if f.2.2 = 0 then m else m.storeLE (a + f.1) f.2.1 f.2.2) (m.clear a n)

/-- Bytes of a region in which no field lies are zero. -/
def Memory.onlyFields (m : Memory) (a n : Nat) (fs : Fields) : Bool :=
  m.all (fun c => !(a ≤ c.1 && c.1 < a + n) || fs.any (fun f => a + f.1 ≤ c.1 && c.1 < a + f.1 + f.2.1))

/-- The bytes of one region as a memory of their own, from offset 0. -/
def Memory.window (m : Memory) (a n : Nat) : Memory :=
  (m.filter (fun c => a ≤ c.1 && c.1 < a + n)).map (fun c => (c.1 - a, c.2))

/-- A region that holds what another memory holds from offset 0. -/
def Memory.paste (m : Memory) (a n : Nat) (x : Memory) : Memory :=
  (x.filter (fun c => c.1 < n)).foldl (fun (m : Memory) c => cellWrite m (a + c.1) c.2) (m.clear a n)

/-! ### Writing a group's image (Tables 4.3 to 4.5) -/

/-- The pending repeat in two bytes (Table 4.4, 0x271). -/
def repCode (r : Option Repeat) : Nat := match r with | some r => 0x80 + r.cnt.toNat + 256 * r.steps.toNat | none => 0

/-- The pending repeat of two bytes. -/
def repOf (n : Nat) : Option Repeat :=
  if n / 128 % 2 = 1 then some { cnt := BitVec.ofNat 6 n, steps := BitVec.ofNat 8 (n / 256) } else none

/-- SPC as an image shows it: an arm that waits in BAR, FORK or for a root effect stands after it (R219, log 29). -/
def Arm.imageSpc (a : Arm) : Word := match a.wait with | .bar _ _ | .fork | .root => a.spc + 4 | _ => a.spc

/-- The four loop levels, the outermost first (Table 4.4, 0x280). -/
def loopFields (a : Arm) : Fields :=
  (((a.loops.reverse ++ a.spare).take 4).mapIdx (fun k l => [(16 * k, 4, l.count.toNat), (16 * k + 4, 4, l.len.toNat), (16 * k + 8, 8, l.endAddr.toNat)])).flatten

/-- Deferred lanes of a mask stack, the outermost first. -/
def stackFields (st : List MaskEntry) : Fields := st.reverse.mapIdx (fun i e => (4 * i, 4, e.lanes.toNat))

/-- Deferred paths of a mask stack. -/
def pathFields (st : List MaskEntry) : Fields :=
  (st.reverse.mapIdx (fun i e => [(16 * i, 8, e.dspc.toNat), (16 * i + 8, 8, e.dlpc.toNat)])).flatten

/-- The bytes of a mask stack and of a bank that a layout reserves for fields, whatever they hold. -/
def slots (n size : Nat) : Fields := (List.range n).map (fun i => (size * i, size, 0))

/-- A scalar bank; s0 is stored as zero. -/
def bankFields (a : Arm) : Fields := a.regs.toList.mapIdx (fun i v => (8 * i, 8, if i = 0 then 0 else v.toNat))

/-- Arm states (Table 4.4, 0x273). -/
def Core.armStates (c : Core) : Nat :=
  (c.armA.wait != .exited).toNat + 2 * (c.split && c.armB.wait != .exited).toNat + 4 * (c.armA.wait == .join).toNat +
    8 * (c.split && c.armB.wait == .join).toNat

/-- The control block (Table 4.4). `b` is arm B, or nothing when not split; `ptr` the address of the extension block. -/
def Core.controlBlock (c : Core) (hdepth ptr : Nat) : Fields :=
  let a := c.armA
  let b := if c.split then c.armB else Arm.zero
  bankFields a ++ (c.preds.toList.mapIdx (fun i p => (0x200 + 4 * i, 4, if i = 0 then 0xFFFFFFFF else p.toNat))) ++
  [(0x240, 8, a.imageSpc.toNat), (0x248, 8, a.lpc.toNat), (0x250, 8, if c.split then b.imageSpc.toNat else 0), (0x258, 8, b.lpc.toNat),
   (0x260, 4, c.live.toNat), (0x264, 4, a.mask.toNat), (0x268, 4, b.mask.toNat), (0x26C, 1, c.split.toNat),
   (0x26D, 1, a.stack.length), (0x26E, 1, b.stack.length), (0x26F, 1, a.ldepth), (0x270, 1, b.ldepth), (0x271, 2, repCode a.rep),
   (0x273, 1, c.armStates)] ++ (loopFields a).at 0x280 ++
  [(0x2C0, 4, a.sig.toNat), (0x2C4, 4, (c.status false).toNat), (0x2C8, 1, hdepth), (0x2D0, 8, a.full.toNat), (0x2D8, 2, c.pfull.toNat)] ++
  (stackFields a.stack).at 0x300 ++ (stackFields b.stack).at 0x340 ++ [(0x380, 8, ptr)]

/-- The extension block (Table 4.5). -/
def Core.extBlock (c : Core) : Fields :=
  let a := c.armA
  let b := c.armB
  (pathFields a.stack).at 0x300 ++
  (if c.split then
    bankFields b ++ (loopFields b).at 0x200 ++
    [(0x240, 8, b.full.toNat), (0x248, 2, repCode b.rep), (0x24C, 4, b.sig.toNat), (0x250, 4, (c.status true).toNat)] ++
    (pathFields b.stack).at 0x400
   else [])

/-- Vector lines and their full bits (Table 4.3). -/
def Core.vectorFields (c : Core) : Fields :=
  (c.vregs.toList.mapIdx (fun n line => line.toList.mapIdx (fun l v => (0x400 + 128 * n + 4 * l, 4, v.toNat)))).flatten ++
  c.vfull.toList.mapIdx (fun n m => (0xA400 + 4 * n, 4, m.toNat))

/-- A handler frame (Table 6.2). -/
def Frame.fields (f : Frame) : Fields :=
  [(0, 2, f.id.toNat), (2, 1, f.k.toNat + 2 * f.inh.toNat), (3, 1, f.state), (4, 2, f.gen.toNat), (6, 1, f.masker),
   (7, 1, f.slot.getD 0xFF), (8, 8, f.pc.toNat), (16, 1, f.ldep)]

/-- A saved lane-queue entry; `tag`: with its arm (Tables 6.4, 10.4). -/
def QEntry.fields48 (e : QEntry) (tag : Bool) : Fields :=
  [(0, 12, e.word.toNat), (12, 4, e.active.toNat), (16, 8, e.bcA.toNat), (24, 8, e.bcB.toNat), (32, 8, e.bcC.toNat),
   (40, 8, if tag then e.armB.toNat else 0)]

/-- A frame's record (Table 6.4). -/
def Frame.recordFields (f : Frame) : Fields :=
  f.env.toList.mapIdx (fun i v => (8 * i, 8, v.toNat)) ++ f.save.toList.mapIdx (fun i v => (0x40 + 8 * i, 8, v.toNat)) ++
  [(0xA0, 2, f.saveFe.toNat), (0xA2, 1, f.prevBase), (0xA3, 1, f.hdep), (0xA4, 1, f.rkind), (0xA5, 1, f.dest), (0xA6, 1, f.kdest),
   (0xA7, 1, f.queue.length), (0xA8, 4, f.mask.toNat), (0xAC, 2, repCode f.prep), (0xAE, 1, f.lqrem), (0xAF, 1, f.repj),
   (0xB0, 8, f.cspc.toNat), (0xB8, 8, f.clpc.toNat)] ++
  (f.queue.mapIdx (fun q e => (e.fields48 false).at (0x100 + 48 * q))).flatten

/-- A list of frames, the bottom one first, at steps of `size`. -/
def layFrames (fs : List Frame) (o size : Nat) (lay : Frame → Fields) : Fields :=
  (fs.mapIdx (fun i f => (lay f).at (o + size * i))).flatten

/-- A group image (Table 4.3): `frames` top first, and what the stack holds above them, the lowest first. -/
def imageFields (c : Core) (frames stale : List Frame) (ptr : Nat) : Fields :=
  c.controlBlock frames.length ptr ++ c.vectorFields ++ c.extBlock.at 0xB000 ++ layFrames (frames.reverse ++ stale) 0xB800 32 Frame.fields

/-- Half of a multi-shot slot (Table 6.11). `below`: the frames at and below D, top first (log 27). -/
def Snapshot.fields (sn : Snapshot) (below : List Frame) (ptr : Nat) : Fields :=
  imageFields sn.core (sn.frames ++ below) [] ptr ++
  [(0xC000, 1, sn.lbase), (0xC001, 1, sn.frames.length), (0xC002, 1, below.length + 1), (0xC003, 1, 1)] ++
  layFrames sn.frames.reverse 0xC800 32 Frame.fields ++ layFrames sn.frames.reverse 0xE000 1024 Frame.recordFields

/-- Depth of the frame that holds a slot. -/
def Group.slotDepth (g : Group) (k : Nat) : Nat :=
  match (List.range g.frames.length).find? (fun i => match g.frames[i]? with | some f => f.k && f.slot == some k | none => false) with
  | some i => g.frames.length - i
  | none => 0

/-- A multi-shot slot (Table 6.3): continuation snapshot and handler save. -/
def Group.slotFields (g : Group) (k ptr : Nat) : Fields :=
  let y := g.slot k
  let below := g.frames.drop (g.frames.length - g.slotDepth k)
  let half := fun (o : Option Snapshot) (at_ : Nat) => match o with | some sn => Fields.at (sn.fields below ptr) at_ | none => []
  half y.cont 0 ++ half y.save 0x20000

/-- The effect area (Table 6.3). -/
def Group.effectFields (g : Group) (ptr : Nat) : Fields :=
  [(0, 2, g.gen.toNat), (2, 1, g.inherited.length), (3, 1, g.slot0.used.toNat + 2 * g.slot1.used.toNat), (4, 1, g.lbase)] ++
  layFrames (g.frames.reverse ++ g.stale) 0x1000 1024 Frame.recordFields ++ layFrames g.inherited 0x11000 1024 Frame.recordFields ++
  layFrames g.inherited 0x21000 32 Frame.fields ++ (g.slotFields 0 ptr).at 0x24000 ++ (g.slotFields 1 ptr).at 0x64000

/-- Bytes of a group area (Table 10.3). -/
def groupAreaBytes : Nat := 0xB0000

/-- Physical address of a group's extension block. -/
def Context.extPtr (c : Context) (gid : Nat) : Nat := c.groupBase + groupAreaBytes * gid + 0xB000

/-- Write a group's image and effect area (R55, R98): what the group has not used of writes from outside is overwritten. -/
def State.saveGroup (s : State) (c : Context) (g : Group) : State :=
  let ptr := c.extPtr g.gid
  let fs := imageFields g.core g.frames g.stale ptr ++ (g.effectFields ptr).at 0xC000
  let a := c.groupArea g.gid
  { s with mem := s.mem.putFields a groupAreaBytes fs,
           imageWrites := s.imageWrites.filter (fun x => !(a ≤ x.2.1 && x.2.1 < a + groupAreaBytes)) }

/-! ### Writing a team's save area (Tables 10.4, 11.7, 12.3, 12.4, 13.3, 13.4) -/

/-- A tile entry (Table 13.3). -/
def Tile.code (x : Tile) : Nat := match x.state with | .empty => 0 | .filling => 1 | .ready => 2 | .draining => 3

/-- A tile entry (Table 13.3). -/
def Tile.fields (x : Tile) : Fields :=
  [(0, 4, x.off), (4, 2, x.rows), (6, 2, x.cols), (8, 1, x.elem.toNat), (9, 1, x.ops.toNat), (10, 1, x.code)]

/-- Groups with an arm that waits for the open phase of barrier `n`. -/
def Team.waiters (t : Team) (n : Nat) (b : Bool) : Nat :=
  (t.groups.foldl (fun (m : Half) g => match (g.core.arm b).wait with | .bar k _ => if k == n then m ||| grpBit g.grpidx else m | _ => m) 0).toNat

/-- A barrier record (Table 13.4). -/
def Team.barFields (t : Team) (n : Nat) : Fields :=
  let b := t.bar n
  [(0, 8, (b.pword.getD 0).toNat), (8, 4, b.arrived.toNat), (12, 4, b.lastPh.toNat), (16, 4, t.waiters n false), (20, 4, t.waiters n true),
   (24, 1, b.seqArrived.toNat + 2 * b.parity.toNat), (28, 4, b.pend.toNat)]

/-- Offsets in the layout of OFFS (Table 12.4). -/
def offsCode (oa ox : Byte) (ob ok : BitVec 16) : Nat := oa.toNat + 256 * ox.toNat + 65536 * ob.toNat + 4294967296 * ok.toNat

/-- Steps of level L. -/
def Seq.stepsOf (q : Seq) (l : Nat) : MSteps := if l = 0 then q.steps0 else q.steps1

/-- The MOUT or MAMAX of a team that is suspended. -/
def State.partOf (s : State) (t : Nat) : Option MOp := s.mops.find? (fun m => m.team == t && m.suspended)

/-- Sequencer state (Table 12.4). -/
def State.seqFields (s : State) (t : Team) : Fields :=
  let q := t.seq
  let part := s.partOf t.id
  let lv := q.levels.reverse
  [(0, 8, (match part with | some m => m.mpc | none => q.mpc).toNat), (8, 1, q.run), (9, 1, q.opened.toNat), (10, 1, q.levels.length),
   (11, 1, q.lastBar + 16 * q.barPending.toNat), (12, 4, match part with | some m => m.rowsDone + 128 | none => 0),
   (16, 4, match part with | some m => m.pmax.toNat | none => 0)] ++
  q.ms.toList.mapIdx (fun k v => (0x20 + 8 * k, 8, v.toNat)) ++ [(0x60, 8, offsCode q.oa q.ox q.ob q.ok)] ++
  ((List.range 2).map (fun l =>
    let st := q.stepsOf l
    (match lv[l]? with
     | some x => [(0x80 + 48 * l, 4, x.count.toNat), (0x88 + 48 * l, 8, x.start.toNat), (0x90 + 48 * l, 8, x.next.toNat),
                  (0x98 + 48 * l, 8, offsCode x.oa x.ox x.ob x.ok)]
     | none => []) ++ [(0xA0 + 48 * l, 8, offsCode st.sa st.sx st.sb st.sk)])).flatten

/-- A plane as a memory (Table 12.3). -/
def planeFields (p : Plane) : Fields := p.map (fun e => (4 * e.1, 4, e.2.toNat))

/-- A range of a progress record: start, end and flags (Table 11.7). The end is one past the highest byte, and both are offsets for a range
of a scratchpad or an operand store: DESIGN CHOICE (log 98). -/
def hurdleFields (h : Hurdle) : Fields :=
  let fl := h.write.toNat + (match h.space with | .ops _ => 2 | .spad _ => 4 | .va _ => 0)
  [(0, 8, h.lo), (8, 7, h.hi), (15, 1, fl)]

/-- A register line of a REGFILL is partly written: some of its four sectors and not all, those that the prefix holds or that were written
ahead of it (R187, R196). -/
def CopyRec.partLine (c : CopyRec) : Bool :=
  let done := fun (o : Nat) => decide (o < c.progress) || c.ahead.contains o
  (List.range (c.pkt.length.toNat / 128)).any (fun k =>
    let n := ((List.range 4).filter (fun i => done (128 * k + 32 * i))).length
    0 < n && n < 4)

/-- The progress record of a suspended copy, whose progress is the prefix that was performed when it was suspended (Table 11.7). Of an MCAST
with more ranges than three, the first three are recorded: DESIGN CHOICE (log 98). -/
def State.copyFields (s : State) (c : CopyRec) : Fields :=
  let rs := (s.hurdles.filter (fun h => h.owner == .copy c.id)).take 3
  [(0, 64, (encPacket c.op c.pkt).toNat), (64, 8, c.progress),
   (72, 1, c.grp + 32 * c.armB.toNat + 64 * (c.op == .regfill && c.partLine).toNat), (73, 1, rs.length)] ++
  (rs.mapIdx (fun i h => (hurdleFields h).at (80 + 16 * i))).flatten

/-- Write the tile entries and barrier records of a team (R218). -/
def State.saveTiles (s : State) (c : Context) (t : Team) : State :=
  let a := c.teamArea t.saveArea
  let m := s.mem.putFields (a + 0x350000) 4096 ((t.tiles.mapIdx (fun i x => x.fields.at (16 * i))).flatten)
  { s with mem := m.putFields (a + 0x351000) 512 (((List.range 16).map (fun n => (t.barFields n).at (32 * n))).flatten) }

/-- Write the sequencer state and the accumulators of a team (R202). -/
def State.saveSeq (s : State) (c : Context) (t : Team) : State :=
  let a := c.teamArea t.saveArea
  let m := s.mem.putFields (a + 0xC000) 0x4000 (s.seqFields t)
  { s with mem := (List.range t.nacc).foldl (fun (m : Memory) n =>
      (m.putFields (a + 0x290000 + 0x20000 * n) 0x10000 (planeFields (t.seq.acc n).e)).putFields (a + 0x2A0000 + 0x20000 * n) 0x10000
        (planeFields (t.seq.acc n).o)) m }

/-- Write the scratchpad chunks of a team, and its operand store when it has been written (Table 10.10, R168). -/
def State.saveStores (s : State) (c : Context) (t : Team) : State :=
  let a := c.teamArea t.saveArea
  let m := s.mem.paste (a + 0x10000) (t.spch * 4096) t.spad
  { s with mem := if t.opsUsed then m.paste (a + 0x210000) 0x80000 t.ops else m }

/-- Write the lane queues, copies, scratchpad and operand store of a team (Table 10.10). -/
def State.saveTeam (s : State) (c : Context) (t : Team) : State :=
  let a := c.teamArea t.saveArea
  let qs := (t.groups.map (fun g =>
    Fields.at ((0, 4, g.queue.length) :: (g.queue.mapIdx (fun q e => (e.fields48 true).at (0x40 + 48 * q))).flatten) (0x400 * g.grpidx))).flatten
  let cs := ((s.copies.filter (fun x => x.team == t.id)).mapIdx (fun i x => (s.copyFields x).at (256 * i))).flatten
  { s with mem := (s.mem.putFields a 0x8000 qs).putFields (a + 0x8000) 0x4000 cs }.saveStores c t

/-! ### Reading back -/

/-- A field of a region. -/
def rd (m : Memory) (a o n : Nat) : Nat := m.le (a + o) n

/-- A 64-bit field. -/
def rd8 (m : Memory) (a o : Nat) : Word := toWord (rd m a o 8)

/-- A 32-bit field. -/
def rd4 (m : Memory) (a o : Nat) : Half := BitVec.ofNat 32 (rd m a o 4)

/-- Loop levels read back, innermost first. -/
def readLoops (m : Memory) (a n : Nat) : List Loop :=
  ((List.range n).map (fun k => ({ count := rd4 m a (16 * k), len := rd4 m a (16 * k + 4), endAddr := rd8 m a (16 * k + 8) } : Loop))).reverse

/-- A mask stack read back, top first: lanes from `a`, paths from `p`. -/
def readStack (m : Memory) (a p n : Nat) : List MaskEntry :=
  ((List.range n).map (fun i => ({ lanes := rd4 m a (4 * i), dspc := rd8 m p (16 * i), dlpc := rd8 m p (16 * i + 8) } : MaskEntry))).reverse

/-- SPC of an arm from its image, against what the arm waits for: its BAR, FORK or PERFORM stands before the word that the image names
(R219). -/
def spcOf (w : Wait) (v : Word) : Word := match w with | .bar _ _ | .fork | .root => v - 4 | _ => v

/-- What the fields of a control block and an extension block may cover, by depths (R56): every byte outside them is reserved. -/
def imageSlots : Fields :=
  slots 64 8 ++ (slots 16 4).at 0x200 ++ [(0x240, 52, 0), (0x280, 64, 0), (0x2C0, 9, 0), (0x2D0, 10, 0), (0x300, 128, 0), (0x380, 8, 0),
    (0x400, 0xA500, 0), (0xB000, 0x24A, 0), (0xB24C, 8, 0), (0xB300, 0x200, 0), (0xB800, 2048, 0)]

/-- The restrictions of R56 on an image at `a`: split state, depths, reserved bits and bytes. An image that is not split and has arm B
fields that are not zero fails too, though R56 does not list it: DESIGN CHOICE (log 89). -/
def imageOk (m : Memory) (a : Nat) : Bool :=
  let split := rd m a 0x26C 1
  m.onlyFields a 0xC000 imageSlots && split ≤ 1 && rd m a 0x26D 1 ≤ 16 && rd m a 0x26E 1 ≤ 16 && rd m a 0x26F 1 ≤ 4 &&
  rd m a 0x270 1 ≤ 4 && rd m a 0x271 1 / 64 % 2 == 0 && rd m a 0x273 1 < 16 && rd m a 0x2C8 1 ≤ 64 && rd m a 0xB248 1 / 64 % 2 == 0 &&
  (split == 1 ||
    (rd m a 0x250 16 == 0 && rd m a 0x268 4 == 0 && rd m a 0x26E 1 == 0 && rd m a 0x270 1 == 0 && rd m a 0x340 64 == 0 &&
     rd m a 0xB000 0x254 == 0 && rd m a 0xB400 0x100 == 0))

/-- An arm read back; what no image holds is kept. -/
def readArm (m : Memory) (old : Arm) (bank loops full rep sig status spc lpc mask stack paths depth ldepth : Nat) (wait : Wait) : Arm :=
  { old with wait, regs := Vector.ofFn (fun (i : Fin 64) => rd8 m bank (8 * i.val)), full := rd8 m full 0, spc := spcOf wait (rd8 m spc 0),
             lpc := rd8 m lpc 0, mask := rd4 m mask 0, stack := readStack m stack paths (rd m depth 0 1),
             loops := readLoops m loops (rd m ldepth 0 1),
             spare := (readLoops m loops 4).reverse.drop (rd m ldepth 0 1), sig := rd4 m sig 0, code := BitVec.ofNat 8 (rd m status 1 1),
             rep := repOf (rd m rep 0 2), yielded := none, age := 0 }

/-- What an arm waits for: from the arm-state bits at JOIN (Table 10.11), and from WAITA or WAITB in the barrier `bar` (R219). A BAR's
destination is in no saved field: it is the one that the arm had when it stopped, and s0 if it waited in no BAR then: DESIGN CHOICE
(log 94). -/
def readWait (old : Arm) (live join : Bool) (bar : Option Nat) : Wait :=
  if !live then .exited else if join then .join
  else match bar, old.wait with
  | some n, .bar _ d => .bar n d
  | some n, _ => .bar n 0
  | none, .bar _ _ | none, .join | none, .exited => .none
  | none, w => w

/-- A group image read back (Tables 4.3 to 4.5). `bar`: the barrier that each arm waits in (Table 13.4). -/
def readCore (m : Memory) (a : Nat) (old : Core) (bar : Bool → Option Nat) : Core :=
  let st := rd m a 0x273 1
  let split := rd m a 0x26C 1 == 1
  let bit := fun (k : Nat) => st / 2 ^ k % 2 == 1
  let armA := readArm m old.armA a (a + 0x280) (a + 0x2D0) (a + 0x271) (a + 0x2C0) (a + 0x2C4) (a + 0x240) (a + 0x248) (a + 0x264)
    (a + 0x300) (a + 0xB300) (a + 0x26D) (a + 0x26F) (readWait old.armA (bit 0) (bit 2) (bar false))
  let armB := readArm m old.armB (a + 0xB000) (a + 0xB200) (a + 0xB240) (a + 0xB248) (a + 0xB24C) (a + 0xB250) (a + 0x250) (a + 0x258)
    (a + 0x268) (a + 0x340) (a + 0xB400) (a + 0x26E) (a + 0x270) (readWait old.armB (bit 1) (bit 3) (bar true))
  { armA, armB := if split then armB else Arm.zero, split, live := rd4 m a 0x260,
    vregs := Vector.ofFn (fun (n : Fin 320) => Vector.ofFn (fun (l : Fin 32) => rd4 m a (0x400 + 128 * n.val + 4 * l.val))),
    vfull := Vector.ofFn (fun (n : Fin 320) => rd4 m a (0xA400 + 4 * n.val)),
    preds := Vector.ofFn (fun (i : Fin 16) => if i.val = 0 then 0 else rd4 m a (0x200 + 4 * i.val)),
    pfull := BitVec.ofNat 16 (rd m a 0x2D8 2) }

/-- A saved queue entry read back: kept when it is what the group had there, else with its arm's mask as its scope, in the place in program
order of the entry that stood there, or at `po` where none did. One whose lane word does
not decode fails the restore: DESIGN CHOICE (log 101). -/
def readEntry (m : Memory) (a vregs : Nat) (old : Option QEntry) (tag : Bool) (scope : Half) (po : Nat) : Option QEntry :=
  let word : BitVec 96 := BitVec.ofNat 96 (rd m a 0 12)
  let active := rd4 m a 12
  let armB := tag && rd m a 40 8 == 1
  let fresh := match decodeLane vregs word with
    | .ok i => some ({ instr := i, word, active, scope, bcA := rd8 m a 16, bcB := rd8 m a 24, bcC := rd8 m a 32, armB, po := (old.map (fun e => e.po)).getD po, both := false,
                       marks := active != 0 && (match laneOf i with | some (o, _) => predDest o | none => false), sdDrop := false, saved := none } : QEntry)
    | .error _ => none
  if (tag && 1 < rd m a 40 8) || (!tag && rd m a 40 8 != 0) then none
  else match old with
  | some e =>
    if e.word == word && e.armB == armB then some { e with active, bcA := rd8 m a 16, bcB := rd8 m a 24, bcC := rd8 m a 32 } else fresh
  | none => fresh

/-- A list of saved entries read back; one where none stood before comes at a place in program order from `po` on. -/
def readQueue (m : Memory) (a n vregs : Nat) (old : List QEntry) (tag : Bool) (scope : Half) (po : Nat) : Option (List QEntry) :=
  if 16 < n then none else (List.range n).mapM (fun q => readEntry m (a + 48 * q) vregs old[q]? tag scope (po + q))

/-- The restrictions on a handler frame (Table 6.2, R98). -/
def frameOk (m : Memory) (fa : Nat) : Bool :=
  let sl := rd m fa 7 1
  rd m fa 2 1 ≤ 3 && rd m fa 3 1 ≤ 2 && (sl == 0 || sl == 1 || sl == 0xFF) && rd m fa 16 1 ≤ 4 && rd m fa 17 15 == 0

/-- A frame and its record read back, with their checks (R98). What no field holds is kept from the frame that stood there (log 86). Bits 15
to 12 of SAVEFE that are not zero, and an RKIND above 4, fail the restore too: DESIGN CHOICE (log 101). -/
def readFrame (m : Memory) (fa ra vregs : Nat) (old : Frame) : Option Frame :=
  let fl := rd m fa 2 1
  let st := rd m fa 3 1
  let sl := rd m fa 7 1
  let qn := rd m ra 0xA7 1
  if !frameOk m fa || 15 < rd m ra 0xA1 1 || rd m ra 0xAC 1 / 64 % 2 != 0 ||
      4 < rd m ra 0xA2 1 || 64 < rd m ra 0xA3 1 || 4 < rd m ra 0xA4 1 || 64 < rd m ra 0xAE 1 || 63 < rd m ra 0xAF 1 || rd m ra 0xC0 64 != 0 then none
  else match readQueue m (ra + 0x100) qn vregs old.queue false (rd4 m ra 0xA8) 0 with
  | none => none
  | some queue =>
    some { join := old.join, after := old.after, id := BitVec.ofNat 16 (rd m fa 0 2), k := fl % 2 == 1, inh := fl / 2 % 2 == 1, state := st, gen := BitVec.ofNat 16 (rd m fa 4 2),
           masker := rd m fa 6 1, slot := if sl == 0xFF then none else some sl, pc := rd8 m fa 8, ldep := rd m fa 16 1,
           env := Vector.ofFn (fun (i : Fin 8) => rd8 m ra (8 * i.val)), save := Vector.ofFn (fun (i : Fin 12) => rd8 m ra (0x40 + 8 * i.val)),
           saveFe := BitVec.ofNat 12 (rd m ra 0xA0 2), prevBase := rd m ra 0xA2 1, hdep := rd m ra 0xA3 1, rkind := rd m ra 0xA4 1,
           dest := rd m ra 0xA5 1, kdest := rd m ra 0xA6 1, mask := rd4 m ra 0xA8, prep := repOf (rd m ra 0xAC 2), lqrem := rd m ra 0xAE 1,
           repj := rd m ra 0xAF 1, cspc := rd8 m ra 0xB0, clpc := rd8 m ra 0xB8, queue }

/-- Frames `lo` to `hi` − 1 of a stack of frames and of a stack of records, the lowest first; `old` gives what is kept. -/
def readFrames (m : Memory) (fa ra lo hi vregs : Nat) (old : List Frame) : Option (List Frame) :=
  (List.range (hi - lo)).mapM (fun i =>
    readFrame m (fa + 32 * (lo + i)) (ra + 1024 * (lo + i)) vregs (old.getD (lo + i) Frame.zero))

/-- One past the last of the steps of `size` from `a` on, `n` of them, that hold a byte. -/
def Memory.lastStep (m : Memory) (a size n : Nat) : Nat :=
  m.foldl (fun k c => if a ≤ c.1 && c.1 < a + size * n then max k ((c.1 - a) / size + 1) else k) 0

/-- No byte of a region is other than zero. -/
def Memory.isClear (m : Memory) (a n : Nat) : Bool := m.all (fun c => !(a ≤ c.1 && c.1 < a + n))

/-- An offset in a frame's record is that of a reserved byte, those of its 16 places for queue entries included (Table 6.4). -/
def reservedInRecord (o : Nat) : Bool := (0xC0 ≤ o && o < 0x100) || (0x100 ≤ o && 40 ≤ (o - 0x100) % 48)

/-- The reserved bytes of the 64 records from `a` on are zero, whether or not a frame or an entry stands there (Table 6.4, R98). -/
def Memory.recordsClear (m : Memory) (a : Nat) : Bool :=
  m.all (fun c => !(a ≤ c.1 && c.1 < a + 0x10000 && reservedInRecord ((c.1 - a) % 1024)))

/-- The reserved bytes of a half of a multi-shot slot are zero, those of its frames and records included (Tables 6.2, 6.4, 6.11). -/
def halfClear (m : Memory) (a : Nat) : Bool :=
  let w := m.window a 0x20000
  w.onlyFields 0 0xC000 imageSlots && w.isClear 0xC004 60 && w.isClear 0xC040 1984 && w.isClear 0xD000 4096 && w.isClear 0x1E000 8192 &&
  w.recordsClear 0xE000 &&
  w.all (fun c => !(0xB800 ≤ c.1 && c.1 < 0xC000 && 17 ≤ (c.1 - 0xB800) % 32) && !(0xC800 ≤ c.1 && c.1 < 0xD000 && 17 ≤ (c.1 - 0xC800) % 32))

/-- The image part of a group that holds nothing. -/
def Core.zero : Core :=
  { armA := Arm.zero, armB := Arm.zero, split := false, live := 0, vregs := Vector.replicate 320 (Vector.replicate 32 0),
    vfull := Vector.replicate 320 0, preds := Vector.replicate 16 0, pfull := 0 }

/-- A multi-shot half read back: none when a check fails. One with VALID = 0 holds nothing (R98). -/
def readHalf (m : Memory) (a vregs : Nat) (old : Option Snapshot) : Option (Option Snapshot) :=
  let valid := rd m a 0xC003 1
  if !halfClear m a then none
  else if valid == 0 then some none
  else
    let sn : Snapshot := old.getD { core := Core.zero, lbase := 0, frames := [] }
    let nfr := rd m a 0xC001 1
    let framesOk := (List.range 64).all (fun i => frameOk m (a + 0xB800 + 32 * i) && frameOk m (a + 0xC800 + 32 * i))
    if valid != 1 || 4 < rd m a 0xC000 1 || 63 < nfr || !imageOk m a || !framesOk then none
    else match readFrames m (a + 0xC800) (a + 0xE000) 0 nfr vregs sn.frames.reverse with
    | none => none
    | some fs => some (some { core := readCore m a sn.core (fun _ => none), lbase := rd m a 0xC000 1, frames := fs.reverse })

/-- A slot read back. -/
def readSlot (m : Memory) (a vregs : Nat) (used : Bool) (old : Slot) : Option Slot :=
  match readHalf m a vregs old.cont, readHalf m (a + 0x20000) vregs old.save with
  | some c, some v => some { used, cont := c, save := v }
  | _, _ => none

/-- A group read back from its image and effect area, with the checks of R56 and R98; none: the restore fails. `bar`: the barrier that
each arm waits in. -/
def readGroup (m : Memory) (a vregs : Nat) (g : Group) (bar : Bool → Option Nat) : Option Group :=
  let e := a + 0xC000
  let slots := rd m e 3 1
  let icount := rd m e 2 1
  let depth := rd m a 0x2C8 1
  let top := max depth (max (m.lastStep (a + 0xB800) 32 64) (m.lastStep (e + 0x1000) 1024 64))
  if !imageOk m a || 64 < icount || 3 < slots || 4 < rd m e 4 1 || rd m e 5 59 != 0 || !m.isClear (e + 0x40) 4032 ||
      !m.isClear (e + 0x21800) 10240 || !m.recordsClear (e + 0x1000) || !m.recordsClear (e + 0x11000) || !(List.range 64).all (fun i => frameOk m (e + 0x21000 + 32 * i)) then none
  else match readFrames m (a + 0xB800) (e + 0x1000) 0 top vregs (g.frames.reverse ++ g.stale),
      readFrames m (e + 0x21000) (e + 0x11000) 0 icount vregs g.inherited,
      readSlot m (e + 0x24000) vregs (slots % 2 == 1) g.slot0, readSlot m (e + 0x64000) vregs (slots / 2 == 1) g.slot1 with
  | some fs, some inh, some s0, some s1 =>
    some { g with core := readCore m a g.core bar, frames := (fs.take depth).reverse, stale := fs.drop depth, inherited := inh, gen := BitVec.ofNat 16 (rd m e 0 2),
                  lbase := rd m e 4 1, slot0 := s0, slot1 := s1 }
  | _, _, _, _ => none

/-- A tile entry read back (R218); `i < ntiles`. -/
def readTile (m : Memory) (a : Nat) (inTeam : Bool) : Option Tile :=
  let ty := rd m a 8 1
  let st := rd m a 10 1
  if rd m a 11 5 != 0 || 1 < rd m a 9 1 || 3 < st || !(ty == 0 || ty == 0x0A || ty == 0x08) then none
  else if !inTeam && rd m a 0 16 != 0 then none
  else some { off := rd m a 0 4, rows := rd m a 4 2, cols := rd m a 6 2, elem := BitVec.ofNat 8 ty, ops := rd m a 9 1 == 1,
              state := match st with | 0 => .empty | 1 => .filling | 2 => .ready | _ => .draining }

/-- A barrier record read back (R218). `groups`: a mask of the team's groups. Which arm a bit of PEND stands for, and the participant word of
that arm's BAR, are in no field of Table 13.4, and are kept as they were: DESIGN CHOICE (log 94). -/
def readBar (m : Memory) (a : Nat) (groups : Half) (old : Barrier) : Option Barrier :=
  let sq := rd m a 24 1
  let out := fun (o : Nat) => rd4 m a o &&& ~~~ groups != 0
  if rd m a 25 3 != 0 || 3 < sq || out 8 || out 12 || out 16 || out 20 || out 28 then none
  else
    let w := rd8 m a 0
    some { old with pword := if w == 0 then none else some w, arrived := rd4 m a 8, lastPh := rd4 m a 12, seqArrived := sq % 2 == 1,
                    parity := sq / 2 == 1, pend := rd4 m a 28 }

/-- The barrier that an arm of a group waits in, from the barrier records of its team (R219, Table 13.4). -/
def readBarWait (m : Memory) (a g : Nat) (armB : Bool) : Option Nat :=
  (List.range 16).find? (fun n => (rd4 m (a + 0x351000 + 32 * n) (if armB then 20 else 16)).getLsbD g)

/-- An arm whose WAITA or WAITB bit names a phase that is over, by LASTPH, goes on at once; any other waits again for the open phase
(R219), and so does one whose group has not arrived at a phase since, by PEND. -/
def Group.againWaits (g : Group) (t : Team) : Group :=
  let go := fun (g : Group) (b : Bool) =>
    match (g.core.arm b).wait with
    | .bar n _ =>
      let x := t.bar n
      if x.lastPh.getLsbD g.grpidx == x.parity || x.pend.getLsbD g.grpidx then g else g.wakeBar n b
    | _ => g
  go (go g false) true

/-- An arm that waits in BAR and has a BARRIER_ABANDONED due, from a kill while its team was stored, receives it now (Table 5.7). -/
def Group.againAbandoned (g : Group) : Group :=
  let waits := fun (b : Bool) => match (g.core.arm b).wait with | .bar _ _ => true | _ => false
  let g := if g.abandoned && waits false then ({ g with abandoned := false } : Group).abandonArm false else g
  if g.abandonedB && waits true then ({ g with abandonedB := false } : Group).abandonArm true else g

/-- Tiles and barriers of a team read back. -/
def readTiles (m : Memory) (a : Nat) (t : Team) : Option Team :=
  let groups := maskOf (t.groups.map (fun g => g.grpidx))
  match (List.range 256).mapM (fun i => readTile m (a + 0x350000 + 16 * i) (i < t.ntiles)),
      (List.range 16).mapM (fun n => readBar m (a + 0x351000 + 32 * n) groups (t.bar n)) with
  | some ts, some bs => some { t with tiles := ts.take t.ntiles, bars := bs }
  | _, _ => none

/-- Offsets of an OFFS layout. -/
def readSteps (n : Nat) : MSteps :=
  { sa := BitVec.ofNat 8 n, sx := BitVec.ofNat 8 (n / 256), sb := BitVec.ofNat 16 (n / 65536), sk := BitVec.ofNat 16 (n / 4294967296) }

/-- A plane read back. -/
def readPlane (m : Memory) (a : Nat) : Plane :=
  (List.range 16384).filterMap (fun k => let v := rd4 m a (4 * k); if v = 0 then none else some (k, v))

/-- A suspended MOUT or MAMAX read back from PART, PMAX and MPC (Table 12.4); none: none is suspended. -/
def readPart (m : Memory) (area : Nat) (op : MOp) : Option MOp :=
  let a := area + 0xC000
  let pt := rd m a 12 4
  if pt / 128 % 2 == 1 then some { op with rowsDone := pt % 128, pmax := rd4 m a 16, mpc := rd8 m a 0 } else none

/-- The sequencer of a team read back, with the checks of R202. `part`: there is a MOUT or MAMAX for PART[7] to stand for; it goes on, MPC is
its own word, and the next word follows it. -/
def readSeq (m : Memory) (area nacc : Nat) (part : Bool) (q : Seq) : Option Seq :=
  let a := area + 0xC000
  let opened : BitVec 8 := BitVec.ofNat 8 (rd m a 9 1)
  let ldep := rd m a 10 1
  let bars := rd m a 11 1
  let pt := rd m a 12 4
  let lvl := fun (l : Nat) => 0x80 + 48 * l
  let rsv := rd m a 0x14 12 != 0 || rd m a 0x66 26 != 0 || rd m a 0xE0 0x3F20 != 0 || rd m a (lvl 0 + 4) 4 != 0 || rd m a (lvl 1 + 4) 4 != 0 ||
    rd m a (lvl 0 + 40) 8 != 0 || rd m a (lvl 1 + 40) 8 != 0 || rd m a (lvl 0 + 30) 2 != 0 || rd m a (lvl 1 + 30) 2 != 0 ||
    rd m a (lvl 0 + 38) 2 != 0 || rd m a (lvl 1 + 38) 2 != 0
  if rsv || 2 < rd m a 8 1 || 2 < ldep || opened.toNat / 2 ^ nacc != 0 || 31 < bars || 255 < pt then none
  else
    let off := readSteps (rd m a 0x60 8)
    let levels := ((List.range ldep).map (fun l =>
      let o := readSteps (rd m a (lvl l + 24) 8)
      ({ count := rd4 m a (lvl l), start := rd8 m a (lvl l + 8), next := rd8 m a (lvl l + 16), oa := o.sa, ox := o.sx, ob := o.sb, ok := o.sk } : MLevel))).reverse
    some { q with mpc := if part && pt / 128 == 1 then rd8 m a 0 + 8 else rd8 m a 0, run := rd m a 8 1, opened := opened.extractLsb' 0 6, levels,
                  steps0 := readSteps (rd m a (lvl 0 + 32) 8), steps1 := readSteps (rd m a (lvl 1 + 32) 8), lastBar := bars % 16,
                  barPending := bars / 16 == 1, ms := Vector.ofFn (fun (k : Fin 8) => rd8 m a (0x20 + 8 * k.val)), oa := off.sa, ox := off.sx,
                  ob := off.sb, ok := off.sk,
                  accs := Vector.ofFn (fun (n : Fin 6) => if n.val < nacc then
                    { q.acc n.val with e := readPlane m (area + 0x290000 + 0x20000 * n.val), o := readPlane m (area + 0x2A0000 + 0x20000 * n.val) }
                    else q.acc n.val) }

end Sys2Proof.Machine
end

