-- ==== Sys2Proof/Machine/Copy.lean ====
section
/-! DEFINITION. The tensor copy engine (R181 to R197): issue of a packet by TCP and TCPR, the movement of its sectors, its
faults and its completion. -/

namespace Sys2Proof.Machine

open Sys2Proof

/-! ### Shape of a transfer -/

/-- Rows, bytes of a destination row, destination pitch, and all bytes a copy writes to one destination (R183, R185). -/
structure Geo where
  rows : Nat
  rowB : Nat
  pitch : Nat
  total : Nat
  deriving DecidableEq, Repr

/-- Bytes of one register line (R187). -/
def lineB : Nat := 128

/-- The shape of a packet's transfer; `tile` is the named tile, for DRAIN. -/
def geoOf (op : CopyOp) (p : CopyPacket) (tile : Tile) : Geo :=
  match op with
  | .copy | .fill | .mcast =>
    let b := p.length.toNat
    { rows := p.nRows, rowB := b, pitch := if p.dpitch == 0 then b else p.dpitch.toNat, total := p.nRows * b }
  | .expand =>
    let b := 2 * p.cols.toNat
    { rows := p.rows.toNat, rowB := b, pitch := b, total := p.rows.toNat * b }
  | .bload => { rows := p.rows.toNat, rowB := 2 * p.cols.toNat, pitch := 2 * p.cols.toNat, total := 2 * p.rows.toNat * p.cols.toNat }
  | .regfill => { rows := 1, rowB := p.length.toNat, pitch := p.length.toNat, total := p.length.toNat }
  | .signal => { rows := 1, rowB := 8, pitch := 8, total := 8 }
  | .drain =>
    let b := tile.cols * tile.size
    { rows := tile.rows, rowB := b, pitch := if p.dpitch == 0 then b else p.dpitch.toNat, total := if p.dst == 0 then 0 else tile.rows * b }

/-- Bytes from the lowest to the highest destination byte. -/
def Geo.span (g : Geo) : Nat := if g.total = 0 then 0 else (g.rows - 1) * g.pitch + g.rowB

/-- Bytes from the lowest to the highest source byte; 0 for an opcode with no source. -/
def srcSpan (op : CopyOp) (p : CopyPacket) : Nat :=
  match op with
  | .fill | .signal | .drain => 0
  | _ => (p.nRows - 1) * p.spitch.toNat + p.srcRowBytes op

/-- Bytes of the scale array (Table 11.4). -/
def scaleSpan (op : CopyOp) (p : CopyPacket) : Nat :=
  let g := p.groupElems
  if g = 0 then 0
  else match op with
  | .expand => p.rows.toNat * (p.cols.toNat / g) * p.scaleBytes
  | .bload => p.rows.toNat / g * p.cols.toNat * p.scaleBytes
  | _ => 0

/-! ### Issue (R181, R182) -/

/-- The place of a range for the hurdle table: a scratchpad that holds all of it, or memory; none: PROTECTION (order 3). -/
def State.rangeOf (s : State) (t : Team) (va n : Nat) (write : Bool) : Option Rng :=
  let spad := fun (x : Team) (off : Nat) =>
    if off + n ≤ x.spch * 4096 then some ({ core := t.coreNum, space := .spad x.id, lo := off, hi := off + n, write } : Rng) else none
  match windowOf va with
  | .own off => spad t off
  | .flock k off => (s.flockMate t k).bind (fun x => spad x off)
  | _ => some { core := t.coreNum, space := .va t.ctx, lo := va, hi := va + n, write }

/-- The teams that an MCAST names; none: MCAST_SCOPE (R186). -/
def State.mcastTeams (s : State) (t : Team) (p : CopyPacket) : Option (List Team) :=
  if t.flockPos.isNone then none
  else ((List.range 16).filter (fun k => p.tile.getLsbD k)).mapM (fun k => s.flockMate t k)

/-- Result of the checks and ranges of a packet. -/
inductive PktOut where
  | fault (code : Nat) (addr : Word)
  | ok (rs : List Rng) (dests : List Nat)

/-- Orders 2 and 3 of Table 11.1, and the ranges of the packet (R192). A range that lies beyond its chunks faults at its first
byte (log 46). A DRAIN's destination has the size that its tile's entry gives, that of an EMPTY tile too: DESIGN CHOICE (log 101). -/
def State.packetRanges (s : State) (t : Team) (op : CopyOp) (p : CopyPacket) : PktOut :=
  let tile := t.tile (p.tile.toNat % 256)
  let geo := geoOf op p tile
  match (if op == .mcast then s.mcastTeams t p else some []) with
  | none => .fault cMCAST 0
  | some mates =>
    let src := srcSpan op p
    let scl := scaleSpan op p
    let rSrc := if src = 0 then some [] else (s.rangeOf t p.src.toNat src false).map (fun r => [r])
    let rScl := if scl = 0 then some [] else (s.rangeOf t p.scale.toNat scl false).map (fun r => [r])
    let rDst : Option (List Rng) := match op with
      | .bload => some [{ core := t.coreNum, space := .ops t.id, lo := p.dst.toNat, hi := p.dst.toNat + 2 * p.rows.toNat, write := true }]
      | .regfill => some []
      | .mcast => mates.mapM (fun x => (s.rangeOf x p.dst.toNat geo.span true))
      | _ => if geo.total = 0 then some [] else (s.rangeOf t p.dst.toNat geo.span true).map (fun r => [r])
    let reg := match op with
      | .regfill =>
        let n := (p.dst.extractLsb' 0 16).toNat
        (t.group? (p.dst.extractLsb' 16 8).toNat).isSome && n + p.length.toNat / 128 ≤ t.vregs
      | _ => true
    match rSrc, rScl, rDst with
    | some a, some b, some d =>
      if !reg then .fault cPROTECTION 0
      else if p.tileEn && t.ntiles ≤ p.tile.toNat then .fault cTILE 0
      else
        let dr := if op == .drain then [t.tileRng tile false] else []
        .ok (a ++ b ++ d ++ dr) (mates.map (fun x => x.id))
    | a, b, _ => .fault cPROTECTION (if a.isNone then p.src else if b.isNone then p.scale else p.dst)

/-- What the named tile's state makes of a packet (Table 11.6, order 4 of Table 11.1). -/
inductive TileOut where
  | hold
  | fault (code : Nat)
  | ok

/-- The pitch rules of R183 for a DRAIN, with the tile's ROWS. -/
def drainPitch (p : CopyPacket) (x : Tile) : Bool :=
  if x.rows < 2 then p.dpitch == 0 else p.dpitch == 0 || x.cols * x.size ≤ p.dpitch.toNat

/-- check_tile. -/
def State.checkTile (s : State) (t : Team) (op : CopyOp) (p : CopyPacket) : TileOut :=
  if !p.tileEn then .ok
  else
    let i := p.tile.toNat
    let x := t.tile i
    match x.state, op == .drain with
    | .filling, _ => .hold
    | .draining, _ => .hold
    | .empty, true => .fault cTILE
    | .empty, false => .ok
    | .ready, false => if s.mopNames t.id i then .hold else .ok
    | .ready, true =>
      if x.ops then .fault cTILE
      else if p.dtype != x.elem || p.stype != x.elem || !drainPitch p x then .fault cCOPYPACKET
      else .ok

/-- The tile transition at issue: a fill rewrites the entry from its packet (R191). -/
def fillTile (op : CopyOp) (p : CopyPacket) (x : Tile) : Tile :=
  match op with
  | .bload => { off := p.dst.toNat, rows := p.rows.toNat, cols := p.cols.toNat, elem := 0x0A, ops := true, state := .filling }
  | .expand => { off := p.dst.toNat - ownWindow, rows := p.rows.toNat, cols := p.cols.toNat, elem := 0x0A, ops := false, state := .filling }
  | .drain => { x with state := .draining }
  | _ => { off := p.dst.toNat - ownWindow, rows := p.nRows, cols := p.cols.toNat, elem := p.stype, ops := false, state := .filling }

/-- Registers that a REGFILL writes. -/
def regfillRegs (p : CopyPacket) : List Nat := (List.range (p.length.toNat / 128)).map (fun i => (p.dst.extractLsb' 0 16).toNat + i)

/-- A REGFILL waits for a register of its range that is empty in a live lane of its target (R53, R187), and into a split group for the lanes
of both arms, those of the other arm too: DESIGN CHOICE (log 98), for R187 empties every live lane and R53 waits on no lane of another arm. -/
def regfillWaits (t : Team) (p : CopyPacket) : Bool :=
  match t.group? (p.dst.extractLsb' 16 8).toNat with
  | some g => !g.retired && (regfillRegs p).any (fun n => g.core.live &&& ~~~ g.core.vfullOf n != 0)
  | none => false

/-- The live lanes of a REGFILL's target. -/
def regfillLive (t : Team) (p : CopyPacket) : Half :=
  match t.group? (p.dst.extractLsb' 16 8).toNat with
  | some g => if g.retired then 0 else g.core.live
  | none => 0

/-- Hand a checked packet to the engine: ranges, tile, registers and token (R181). -/
def State.startCopy (s : State) (a : Ag) (op : CopyOp) (p : CopyPacket) (addr : Word) (rs : List Rng) (dests : List Nat) : State :=
  let id := s.nextId
  let t := a.t
  let live := if op == .regfill then regfillLive t p else 0
  let c : CopyRec := { id, op, pkt := p, team := t.id, grp := a.g.grpidx, armB := a.b, core := a.w.core, addr, progress := 0, dests,
                       liveAt := live, suspended := false, ranges := [], trans := [], buf := [], faulted := false, cancelled := false }
  let s := ({ s.bump with copies := s.copies ++ [c] }).register (.copy id) rs
  let s := if p.tileEn then s.updTile t.id p.tile.toNat (fillTile op p) else s
  let s := if op == .regfill then
      s.updCore t.id (p.dst.extractLsb' 16 8).toNat (fun x => (regfillRegs p).foldl (fun x n => x.vmark n live false) x)
    else s
  if p.tokenEn then s.updGroup t.id a.g.grpidx (fun g => { g with tokens := g.tokens ||| (1#8 <<< p.token.toNat) }) else s

/-- The packet that an arm's TCP or TCPR has read and checked already. -/
def State.heldPacket (s : State) (a : Ag) : Option HeldPacket :=
  s.heldPackets.find? (fun h => h.team == a.t.id && h.grp == a.g.grpidx && h.armB == a.b)

/-- The packet that an arm's TCP or TCPR has read is given up. -/
def State.dropHeld (s : State) (a : Ag) : State :=
  { s with heldPackets := s.heldPackets.filter (fun h => !(h.team == a.t.id && h.grp == a.g.grpidx && h.armB == a.b)) }

/-- A packet that has been read and checked waits for its token, its ranges and its tile, and then issues (R181). While it waits it is
kept, and is not read again. Its ranges are taken anew, for the tile that a DRAIN names may be another one by then (R192). -/
def State.waitPacket (s : State) (a : Ag) (addr : Word) (h : HeldPacket) : Eff :=
  let p := h.pkt
  let fail := fun (c : Nat) (va : Word) => Eff.faultAt (s.dropHeld a) { code := c, addr := va, tile := p.tile.zeroExtend 64 } true
  let wait := Eff.hold { s.dropHeld a with heldPackets := h :: (s.dropHeld a).heldPackets }
  match s.packetRanges a.t h.op p with
  | .fault c va => fail c va
  | .ok rs dests =>
    if p.tokenEn && a.g.tokens.getLsbD p.token.toNat then wait
    else if !s.canRegister rs then wait
    else match s.checkTile a.t h.op p with
    | .hold => wait
    | .fault c => fail c (if c == cCOPYPACKET then addr else 0)
    | .ok => if h.op == .regfill && regfillWaits a.t p then wait else .next ((s.dropHeld a).startCopy a h.op p addr rs dests)

/-- The issue of a packet that has just been read (R181): order 1 of Table 11.1, and what follows. `addr`: what a stop record names it by, and the
faulting address of COPY_PACKET (log 46). -/
def State.issuePacket (s : State) (a : Ag) (addr : Word) (bs : List Byte) : Eff :=
  match decodePacket (BitVec.ofNat 512 (leNat bs)) with
  | .error e => .fltAt (decErrCode e) addr
  | .ok i =>
    match copyOf i with
    | none => .fltAt cCOPYPACKET addr
    | some (op, p) => s.waitPacket a addr { team := a.t.id, grp := a.g.grpidx, armB := a.b, op, pkt := p }

/-- A packet of the arm: the one that it has read, or one that is read once every memory event of the arm before it is performed (R181).
The issue waits for no remote causal store (R292): the engine does, before it reads or writes for the packet. -/
def State.packetEff (s : State) (a : Ag) (addr : Word) (read : State → Blk) : Eff :=
  match s.heldPacket a with
  | some h => s.waitPacket a addr h
  | none =>
    match s.quietArm a false true with
    | .hold s => .hold s
    | .dead s => .stay s
    | .fault c => .flt c
    | .ok s =>
      match read s with
      | .hold s => .hold s
      | .fault c => .fltAt c addr
      | .dead s => .stay s
      | .ok s bs => s.issuePacket a addr bs

/-- TCP (R181). -/
def execTcp (a : SReg) (s : State) : Out :=
  s.shep (.tcp a) { src := [a], dst := [], preds := [] } (fun s g =>
    let va := g.arm.get a
    if va.toNat % 64 != 0 then .fltAt cMISALIGNED va else s.packetEff g va (fun s => s.readBlock g va))

/-- The eight registers that a TCPR reads. -/
def tcprRegs (a : SReg) : List SReg := (List.range 8).map (fun i => a + BitVec.ofNat 6 i)

/-- TCPR (R181). -/
def execTcpr (a : SReg) (s : State) : Out :=
  s.shep (.tcpr a) { src := if a.toNat % 8 == 0 && a != 0 then tcprRegs a else [], dst := [], preds := [] } (fun s g =>
    if a.toNat % 8 != 0 || a == 0 then .flt cRESERVED
    else s.packetEff g g.arm.spc (fun s => .ok s ((tcprRegs a).flatMap (fun r => leBytes 8 (g.arm.get r).toNat))))

/-! ### The engine's own accesses (R194) -/

/-- The group number under which the accesses of a copy are kept. No group has it. -/
def copyGroup (id : Nat) : Nat := 64 + id

/-- A copy as an agent of its team, in the team's view, with the translations that it has used (R194). -/
def State.copyAgent (s : State) (c : CopyRec) (t : Team) : Option Ag :=
  (s.ctx? t.ctx).map (fun x =>
    { t, g := Group.fresh 0 (copyGroup c.id) 0 0 [], b := false, w := { ctx := x, team := some t, view := t.view, core := c.core, held := c.trans, engine := true } })

/-- The checks of an access of the engine: those of its page, without alignment and without the hurdles it has registered
itself. -/
def State.checkCopy (s : State) (w : Who) (k : AKind) (va n : Nat) : Except Nat Target :=
  ({ s with hurdles := [] }).checkAny w k va n

/-- Cut `n` bytes from an address at multiples of 32. `fuel`: at most n pieces. -/
def cut32 : Nat → Nat → Nat → List (Nat × Nat)
  | 0, _, _ => []
  | fuel + 1, va, n =>
    if n = 0 then []
    else
      let k := min n (32 - va % 32)
      (va, k) :: cut32 fuel (va + k) (n - k)

/-- What an access of the engine did. -/
inductive CEff (α : Type) where
  | hold (s : State)
  | fault (code va : Nat)
  | ok (s : State) (x : α)

/-- A copy keeps a translation that it has used until it completes (R194). -/
def State.keepTrans (s : State) (a : Ag) (t : Target) : State :=
  match t.loc with
  | .spad _ _ => s
  | _ =>
    let x : TlbEntry := { unit := a.w.core, ctx := a.t.ctx, va := pageBase t.pte t.va, pte := t.pte }
    let add := fun (c : CopyRec) => if c.trans.contains x then c else { c with trans := x :: c.trans }
    { s with copies := updWhere (fun (c : CopyRec) => copyGroup c.id == a.g.grpidx) add s.copies }

/-- A write of the arm that issued the packet, po-before it, has not been performed, a remote causal one that is not answered included: the
reads and the writes of the packet follow it (R181). -/
def State.issuerOut (s : State) (a : Ag) : Bool :=
  s.copies.any (fun c => copyGroup c.id == a.g.grpidx && s.writesBefore (c.team, c.grp, c.armB) c.id true false)

/-- Read bytes of a source (R194, R241), after every earlier write of the issuing arm (R181). `ro`: a `.ro` read; `cur`: what is current now,
at the homes of the bytes (R190). -/
def State.copyRead (s : State) (a : Ag) (ro cur : Bool) (va n : Nat) : CEff (List Byte) :=
  if s.issuerOut a then .hold s else
  (cut32 n va n).foldl (fun (acc : CEff (List Byte)) (p : Nat × Nat) =>
    match acc with
    | .ok s bs =>
      (match s.checkCopy a.w .load p.1 p.2 with
       | .error c => .fault c p.1
       | .ok t =>
         if s.blockedFor a.key s.nextId t.loc p.2 then .hold s
         else
           let r := ((s.touch a.w t).keepTrans a t).loadAt a.w t (if ro && !cur then 1 else 2) cur
           if r.poison then .fault cUNCORRECTABLE p.1 else .ok r.s (bs ++ r.bytes))
    | x => x) (.ok s [])

/-- Write bytes of a destination that lie in one sector (R194, R195), after every earlier write of the issuing arm (R181). `rel`: the trailing sector, a release at device scope, which
follows every other sector that has been written. -/
def State.copyWrite (s : State) (a : Ag) (va : Nat) (bs : List Byte) (rel : Bool) : CEff Unit :=
  match s.checkCopy a.w .store va bs.length with
  | .error c => .fault c va
  | .ok t =>
    if s.issuerOut a || (rel && s.writesOut a.key true true) || s.viewWait a.w t then .hold s
    else
      let r := (s.keepTrans a t).bump.doStore a s.nextId t [(t.loc.addr, bs)] 0 rel false
      if r.poison then .fault cUNCORRECTABLE va else .ok r.s ()

/-! ### Elements (R188) -/

/-- Value of an element code of a storage format. -/
def elemValue (ty : LType) (code : Nat) : FV :=
  match ty with
  | .i4 => FV.ofInt (LType.i4.toInt code)
  | .i3 => FV.ofInt (LType.i3.toInt code)
  | t => (fmtOf t).decode code

/-- Value of a scale (R120). -/
def scaleValue (bf : Bool) (code : Nat) : FV := if bf then fmtBF16.decode code else decodeE8M0 code

/-- An expanded element (R188). -/
def expandElem (ty : LType) (scale : Option FV) (code : Nat) : Nat :=
  let x := match scale with | some k => FV.mul (elemValue ty code) k | none => elemValue ty code
  let sg := fun (n : Bool) => if n then 0x8000 else 0
  match fmtBF16.round .rne x with
  | .nan => 0x7FC0
  | .inf n => sg n + 0x7F80
  | .code b => b
  | .over n => sg n + 0x7F7F

/-- Source type of a packet. -/
def CopyRec.sty (c : CopyRec) : LType := (LType.ofCode c.pkt.stype.toNat).getD .bf16

/-- Address of the scale of element (r, col) (Table 11.4). -/
def CopyRec.scaleAt (c : CopyRec) (r col : Nat) : Nat :=
  let p := c.pkt
  let g := p.groupElems
  p.scale.toNat + (if c.op == .expand then r * (p.cols.toNat / g) + col / g else r / g * p.cols.toNat + col) * p.scaleBytes

/-- Read the scale of element (r, col), when there is one. -/
def State.readScale (s : State) (a : Ag) (c : CopyRec) (r col : Nat) : CEff (Option FV) :=
  if c.pkt.groupElems = 0 then .ok s none
  else match s.copyRead a false true (c.scaleAt r col) c.pkt.scaleBytes with
  | .ok s bs => .ok s (some (scaleValue c.pkt.skind (leNat bs)))
  | .hold s => .hold s
  | .fault k v => .fault k v

/-- The 32 elements of row r from column col on, expanded: 64 bytes (R188). A block with a scale is read with it as one unit, both current
(R190); its RO flag, which would let older bytes be read, is then without effect: DESIGN CHOICE (log 92). -/
def State.expandRow (s : State) (a : Ag) (c : CopyRec) (r col : Nat) : CEff (List Byte) :=
  let p := c.pkt
  let bits := p.srcBits
  match s.readScale a c r col with
  | .hold s => .hold s
  | .fault k v => .fault k v
  | .ok s sc =>
    match s.copyRead a p.ro (p.groupElems != 0) (p.src.toNat + r * p.spitch.toNat + col * bits / 8) (4 * bits) with
    | .hold s => .hold s
    | .fault k v => .fault k v
    | .ok s bs =>
      let n := leNat bs
      .ok s ((List.range 32).flatMap (fun i => leBytes 2 (expandElem c.sty sc (n / 2 ^ (bits * i) % 2 ^ bits))))

/-- Elements r to r + 31 of column col, expanded (R188, R190). -/
def State.expandCol (s : State) (a : Ag) (c : CopyRec) (r col : Nat) : CEff (List Byte) :=
  let p := c.pkt
  let bits := p.srcBits
  match s.readScale a c r col with
  | .hold s => .hold s
  | .fault k v => .fault k v
  | .ok s sc =>
    (List.range 32).foldl (fun (acc : CEff (List Byte)) i =>
      match acc with
      | .ok s out =>
        let lo := col * bits / 8
        let hi := (col * bits + bits - 1) / 8
        (match s.copyRead a p.ro (p.groupElems != 0) (p.src.toNat + (r + i) * p.spitch.toNat + lo) (hi + 1 - lo) with
         | .ok s bs => .ok s (out ++ leBytes 2 (expandElem c.sty sc (leNat bs / 2 ^ (col * bits % 8) % 2 ^ bits)))
         | .hold s => .hold s
         | .fault k v => .fault k v)
      | x => x) (.ok s [])

/-! ### Moving a sector -/

/-- The engine works on a copy: it is not suspended, stopped or cancelled, its die issues and its context is not stopped, but for the
sector that it completes when the halt line rises (R174, R196). -/
def State.copyLive (s : State) (c : CopyRec) : Bool :=
  !c.suspended && !c.faulted && !c.cancelled && !s.dieStopped (dieOf c.core) &&
  (match s.team? c.team with
   | some t => !t.imaged && s.ctxLets t.ctx (.copy c.id) 1
   | none => false)

/-- Destination bytes of a transfer that lie below an address, which are a prefix of transfer order. -/
def Geo.below (g : Geo) (dst va : Nat) : Nat := (va - dst) / g.pitch * g.rowB + min g.rowB ((va - dst) % g.pitch)

/-- First address of the trailing sector (R195). -/
def Geo.tail (g : Geo) (dst : Nat) : Nat := (dst + g.span - 1) / 32 * 32

/-- Progress of a copy as it is saved (R196): the destination bytes that have been performed as a prefix of transfer order, the trailing
sector always left out. A REGFILL's last sector is 32 bytes, and BLOAD goes by blocks of 64 (log 26). -/
def State.copyPrefix (s : State) (t : Team) (c : CopyRec) : Nat :=
  let g := geoOf c.op c.pkt (t.tile (c.pkt.tile.toNat % 256))
  match c.op with
  | .regfill => min c.progress (g.total - 32)
  | .bload => min c.progress (g.total - 64)
  | _ =>
    let out := s.heldWrites.filter (fun h => match h.owner with | some o => o.1 == c.team && o.2.1 == copyGroup c.id | none => false)
    let low := out.foldl (fun m h => min m h.t.va) (g.tail c.pkt.dst.toNat)
    min c.progress (g.below c.pkt.dst.toNat low)

/-- The stop record of a copy (R196, Table 10.13). -/
def State.copyStop (s : State) (t : Team) (c : CopyRec) (code va : Nat) : StopRec :=
  { kind := 4, code, unit := (match t.group? c.grp with | some g => g.gid | none => 0), core := c.core, spc := c.addr.toNat,
    addr := va, data := s.copyPrefix t c }

/-- Take a copy out of flight and release its ranges. -/
def State.dropCopy (s : State) (id : Nat) : State :=
  ({ s with copies := s.copies.filter (fun c => c.id != id) }).release (.copy id)

/-- A copy faults (R194, R172): UNCORRECTABLE kills the issuing group, and the packet goes no further (log 25). -/
def State.copyFault (s : State) (t : Team) (c : CopyRec) (code va : Nat) : State :=
  let r := s.copyStop t c code va
  if code == cUNCORRECTABLE then
    let s := s.dropCopy c.id
    match t.group? c.grp with
    | some g => if g.retired then s.settleTeam t.id else s.killGroup t g r
    | none => s
  else if s.isForkChild t then (s.dropCopy c.id).unitFault t r
  else (s.updCopy c.id (fun x => { x with faulted := true })).unitFault t r c.id

/-- The next piece of a transfer of rows: its row, its offset in the row, its address and its bytes (R195). -/
def Geo.piece (g : Geo) (dst progress : Nat) : Nat × Nat × Nat × Nat :=
  let r := progress / g.rowB
  let o := progress % g.rowB
  let va := dst + r * g.pitch + o
  (r, o, va, min (32 - va % 32) (g.rowB - o))

/-- Does an address lie in the trailing sector (R195)? -/
def Geo.trailing (g : Geo) (dst va : Nat) : Bool := g.tail dst ≤ va

/-- Where in its transfer the piece begins that a copy moves now. -/
def CopyRec.off (c : CopyRec) : Nat := c.turn.getD c.progress

/-- Bytes that a copy moves out of order from a place on: a sector, or the block of an EXPAND or a BLOAD (R190). -/
def CopyRec.chunk (c : CopyRec) (g : Geo) (o : Nat) : Nat :=
  match c.op with
  | .expand | .bload => 64
  | .regfill => 32
  | _ => (g.piece c.pkt.dst.toNat o).2.2.2

/-- A piece of a transfer begins at a place, and none of it lies in the trailing sector, which comes last (R195). -/
def CopyRec.begins (c : CopyRec) (g : Geo) (o : Nat) : Bool :=
  match c.op with
  | .expand | .bload => o % 64 == 0 && decide (o + 64 < g.total)
  | .regfill => o % 32 == 0 && decide (o + 32 < g.total)
  | _ =>
    let q := g.piece c.pkt.dst.toNat o
    (q.2.1 == 0 || q.2.2.1 % 32 == 0) && decide (o < g.total) && !g.trailing c.pkt.dst.toNat q.2.2.1

/-- May the copy move the piece whose turn it is? One out of order has not been moved yet. -/
def CopyRec.mayMove (c : CopyRec) (g : Geo) : Bool :=
  match c.turn with
  | none => true
  | some o => decide (c.progress < o) && !c.ahead.contains o && c.begins g o

/-- The end of the prefix that has been moved, when everything before a place has been. `fuel`: at most so many pieces follow. -/
def CopyRec.reach (c : CopyRec) (g : Geo) : Nat → Nat → Nat
  | 0, p => p
  | fuel + 1, p => if c.ahead.contains p then CopyRec.reach c g fuel (p + c.chunk g p) else p

/-- A copy after it has moved `n` bytes: in their turn, or ahead of the prefix. -/
def CopyRec.moved (c : CopyRec) (g : Geo) (n : Nat) : CopyRec :=
  match c.turn with
  | some o => { c with turn := none, ahead := o :: c.ahead }
  | none =>
    let p := c.reach g c.ahead.length (c.progress + n)
    { c with progress := p, ahead := c.ahead.filter (fun o => p ≤ o) }

/-- Carry out one movement of a copy: the next bytes of its destination in transfer order, or a later piece whose turn it is: the order of
the sectors is not defined (R305). A fault is raised by the first sector that meets it in transfer order (R194). -/
def State.copyMove (s : State) (id : Nat) (body : State → Ag → CopyRec → CEff Nat) : State :=
  match s.copy? id with
  | none => s
  | some c =>
    if !s.copyLive c then s
    else match s.team? c.team with
    | none => s
    | some t =>
      match s.copyAgent c t with
      | none => s
      | some a =>
        let g := geoOf c.op c.pkt (t.tile (c.pkt.tile.toNat % 256))
        if g.total ≤ c.progress || !c.mayMove g then s
        else match body s a c with
        | .hold s => s
        | .fault k v => if c.turn.isSome then s else s.copyFault t c k v
        | .ok s n => (s.updCopy id (fun x => x.moved g n)).noteSkid t.ctx (.copy id)

/-- A copy instruction executed by the engine for the packet that the state selects. -/
def State.copyExec (s : State) (body : State → Ag → CopyRec → CEff Nat) : Out :=
  match s.sel with
  | .copy id => if (s.copy? id).isSome then .next (s.copyMove id body) else .fault .noAgent
  | _ => .fault .noAgent

/-- Move the sector at a place of a transfer whose bytes come from `src row offset count`. -/
def State.movePiece (s : State) (a : Ag) (g : Geo) (dst progress : Nat) (src : State → Nat → Nat → Nat → CEff (List Byte)) : CEff Nat :=
  let q := g.piece dst progress
  match src s q.1 q.2.1 q.2.2.2 with
  | .hold s => .hold s
  | .fault k v => .fault k v
  | .ok s bs =>
    match s.copyWrite a q.2.2.1 bs (g.trailing dst q.2.2.1) with
    | .ok s _ => .ok s q.2.2.2
    | .hold s => .hold s
    | .fault k v => .fault k v

/-- Bytes of a source row (R185). -/
def srcRow (a : Ag) (p : CopyPacket) : State → Nat → Nat → Nat → CEff (List Byte) := fun s r o n =>
  s.copyRead a p.ro false (p.src.toNat + r * p.spitch.toNat + o) n

/-- COPY (R185). -/
def execCopy (p : CopyPacket) (s : State) : Out :=
  s.copyExec (fun s a c => s.movePiece a (geoOf .copy p Tile.none_) p.dst.toNat c.off (srcRow a p))

/-- FILL (R185): byte j of a row is byte j mod 8 of the pattern. -/
def execFill (p : CopyPacket) (s : State) : Out :=
  s.copyExec (fun s a c => s.movePiece a (geoOf .fill p Tile.none_) p.dst.toNat c.off (fun s _ o n =>
    .ok s ((List.range n).map (fun j => (leBytes 8 p.src.toNat).getD ((o + j) % 8) 0))))

/-- MCAST (R186): the same bytes to the own-window address of every named team. -/
def execMcast (p : CopyPacket) (s : State) : Out :=
  s.copyExec (fun s a c =>
    let g := geoOf .mcast p Tile.none_
    let q := g.piece p.dst.toNat c.off
    match srcRow a p s q.1 q.2.1 q.2.2.2 with
    | .hold s => .hold s
    | .fault k v => .fault k v
    | .ok s bs =>
      .ok (c.dests.foldl (fun (s : State) t => s.storeSpad t (q.2.2.1 - ownWindow) bs) s) q.2.2.2)

/-- DRAIN (R185): the tile's bytes, row by row. -/
def execDrain (p : CopyPacket) (s : State) : Out :=
  s.copyExec (fun s a c =>
    let x := a.t.tile p.tile.toNat
    let g := geoOf .drain p x
    s.movePiece a g p.dst.toNat c.off (fun s r o n => .ok s (a.t.spad.bytes (x.off + r * g.rowB + o) n)))

/-- EXPAND (R188): one sector of 16 elements at a time. Its block of 32 is read with its scale at the first of its two sectors, or anew
when a resumption begins at the second (R190, R196). A block out of order is written whole. -/
def execExpand (p : CopyPacket) (s : State) : Out :=
  s.copyExec (fun s a c =>
    let rowB := 2 * p.cols.toNat
    let o := c.off / 64 * 64
    let va := p.dst.toNat + c.off
    let write := fun (s : State) (bs rest : List Byte) =>
      match s.copyWrite a va bs ((geoOf .expand p Tile.none_).trailing p.dst.toNat va) with
      | .ok s _ => (.ok (s.updCopy c.id (fun x => { x with buf := rest })) 32 : CEff Nat)
      | .hold s => .hold s
      | .fault k v => .fault k v
    if c.off != o && c.buf.length == 32 then write s c.buf []
    else match s.expandRow a c (o / rowB) (o % rowB / 2) with
    | .hold s => .hold s
    | .fault k v => .fault k v
    | .ok s bs =>
      if c.turn.isSome then
        (match s.copyWrite a va (bs.take 32) false with
         | .ok s _ => (match s.copyWrite a (va + 32) (bs.drop 32) false with | .ok s _ => .ok s 64 | .hold s => .hold s | .fault k v => .fault k v)
         | .hold s => .hold s
         | .fault k v => .fault k v)
      else if c.off == o then write s (bs.take 32) (bs.drop 32) else write s (bs.drop 32) [])

/-- BLOAD (R188, R189): 32 rows of one column at a time (log 26). -/
def execBload (p : CopyPacket) (s : State) : Out :=
  s.copyExec (fun s a c =>
    let b := c.off / 64
    let k := 32 * (b / p.cols.toNat)
    let j := b % p.cols.toNat
    match s.expandCol a c k j with
    | .hold s => .hold s
    | .fault e v => .fault e v
    | .ok s bs => .ok (s.updTeam a.t.id (fun x => { x with ops := x.ops.store (4096 * j + p.dst.toNat + 2 * k) bs, opsUsed := true })) 64)

/-- 32 bytes of a REGFILL: eight lanes of a register. A target that has retired takes nothing. -/
def Group.regfill (g : Group) (n o : Nat) (bs : List Byte) : Group :=
  if g.retired then g
  else
    let g := g.note [n]
    { g with core := (List.range 8).foldl (fun (c : Core) i =>
        if g.core.live.getLsbD (o / 4 + i) then c.vset n (o / 4 + i) (BitVec.ofNat 32 (leNat ((bs.drop (4 * i)).take 4))) else c) g.core }

/-- Registers of a REGFILL of which every sector has been written are full in every lane that is live now (R187). -/
def Group.regfull (g : Group) (rs : List Nat) : Group :=
  if g.retired then g else { g with core := rs.foldl (fun c n => c.vmark n g.core.live true) g.core }

/-- REGFILL (R187). A register becomes full when the prefix of the transfer has passed it: one that a group has used can then not be written
once more after a pre-emption. -/
def execRegfill (p : CopyPacket) (s : State) : Out :=
  s.copyExec (fun s a c =>
    match s.copyRead a p.ro false (p.src.toNat + c.off) 32 with
    | .hold s => .hold s
    | .fault k v => .fault k v
    | .ok s bs =>
      let first := (p.dst.extractLsb' 0 16).toNat
      let lines := fun (x : CopyRec) => x.progress / lineB
      let upTo := lines (c.moved (geoOf .regfill p Tile.none_) 32)
      let full := (List.range (upTo - lines c)).map (fun i => first + lines c + i)
      .ok (s.updGroup a.t.id (p.dst.extractLsb' 16 8).toNat (fun g => (g.regfill (first + c.off / lineB) (c.off % lineB) bs).regfull full)) 32)

/-- SIGNAL (R185): after every packet that the group issued earlier, a release at device scope. -/
def execSignal (p : CopyPacket) (s : State) : Out :=
  s.copyExec (fun s a c =>
    if s.copies.any (fun x => x.team == c.team && x.grp == c.grp && x.id < c.id) then .hold s
    else match s.copyWrite a p.dst.toNat (leBytes 8 p.signal.toNat) true with
    | .ok s _ => .ok s 8
    | .hold s => .hold s
    | .fault k v => .fault k v)

/-! ### Completion (R185) -/

/-- The completion signal: an atomic add of 1 to the n64 at SIGNAL, a release at device scope. -/
def State.copySignal (s : State) (a : Ag) (va : Nat) : CEff Unit :=
  match s.checkCopy a.w .atomic va 8 with
  | .error c => .fault c va
  | .ok t =>
    if s.hostHasLine t a.w.view then .hold (s.askHost a t)
    else
      let s := s.touch a.w t
      let r := s.atomRead a t
      if r.poison then .fault cUNCORRECTABLE va
      else
        let v := (leNat r.bytes + 1) % 0x10000000000000000
        match t.loc with
        | .peer p pa => .ok ((r.s.dropOut a.die (some p) (pa / 128)).peerStore p pa (leBytes 8 v)) ()
        | _ =>
          let s := match t.loc with | .dev ga => r.s.orW a.w.core (bucketBit ga) | _ => r.s
          let w := s.putWrite (a.w.write t (some a.key) 0 [(t.loc.addr, leBytes 8 v)] (s.relW a t true))
          if w.poison then .fault cUNCORRECTABLE va else .ok w.s ()

/-- The tile of a completed copy: a fill makes it READY, a DRAIN EMPTY (Table 11.6). -/
def CopyRec.tileDone (c : CopyRec) (x : Tile) : Tile := { x with state := if c.op == .drain then .empty else .ready }

/-- The saved tile entries of a suspended parent follow its copies (R218, log 30). -/
def State.resaveTiles (s : State) (tid : Nat) : State :=
  match s.team? tid with
  | some t =>
    if t.isForked || t.isFolded then (match s.ctx? t.ctx with | some c => s.saveTiles c t | none => s) else s
  | none => s

/-- The end of a copy whose writes have all been performed: signal, tile, token and ranges (R185, R26, R191). -/
def State.copyEnd (s : State) (t : Team) (a : Ag) (c : CopyRec) : State :=
  let va := c.pkt.signal.toNat
  match (if c.op == .signal || va == 0 then (.ok s () : CEff Unit) else s.copySignal a va) with
  | .hold s => s
  | .fault k v => s.copyFault t c k v
  | .ok s _ =>
    let s := if c.pkt.tileEn then (s.updTile t.id c.pkt.tile.toNat c.tileDone).resaveTiles t.id else s
    let s := if c.pkt.tokenEn then
        s.updGroup t.id c.grp (fun g => { g with tokens := g.tokens &&& ~~~ (1#8 <<< c.pkt.token.toNat) })
      else s
    (s.dropCopy c.id).settleTeam t.id

/-- COPY_COMPLETE (R185): it takes place once every byte of the copy is written and performed. -/
def execCopyComplete (id : Nat) (s : State) : Out :=
  .next (match s.copy? id with
    | none => s
    | some c =>
      if !s.copyLive c then s
      else match s.team? c.team with
      | none => s
      | some t =>
        match s.copyAgent c t with
        | none => s
        | some a =>
          if c.progress < (geoOf c.op c.pkt (t.tile (c.pkt.tile.toNat % 256))).total || s.writesOut a.key true true ||
             (c.pkt.signal != 0 && s.issuerOut a) then s
          else s.copyEnd t a c)

end Sys2Proof.Machine
end

