-- ==== Sys2Proof/Machine/Place.lean ====
section
/-! DEFINITION. Where work may be placed (R14, R19, R20, R27, R28, R156, R161 to R163, R169): resource requests, the cores
of a device, their free capacity, the order in which children and teams that wait for resumption go, and the teams that a
pre-emption takes. -/

namespace Sys2Proof.Machine

open Sys2Proof

/-! ### Resource requests (R161) -/

/-- What a team asks for (Table 10.8). -/
structure Req where
  vregs : Nat
  spch : Nat
  tiles : Nat
  acc : Nat
  deriving DecidableEq, Repr

/-- Fields of a request. -/
def reqOf (r : BitVec 32) : Req :=
  let v := (r.extractLsb' 0 6).toNat
  { vregs := if v = 0 then 320 else 8 * v, spch := (r.extractLsb' 6 10).toNat, tiles := (r.extractLsb' 16 9).toNat,
    acc := (r.extractLsb' 25 3).toNat }

/-- A nonzero reserved field. -/
def reqReserved (r : BitVec 32) : Bool := r.extractLsb' 28 4 != 0

/-- Every field within its range. -/
def reqInRange (r : BitVec 32) : Bool :=
  let q := reqOf r
  (r.extractLsb' 0 6).toNat ≤ 40 && q.spch ≤ 512 && q.tiles ≤ 256 && q.acc ≤ 6

/-! ### Cores and their capacity (R162) -/

/-- Dies of a device (Table 2.3). -/
def diesOf (mode dev : Nat) : List Nat :=
  if mode = 0 then List.range 8 else if mode = 1 then (List.range 4).map (fun i => 4 * dev + i) else [dev]

/-- Dies of a context's device. -/
def Context.dies (c : Context) : List Nat := diesOf c.mode c.device

/-- A core that work may be placed on (R15, R280). -/
def State.liveCore (s : State) (c : Nat) : Bool :=
  decide (c < 256) && !s.retiredCores.contains c && !s.retiredDies.contains (dieOf c) && !s.removedDies.contains (dieOf c)

/-- Amounts of the resources of Table 10.9. -/
structure Usage where
  teams : Nat
  groups : Nat
  lines : Nat
  chunks : Nat
  tiles : Nat
  accs : Nat
  deriving DecidableEq, Repr

/-- Nothing. -/
def Usage.zero : Usage := { teams := 0, groups := 0, lines := 0, chunks := 0, tiles := 0, accs := 0 }

/-- Sum of two amounts. -/
def Usage.add (a b : Usage) : Usage :=
  { teams := a.teams + b.teams, groups := a.groups + b.groups, lines := a.lines + b.lines, chunks := a.chunks + b.chunks,
    tiles := a.tiles + b.tiles, accs := a.accs + b.accs }

/-- Within the capacities of a core (Table 10.9). -/
def Usage.fits (a : Usage) : Bool :=
  a.teams ≤ 8 && a.groups ≤ 64 && a.lines ≤ 12288 && a.chunks ≤ 512 && a.tiles ≤ 256 && a.accs ≤ 6

/-- The whole need of a team of `groups` groups (R161). -/
def Req.usage (q : Req) (groups : Nat) : Usage :=
  { teams := 1, groups, lines := groups * (q.vregs + 16), chunks := q.spch, tiles := q.tiles, accs := q.acc }

/-- The need of a placed team. -/
def Team.usage (t : Team) : Usage :=
  ({ vregs := t.vregs, spch := t.spch, tiles := t.ntiles, acc := t.nacc } : Req).usage t.groups.length

/-- Teams of one flock launch child. -/
def Team.mates (t u : Team) : Bool :=
  t.flockPos.isSome && u.flockPos.isSome && t.set == u.set && t.childIdx == u.childIdx && t.run == u.run

/-- What a team takes on a core (R27, R162, R168): all of its need while it runs or FORK suspends it, without its scratchpad once a
child needed the space and the device saved it; the scratchpad of an ended team until its whole flock has ended. -/
def State.takes (s : State) (t : Team) (core : Nat) : Usage :=
  match t.place with
  | .running c _ => if c == core then t.usage else Usage.zero
  | .forked c true | .folded c true =>
    if c != core then Usage.zero else if t.stored then { t.usage with chunks := 0 } else t.usage
  | .ended c =>
    if c == core && s.teams.any (fun u => t.mates u && !u.isEnded) then { Usage.zero with chunks := t.spch } else Usage.zero
  | _ => Usage.zero

/-- What is taken on a core, were the teams of `gone` not there. -/
def State.usage (s : State) (core : Nat) (gone : List Nat) : Usage :=
  s.teams.foldl (fun (u : Usage) t => if gone.contains t.id then u else u.add (s.takes t core)) Usage.zero

/-- A need fits the free capacity of a live core of a device (R162). -/
def State.fitsOn (s : State) (dies : List Nat) (core : Nat) (u : Usage) (gone : List Nat) : Bool :=
  dies.contains (dieOf core) && s.liveCore core && ((s.usage core gone).add u).fits

/-- The lowest residency slot that no running team of a core holds. -/
def State.freeSlot (s : State) (core : Nat) : Nat :=
  ((List.range 8).find? (fun k => !s.teams.any (fun t => t.place == .running core k))).getD 0

/-! ### Save areas (R156) -/

/-- Global group numbers in use in a context. -/
def State.gidsUsed (s : State) (ctx : Nat) : List Nat :=
  (s.teams.filter (fun t => t.ctx == ctx && !t.isEnded)).flatMap (fun t => t.groups.map (fun g => g.gid))

/-- Team save areas in use in a context. -/
def State.areasUsed (s : State) (ctx : Nat) : List Nat :=
  (s.teams.filter (fun t => t.ctx == ctx && !t.isEnded)).map (fun t => t.saveArea)

/-- The lowest `n` numbers below `bound` that are not in use. -/
def lowestFree (bound n : Nat) (used : List Nat) : List Nat :=
  ((List.range (min bound (used.length + n))).filter (fun i => !used.contains i)).take n

/-! ### Placing a child (R163) -/

/-- The need of one team of a child set. -/
def ChildSet.usage (x : ChildSet) : Usage := (reqOf x.res).usage x.groups

/-- SCOPE of a fork's children (R247). -/
def ChildSet.inScope (x : ChildSet) (core : Nat) : Bool :=
  match x.scope with
  | 1 => dieOf core == dieOf x.home
  | 2 => flockOf core == flockOf x.home
  | _ => true

/-- Teams of one run of a child. -/
def ChildSet.unit (x : ChildSet) : Nat := max x.tpf 1

/-- Cores of one run of a child placed at a core; a flock is named by its core-in-flock 0. -/
def ChildSet.unitCores (x : ChildSet) (core : Nat) : List Nat :=
  if x.tpf = 0 then [core] else (List.range x.tpf).map (fun k => coreOf (flockOf core) k)

/-- One run of a child fits at a core. -/
def State.unitFits (s : State) (c : Context) (x : ChildSet) (core : Nat) (gone : List Nat) : Bool :=
  decide (core < 256) && x.inScope core && (x.tpf == 0 || inFlock core == 0) &&
  (x.unitCores core).all (fun k => s.fitsOn c.dies k x.usage gone)

/-- Enough team save areas and group areas are free for one child (R156). -/
def State.areasFit (s : State) (c : Context) (x : ChildSet) : Bool :=
  let n := if x.mirror then 2 * x.unit else x.unit
  decide ((s.areasUsed c.num).length + n ≤ c.nTeamAreas) && decide ((s.gidsUsed c.num).length + n * x.groups ≤ c.nGroupAreas)

/-- A child fits at a core, its second run at another flock's core (R264). -/
def State.childFits (s : State) (c : Context) (x : ChildSet) (core core1 : Nat) (gone : List Nat) : Bool :=
  s.unitFits c x core gone && s.areasFit c x &&
  (!x.mirror || (s.unitFits c x core1 gone && flockOf core != flockOf core1))

/-- A place for a child: the lowest cores that fit; none when there is none. -/
def State.childOption (s : State) (c : Context) (x : ChildSet) (gone : List Nat) : Option (Nat × Nat) :=
  let ok := (List.range 256).filter (fun k => s.unitFits c x k gone)
  if !s.areasFit c x then none
  else match ok with
  | [] => none
  | a :: _ =>
    if !x.mirror then some (a, a) else (ok.find? (fun b => flockOf b != flockOf a)).map (fun b => (a, b))

/-- May the device save the chunks and operand store of a team now (R168)? FORK suspends it in place, and no copy of it is in flight:
DESIGN CHOICE (log 31). -/
def State.mayStore (s : State) (t : Team) : Bool :=
  (match t.place with | .forked _ true | .folded _ true => true | _ => false) && !t.stored && s.copies.all (fun c => c.team != t.id) &&
  Config.savesForked s.fresh t.id

/-- The device saves the chunks and operand stores of the teams that FORK suspends on some cores, as it chooses (R168). -/
def State.storeForked (s : State) (c : Context) (cores : List Nat) : State :=
  (s.teams.filter (fun t => cores.contains t.coreNum && s.mayStore t)).foldl (fun (s : State) t =>
    (match s.ctx? t.ctx with | some d => s.saveStores d t | none => s.saveStores c t).updTeam t.id (fun x => { x with stored := true })) s

/-- Could a child ever be placed: does it fit the empty live cores of its device within its scope (R162, R249)? -/
def State.everFits (s : State) (c : Context) (x : ChildSet) : Bool :=
  let s := { s with teams := [] }
  let ok := (List.range 256).filter (fun k => s.unitFits c x k [])
  match ok with
  | [] => false
  | a :: _ => !x.mirror || ok.any (fun b => flockOf b != flockOf a)

/-! ### Resuming a team (R28, R168, R171) -/

/-- A registered range is of an operation of a team. -/
def State.ownsRange (s : State) (t : Nat) (h : Hurdle) : Bool :=
  match h.owner with
  | .copy id => s.copies.any (fun c => c.id == id && c.team == t)
  | .mop id => s.mops.any (fun m => m.id == id && m.team == t)

/-- Hurdle ranges that a suspended team's operations register again (R196, R216). -/
def State.savedRanges (s : State) (t : Nat) : List Hurdle :=
  ((s.copies.filter (fun c => c.team == t)).flatMap (fun c => c.ranges)) ++
  ((s.mops.filter (fun m => m.team == t)).flatMap (fun m => m.ranges))

/-- Those ranges at a core: in its table, but for those of an MCAST on the cores of the other teams of the flock (R192), which are at their
places in the flock of the core. -/
def State.rangesAt (s : State) (t core : Nat) : List Hurdle :=
  (s.savedRanges t).map (fun h =>
    let mcast : Bool := match h.owner with | .copy id => (match s.copy? id with | some c => c.op == .mcast && h.write | none => false) | .mop _ => false
    let there : Option Nat := match h.space with
      | .spad u => if u == t then none else (s.team? u).bind (fun x => x.flockPos.map (fun k => coreOf (flockOf core) k))
      | _ => none
    { h with core := if mcast then there.getD core else core })

/-- The flock that a team of a flock launch must resume on: that of any of its flock's teams that has a place (R28). -/
def State.homeFlock (s : State) (t : Team) : Option Nat :=
  (s.teams.find? (fun u => u.id != t.id && t.mates u && !u.imaged)).map (fun u => flockOf u.coreNum)

/-- Every team of a team's flock has a live core in a flock of the device (R28). -/
def State.flockLive (s : State) (c : Context) (t : Team) (flock : Nat) : Bool :=
  s.teams.all (fun u => !t.mates u || (match u.flockPos with
    | some k => let core := coreOf flock k; c.dies.contains (dieOf core) && s.liveCore core
    | none => true))

/-- A team holds resources of a core, so that it may be pre-empted. -/
def Team.holds (t : Team) : Bool := match t.place with | .running _ _ | .forked _ true | .folded _ true => true | _ => false

/-- The teams of the other run of a MIRROR child that have a place lie in other flocks (R264). -/
def State.runsApart (s : State) (t : Team) (core : Nat) : Bool :=
  s.teams.all (fun u => !(u.set == t.set && u.childIdx == t.childIdx && u.run != t.run && u.holds && flockOf u.coreNum == flockOf core))

/-- A team that waits for resumption fits a core. -/
def State.teamFits (s : State) (c : Context) (t : Team) (core : Nat) (gone : List Nat) : Bool :=
  s.fitsOn c.dies core t.usage (t.id :: gone) && s.runsApart t core &&
  (let rs := s.rangesAt t.id core
   (core :: rs.map (fun h => h.core)).all (fun k =>
     decide ((s.hurdles.filter (fun h => h.core == k || (k == core && s.ownsRange t.id h))).length + (rs.filter (fun h => h.core == k)).length ≤ 64))) &&
  (match t.flockPos with
   | some k => core == coreOf (flockOf core) k && s.flockLive c t (flockOf core) &&
     (match s.homeFlock t with | some f => f == flockOf core | none => true)
   | none => true)

/-- The lowest core that a team that waits for resumption fits. -/
def State.teamOption (s : State) (c : Context) (t : Team) (gone : List Nat) : Option Nat :=
  (List.range 256).find? (fun k => s.teamFits c t k gone)

/-! ### Who goes first (R163) -/

/-- VIEWED of a launch packet (Table 10.6). -/
def lpViewed (p : LaunchPacket) : Bool := p.flags.getLsbD 0
/-- FLOCK. -/
def lpFlock (p : LaunchPacket) : Bool := p.flags.getLsbD 1
/-- MIRROR. -/
def lpMirror (p : LaunchPacket) : Bool := p.flags.getLsbD 2
/-- ORDERED. -/
def lpOrdered (p : LaunchPacket) : Bool := p.flags.getLsbD 3
/-- EVENT. -/
def lpEvent (p : LaunchPacket) : Bool := p.flags.getLsbD 4

/-- The hub acts for the context: the context is not stopped, halting or being removed, and the hub does not stand still for a
frequency change (R17). -/
def State.ctxRuns (s : State) (n : Nat) : Bool :=
  !s.dieStopped 8 && match s.ctx? n with | some c => c.halt == .none && !c.removing | none => false

/-- Two contexts share a device. -/
def State.sameDevice (s : State) (a b : Nat) : Bool :=
  match s.ctx? a, s.ctx? b with | some x, some y => x.device == y.device | _, _ => false

/-- ORDERED is met: every earlier launch of the queue has completed (Table 10.6). -/
def State.orderedOk (s : State) (g : Grid) : Bool :=
  !lpOrdered g.pkt || s.grids.all (fun h => !(h.slot == g.slot && s.sameDevice h.ctx g.ctx && h.id < g.id) || h.finished)

/-- A child of the set waits for placement. -/
def State.setWaits (s : State) (x : ChildSet) : Bool :=
  x.phase == .running && decide (x.nextChild < x.count) && s.ctxRuns x.ctx && (x.fault.isNone || x.kind == .openLaunch) &&
  (x.isFork || (match s.grid? x.grid with | some g => s.orderedOk g | none => false))

/-- A team waits for resumption: pre-empted, or its fold has ended. -/
def State.teamWaits (s : State) (t : Team) : Bool := (t.isPreempted || t.isFolded) && s.ctxRuns t.ctx

/-- Hardware slot and packet index of a set's launch. -/
def State.setKey (s : State) (x : ChildSet) : Nat × Nat :=
  match s.grid? x.grid with | some g => (g.slot, g.index) | none => (0, 0)

/-- Order of two keys. -/
def keyLe (a b : Nat × Nat) : Bool := decide (a.1 < b.1) || (a.1 == b.1 && decide (a.2 ≤ b.2))

/-- The set's next child goes before every other child and team that waits (R163). -/
def State.setTurn (s : State) (x : ChildSet) : Bool :=
  s.setWaits x &&
  s.teams.all (fun t => !(s.teamWaits t && s.sameDevice t.ctx x.ctx) || decide (t.prio < x.prio)) &&
  s.sets.all (fun y => y.id == x.id || !(s.setWaits y && s.sameDevice y.ctx x.ctx) || decide (y.prio < x.prio) ||
    (y.prio == x.prio && keyLe (s.setKey x) (s.setKey y)))

/-- The team goes before every other child and team of a higher priority that waits (R163). -/
def State.teamTurn (s : State) (t : Team) : Bool :=
  s.teamWaits t &&
  s.teams.all (fun u => !(s.teamWaits u && s.sameDevice u.ctx t.ctx) || decide (u.prio ≤ t.prio)) &&
  s.sets.all (fun y => !(s.setWaits y && s.sameDevice y.ctx t.ctx) || decide (y.prio ≤ t.prio))

/-! ### Teams that a pre-emption takes (R169) -/

/-- Is team `a` taken before team `b`: lower priority, and among equals the one placed more recently? -/
def victimLe (a b : Team) : Bool := decide (a.prio < b.prio) || (a.prio == b.prio && decide (b.placedAt ≤ a.placedAt))

/-- Put a team into its place in the order of pre-emption. -/
def victimInsert (t : Team) : List Team → List Team
  | [] => [t]
  | u :: us => if victimLe t u then t :: u :: us else u :: victimInsert t us

/-- Resident teams of a device of strictly lower priority, in the order of pre-emption. Of teams placed at the same moment, the one that
stands earlier among the teams counts as placed more recently: the device's choice by R169, made here as a DESIGN CHOICE (log 98). -/
def State.victims (s : State) (ctx prio : Nat) : List Team :=
  (s.teams.filter (fun t => t.holds && decide (t.prio < prio) && s.sameDevice t.ctx ctx && s.ctxRuns t.ctx)).foldr victimInsert []

/-- The teams that must go for a unit, by the shortest prefix of the order that makes room: those of the prefix on the cores
where the unit then goes and does not fit now. `opt`: the cores of the unit, were some teams gone. -/
def needed (vs : List Team) (opt : List Nat → Option (List Nat)) (now : Nat → Bool) : List Nat :=
  match (List.range vs.length).findSome? (fun i => (opt ((vs.take (i + 1)).map (fun t => t.id))).map (fun cs => (i, cs))) with
  | some (i, cs) => ((vs.take (i + 1)).filter (fun t => cs.contains t.coreNum && !now t.coreNum)).map (fun t => t.id)
  | none => []

/-- A place for a set's next child: one that fits as things stand, or one where the device saves what FORK-suspended teams hold (R168). -/
def State.childPlace (s : State) (c : Context) (x : ChildSet) : Option (Nat × Nat) :=
  match s.childOption c x [] with
  | some p => some p
  | none => (s.storeForked c (List.range 256)).childOption c x []

/-- The teams that the next child of a set needs gone; none when it fits now. -/
def State.neededForSet (s : State) (c : Context) (x : ChildSet) : List Nat :=
  if !s.setTurn x || (s.childPlace c x).isSome then []
  else needed (s.victims x.ctx x.prio)
    (fun gone => (s.childOption c x gone).map (fun p => x.unitCores p.1 ++ (if x.mirror then x.unitCores p.2 else [])))
    (fun core => s.fitsOn c.dies core x.usage [])

/-- The team that pre-emption takes next for each child that cannot be placed: the first in its order (R169). -/
def State.toPreempt (s : State) : List Nat :=
  s.sets.flatMap (fun x => match s.ctx? x.ctx with | some c => (s.neededForSet c x).take 1 | none => [])

end Sys2Proof.Machine
end

