-- ==== Sys2Proof/Machine/Fork.lean ====
section
/-! DEFINITION. FORK and the fold (R45, R112, R168, R246 to R265): arrival at FORK, start of the children, the join status
and record, FSTAT, the fold of a tree's granules, its commit, and its end. -/

namespace Sys2Proof.Machine

open Sys2Proof

/-! ### Writes of hub agents through a context's translation (R165, R251) -/

/-- The ordered write of the hub under a number has not been answered yet (R269). -/
def State.hubWaits (s : State) (owner : Nat) : Bool := s.causalStores.any (fun x => x.team == 0 && x.grp == owner)

/-- Store bytes at a virtual address, by a hub agent without a view. none: a check of Table 5.2 fails, the write meets poison, its peer is
unreachable (R288), or its packet is dropped at once (R280), and nothing is written. `join`: the write is a join record, which must fall on a commons page and which the parent reads afresh
at once (R251, R267), and whose check counts hurdles (order 5). A write to a CAUSAL page is ordered traffic: true, it is on its way, and
its answer is awaited under the number `owner`. -/
def State.hubStore (s : State) (c : Context) (core : Nat) (va : Word) (bs : List Byte) (join : Bool) (owner : Nat) : Option (State × Bool) :=
  let w : Who := { ctx := c, team := none, view := none, core }
  match (if join then s else { s with hurdles := [] }).check w .store va bs.length with
  | .error _ => none
  | .ok t =>
    if join && pteViewed t.pte then none
    else
      let s := s.touch w t
      match t.loc with
      | .dev ga =>
        if s.partialPoison ga bs.length then none
        else if t.causal then
          let x : CausalStore := { id := s.nextId, po := s.nextId, team := 0, grp := owner, armB := false, both := false }
          let u := ({ s.bump with causalStores := s.causalStores ++ [x] }).send 8 (s.homeDie ga) (.store x.id t [(ga, bs)] (BitVec.allOnes 64))
          if u.causalStores.any (fun y => y.id == x.id) then some (u, true) else none
        else
          let s := s.hubBytes ga bs
          some (if join then (s.dropOut (dieOf core) none (lineOf ga)).dropL1 (dieOf core) (lineOf ga) none else s, false)
      | .host pa =>
        let s := s.fillHub (pa / 128)
        some ({ s with hostMem := s.hostMem.store pa bs }, false)
      | .peer p pa => if s.peerDown p then none else some ((s.dropOut (dieOf core) (some p) (pa / 128)).peerStore p pa bs, false)
      | .spad _ _ => none

/-! ### Join status and record (R250, R251) -/

/-- Status OK (Table 16.2). -/
def stOk : Half := 1
/-- Status CONFLICT. -/
def stConflict (childB : Nat) : Half := BitVec.ofNat 32 (childB * 65536 + cCONFLICT * 256 + 2)
/-- Status CHILD_FAULT. -/
def stChildFault (child code : Nat) : Half := BitVec.ofNat 32 (child * 65536 + code * 256 + 4)
/-- Status QUOTA. -/
def stQuota : Half := BitVec.ofNat 32 (cTWINQUOTA * 256 + 8)
/-- Status MIRROR. -/
def stMirror (child : Nat) : Half := BitVec.ofNat 32 (child * 65536 + cMIRROR * 256 + 16)

/-- What a join reports beside its status (Table 16.3). -/
structure JoinInfo where
  count : Nat := 0
  addr : Nat := 0
  childA : Nat := 0
  childB : Nat := 0
  tbyte : Byte := 0
  abyte : Byte := 0
  bbyte : Byte := 0
  granules : Nat := 0
  deriving DecidableEq, Repr

/-- The 64 bytes of a join record (Table 16.3). -/
def joinRecord (st : Half) (j : JoinInfo) : List Byte :=
  leBytes 4 st.toNat ++ leBytes 4 (min j.count 0xFFFFFFFF) ++ leBytes 8 j.addr ++ leBytes 4 j.childA ++ leBytes 4 j.childB ++
  [j.tbyte, j.abyte, j.bbyte, 0] ++ leBytes 4 j.granules ++ List.replicate 32 0

/-- What writing a join record has done: the state, the status, and whether the record is still on its way. -/
structure Joined where
  s : State
  status : Half
  sent : Bool

/-- Write the record of a join, when one was asked for: the status, with RECLOST when it could not be written. -/
def State.putJoin (s : State) (c : Context) (core : Nat) (va : Word) (st : Half) (j : JoinInfo) (owner : Nat) : Joined :=
  if va == 0 then { s, status := st, sent := false }
  else match s.hubStore c core va (joinRecord st j) true owner with
  | some x => { s := x.1, status := st, sent := x.2 }
  | none => { s, status := st ||| recLost, sent := false }

/-! ### The end of a FORK for the parent's groups (R109, R168, R250) -/

/-- The device effect of a join status (Table 6.8); none for a status that every group receives. -/
def joinEffect (st : Half) : Option (BitVec 16) :=
  if st.getLsbD 1 then some 0x0001 else if st.getLsbD 4 then some 0x0013 else none

/-- A group receives a join status in its FORK's destination. -/
def Group.takeStatus (g : Group) (st : Half) : Group :=
  g.finish false (fun a => { a with wait := .none }.put g.forkDest (st.zeroExtend 64)) (g.core.armA.spc + 4)

/-- One group that waits at FORK goes on: it enters a handler of its own stack for a conflict or a mismatch, or receives
the status. -/
def State.wakeFork (s : State) (t g : Nat) (st : Half) (count : Nat) : State :=
  match s.team? t, s.group? t g with
  | some x, some y =>
    if y.retired || y.core.armA.wait != .fork then s
    else
      let y := { y with joinStatus := st, joinCount := BitVec.ofNat 32 (min count 0xFFFFFFFF) }
      let plain := s.updGroup t g (fun _ => y.takeStatus st)
      match joinEffect st with
      | none => plain
      | some id =>
        match y.search 0 id true with
        | .none | .root => plain
        | fr =>
          let a := y.core.armA
          let r : Raise := { rkind := 4, dest := y.forkDest.toNat, join := st, mask := y.core.live, cspc := a.spc + 4, clpc := a.lpc, arg := y.forkSb }
          match y.enter fr.code id r with
          | some z => s.putEntered t g fr.code z
          | none => (s.updGroup t g (fun _ => y)).ordinary x y false { code := cTOKEN } 1
  | _, _ => s

/-- Every waiting group of a team goes on. -/
def State.wakeForks (s : State) (t : Nat) (st : Half) (count : Nat) : State :=
  match s.team? t with
  | some x => x.groups.foldl (fun (s : State) g => s.wakeFork t g.grpidx st count) s
  | none => s

/-! ### Fork descriptors (R247) -/

/-- `n` bytes of a 64-byte block from byte `o`. -/
def blk (d : BitVec 512) (o n : Nat) : Nat := (d.extractLsb' (8 * o) (8 * n)).toNat

/-- The limits of Table 16.1. -/
def forkDescOk (d : BitVec 512) : Bool :=
  let count := blk d 0 4
  let groups := blk d 4 2
  let flags := blk d 6 2
  1 ≤ count && count ≤ 65536 && 1 ≤ groups && groups ≤ 32 && flags < 16 && flags / 4 != 3 && !(flags % 2 == 1 && flags / 4 == 2) &&
  blk d 8 8 != 0 && blk d 8 8 % 4 == 0 && blk d 16 8 % 4 == 0 && blk d 24 8 % 8 == 0 &&
  !reqReserved (BitVec.ofNat 32 (blk d 44 4)) && reqInRange (BitVec.ofNat 32 (blk d 44 4)) && blk d 48 16 == 0

/-! ### Reservations (R256) -/

/-- Granules that a view costs per granule of quota. -/
def perQuota (mirror : Bool) : Nat := if mirror then 3 else 2

/-- What a view's set is. -/
def State.viewMirror (s : State) (v : View) : Bool := match s.set? v.set with | some x => x.mirror | none => false

/-- The remainder of a view: its grant, less its dirty granules and its open nested forks. -/
def State.remainder (s : State) (v : View) : Nat :=
  let k := perQuota (s.viewMirror v)
  k * v.quota - k * v.dirty.length -
    ((s.sets.filter (fun x => x.kind == .nestedFork && x.parentView == some v.id && x.phase != .done)).map (fun x => x.reserved)).sum

/-! ### start_fork (R249) -/

/-- A child set before its first child. -/
def ChildSet.fresh (id : Nat) (kind : SetKind) (ctx grid : Nat) : ChildSet :=
  { id, kind, ctx, grid, parent := none, parentView := none, depth := 0, count := 0, groups := 0, tpf := 0, mirror := false,
    inherit := [], scope := 0, home := 0, entry := 0, laneBase := 0, matEntry := 0, args := 0, quota := 0, res := 0, prio := 0,
    reserved := 0, recAddr := 0, recSent := false, phase := .running, nextChild := 0, ended := [], fault := none, held := [], twins := [],
    staged := [], conflicts := 0, conflict := none, mirrorBad := false, granules := 0, poisoned := none, status := 0, sigW := 0,
    foldW := 0 }

/-- The inherited list of every child group (R112): at most 64 entries. -/
def inheritList (g : Group) : List Frame :=
  let fs := (g.frames.filter (fun f => f.inh && f.masker == 0)) ++ g.inherited.filter (fun f => f.masker == 0)
  (fs.take 64).map (fun f =>
    newFrame Frame.zero f.id false f.inh none f.pc f.ldep f.env)

/-- The child set of a fork descriptor. -/
def forkSet (id : Nat) (t : Team) (r : ForkRound) (w : BitVec 64) : ChildSet :=
  let d := r.desc
  let flags := blk d 6 2
  let inh := match t.group? 0 with | some g => if flags / 2 % 2 == 1 then inheritList g else [] | none => []
  { ChildSet.fresh id (if t.view.isSome then .nestedFork else .rootFork) t.ctx t.grid with
    parent := some t.id, parentView := t.view, depth := t.depth + 1, count := blk d 0 4, groups := blk d 4 2,
    mirror := flags % 2 == 1, inherit := inh, scope := flags / 4, home := t.coreNum, entry := toWord (blk d 8 8),
    laneBase := toWord (blk d 16 8), matEntry := toWord (blk d 24 8), args := toWord (blk d 32 8), quota := blk d 40 4,
    res := BitVec.ofNat 32 (blk d 44 4), prio := t.prio, recAddr := r.j, sigW := w }

/-- The reservation of a set. -/
def ChildSet.need (x : ChildSet) : Nat := perQuota x.mirror * x.count * x.quota

/-- The hurdle ranges that an operation holds. -/
def State.rangesOf (s : State) (o : Owner) : List Hurdle := s.hurdles.filter (fun h => h.owner == o)

/-- Suspend the matrix operations of a team that are in flight: each keeps its ranges in its record, and holds none (R216). -/
def State.suspendMops (s : State) (tid : Nat) : State :=
  let go := fun (m : MOp) => m.team == tid && !m.suspended
  let mine := (s.mops.filter go).map (fun m => Owner.mop m.id)
  { s with mops := updWhere go (fun m => { m with suspended := true, ranges := s.rangesOf (.mop m.id) }) s.mops,
           hurdles := s.hurdles.filter (fun h => !mine.contains h.owner) }

/-- Suspend a team at FORK (R168, R216, R218): its sequencer stops, and its tiles and barriers are saved. Its scratchpad chunks and its
operand store stay in place until a child needs their space (`State.storeForked`). -/
def State.suspendTeam (s : State) (c : Context) (tid : Nat) : State :=
  let s := (s.stopSeq tid).suspendMops tid
  let s := s.updTeam tid (fun x => { x with place := .forked x.coreNum true })
  match s.team? tid with
  | some t => (s.saveTiles c t).saveSeq c t
  | none => s

/-- A FORK that completes at once (R249): record and status, without suspension. Where the record is on its way as ordered traffic, the
groups wait for it (R267), by a set that has no child. -/
def State.forkAtOnce (s : State) (c : Context) (t : Team) (r : ForkRound) (st : Half) : State :=
  let p := s.bump.putJoin c t.coreNum r.j st {} s.nextId
  if p.sent then
    { p.s with sets := p.s.sets ++ [{ ChildSet.fresh s.nextId .rootFork t.ctx t.grid with
        parent := some t.id, recAddr := r.j, recSent := true, phase := .aborted, status := p.status }] }
  else p.s.wakeForks t.id p.status 0

/-- The group that arrived last at a FORK; when it has been killed since, any that waits there. -/
def lastArrived (t : Team) : Option Group :=
  let here := fun (g : Group) => !g.retired
  match (t.round.bind (fun r => t.group? r.last)).filter here with
  | some g => some g
  | none => t.groups.find? here

/-- TWIN_QUOTA of a nested fork (R249): it is raised in the last-arriving group, at its FORK, which changes nothing in it, SIG included, and
latches nothing (R68, R246). What an arrival that stands has latched stays. -/
def State.forkQuota (s : State) (t : Team) (r : ForkRound) (g : Group) : State :=
  let g' := { g with core := g.core.updArm false (fun a => { a with wait := .none, full := a.full ||| (1#64 <<< g.forkDest.toNat), sig := g.forkSig }) }
  let others := t.groups.any (fun y => y.grpidx != g.grpidx && !y.retired && y.core.armA.wait == .fork)
  let s := (s.updTeam t.id (fun x => { x with round := if others then some r else none })).updGroup t.id g.grpidx (fun _ => g')
  s.ordinary t g' false { code := cTWINQUOTA } 1

/-- start_fork (R249). -/
def State.startFork (s : State) (tid : Nat) : State :=
  match s.team? tid with
  | none => s
  | some t =>
    match s.ctx? t.ctx, t.round, lastArrived t with
    | some c, some r, some g =>
      let x := forkSet s.nextId t r (s.wOf t.coreNum)
      let s := s.updTeam tid (fun y => { y with round := none })
      let nested := t.view.bind s.view?
      match nested with
      | some v =>
        if s.remainder v < x.need then s.forkQuota t r g
        else if !s.everFits c x then s.forkAtOnce c t r (stChildFault 0 cFORKDESC)
        else (({ s.bump with sets := s.sets ++ [{ x with reserved := x.need }] }).suspendTeam c tid)
      | none =>
        if c.poolCap < x.need then s.forkAtOnce c t r stQuota
        else if x.need ≤ c.poolFree then
          if !s.everFits c x then s.forkAtOnce c t r (stChildFault 0 cFORKDESC) else
          let s := s.updCtx c.num (fun y => { y with poolFree := y.poolFree - x.need })
          ({ s.bump with sets := s.sets ++ [{ x with reserved := x.need }] }).suspendTeam c tid
        else ({ s.bump with sets := s.sets ++ [{ x with phase := .poolWait }] }).suspendTeam c tid
    | _, _, _ => s

/-- A round of arrivals at FORK is complete: every live group of the team waits there (R246). -/
def Team.forkDue (t : Team) : Bool :=
  t.round.isSome && (match t.place with | .running _ _ => true | _ => false) &&
  t.groups.any (fun g => !g.retired) && t.groups.all (fun g => g.retired || g.core.armA.wait == .fork)

/-- Start the fork of a team whose round is complete. -/
def State.forkCheck (s : State) (tid : Nat) : State :=
  match s.team? tid with
  | some t =>
    if t.forkDue && (match s.ctx? t.ctx with | some c => !s.ctxStopped c | none => false) then s.startFork tid else s
  | none => s

/-- Start every fork that the end of a group has completed (R246). -/
def State.settleForks (s : State) : State :=
  if s.teams.any (fun t => t.forkDue) then s.teams.foldl (fun (s : State) t => s.forkCheck t.id) s else s

/-! ### FORK (R246) -/

/-- The arrival of a group at FORK. `sig`: SIG before the words of the FORK. -/
def State.forkEff (s : State) (a : Ag) (d : SReg) (va j : Word) (sig : Half) : Eff :=
  if a.g.core.split then .flt cILLEGAL
  else if va.extractLsb' 0 6 != 0 then .fltAt cMISALIGNED va
  else if j.extractLsb' 0 6 != 0 then .fltAt cMISALIGNED j
  else if a.t.depth == 8 then .flt cPROTECTION
  else match s.readBlock a va with
  | .hold s => .hold s
  | .fault c => .fltAt c va
  | .dead s => .stay s
  | .ok s bs =>
    let r : ForkRound := { last := a.g.grpidx, a := va, j, desc := BitVec.ofNat 512 (leNat bs) }
    if (match a.t.round with | some l => { l with last := r.last } != r | none => false) then .flt cILLEGAL
    else if !forkDescOk r.desc then .flt cFORKDESC
    else match s.quietArm a true true with
    | .hold s => .hold s
    | .dead s => .stay s
    | .fault c => .flt c
    | .ok s =>
      let s := s.updTeam a.t.id (fun x => { x with round := some r })
      let s := s.updGroup a.t.id a.g.grpidx (fun g =>
        { g with forkDest := d, forkSb := j, forkSig := sig, core := g.core.updArm false (fun x => { x.empty d with wait := .fork }) })
      .stay (s.forkCheck a.t.id)

/-- FORK (R246). -/
def execFork (d a b : SReg) (s : State) : Out :=
  s.shep (.fork d a b) { src := [a, b], dst := [d], preds := [] } (fun u g =>
    u.forkEff g d (g.arm.get a) (g.arm.get b) (match s.arm? g with | some x => x.sig | none => 0))

/-- FSTAT (R252). In a group with no view selector 3 gives 0: DESIGN CHOICE (log 98). -/
def State.fstat (s : State) (a : Ag) (n : Nat) : Word :=
  let v := a.w.view.bind s.view?
  match n with
  | 0 => a.g.joinStatus.zeroExtend 64
  | 1 => a.g.joinCount.zeroExtend 64
  | 2 => (match v with | some v => toWord (v.quota - v.dirty.length) | none => BitVec.allOnes 64)
  | 3 => (match v with | some v => toWord v.dirty.length | none => 0)
  | 4 => (match v with | some v => toWord (s.remainder v) | none => BitVec.allOnes 64)
  | _ => toWord a.t.depth

/-- FSTAT (R252). -/
def execFstat (d : SReg) (n : BitVec 7) (s : State) : Out :=
  s.shep (.fstat d n) { src := [], dst := [d], preds := [] } (fun s g =>
    if 5 < n.toNat then .flt cILLEGAL else .next (s.setReg g d (s.fstat g n.toNat)))

/-! ### TWIN_RESERVATION (R164, R256) -/

/-- A set that waits for its reservation may take it now: a launch that has to start in order may start (R164). -/
def State.mayReserve (s : State) (x : ChildSet) : Bool :=
  x.phase == .poolWait && s.ctxRuns x.ctx && (x.isFork || (match s.grid? x.grid with | some g => s.orderedOk g | none => false))

/-- TWIN_RESERVATION (R164, R256): a set that waits for the pool takes its reservation; a launch that asks for more than the
whole pool completes with QUOTA, and a fork whose children can never be placed with CHILD_FAULT (R249). -/
def execTwinReservation (set : Nat) (s : State) : Out :=
  .next (match s.set? set with
    | none => s
    | some x =>
      match s.ctx? x.ctx with
      | none => s
      | some c =>
        if !s.mayReserve x then s
        else if c.poolCap < x.need then s.updSet set (fun y => { y with phase := .done, status := stQuota })
        else if x.need ≤ c.poolFree then
          if x.isFork && !s.everFits c x then s.updSet set (fun y => { y with phase := .aborted, status := stChildFault 0 cFORKDESC }) else
          (s.updCtx c.num (fun y => { y with poolFree := y.poolFree - x.need })).updSet set (fun y =>
            { y with phase := .running, reserved := x.need })
        else s)

/-! ### The fold (R260, R261) -/

/-- Element bytes of a page's folds. -/
def HeldPage.width (h : HeldPage) : Nat := if h.vop == 1 || h.vop == 2 || h.vop == 3 || h.vop == 4 then 2 ^ h.elem else 1

/-- fsub and fadd of R260: rne32, with 0x7FC0_0000 for any NaN. -/
def foldF (neg : Bool) (x y : Nat) : Nat :=
  let b := fmtF32.decode y
  fmtF32.finish .rne .none (fmtF32.round .rne (FV.add .rne (fmtF32.decode x) (if neg then FV.neg b else b)))

/-- The new parent element: p parent, t twin, d the child's (R260). -/
def foldElem (vop w p t d : Nat) : Nat :=
  let m := 2 ^ (8 * w)
  match vop with
  | 1 => (p + d + (m - t)) % m
  | 2 => if sInt (8 * w) d < sInt (8 * w) p then d else p
  | 3 => if sInt (8 * w) p < sInt (8 * w) d then d else p
  | 4 => foldF false p (foldF true d t)
  | 5 => p ||| d
  | _ => d

/-- Bytes of a line as a number. -/
def lineNat (l : Line) (o n : Nat) : Nat := leNat (lineBytes l o n)

/-- A fold under way: the parent's granule, the owner of each byte, and the conflicts noted, newest first. -/
structure FoldSt where
  p : Line
  owner : Vector (Option Nat) 128
  found : List Conflict

/-- One child's copy folded into a granule at virtual address `va` (R260). -/
def foldChild (h : HeldPage) (va : Nat) (t : Line) (c : Nat) (d : Line) (st : FoldSt) : FoldSt :=
  let w := h.width
  (List.range (128 / w)).foldl (fun (st : FoldSt) e =>
    let o := e * w
    let te := lineNat t o w
    let de := lineNat d o w
    if de = te then st
    else if h.vop = 0 then
      match st.owner.getD o none with
      | some k =>
        { st with found := { va := va + o, a := k, b := c, tbyte := t.getD o 0, abyte := st.p.getD o 0, bbyte := d.getD o 0 } :: st.found }
      | none => { st with p := st.p.setIfInBounds o (d.getD o 0), owner := st.owner.setIfInBounds o (some c) }
    else { st with p := lineStore st.p o (leBytes w (foldElem h.vop w (lineNat st.p o w) te de)) }) st

/-- A granule's dirty copies by child, in child-index order. -/
def State.copiesOf (s : State) (set ga run : Nat) : List (Nat × Granule) :=
  let vs := s.views.filter (fun v => v.set == set && v.run == run)
  let cs := vs.filterMap (fun v => (v.granule? ga).map (fun g => (v.child, g)))
  cs.foldr (fun x (l : List (Nat × Granule)) => (l.filter (fun y => y.1 < x.1)) ++ x :: l.filter (fun y => !(y.1 < x.1))) []

/-- The granules dirty in any child's view. -/
def State.dirtyOf (s : State) (set : Nat) : List Nat :=
  (s.views.filter (fun v => v.set == set)).foldl (fun (l : List Nat) v =>
    v.dirty.foldl (fun (l : List Nat) d => if l.contains d.ga then l else l ++ [d.ga]) l) []

/-- The lowest virtual address through which any child stored to a granule (R261). -/
def State.vaOf (s : State) (set ga : Nat) : Nat :=
  let l := (s.views.filter (fun v => v.set == set)).filterMap (fun v => (v.granule? ga).map (fun g => g.va))
  match l with | [] => 0 | a :: as => as.foldl min a

/-- The latched fields of a granule's page; NONE when the page is not held. -/
def ChildSet.heldOf (x : ChildSet) (ga : Nat) : HeldPage := (x.heldPage (ga / 0x10000)).getD { page := 0, frames := 0, vop := 0, elem := 0, ztwin := false, pte := 0, own := false }

/-- The twin of a granule (R253). -/
def ChildSet.twinOf (x : ChildSet) (ga : Nat) : Granule :=
  if (x.heldOf ga).ztwin then { ga, va := 0, data := zeroLine, bad := 0 }
  else (x.twins.find? (fun t => t.ga == ga)).getD { ga, va := 0, data := zeroLine, bad := 0 }

/-- The parent's granule P (R260, R263). -/
def State.parentGranule (s : State) (x : ChildSet) (ga : Nat) : Granule :=
  match x.parentView.bind s.view? with
  | none => { ga, va := 0, data := s.lineData (ga / 128), bad := s.seenBad [] ga }
  | some v =>
    match v.granule? ga with
    | some g => g
    | none =>
      if (x.heldOf ga).ztwin then { ga, va := 0, data := zeroLine, bad := 0 }
      else
        let ch := s.viewChain treeFuel (some v.id)
        { ga, va := 0, data := s.seen ch ga, bad := s.seenBad ch ga }

/-- fold(g) of R260: the staged granule and its conflicts in child order. -/
def State.foldGranule (s : State) (x : ChildSet) (ga : Nat) : Granule × List Conflict :=
  let h := x.heldOf ga
  let va := s.vaOf x.id ga
  let t := (x.twinOf ga).data
  let st := (s.copiesOf x.id ga 0).foldl (fun (st : FoldSt) c => foldChild h va t c.1 c.2.data st)
    { p := (s.parentGranule x ga).data, owner := Vector.replicate 128 none, found := [] }
  ({ ga, va, data := st.p, bad := 0 }, st.found.reverse)

/-- The conflict or mismatch of the lowest address, the first of them in child order (R261). -/
def lowestConflict (l : List Conflict) : Option Conflict :=
  l.foldl (fun (m : Option Conflict) c => match m with | some b => if c.va < b.va then some c else m | none => some c) none

/-- The child whose copy of a granule is poisoned, or 0xFFFF for a twin (R262). DESIGN CHOICE (log 98): 0xFFFF for a poisoned granule of the
parent too, which R262 does not name. -/
def State.foldPoison (s : State) (x : ChildSet) (gas : List Nat) : Option Nat :=
  let runs := if x.mirror then [0, 1] else [0]
  let bad := gas.flatMap (fun ga => runs.flatMap (fun r => (s.copiesOf x.id ga r).filterMap (fun c => if c.2.bad != 0 then some c.1 else none)))
  match bad with
  | a :: as => some (as.foldl min a)
  | [] => if gas.any (fun ga => (x.twinOf ga).bad != 0 || (s.parentGranule x ga).bad != 0) then some 0xFFFF else none

/-- The mismatches of one child's two runs in a granule (R264). -/
def State.mismatches (s : State) (x : ChildSet) (child ga : Nat) : List Conflict :=
  let copy := fun (run : Nat) =>
    (s.views.find? (fun v => v.set == x.id && v.child == child && v.run == run)).bind (fun v => v.granule? ga)
  match copy 0, copy 1 with
  | none, none => []
  | p, q =>
    let t := (x.twinOf ga).data
    let a := match p with | some g => g.data | none => t
    let b := match q with | some g => g.data | none => t
    let va := s.vaOf x.id ga
    (List.range 128).filterMap (fun o =>
      if a.getD o 0 == b.getD o 0 then none
      else some { va := va + o, a := child, b := child, tbyte := t.getD o 0, abyte := a.getD o 0, bbyte := b.getD o 0 })

/-- The mismatches of a MIRROR set, in child order. -/
def State.allMismatches (s : State) (x : ChildSet) (gas : List Nat) : List Conflict :=
  if !x.mirror then []
  else (List.range x.count).flatMap (fun c => gas.flatMap (fun ga => s.mismatches x c ga))

/-! ### The join (R258, R259) -/

/-- A write of a team has been issued and is not performed yet. -/
def State.teamOut (s : State) (t : Nat) : Bool :=
  s.heldWrites.any (fun h => match h.owner with | some o => o.1 == t | none => false) || s.haloRels.any (fun h => h.team == t) ||
  s.peerStores.any (fun p => p.team == t) || s.causalStores.any (fun c => c.team == t) || s.pending.any (fun p => p.team == t && p.rmw)

/-- Every team of a set has ended, and its writes are performed (R27, R45). -/
def State.teamsOver (s : State) (x : ChildSet) : Bool := s.teams.all (fun t => t.set != x.id || (t.isEnded && !s.teamOut t.id))

/-- Every child of a set that has been placed has ended, and no more are placed. -/
def State.childrenOver (s : State) (x : ChildSet) : Bool :=
  (x.nextChild == x.count || x.fault.isSome || x.phase == .aborted) && s.teamsOver x

/-- The prepare phase of a set whose children have all ended (R258 to R262). -/
def State.prepare (s : State) (x : ChildSet) : State :=
  match x.fault with
  | some (k, code, _) => s.updSet x.id (fun y => { y with phase := .aborted, status := stChildFault k code })
  | none =>
    let gas := s.dirtyOf x.id
    match s.foldPoison x gas with
    | some k => s.updSet x.id (fun y => { y with phase := .aborted, granules := gas.length, poisoned := some k, status := stChildFault k cUNCORRECTABLE })
    | none =>
      let mm := s.allMismatches x gas
      if !mm.isEmpty then
        let m := lowestConflict mm
        s.updSet x.id (fun y => { y with phase := .aborted, mirrorBad := true, conflicts := mm.length, conflict := m,
                                         status := stMirror ((m.map (fun c => c.a)).getD 0) })
      else
        let fs := gas.map (fun ga => s.foldGranule x ga)
        let cs := fs.flatMap (fun f => f.2)
        s.updSet x.id (fun y => { y with phase := .joined, granules := gas.length, staged := fs.map (fun f => f.1),
                                         conflicts := cs.length, conflict := lowestConflict cs })

/-- JOIN_START (R258): it takes place once every child has ended. -/
def execJoinStart (set : Nat) (s : State) : Out :=
  .next (match s.set? set with
    | some x => if x.kind != .openLaunch && x.phase == .running && s.ctxRuns x.ctx && s.childrenOver x then s.prepare x else s
    | none => s)

/-- Staged granules that would be newly dirty in a view. -/
def View.newly (v : View) (gs : List Granule) : Nat := (gs.filter (fun g => (v.granule? g.ga).isNone)).length

/-- A staged granule becomes a dirty copy of the forking child (R263), with the twin that a first store of its view would
have made (R253). -/
def State.commitView (s : State) (v : Nat) (g : Granule) : State :=
  match s.view? v with
  | none => s
  | some x =>
    let zt := match s.set? x.set with | some y => (y.heldOf g.ga).ztwin | none => false
    let up := (s.viewChain treeFuel (some v)).tail
    let s := if zt then s else s.updSet x.set (fun y => if y.twins.any (fun t => t.ga == g.ga) then y else
      { y with twins := { ga := g.ga, va := g.va, data := s.seen up g.ga, bad := s.seenBad up g.ga } :: y.twins })
    let s := s.updSet x.set (fun y => match y.heldPage (g.ga / 0x10000) with | some h => y.latched { h with own := true } | none => y)
    s.updView v (fun x =>
      match x.granule? g.ga with
      | some _ => { x with dirty := updWhere (fun d => d.ga == g.ga) (fun d => { d with va := min d.va g.va, data := g.data, bad := 0 }) x.dirty }
      | none => { x with dirty := g :: x.dirty })

/-- The bytes of a granule that a commit writes: none of a replica, whose only writer is the push (R235). -/
def State.commitRuns (s : State) (g : Granule) : List (Nat × List Byte) :=
  if s.meetsReplica g.ga 128 then
    mergeRuns (((g.data.toList.mapIdx (fun i b => (g.ga + i, [b]))).filter (fun r => !s.meetsReplica r.1 1)))
  else [(g.ga, g.data.toList)]

/-- A staged granule replaces committed memory, at the home slice of its page (R222). -/
def State.commitHome (s : State) (x : ChildSet) (g : Granule) : State :=
  (s.commitRuns g).foldl (fun (s : State) r => (s.takeBack g.ga).writeHome (x.heldOf g.ga).pte r.1 r.2 (some x.ctx) none none) s

/-- COMMIT_DECISION (R262, R263): ABORT on a conflict or a nested commit that does not fit; otherwise the commit. -/
def execCommitDecision (set : Nat) (s : State) : Out :=
  .next (match s.set? set with
    | none => s
    | some x =>
      if x.phase != .joined || !s.ctxRuns x.ctx then s
      else match x.conflict with
      | some c => s.updSet set (fun y => { y with phase := .aborted, staged := [], status := stConflict c.b })
      | none =>
        match x.parentView with
        | none =>
          (x.staged.foldl (fun (s : State) g => s.commitHome x g) s).updSet set (fun y => { y with phase := .committed, status := stOk })
        | some v =>
          if (match s.view? v with | some y => decide (y.quota < y.dirty.length + y.newly x.staged) | none => true) then
            s.updSet set (fun y => { y with phase := .aborted, staged := [], status := stQuota })
          else (x.staged.foldl (fun (s : State) g => s.commitView v g) s).updSet set (fun y => { y with phase := .committed, status := stOk }))

/-- What a set's join reports (Table 16.3). -/
def ChildSet.info (x : ChildSet) : JoinInfo :=
  let st := x.status
  if st.getLsbD 2 then
    let k := (st.extractLsb' 16 16).toNat
    { addr := match x.poisoned, x.fault with | none, some (_, _, a) => a | _, _ => 0, childA := k, granules := x.granules }
  else if st.getLsbD 1 || st.getLsbD 4 then
    match x.conflict with
    | some c => { count := x.conflicts, addr := c.va, childA := c.a, childB := c.b, tbyte := c.tbyte, abyte := c.abyte, bbyte := c.bbyte,
                  granules := x.granules }
    | none => {}
  else { granules := x.granules }

/-- The parent team of a set still lives. -/
def State.parentLives (s : State) (x : ChildSet) : Option Team :=
  (x.parent.bind s.team?).bind (fun t => if t.isForked && !t.allRetired then some t else none)

/-- The reservation of a set returns (R256, R262). -/
def State.returnTwins (s : State) (x : ChildSet) : State :=
  if x.kind == .nestedFork then s else s.updCtx x.ctx (fun c => { c with poolFree := c.poolFree + x.reserved })

/-- A tree is closed (R262): the reservation returns, and the twins, the views and the held pages are given up. -/
def State.closeTree (s : State) (x : ChildSet) (st : Half) : State :=
  let s := (s.returnTwins x).updSet x.id (fun y =>
    { y with phase := .done, status := st, reserved := 0, held := [], twins := [], staged := [] })
  { s with views := s.views.filter (fun v => v.set != x.id) }

/-- The end of a join whose record is written (R262): the tree is closed, and the parent is released. The groups of a parent that was never
suspended go on at once (R249). -/
def State.joinEnd (s : State) (x : ChildSet) (st : Half) : State :=
  let s := s.closeTree x st
  match x.parent with
  | none => s
  | some t =>
    match (s.team? t).map (fun y => y.place) with
    | some (Place.running _ _) => s.wakeForks t st 0
    | _ =>
      let s := s.updTeam t (fun y => match y.place with | .forked k b => if y.allRetired then y else { y with place := .folded k b } | _ => y)
      s.settleTeam t

/-- The context has been halted, is being removed or is gone. -/
def State.ctxDead (s : State) (n : Nat) : Bool :=
  match s.ctx? n with | some c => c.removing || (match c.halt with | .applied _ => true | _ => false) | none => true

/-- The parent has been pre-empted while it waited for the record of a FORK that completed at once: it is released when it is back. -/
def State.parentAway (s : State) (x : ChildSet) : Bool :=
  match x.parent.bind s.team? with | some t => t.isPreempted | none => false

/-- JOIN_COMPLETE (R251, R262, R267): the record, and once it is written the end of the join. A join that a halt or a removal has aborted
writes no record and releases no parent (R174, R178), and a commit completes all the same (R262). -/
def execJoinComplete (set : Nat) (s : State) : Out :=
  .next (match s.set? set with
    | none => s
    | some x =>
      if s.dieStopped 8 || !(x.kind != .openLaunch && (x.phase == .committed || x.phase == .aborted) && s.childrenOver x) then s
      else if x.phase == .aborted && s.ctxDead x.ctx then s.closeTree x x.status
      else if x.phase == .aborted && !s.ctxRuns x.ctx then s
      else match s.ctx? x.ctx with
      | none => s
      | some c =>
        if x.recSent then (if s.hubWaits set || s.parentAway x then s else s.joinEnd x x.status)
        else
          let p := match s.parentLives x with
            | some t => s.putJoin c t.coreNum x.recAddr x.status x.info set
            | none => { s, status := x.status, sent := false }
          if p.sent then p.s.updSet set (fun y => { y with recSent := true, status := p.status }) else p.s.joinEnd x p.status)

end Sys2Proof.Machine
end

