-- ==== Sys2Proof/Machine/Distributor.lean ====
section
/-! DEFINITION. The distributor (R155 to R171): launch packets and their queues, placement, completion of grids,
pre-emption, and the resumption of teams. -/

namespace Sys2Proof.Machine

open Sys2Proof

/-! ### Launch queues (R157 to R160) -/

/-- Hardware slots of a device by mode (Table 2.3). -/
def slotsPerDevice (mode : Nat) : Nat := if mode = 0 then 64 else if mode = 1 then 32 else 8

/-- The number by which an event names a hardware queue slot: the device's number times 64, and its slot. -/
def slotNumber (device slot : Nat) : Nat := 64 * device + slot

/-- The queue bound to a hardware slot. -/
def State.queue? (s : State) (n : Nat) : Option QBind := s.queues.find? (fun q => slotNumber q.device q.slot == n)

/-- Package address of a queue's header. -/
def QBind.base (q : QBind) : Nat := gaOf q.device q.hdr
/-- WRIDX (Table 10.5). -/
def State.wrIdx (s : State) (q : QBind) : Nat := s.mem.le q.base 8
/-- RDIDX. -/
def State.rdIdx (s : State) (q : QBind) : Nat := s.mem.le (q.base + 8) 8
/-- LOGN. -/
def State.logn (s : State) (q : QBind) : Nat := (cellRead s.mem (q.base + 16)).toNat
/-- STATE. -/
def State.qState (s : State) (q : QBind) : Nat := (cellRead s.mem (q.base + 17)).toNat
/-- Package address of the slot that RDIDX names. -/
def State.slotAddr (s : State) (q : QBind) : Nat := q.base + 64 + 64 * (s.rdIdx q % 2 ^ s.logn q)
/-- The queue engine may take the bytes of a write that has been issued before it is performed: a store of a group that is no release at device
scope, so that no order holds the engine to what the group wrote before (R21, R159); the arm's earlier loads of its bytes have been read. As
the device chooses; once it has, it goes on seeing them (log 103). -/
def State.hubSees (s : State) (h : HeldWrite) : Bool :=
  match h.owner with
  | some k =>
    h.seen || (!h.wide && h.inView.isNone && !s.hostHas h && Config.hubTakes s.fresh h.id && !s.acqWaits k h.po &&
      (olderNeeded k h.po (fun t => h.meets t.loc t.size) (byPo s.pending) [] []).isEmpty &&
      (match s.agent k.1 k.2.1 k.2.2 with
       | some a => !a.g.amaxQueued a.b h.po && !h.runs.any (fun r => s.laneOverlap a h.po (h.t.loc.to r.1) r.2.length)
       | none => false))
  | none => false

/-- A byte of device memory as the queue engine reads it. -/
def State.hubByte (s : State) (a : Nat) : Byte :=
  match (s.heldWrites.filter (fun h => h.meets (.dev a) 1 && s.hubSees h)).getLast? with
  | some h => (h.byteAt (.dev a)).getD 0
  | none => cellRead s.mem a

/-- The packet that the queue engine reads next. -/
def State.headPacket (s : State) (q : QBind) : LaunchPacket :=
  decodeLaunch (BitVec.ofNat 512 (leNat ((List.range 64).map (fun i => s.hubByte (s.slotAddr q + i)))))

/-- Runs without one byte. -/
def runsWithout (a : Nat) (l : List (Nat × List Byte)) : List (Nat × List Byte) :=
  (l.flatMap (fun r => if r.1 ≤ a && a < r.1 + r.2.length then [(r.1, r.2.take (a - r.1)), (a + 1, r.2.drop (a + 1 - r.1))] else [r])).filter
    (fun r => !r.2.isEmpty)

/-- What the queue engine has taken of a slot stays taken, and the zero that it writes to byte 0 comes after the store whose byte it took, and
after what that store's arm wrote there before (R42, R158). -/
def State.hubTook (s : State) (q : QBind) (zero : Bool) : State :=
  let a := s.slotAddr q
  let took := s.heldWrites.filter (fun h => h.meets (.dev a) 1 && s.hubSees h)
  let under := fun (h : HeldWrite) => zero && took.any (fun x => match x.owner with | some k => h.ofArm k && decide (h.po ≤ x.po) | none => false)
  { s with heldWrites := (s.heldWrites.map (fun h =>
      let h' := if h.meets (.dev a) 64 && s.hubSees h then { h with seen := true } else h
      if under h then { h' with runs := runsWithout a h'.runs } else h')).filter (fun h => h.owner.isNone || !h.runs.isEmpty) }

/-- A launch of the queue waits for its reservation: later packets wait behind it (R164). An ORDERED launch that may not start
yet has asked for none (log 45). -/
def State.poolWaiting (s : State) (q : QBind) : Bool :=
  s.sets.any (fun x => x.kind == .viewedLaunch && x.phase == .poolWait && x.ctx == q.ctx &&
    (match s.grid? x.grid with | some g => g.slot == q.slot && s.orderedOk g | none => false))

/-- The queue engine consumes the head slot of a queue now (R158, R160, R164). -/
def State.queueReady (s : State) (q : QBind) : Bool :=
  s.ctxRuns q.ctx && !q.halted && s.qState q == 0 && decide (s.rdIdx q < s.wrIdx q) && !s.poolWaiting q &&
  s.hubByte (s.slotAddr q) != 0

/-- The child set of a launch packet. -/
def launchSet (id : Nat) (ctx grid prio : Nat) (p : LaunchPacket) (w : BitVec 64) : ChildSet :=
  { ChildSet.fresh id (if lpViewed p then .viewedLaunch else .openLaunch) ctx grid with
    depth := if lpViewed p then 1 else 0, count := p.count.toNat, groups := p.groups.toNat, tpf := p.teamsPerFlock.toNat,
    mirror := lpMirror p, entry := p.entry, laneBase := p.lane, matEntry := p.mat, args := p.args, quota := p.quota.toNat, res := p.res,
    prio, sigW := w }

/-- The reason a packet is refused, in byte order; none when it passes every field check (R160, Tables 10.6, 10.7). -/
def fieldReason (p : LaunchPacket) : Option Nat :=
  if p.opcode != 0x20 then some 1
  else if p.flags.extractLsb' 5 3 != 0 then some 2
  else if lpMirror p && !lpViewed p then some 6
  else if p.groups == 0 || 32 < p.groups.toNat then some 3
  else if (if lpFlock p then p.teamsPerFlock == 0 || 16 < p.teamsPerFlock.toNat else p.teamsPerFlock != 0) then some 3
  else if p.count == 0 || 65536 < p.count.toNat then some 3
  else if p.entry.extractLsb' 0 2 != 0 || p.lane.extractLsb' 0 2 != 0 || p.mat.extractLsb' 0 3 != 0 then some 4
  else if p.quota != 0 && !lpViewed p then some 3
  else if reqReserved p.res then some 2
  else if !reqInRange p.res then some 3
  else if p.sigAddr.extractLsb' 0 3 != 0 then some 4
  else none

/-- A packet that fails the check (R160): STATE 1, REASON, a QUEUE_ERROR record; it is not consumed. -/
def State.queueError (s : State) (n : Nat) (q : QBind) (p : LaunchPacket) (reason : Nat) : State :=
  let s := (s.hubTook q false).hubBytes (q.base + 17) [1, BitVec.ofNat 8 reason]
  let s := { s with queues := updWhere (fun (y : QBind) => slotNumber y.device y.slot == n) (fun y => { y with halted := true }) s.queues }
  s.postEvent q.ctx (eventRec 3 q.slot reason 0 0 (s.rdIdx q) p.opcode.toNat s.time)

/-- A packet that passes (R158, R160, R164): byte 0 becomes zero, RDIDX advances, and the grid with its child set begins.
Opcode byte 0 was read by an acquire at system scope (R159). -/
def State.startLaunch (s : State) (c : Context) (q : QBind) (p : LaunchPacket) : State :=
  let idx := s.rdIdx q
  let a := s.slotAddr q
  let s := s.hubTook q true
  let s := s.fillIn (s.sliceOf (s.pteFor a) a) (lineOf a)
  let sig := s.sigOf (lineOf a)
  let s := (s.hubBytes a [0]).hubBytes (q.base + 8) (leBytes 8 (idx + 1))
  let gid := s.nextId
  let sid := s.nextId + 1
  let x := launchSet sid c.num gid q.prio p sig
  let g : Grid := { id := gid, ctx := c.num, slot := q.slot, index := idx, pkt := p, set := sid, startedAt := none, startStep := 0, sigSent := false, finished := false }
  let s := { s.bump.bump with grids := s.grids ++ [g] }
  if !lpViewed p then { s with sets := s.sets ++ [x] }
  else if !s.orderedOk g then { s with sets := s.sets ++ [{ x with phase := .poolWait }] }
  else if c.poolCap < x.need then { s with sets := s.sets ++ [{ x with phase := .done, status := stQuota }] }
  else if x.need ≤ c.poolFree then
    let s := s.updCtx c.num (fun y => { y with poolFree := y.poolFree - x.need })
    { s with sets := s.sets ++ [{ x with reserved := x.need }] }
  else { s with sets := s.sets ++ [{ x with phase := .poolWait }] }

/-- LAUNCH (R160): the queue engine reads the packet of a slot. -/
def execLaunch (slot : Nat) (p : LaunchPacket) (s : State) : Out :=
  .next (match s.queue? slot with
    | none => s
    | some q =>
      match s.ctx? q.ctx with
      | none => s
      | some c =>
        if !s.queueReady q || s.headPacket q != p then s
        else match fieldReason p with
        | some r => s.queueError slot q p r
        | none =>
          if s.everFits c (launchSet 0 c.num 0 q.prio p 0) then s.startLaunch c q p else s.queueError slot q p 5)

/-! ### Placement (R10, R27, R28, R98, R153, R163, R203, R230, R248) -/

/-- The view of a child's run, with its ancestors' fields. -/
def newView (id : Nat) (x : ChildSet) (run : Nat) : View :=
  { id, set := x.id, child := x.nextChild, run, parent := x.parentView, ctx := x.ctx, quota := x.quota, dirty := [] }

/-- VIEWID (R248). -/
def viewIdOf (depth : Nat) (parent : Word) (child : Nat) : Word :=
  toWord (depth * 2 ^ 60 + parent.toNat % 2 ^ 32 * 2 ^ 16 + child % 2 ^ 16)

/-- The sequencer of a new team. -/
def Seq.fresh (entry : Word) : Seq :=
  { mpc := entry, run := if entry == 0 then 2 else 0, opened := 0, levels := [], steps0 := { sa := 0, sx := 0, sb := 0, sk := 0 },
    steps1 := { sa := 0, sx := 0, sb := 0, sk := 0 }, lastBar := 0, barPending := false, ms := Vector.replicate 8 0, oa := 0, ox := 0,
    ob := 0, ok := 0, accs := Vector.replicate 6 { e := [], o := [], steps := 0 } }

/-- A team of a child, as placement makes it. -/
def newTeam (s : State) (c : Context) (x : ChildSet) (core k run : Nat) (view : Option Nat) : Team :=
  let q := reqOf x.res
  let child := x.nextChild
  let flock := x.tpf != 0
  let pv := match x.parent.bind s.team? with | some t => t.viewId | none => 0
  let gids := lowestFree c.nGroupAreas x.groups (s.gidsUsed c.num)
  { id := s.nextId, ctx := c.num, grid := x.grid, set := x.id, teamIdx := if flock then child * x.tpf + k else child,
    flockIdx := if flock then child else 0, flockPos := if flock then some k else none, childIdx := child, childN := x.count,
    gridN := x.count * x.unit, run, view, depth := x.depth, viewId := if view.isSome then viewIdOf x.depth pv child else 0, prio := x.prio,
    entry := x.entry, laneBase := x.laneBase, matEntry := x.matEntry, kargs := x.args, vregs := q.vregs, spch := q.spch, ntiles := q.tiles,
    nacc := q.acc,
    groups := gids.mapIdx (fun i gid =>
      let g := Group.fresh gid i x.entry x.laneBase x.inherit
      { g with core := g.core.updArm false (fun a => { a with age := s.cycle }) }),
    spad := [], ops := [], opsUsed := false, tiles := List.replicate q.tiles Tile.none_, bars := List.replicate 16 Barrier.fresh,
    seq := Seq.fresh x.matEntry, place := .running core (s.freeSlot core), stored := false, placedAt := s.fresh,
    saveArea := (lowestFree c.nTeamAreas 1 (s.areasUsed c.num)).headD 0, round := none }

/-- A group's area at its start: the effect area is zeroed, and the image names the extension block (R98, Table 4.4). -/
def State.initArea (s : State) (c : Context) (gid : Nat) : State :=
  let a := c.groupArea gid
  { s with mem := (s.mem.clear (a + 0xC000) 0xA4000).storeLE (a + 0x380) 8 (c.extPtr gid) }

/-- The signature of a hand-over is applied at the die of a core and joins its W (R230). -/
def State.handOver (s : State) (core : Nat) (m : BitVec 64) (sys : Bool) : State :=
  (s.invalidateOut (dieOf core) m sys).orW core m

/-- Place one team of a child. -/
def State.placeTeam (s : State) (c : Context) (x : ChildSet) (core k run : Nat) (view : Option Nat) : State :=
  let t := newTeam s c x core k run view
  let s := { s.bump with teams := s.teams ++ [t] }
  let s := t.groups.foldl (fun (s : State) g => s.initArea c g.gid) s
  s.handOver core x.sigW (!x.isFork)

/-- Place one run of a child: its view, and its teams. -/
def State.placeRun (s : State) (c : Context) (x : ChildSet) (core run : Nat) : State :=
  let viewed := x.kind != .openLaunch
  let vid := s.nextId
  let s := if viewed then { s.bump with views := s.views ++ [newView vid x run] } else s
  let cores := x.unitCores core
  (List.range cores.length).foldl (fun (s : State) k => s.placeTeam c x (cores.getD k 0) k run (if viewed then some vid else none)) s

/-- TEAM_PLACEMENT (R163): the next child of a set is placed at a core, its second run at another. Where it does not fit, the device may
save the chunks and operand stores of the teams that FORK suspends there (R168). -/
def execTeamPlacement (set core core1 : Nat) (s : State) : Out :=
  .next (match s.set? set with
    | none => s
    | some x =>
      match s.ctx? x.ctx with
      | none => s
      | some c =>
        let u := if s.childFits c x core core1 [] then s
          else s.storeForked c (x.unitCores core ++ (if x.mirror then x.unitCores core1 else []))
        if !(s.setTurn x && u.childFits c x core core1 []) then s
        else
          let s := u.placeRun c x core 0
          let s := if x.mirror then s.placeRun c x core1 1 else s
          let s := s.updSet set (fun y => { y with nextChild := y.nextChild + 1 })
          if x.isFork then s
          else { s with grids := updWhere (fun (g : Grid) => g.id == x.grid) (fun g => { g with startedAt := some (g.startedAt.getD s.time), startStep := if g.startedAt.isSome then g.startStep else s.fresh }) s.grids })

/-! ### Completion of a grid (R165) -/

/-- The grid's status (R165). -/
def ChildSet.gridStatus (x : ChildSet) : Half :=
  if x.kind == .openLaunch then (match x.fault with | some (k, code, _) => stChildFault k code | none => stOk) else x.status

/-- The grid is complete (Table 3.1). -/
def State.gridOver (s : State) (x : ChildSet) : Bool :=
  if x.kind == .openLaunch then x.nextChild == x.count && s.teamsOver x
  else x.phase == .done

/-- The end of a grid whose signal is performed or has failed (R165): the COMPLETE record, and the end of the queue slot's hold. -/
def State.gridEnd (s : State) (g : Grid) (x : ChildSet) (failed : Nat) : State :=
  let s := if lpEvent g.pkt then
      s.postEvent g.ctx (eventRec 1 g.slot 0 failed x.gridStatus.toNat g.index g.pkt.sigVal.toNat s.time)
    else s
  { s with grids := updWhere (fun (y : Grid) => y.id == g.id) (fun y => { y with finished := true }) s.grids,
           l1 := s.l1.filter (fun y => !(y.ro && y.grid == g.id)) }

/-- GRID_COMPLETE (R165): the signal, and once it is performed the end of the grid. -/
def execGridComplete (grid : Nat) (s : State) : Out :=
  .next (match s.grid? grid with
    | none => s
    | some g =>
      match s.ctx? g.ctx, s.set? g.set with
      | some c, some x =>
        if g.finished || !s.ctxRuns c.num || !s.gridOver x then s
        else if g.sigSent then (if s.hubWaits grid then s else s.gridEnd g x g.sigLost.toNat)
        else if g.pkt.sigAddr == 0 then s.gridEnd g x 0
        else match s.hubStore c 0 g.pkt.sigAddr (leBytes 8 g.pkt.sigVal.toNat) false grid with
          | some (u, true) => { u with grids := updWhere (fun (y : Grid) => y.id == grid) (fun y => { y with sigSent := true }) u.grids }
          | some (u, false) => u.gridEnd g x 0
          | none => s.gridEnd g x 1
      | _, _ => s)

/-! ### Pre-emption (R169, Table 10.10) -/

/-- The sectors of a REGFILL that have been written beyond a prefix, by their offsets (R196). -/
def CopyRec.beyond (c : CopyRec) (p : Nat) : List Nat :=
  if c.op == .regfill then (List.range ((c.progress - p) / 32)).map (fun i => p + 32 * i) ++ c.ahead else []

/-- Suspend the copies of a team (R196): each keeps its ranges in its record, and goes on later from the prefix that is performed. What
it has issued beyond that prefix and is not performed is issued anew then. A REGFILL keeps which sectors it has written, for its record. -/
def State.suspendCopies (s : State) (t : Team) : State :=
  let mine := (s.copies.filter (fun c => c.team == t.id)).map (fun c => copyGroup c.id)
  { s with copies := updWhere (fun (c : CopyRec) => c.team == t.id) (fun c =>
             { c with suspended := true, ranges := s.rangesOf (.copy c.id), progress := s.copyPrefix t c, ahead := c.beyond (s.copyPrefix t c), turn := none, buf := [] }) s.copies,
           heldWrites := s.heldWrites.filter (fun h => match h.owner with | some o => !(o.1 == t.id && mine.contains o.2.1) | none => true) }

/-- Release the ranges of a team's suspended copies. -/
def State.dropRanges (s : State) (tid : Nat) : State :=
  let mine := (s.copies.filter (fun c => c.team == tid)).map (fun c => Owner.copy c.id)
  { s with hurdles := s.hurdles.filter (fun h => !mine.contains h.owner) }

/-- Write every image of a team (R55, R98, R196, R202, R218). -/
def State.saveAll (s : State) (c : Context) (t : Team) : State :=
  let s := t.groups.foldl (fun (s : State) g => s.saveGroup c g) s
  ((s.saveTiles c t).saveSeq c t).saveTeam c t

/-- Where a team is after its pre-emption. -/
def Place.evict : Place → Place
  | .running c _ => .preempted c
  | .forked c _ => .forked c false
  | .folded c _ => .folded c false
  | p => p

/-- No arm of the team is in the middle of an LQ (log 28). -/
def Team.betweenWords (t : Team) : Bool := t.groups.all (fun g => g.core.armA.lqLeft == 0 && g.core.armB.lqLeft == 0)

/-- Pre-empt a team. One whose last operation completes as its sequencer stops has retired (R86, R210). -/
def State.preempt (s : State) (c : Context) (tid : Nat) : State :=
  let s := ((s.stopSeq tid).suspendMops tid).settleTeam tid
  match s.team? tid with
  | none => s
  | some t =>
    if t.isEnded then s
    else
      let s := s.suspendCopies t
      let s := ((s.saveAll c t).dropRanges tid).updTeam tid (fun x => { x with place := x.place.evict })
      { s with heldPackets := s.heldPackets.filter (fun p => p.team != tid), l1 := s.l1.filter (fun x => !(x.ro && x.grid == t.grid && some x.core == t.core?)) }

/-- PREEMPTION (R169): a team that a placement of a higher priority needs gone. -/
def execPreemption (team : Nat) (s : State) : Out :=
  .next (match s.team? team with
    | none => s
    | some t =>
      match s.ctx? t.ctx with
      | some c => if s.toPreempt.contains team && t.betweenWords then s.preempt c team else s
      | none => s)

/-! ### Resumption (R168, R171, Table 10.11) -/

/-- The MOUT or MAMAX at MPC of a save area, for a PART[7] that no suspended operation of the team stands behind. -/
def State.partWord (s : State) (c : Context) (t : Team) : Option Instr :=
  match s.fetchMat c t.coreNum (rd8 s.mem (c.teamArea t.saveArea + 0xC000) 0) with
  | .ok i => (match i with | .mout .. | .mamax .. => some i | _ => none)
  | .error _ => none

/-- A team as its save area holds it; none: the restore fails (R202, R218). -/
def State.readTeam (s : State) (c : Context) (t : Team) : Option Team :=
  let a := c.teamArea t.saveArea
  match readTiles s.mem a t, readSeq s.mem a t.nacc ((s.partOf t.id).isSome || (s.partWord c t).isSome) t.seq with
  | some t, some q => some { t with seq := q }
  | _, _ => none

/-- Scratchpad and operand store of a team as its save area holds them (Table 10.11, step 1). -/
def State.readStores (s : State) (c : Context) (t : Team) : Team :=
  let a := c.teamArea t.saveArea
  { t with spad := s.mem.window (a + 0x10000) (t.spch * 4096), ops := if t.opsUsed then s.mem.window (a + 0x210000) 0x80000 else t.ops }

/-- The operation that a MOUT or MAMAX word makes for a team whose sequencer has been read back; `m` gives its number, its rows and MPC. -/
def State.partMop (s : State) (t : Team) (i : Instr) (m : MOp) : MOp :=
  let q := t.seq
  let put := fun (r : Rng) => [({ core := r.core, owner := .mop m.id, space := r.space, lo := r.lo, hi := r.hi, write := r.write } : Hurdle)]
  match i with
  | .mout fmt _ _ _ ta _ off rows cols =>
    { m with tiles := if moutTiled fmt then [q.ta ta] else [], off := 64 * q.boff off,
             ranges := put (t.moutRng fmt (64 * q.boff off) (rows.toNat + 1) (cols.toNat + 1)) }
  | .mamax _ aux _ _ => { m with ranges := put (t.mamaxRng s (q.ms.getD aux.toNat 0).toNat) }
  | _ => m

/-- The suspended MOUT or MAMAX of a team, read back, as its save area holds it (Table 12.4). One that the device had not suspended is made
from the word at MPC: DESIGN CHOICE (log 94). -/
def State.readPartOf (s : State) (c : Context) (t : Team) : State :=
  match s.partOf t.id with
  | none =>
    (match s.partWord c t with
     | none => s
     | some i =>
       let m : MOp := { id := s.nextId, team := t.id, instr := i, tiles := [], off := 0, mpc := 0, rowsDone := 0, pmax := 0, faulted := false,
                        suspended := true, ranges := [] }
       match readPart s.mem (c.teamArea t.saveArea) (s.partMop t i m) with
       | some n => { s.bump with mops := s.mops ++ [n] }
       | none => s)
  | some m =>
    match readPart s.mem (c.teamArea t.saveArea) m with
    | some n => { s with mops := updWhere (fun (x : MOp) => x.id == m.id) (fun _ => n) s.mops }
    | none => { s with mops := s.mops.filter (fun y => y.id != m.id) }

/-- A group as its image and its queue save hold it; none: the restore fails (R56). -/
def State.readGroupOf (s : State) (c : Context) (t : Team) (g : Group) : Option Group :=
  let area := c.teamArea t.saveArea
  let q := area + 0x400 * g.grpidx
  match readGroup s.mem (c.groupArea g.gid) t.vregs g (readBarWait s.mem area g.grpidx), readQueue s.mem (q + 0x40) (s.mem.le q 4) t.vregs g.queue true g.core.armA.mask s.nextId with
  | some g, some es => some ({ g with queue := es }.againWaits t).againAbandoned
  | _, _ => none

/-- The operations of a resumed team go on, on its core, with their ranges registered again. A copy goes on from the device's own record of it:
its progress record is not read back, DESIGN CHOICE (log 101). -/
def State.resumeOps (s : State) (tid core : Nat) : State :=
  { s with hurdles := s.hurdles ++ s.rangesAt tid core,
           copies := updWhere (fun (c : CopyRec) => c.team == tid) (fun c => { c with suspended := false, ranges := [], ahead := [], core := core }) s.copies,
           mops := updWhere (fun (m : MOp) => m.team == tid) (fun m => { m with suspended := false, ranges := [] }) s.mops }

/-- A sequencer or tile restore failed: the team is killed, and the sequencer's stop record has FLAGS[2] set (R202). -/
def State.failTeam (s : State) (t : Team) : State :=
  let r := { s.seqStop t cILLEGAL 0 with flags := 4 }
  let s := (s.writeStop t.ctx r).killAll t cILLEGAL 0
  s.teamFault t cILLEGAL 0

/-- A group's restore failed: it is killed with ILLEGAL_OPCODE, and its stop record has FLAGS[2] set (R56). -/
def State.failGroup (s : State) (tid g : Nat) : State :=
  match s.team? tid, s.group? tid g with
  | some t, some y =>
    let z := { y with core := y.core.updArm false (fun a => { a with code := BitVec.ofNat 8 cILLEGAL }) }
    s.killGroup t y (armStop t z false { code := cILLEGAL } 1 4)
  | _, _ => s

/-- Put a team back on a core: its ages are zero (R171 step 6), and R230 is applied. -/
def State.putTeam (s : State) (tid core : Nat) (t : Team) : State :=
  let s := s.carryVec (dieOf t.coreNum) (dieOf core)
  let fresh := fun (a : Arm) => { a with age := s.cycle, yielded := none }
  let s := s.updTeam tid (fun _ =>
    { t with place := .running core (s.freeSlot core), stored := false, placedAt := s.fresh,
             groups := t.groups.map (fun g => { g with core := { g.core with armA := fresh g.core.armA, armB := fresh g.core.armB } }) })
  let s := s.resumeOps tid core
  let s := s.sweepDie (dieOf core)
  { s with w := accSet s.w core (BitVec.allOnes 64) }

/-- Resume a team on a core. `whole`: its groups, scratchpad and operand store come from the image too; the stores also where the device
saved them for a child (R168). -/
def State.resume (s : State) (c : Context) (t : Team) (core : Nat) (whole : Bool) : State :=
  match s.readTeam c t with
  | none => (s.putTeam t.id core t).failTeam { t with place := .running core 0 }
  | some t1 =>
    let s := s.readPartOf c t1
    let t2 := if whole || t.stored then s.readStores c t1 else t1
    let rs := t2.groups.map (fun g => (g, if whole && !g.retired then s.readGroupOf c t2 g else some g))
    let t3 := { t2 with groups := rs.map (fun r => r.2.getD r.1) }
    let s := s.bumpBy 16
    let s := s.putTeam t.id core t3
    ((rs.filter (fun r => r.2.isNone)).foldl (fun (s : State) r => s.failGroup t.id r.1.grpidx) s).settleTeam t.id

/-- TEAM_RESUMPTION (R171). -/
def execTeamResumption (team core : Nat) (s : State) : Out :=
  .next (match s.team? team with
    | none => s
    | some t =>
      match s.ctx? t.ctx with
      | some c => if t.isPreempted && s.teamTurn t && s.teamFits c t core [] then s.resume c t core true else s
      | none => s)

/-- The last fork of a team that has ended. -/
def State.lastFork (s : State) (t : Nat) : Option ChildSet :=
  (s.sets.filter (fun x => x.parent == some t && x.phase == .done)).getLast?

/-- PARENT_RESUME (R168): the parent goes on after its fold, and each group receives its join status or enters a handler. The copies of a
parent that was not pre-empted pause while it moves to its core (log 30). -/
def execParentResume (team core : Nat) (s : State) : Out :=
  .next (match s.team? team with
    | none => s
    | some t =>
      match s.ctx? t.ctx, s.lastFork team with
      | some c, some x =>
        if t.isFolded && s.teamTurn t && s.teamFits c t core [] then
          let s := if t.imaged then s else (s.suspendCopies t).dropRanges team
          let s := (s.resume c t core t.imaged).handOver core x.foldW false
          s.wakeForks team x.status x.info.count
        else s
      | _, _ => s)

end Sys2Proof.Machine
end

