-- ==== Sys2Proof/Machine/Lifecycle.lean ====
section
/-! DEFINITION. How work ends: replies (R25, R170), delivery of lane faults (R110), halo pushes (R236), retirement of groups
(R86), the watchdog (R172), halts (R174, R176), and the removal of a context (R178). -/

namespace Sys2Proof.Machine

open Sys2Proof

/-! ### Replies (R25) -/

/-- MEMORY_RESPONSE (R25): an outstanding access is read, with the older ones it depends on, and fills its destination. None arrives at a
die that has stopped for a frequency change (R17). -/
def execMemoryResponse (id : Nat) (s : State) : Out :=
  .next (match s.pending.find? (fun p => p.id == id) with
    | none => s
    | some p =>
      if (match s.team? p.team with | some t => s.dieStopped (dieOf t.coreNum) | none => false) then s
      else match (if p.unbound then s.bind p else some s) with
      | none => s
      | some s =>
        match s.pending.find? (fun q => q.id == id) with
        | some q => if q.done then s.fillPending q else s
        | none => s)

/-! ### Delivery of lane faults (R110) -/

/-- The arm waits in an instruction that has changed state and completes before a delivery (R110, log 33). -/
def Arm.inWait (a : Arm) : Bool := match a.wait with | .bar _ _ | .fork | .root => true | _ => false

/-- What a delivery saves (R110): the shepherd stops after an instruction that it completed since the fault, before one that it abandons,
or in an LQ after its last whole word. Loop-end processing after a completed instruction, and after the LQ, is left to RESUME (R69). -/
def laneRaise (a : Arm) (f : LaneFault) (q : List QEntry) : Raise :=
  let inLq := a.lqLeft != 0 && !a.lqOwed
  { rkind := 3, mask := f.mask, cspc := if inLq then a.spc + 4 else a.spc, clpc := a.lpc, lqrem := a.lqLeft,
    repj := if a.lqLeft != 0 then a.lqRep else 0, queue := q, arg := f.addr, after := inLq || (f.stopped && f.after) }

/-- The shepherd of a group whose lane fault takes its ordinary course stands after the instruction that it has completed, with its
loop-end processing (R69). -/
def Group.unstop (g : Group) (f : LaneFault) : Group :=
  if g.stopped && f.after then { g with core := g.core.updArm false (fun a => a.advance g.lbase a.spc) } else g

/-- What an abandoned instruction had read on its own account goes (R110). -/
def State.dropAbandoned (s : State) (t g : Nat) : State :=
  { s with heldPackets := s.heldPackets.filter (fun p => !(p.team == t && p.grp == g)),
           pending := s.pending.filter (fun p => !(p.team == t && p.grp == g && p.dest == .packet)) }

/-- A lane fault takes its course (R109, R110, R172). A group whose lanes have all retired has no shepherd left to run a handler. -/
def State.deliverLane (s : State) (t : Team) (g : Group) (f : LaneFault) : State :=
  let ord := fun (code : Nat) =>
    let y := g.unstop f
    (s.updGroup t.id g.grpidx (fun _ => y)).ordinary t y f.armB { code, addr := f.addr, mask := f.mask } 2
  let e := effectOf f.code false
  if e == 0 || g.core.split || g.exiting then ord f.code
  else match g.search 0 (BitVec.ofNat 16 e) true with
  | .none | .root => ord f.code
  | fr =>
    match ({ g with queue := [], frozen := none }).enter fr.code (BitVec.ofNat 16 e) (laneRaise g.core.armA f g.queue) with
    | some y => (s.dropAbandoned t.id g.grpidx).putEntered t.id g.grpidx fr.code y
    | none => ord cTOKEN

/-- A lane fault of a group may be delivered: its engine may still act, and the fault has not been recorded for its context's halt
(R174). The work of a context that is being removed is discarded instead (R178). -/
def State.mayDeliver (s : State) (t : Team) (g : Group) (f : LaneFault) : Bool :=
  s.engineLive t (.lane t.id g.grpidx) 5 &&
  (match s.ctx? t.ctx with | some c => !c.removing && !c.faulted 2 g.gid f.armB | none => false)

/-- LANE_FAULT_DELIVERY (R110): it takes place when every earlier entry of the lane queue has executed. -/
def execLaneFaultDelivery (team grp : Nat) (s : State) : Out :=
  .next (match s.team? team, s.group? team grp with
    | some t, some g =>
      match g.frozen with
      | none => s
      | some f =>
        if s.mayDeliver t g f && !g.retired && g.faultIdx == some 0 && !(g.core.arm f.armB).inWait then s.deliverLane t g f
        else s
    | _, _ => s)

/-! ### Halo pushes (R236) -/

/-- A page-table entry that pins a line to a slice of its die. -/
def pinPte (slice : Nat) : BitVec 64 := BitVec.ofNat 64 (0x2000000000000000 + slice % 32 * 0x100000000000000)

/-- Neighbours of a tile in the order of a push: E, W, S, N, and with CORNERS SE, SW, NE, NW. -/
def Region.neighbours (r : Region) (t : Nat) : List Nat :=
  let dirs : List (Int × Int) := [(1, 0), (-1, 0), (0, 1), (0, -1)] ++ (if r.corners then [(1, 1), (-1, 1), (1, -1), (-1, -1)] else [])
  dirs.filterMap (fun d =>
    let nx : Int := (t % r.tx : Nat) + d.1
    let ny : Int := (t / r.tx : Nat) + d.2
    if nx < 0 ∨ (r.tx : Int) ≤ nx ∨ ny < 0 ∨ (r.ty : Int) ≤ ny then none else some (ny.toNat * r.tx + nx.toNat))

/-- The replica cells of tile `n` whose source lies in tile `t`: offset of the cell, and of its source in `t`. -/
def Region.replicas (r : Region) (n t : Nat) : List (Nat × Nat) :=
  (List.range (r.h + 2 * r.hw)).flatMap (fun row => (List.range (r.w + 2 * r.hw)).filterMap (fun col =>
    let o := row * r.rpitch + col * r.esz
    match r.sourceOf n o with
    | some (m, y, x) => if m == t then some (o, y * r.rpitch + x * r.esz) else none
    | none => none))

/-- One replica cell takes the current value of its source. A read of a poisoned cell, or a write to part of a poisoned sector, is a
consumption, and writes nothing (R241). A host copy of the replica's line is invalidated in the same step (log 32). -/
def State.pushCell (s : State) (r : Region) (slice dst src : Nat) : StoreRes :=
  if s.poisoned src r.esz || s.partialPoison dst r.esz then { poison := true, s }
  else { poison := false, s := (s.takeBack dst).writeHome (pinPte slice) dst (s.mem.bytes src r.esz) (some r.ctx) none none }

/-- The push of tile `t`: every replica of its interior cells in its neighbours takes their current values. Cells that meet no poison are
pushed also where others do (log 91). -/
def State.push (s : State) (r : Region) (t : Nat) : StoreRes :=
  (r.neighbours t).foldl (fun (x : StoreRes) n =>
    (r.replicas n t).foldl (fun (x : StoreRes) p =>
      let y := x.s.pushCell r (r.slices.getD n 0) (r.gaOf n p.1) (r.gaOf t p.2)
      { y with poison := x.poison || y.poison }) x) { poison := false, s }

/-- A lane memory instruction of a group's arm before a place in program order is still queued. -/
def State.queuedBefore (s : State) (h : HaloRel) : Bool :=
  match s.group? h.team h.grp with
  | some g => g.queue.any (fun e => (e.armB == h.armB || e.both || h.both) && isLaneMem e.opc && e.active != 0 && decide (e.po < h.po))
  | none => false

/-- Perform a REL.halo whose turn has come: the push, then the flag store, which waits for a host that holds its line (R238). Poison that
the push or the flag meets is consumed by the group (R241, log 91). -/
def State.relHalo (s : State) (h : HaloRel) (r : Region) (c : Context) : State :=
  let key := (h.team, h.grp, h.armB)
  let s := { s with haloRels := s.haloRels.filter (fun x => x.id != h.id) }
  let w := (whoOf c h.core).write h.flag (some key) h.po [(h.flag.loc.addr, leBytes h.flag.size h.value)] (some h.w)
  let p := s.push r h.tile
  if p.poison then p.s.consume h.team h.grp h.armB h.flag.va 0 1
  else if p.s.hostHas w then p.s.keepWrite { w with both := h.both }
  else
    let x := p.s.putWrite w
    if x.poison then x.s.consume h.team h.grp h.armB h.flag.va 0 1 else x.s

/-- HALO_PUSH (R236): it takes place once every memory event of the arm before the REL.halo is performed, loads included; pushes of one arm
go in program order. -/
def execHaloPush (id : Nat) (s : State) : Out :=
  .next (match s.haloRels.find? (fun h => h.id == id) with
    | none => s
    | some h =>
      let key := (h.team, h.grp, h.armB)
      match s.regions[h.region]?, s.team? h.team with
      | some r, some t =>
        match s.ctx? t.ctx with
        | none => s
        | some c =>
          if s.ctxStopped c || s.dieStopped (dieOf h.core) || s.writesBefore key h.po true h.sys || s.queuedBefore h ||
              s.pending.any (fun p => p.ofArm key && p.waits && decide (p.po < h.po)) then s
          else match s.bindWhere key (fun p => decide (p.po < h.po)) with
          | none => s
          | some u => if s.alive key && !u.alive key then u else u.relHalo h r c
      | _, _ => s)

/-! ### Retirement of a group (R86) -/

/-- A group has an access on its way. -/
def State.groupOut (s : State) (t g : Nat) : Bool :=
  s.pending.any (fun p => p.team == t && p.grp == g) || s.haloRels.any (fun h => h.team == t && h.grp == g) ||
  s.peerStores.any (fun p => p.team == t && p.grp == g) || s.causalStores.any (fun c => c.team == t && c.grp == g) ||
  s.heldWrites.any (fun h => match h.owner with | some o => o.1 == t && o.2.1 == g | none => false)

/-- A group as its retirement leaves it (R86, R113). -/
def Group.retire (g : Group) : Group :=
  { g with core := { g.core with live := 0 }, queue := [], frozen := none, tokens := 0, frames := [], inherited := [], slot0 := Slot.free,
           slot1 := Slot.free, exiting := false, retired := true }

/-- Retire a group whose accesses are performed. -/
def State.retireGroup (s : State) (t g : Nat) : State :=
  let s := s.updGroup t g Group.retire
  ((s.barSettle t g).settleTeam t).forkCheck t

/-- Nothing of what a lane queue holds can execute any more: its oldest entries wait for registers, or it has frozen, and no access of the
group is on its way. -/
def State.queueStuck (s : State) (t : Nat) (g : Group) : Bool :=
  !s.groupOut t g.grpidx && s.copies.all (fun c => c.team != t) &&
  (g.frozen.isSome || [false, true].all (fun b =>
    match g.nextEntry b with
    | some (_, e) => (match laneOf e.instr with | some (o, f) => (ownPre o f g e (e.lanes g.core f)).1 != 0 | none => false)
    | none => true))

/-- GROUP_RETIRE (R86): it takes place once the group's queue is empty and its accesses have been performed. In a context
that is being removed, what can execute no more is discarded (R178): DESIGN CHOICE (log 34). -/
def execGroupRetire (team grp : Nat) (s : State) : Out :=
  .next (match s.team? team, s.group? team grp with
    | some t, some g =>
      let removing := match s.ctx? t.ctx with | some c => c.removing | none => false
      if !g.exiting || g.retired || !s.teamLive t then s
      else if removing && s.queueStuck team g then (s.dropPending team grp).retireGroup team grp
      else if g.queue.isEmpty && !s.groupOut team grp then s.retireGroup team grp
      else s
    | _, _ => s)

/-! ### The watchdog (R172) -/

/-- WATCHDOG (R172): a grid has run for longer than its context's limit, in microseconds. -/
def execWatchdog (grid : Nat) (s : State) : Out :=
  .next (match s.grid? grid with
    | none => s
    | some g =>
      match s.ctx? g.ctx, g.startedAt with
      | some c, some t0 =>
        if s.ctxRuns c.num && !g.finished && c.watchdog != 0 && decide (c.watchdog * 1000 < s.time - t0) then
          s.raiseHalt c.num { kind := 6, code := cWATCHDOG, unit := 0, armB := false, core := 0xFFFFFFFF, addr := 0, mask := 0, tcode := 0, data := 0 }
        else s
      | _, _ => s)

/-! ### Halts (R174, R176) -/

/-- Write a fault into the record of its unit. `flag` 1: it raised the line (ORIGIN). -/
def Origin.mark (o : Origin) (flag : Nat) (r : StopRec) : StopRec :=
  let b := r.flags / 2 % 2 == 1
  if o.kind == r.kind && o.unit == r.unit && o.core == r.core && (r.kind != 1 || o.armB == b) then
    { r with code := o.code, flags := r.flags + flag, addr := o.addr.toNat, mask := o.mask.toNat, tcode := o.tcode,
             data := if r.kind == 4 || r.kind == 3 then r.data else o.data.toNat }
  else r

/-- The stop records of a group: one for each arm that has not exited, and one of the lane engine, which names the arm of the entry
that has faulted, else arm A (Table 10.12). -/
def groupStops (t : Team) (g : Group) : List StopRec :=
  let arm := fun (b : Bool) => if (g.core.arm b).wait == .exited then [] else [armStop t g b { code := 0 } 1 0]
  arm false ++ (if g.core.split then arm true else []) ++ [armStop t g (match g.frozen with | some f => f.armB | none => false) { code := 0 } 2 0]

/-- The stop records of a team: its groups, and its sequencer when it has a stream. -/
def State.teamStops (s : State) (t : Team) : List StopRec :=
  (t.groups.filter (fun g => !g.retired)).flatMap (fun g => groupStops t g) ++ (if t.seq.run == 2 then [] else [s.seqStop t 0 0])

/-- The stop records of the copy engines: one for each core with a packet of the context, of the packet that faulted there first, or
else the oldest (R196). -/
def State.copyStops (s : State) (ctx : Nat) (o : Origin) (later : List Origin) : List StopRec :=
  let cs := s.copies.filter (fun c => !c.suspended && (match s.team? c.team with | some t => t.ctx == ctx | none => false))
  let cores := cs.foldl (fun (l : List Nat) c => if l.contains c.core then l else l ++ [c.core]) []
  cores.filterMap (fun k =>
    let here := cs.filter (fun c => c.core == k)
    let fault := (o :: later).find? (fun f => f.kind == 4 && f.core == k)
    match fault.bind (fun f => (here.find? (fun c => c.id == f.copy)).map (fun c => (f, c))) with
    | some (f, c) => (s.team? c.team).map (fun t => { s.copyStop t c f.code f.addr.toNat with flags := (f == o).toNat })
    | none => here.head?.bind (fun c => (s.team? c.team).map (fun t => s.copyStop t c 0 0)))

/-- The stop records of fold engines: one for each slice with staged granules of the context. -/
def State.foldStops (s : State) (ctx : Nat) : List StopRec :=
  let ks := (s.sets.filter (fun x => x.ctx == ctx && x.phase == .joined)).flatMap (fun x =>
    x.staged.map (fun g => s.sliceOf (x.heldOf g.ga).pte g.ga))
  let sl := ks.foldl (fun (l : List Nat) k => if l.contains k then l else l ++ [k]) []
  sl.map (fun k => { kind := 5, code := 0, unit := k, core := k })

/-- Every stop record of a halt, with the origin marked; the origin's record goes first (log 47). The faults of other engines in their
skid stand in their own records. -/
def State.haltStops (s : State) (ctx : Nat) (o : Origin) : List StopRec :=
  let ts := s.teams.filter (fun t => t.ctx == ctx && t.core?.isSome)
  let later := match s.ctx? ctx with | some c => c.faults | none => []
  let rs := (ts.flatMap (fun t => s.teamStops t)).map (fun r => later.foldl (fun (r : StopRec) f => f.mark 0 r) (o.mark 1 r))
  let all := rs ++ s.copyStops ctx o later ++ s.foldStops ctx ++
    (if o.kind == 6 then [({ kind := 6, code := o.code, flags := 1, core := 0xFFFFFFFF } : StopRec)] else [])
  all.filter (fun r => r.flags % 2 == 1) ++ all.filter (fun r => r.flags % 2 != 1)

/-- A group whose lane queue a halt has discarded. -/
def Group.halted (g : Group) : Group := { g with queue := [], frozen := none }

/-- Open view trees that have not reached their commit point abort (R174, R178). -/
def State.abortTrees (s : State) (ctx : Nat) : State :=
  let go := fun (x : ChildSet) => x.ctx == ctx && x.kind != .openLaunch && (x.phase == .running || x.phase == .joined || x.phase == .poolWait)
  { s with sets := updWhere go (fun x => { x with phase := .aborted, staged := [] }) s.sets }

/-- The stop of a context (R174): sequencers reach their boundary, records are written, lane queues are discarded, images are
written, open trees abort, and a STOP record is posted. -/
def State.applyHalt (s : State) (c : Context) (o : Origin) : State :=
  let ids := (s.teams.filter (fun t => t.ctx == c.num && t.core?.isSome)).map (fun t => t.id)
  let s := ids.foldl (fun (s : State) t => s.stopSeq t) s
  let s := (s.haltStops c.num o).foldl (fun (s : State) r => s.writeStop c.num r) s
  let s := ids.foldl (fun (s : State) t => s.updTeam t (fun x => { x with groups := x.groups.map Group.halted })) s
  let s := ids.foldl (fun (s : State) t => match s.team? t with | some x => s.saveAll c x | none => s) s
  let s := (s.abortTrees c.num).updCtx c.num (fun x => { x with halt := .applied o.code })
  match s.ctx? c.num with
  | some x => s.postEvent c.num (eventRec 2 o.code 0 0 x.stops x.stopsLost x.imageBase s.time)
  | none => s

/-- HALT (R174): the stop of a context whose halt line has risen, unless it is held (R18). -/
def execHalt (ctx : Nat) (s : State) : Out :=
  .next (match s.ctx? ctx with
    | none => s
    | some c =>
      match c.halt with
      | .raised o => if s.haltHeld ctx then s else s.applyHalt c o
      | _ => s)

/-! ### Removal (R178) -/

/-- An arm that the injected exit ends; one that was waiting has received REMOVED first. `blocked`: it was waiting. -/
def Arm.remove (a : Arm) (blocked : Bool) : Arm :=
  { a with code := if blocked then BitVec.ofNat 8 cREMOVED else a.code, wait := .exited, mask := 0, stack := [], lqLeft := 0, lqWords := [], lqRun := none, lqOwed := false, rep := none }

/-- A group one of whose arms exits; with its last one, the group does. -/
def Group.removeArm (g : Group) (b blocked : Bool) : Group :=
  let lanes := (g.core.arm b).mask
  let c := g.core.updArm b (fun a => a.remove blocked)
  if c.armA.wait == .exited && (!c.split || c.armB.wait == .exited) then
    { g with core := { c with live := 0 }, rootDest := none, exiting := true }
  else { g with core := { c with live := c.live &&& ~~~ lanes } }

/-- Arms of a team that have not exited: team, group and arm. -/
def Team.armsLeft (t : Team) : List (Nat × Nat × Bool) :=
  (t.groups.filter (fun g => !g.retired)).flatMap (fun g =>
    [false, true].filterMap (fun b => if (b && !g.core.split) || (g.core.arm b).wait == .exited then none else some (t.id, g.grpidx, b)))

/-- One team of a removed context: an exit is injected into every arm of a running one, and a pre-empted or suspended one is discarded. Its
copies are cancelled, and its sequencer stops (R178, R196, R216). A team of a context that has stopped has no engine left to exit by:
it is discarded (log 34). -/
def State.removeTeam (s : State) (tid : Nat) : State :=
  let cs := (s.copies.filter (fun c => c.team == tid)).map (fun c => c.id)
  let s := cs.foldl (fun (s : State) c => s.dropCopy c) s
  match s.team? tid with
  | none => s
  | some t =>
    let stopped := match s.ctx? t.ctx with | some c => s.ctxStopped c | none => true
    match t.place with
    | .running _ _ =>
      if stopped then State.killTeam s tid else
      let s := { s with agenda := t.armsLeft.map (fun (k : Nat × Nat × Bool) => Action.exit k.1 k.2.1 k.2.2) ++ s.agenda }
      s.updTeam tid (fun x => { x with seq := { x.seq with run := if x.seq.run == 2 then 2 else 1 }, round := none })
    | .ended _ => s
    | _ => State.killTeam s tid

/-- Begin the removal of a context. -/
def State.removeContext (s : State) (n : Nat) : State :=
  let ts := s.teams.filter (fun t => t.ctx == n)
  let exits := ((ts.filter (fun t => t.core?.isSome)).map (fun t => (t.groups.filter (fun g => !g.retired)).length)).sum
  let s := s.updCtx n (fun c => { c with removing := true, exited := exits, heldEffects := [], rootTokens := [] })
  let s := s.abortTrees n
  let s := { s with sets := updWhere (fun (x : ChildSet) => x.ctx == n) (fun x => { x with nextChild := x.count }) s.sets }
  ts.foldl (fun (s : State) t => s.removeTeam t.id) s

/-- REMOVED (R178): every team is gone; the queues are unbound and a REMOVED record is posted. -/
def execRemoved (ctx : Nat) (s : State) : Out :=
  .next (match s.ctx? ctx with
    | none => s
    | some c =>
      if c.removing && !c.removedPosted && s.teams.all (fun t => t.ctx != ctx || t.isEnded) then
        let s := { s with queues := s.queues.filter (fun q => q.ctx != ctx),
                          grids := updWhere (fun (g : Grid) => g.ctx == ctx) (fun g => { g with finished := true }) s.grids,
                          l1 := s.l1.filter (fun x => !(x.ro && s.grids.any (fun g => g.id == x.grid && g.ctx == ctx))) }
        (s.updCtx ctx (fun c => { c with removedPosted := true })).postEvent ctx (eventRec 4 0 0 0 c.exited 0 0 s.time)
      else s)

end Sys2Proof.Machine
end

