-- ==== Sys2Proof/Machine/Host.lean ====
section
/-! DEFINITION. Events of the slices, the host and peer packages: the outfield sweep (R227), poisoned write-back (R240),
CXL.mem and CXL.cache (R238), and peer traffic (R237, R241). An event that is not enabled changes nothing. -/

namespace Sys2Proof.Machine

open Sys2Proof

/-! ### Sweep and poison -/

/-- OUTFIELD_SWEEP (R227): every outfield line of the die and every L1 copy of one is invalidated. -/
def execOutfieldSweep (die : Nat) (s : State) : Out := .next (s.sweepDie die)

/-- A POISON_WRITTEN record (Table 22.6). -/
def poisonRecord (time slice line : Nat) (ctx : Option Nat) : BitVec 256 :=
  eventRec 0x60 (slice / 32) (slice % 256) (slice / 256) (ctx.getD 0xFFFFFFFF) (line * 128 % 0x100000000000000) 0 time

/-- Poison a private copy of a view, or a twin (log 35): `k` is twice its number, plus 1 for a twin. -/
def State.poisonCopy (s : State) (k ga : Nat) : State :=
  let bad := fun (g : Granule) => g.ga == ga / 128 * 128
  let mark := fun (g : Granule) => { g with bad := 0xF }
  if k % 2 = 0 then s.updView (k / 2) (fun v => { v with dirty := updWhere bad mark v.dirty })
  else s.updSet (k / 2) (fun x => { x with twins := updWhere bad mark x.twins })

/-- Does a private copy or a twin stand there? -/
def State.hasCopy (s : State) (k ga : Nat) : Bool :=
  let hit := fun (g : Granule) => g.ga == ga / 128 * 128
  if k % 2 = 0 then (match s.view? (k / 2) with | some v => v.dirty.any hit | none => false)
  else (match s.set? (k / 2) with | some x => x.twins.any hit | none => false)

/-- A dirty line, pinned or not, is found uncorrectable when it is read (R240): it is poisoned in place, and the read that follows consumes
it (R241). An address from 2^64 up names a private copy of a view, or a twin (log 35). -/
def State.spoil (s : State) (ga : Nat) : State :=
  if 0x10000000000000000 ≤ ga then
    let k := ga / 0x10000000000000000 - 1
    if s.hasCopy k (ga % 0x10000000000000000) then s.poisonCopy k (ga % 0x10000000000000000) else s
  else match s.inLine? (lineOf ga) with
  | some l =>
    let xs := sectorsOf (l.line * 128) 128
    if l.dirty then { s with poison := xs ++ s.poison.filter (fun x => !xs.contains x) } else s
  | none => s

/-- POISON_WRITTEN (R240): a dirty line that is evicted is uncorrectable. It goes to HBM with every sector poisoned, and a
record is logged. An address from 2^64 up names a private copy or a twin: its upper part less one is k (log 35). -/
def execPoisonWritten (addr : Nat) (s : State) : Out :=
  let ga := addr % 0x10000000000000000
  if addr < 0x10000000000000000 then
    .next (match s.inLine? (lineOf ga) with
      | none => s
      | some l =>
        if !l.dirty || l.pin then s
        else
          let base := lineOf ga * 128
          let s := { s with infield := s.infield.filter (fun x => x.line != l.line),
                            poison := sectorsOf base 128 ++ s.poison.filter (fun x => !(sectorsOf base 128).contains x) }
          s.logEvent (poisonRecord s.time l.slice l.line l.ctx))
  else
    let k := addr / 0x10000000000000000 - 1
    .next (if s.hasCopy k ga then
        let ctx := if k % 2 = 0 then (s.view? (k / 2)).map (fun v => v.ctx) else (s.set? (k / 2)).map (fun x => x.ctx)
        (s.poisonCopy k ga).logEvent (poisonRecord s.time (s.sliceOf (s.pteFor ga) ga) (lineOf ga) ctx)
      else s)

/-! ### The host and peer packages -/

/-- Cut bytes at line boundaries: (address, bytes). `fuel`: at most as many pieces as bytes. -/
def cutLines : Nat → Nat → List Byte → List (Nat × List Byte)
  | 0, _, _ => []
  | fuel + 1, a, bs =>
    if bs.isEmpty then []
    else
      let k := 128 - a % 128
      (a, bs.take k) :: cutLines fuel (a + k) (bs.drop k)

/-- An access from outside to a CAUSAL page is ordered traffic, injected by die 8 (R269). -/
def State.causalPage (s : State) (ga : Nat) : Bool := pteCausal (s.pteFor ga)

/-- The barrier that an arm waits in. -/
def Group.barOf (g : Group) (b : Bool) : Option Nat := match (g.core.arm b).wait with | .bar n _ => some n | _ => none

/-- A group that runs takes the bytes written to its image or effect area (R55, R98). Bytes that no restore accepts make the restore
fail (R56). -/
def State.takeImage (s : State) (c : Context) (t : Team) (g : Group) (ga : Nat) (bs : List Byte) : State :=
  match readGroup ((s.saveGroup c g).mem.store ga bs) (c.groupArea g.gid) t.vregs g g.barOf with
  | none => s.failGroup t.id g.grpidx
  | some y =>
    let keep := fun (new old : Arm) => { new with age := old.age, yielded := old.yielded }
    s.updGroup t.id g.grpidx (fun _ => { y with core := { y.core with
      armA := keep y.core.armA g.core.armA, armB := if y.core.split then keep y.core.armB g.core.armB else y.core.armB } })

/-- The groups that run and whose image or effect area meets some bytes. -/
def State.imageMeets (s : State) (ga n : Nat) : List (Context × Team × Group) :=
  s.teams.flatMap (fun t =>
    match s.ctx? t.ctx, t.imaged || t.isEnded with
    | some c, false =>
      if s.ctxStopped c then [] else
      (t.groups.filter (fun g => !g.retired && decide (ga < c.groupArea g.gid + groupAreaBytes) && decide (c.groupArea g.gid < ga + n))).map
        (fun g => (c, t, g))
    | _, _ => [])

/-- A write from outside to the image of a group that runs: the device may use its value later (R55). -/
def State.imageWrite (s : State) (ga : Nat) (bs : List Byte) : State :=
  if (s.imageMeets ga bs.length).isEmpty then s else { s.bump with imageWrites := s.imageWrites ++ [(s.nextId, ga, bs)] }

/-- A group meets a line of its image that has been written from outside (R55): it uses the value, at a miss, or the line that it holds is
written back over it, as the device chooses (log 48). None of a die that has stopped for a frequency change does (R17). -/
def State.imageMiss (s : State) (id : Nat) : State :=
  match s.imageWrites.find? (fun x => x.1 == id) with
  | none => s
  | some x =>
    let u := { s with imageWrites := s.imageWrites.filter (fun y => y.1 != id) }
    if (s.imageMeets x.2.1 x.2.2.length).any (fun m => s.dieStopped (dieOf m.2.1.coreNum)) then s
    else if !Config.imageUsed s.fresh x.2.1 then u
    else (s.imageMeets x.2.1 x.2.2.length).foldl (fun (u : State) m => u.takeImage m.1 m.2.1 m.2.2 x.2.1 x.2.2) u

/-- A write that arrives from outside the package. Nothing arrives while the hub stands still for a frequency change (R17, log 37). -/
def State.outsideWrite (s : State) (addr : Nat) (bs : List Byte) : State :=
  if s.dieStopped 8 then s else
  (cutLines bs.length addr bs).foldl (fun (s : State) p =>
    if s.causalPage p.1 then s.send 8 (s.homeDie p.1) (.hostWrite p.1 p.2) else (s.hostWriteAt p.1 p.2).imageWrite p.1 p.2) s

/-- A read that arrives from outside the package: the value at the home slice or in HBM, marked when it is poisoned (R238,
R241). An ordered one is answered by the fabric. -/
def State.outsideRead (s : State) (addr len : Nat) : State :=
  if s.dieStopped 8 then s
  else if s.causalPage addr then s.send 8 (s.homeDie addr) (.hostRead addr len)
  else { s with hostData := s.mem.bytes addr len, hostPoison := s.poisoned addr len }

/-- Lines that bytes a to a + n − 1 meet. -/
def linesOf (a n : Nat) : List Nat := (List.range ((a + n + 127) / 128 - a / 128)).map (fun i => a / 128 + i)

/-- HOST_MEMWR (R238): performed at the home slice after the invalidations of R230. The host's own copy of the line goes with
its write. -/
def execHostMemwr (addr : Nat) (bytes : List Byte) (s : State) : Out :=
  .next (s.outsideWrite addr bytes)

/-- HOST_MEMRD (R238): the value is returned, and the host keeps a copy of the lines it has read. -/
def execHostMemrd (addr len : Nat) (s : State) : Out :=
  let new := (linesOf addr len).filter (fun l => !s.hostHeld.contains l)
  if s.dieStopped 8 then .next s
  else .next ({ s with hostHeld := new ++ s.hostHeld }.outsideRead addr len)

/-- HOST_SNOOP (R238): a host-window line leaves the hub cache. -/
def execHostSnoop (addr : Nat) (s : State) : Out :=
  .next { s with hubLines := s.hubLines.filter (fun l => l != addr / 128) }

/-- The host writes to its own memory (R238): a snoop takes the lines out of the hub cache before the write completes. -/
def State.hostOwnWrite (s : State) (pa : Nat) (bs : List Byte) : State :=
  { s with hubLines := s.hubLines.filter (fun l => !(linesOf pa bs.length).contains l), hostMem := s.hostMem.store pa bs }

/-- A write that met poison when it was performed is a consumption of its agent (R194, R241). -/
def State.heldPoison (s : State) (h : HeldWrite) : State :=
  match h.owner with
  | none => s
  | some k =>
    match s.copies.find? (fun c => c.team == k.1 && copyGroup c.id == k.2.1), s.team? k.1 with
    | some c, some t => s.copyFault t c cUNCORRECTABLE h.t.va
    | _, _ => s.consume k.1 k.2.1 k.2.2 h.t.va h.mask (if h.mask == 0 then 1 else 2)

/-- A write that has been issued is performed, when it may be (R42, R46, R238); none from a die that has stopped for a frequency change
(R17). -/
def State.performStore (s : State) (id : Nat) : State :=
  match s.heldWrites.find? (fun h => h.id == id) with
  | none => s
  | some h =>
    if (match h.core with | some k => s.dieStopped (dieOf k) | none => false) then s
    else
      let drop := fun (u : State) => ({ u with heldWrites := u.heldWrites.filter (fun x => x.id != id) } : State)
      match s.tryWrite h with
      | .wait u => u
      | .poison u => (drop u).heldPoison h
      | .done u => drop u

/-- The line of device memory that a write goes to. -/
def HeldWrite.line (h : HeldWrite) : Option Nat := match h.t.loc with | .dev ga => some (lineOf ga) | _ => none

/-- BACK_INVALIDATION_RESPONSE (R238): the host gives its copy of a line up, and the writes of that line that waited for it are performed
in their order, each as soon as it may be. -/
def execBackInvalidationResponse (id : Nat) (s : State) : Out :=
  .next (match s.heldWrites.find? (fun h => h.id == id) with
    | none => s
    | some h =>
      match h.line with
      | none => s
      | some line =>
        if !s.hostHeld.contains line then s
        else
          let hs := s.heldWrites.filter (fun x => x.line == some line)
          let s := { s with hostHeld := s.hostHeld.filter (fun l => l != line),
                            heldWrites := s.heldWrites.filter (fun x => !(x.line == some line && x.owner.isNone)) }
          hs.foldl (fun (s : State) x => s.performStore x.id) s)

/-- PEER_WRITE (R237): handled as a host write. -/
def execPeerWrite (addr : Nat) (bytes : List Byte) (s : State) : Out := .next (s.outsideWrite addr bytes)

/-- PEER_READ (R241): the value is returned, marked when it is poisoned. -/
def execPeerRead (addr len : Nat) (s : State) : Out := .next (s.outsideRead addr len)

/-- A peer store that its peer cannot acknowledge is dropped, and its group learns of it at its next release (R288). -/
def State.dropPeerStore (s : State) (p : PeerStore) : State :=
  let s := { s with peerStores := s.peerStores.filter (fun q => q.id != p.id) }
  match s.issuer p.grp p.armB with
  | some k => s.updGroup p.team k.1 (fun g => { g with peerLost := true })
  | none => s

/-- The peer performs a store: no copy of its lines stays on the writer's die (R237). -/
def State.peerPut (s : State) (p : PeerStore) : State :=
  p.runs.foldl (fun (s : State) r => (s.dropOut p.die (some p.peer) (r.1 / 128)).peerStore p.peer r.1 r.2) s

/-- PEER_ACKNOWLEDGE (R237): a store that die 8 has sent out is performed, after those that it sent to that peer before (R269). When the
peer has become unreachable, the store is dropped instead (R288). -/
def execPeerAcknowledge (id : Nat) (s : State) : Out :=
  .next (match s.peerStores.find? (fun p => p.id == id) with
    | none => s
    | some p =>
      if (s.peerStores.find? (fun q => q.sent && q.peer == p.peer)).map (fun q => q.id) != some id then s
      else if s.peerDown p.peer then s.dropPeerStore p
      else { s.peerPut p with peerStores := s.peerStores.filter (fun q => q.id != id) })

end Sys2Proof.Machine
end

