-- ==== Sys2Proof/Machine/FabricEvents.lean ====
section
/-! DEFINITION. Events of the fabric: arrival of items (R273 to R278), removal of a die (R280), resynchronisation (R281, R282),
and the light of the optical links (R285 to R288). An event that is not enabled changes nothing. -/

namespace Sys2Proof.Machine

open Sys2Proof

/-! ### The start of a resynchronisation (R281) -/

/-- Steps 1 and 2 of Table 18.3: QUIESCE, and a bell on every channel. One already in progress serves this request too. During
a frequency change the request is held (R282). -/
def State.startResync (s : State) (r : ResyncCause) : State :=
  match s.resync with
  | some _ => s
  | none =>
    if s.freq.isSome then { s with resyncHeld := some (s.resyncHeld.getD r) }
    else
      let s := { s with resync := some r }
      ((List.range 9).filter (fun i => s.liveDie i)).foldl (fun (s : State) i =>
        (relDies i).foldl (fun (s : State) d => if s.ignores i d then s else s.ring i d) s) s

/-! ### Arrival on ORD -/

/-- Take the first item of channel (i, d) off its link. -/
def State.popOrd (s : State) (i d : Nat) : State := s.updChan i d (fun c => { c with ord := c.ord.tail })

/-- May the item at the head of channel (i, d) enter: an entry of the pen is free, or it is deliverable at once (R275, R277)? -/
def State.mayEnter (s : State) (i d : Nat) (x : OrdItem) : Bool :=
  s.penRoom i d ||
  ((s.chan i d).pen.isEmpty && (x.entries i).all (fun p => p.1 == i || s.pairOk d p.1 p.2))

/-- An item enters the pen of die d (R274, R277). -/
def State.penItem (s : State) (i d : Nat) (x : OrdItem) : State :=
  s.updChan i d (fun c =>
    { c with ord := c.ord.tail, pen := c.pen ++ [{ x with shared := decide (s.sharedUsed d < 128) }], arrived := x.own,
             mark := serMax c.mark x.own })

/-- An ORD item arrives at die d (R274, R275): an item of a removed die is dropped (R280). One of an earlier generation is dropped
and lost, and starts a resynchronisation when none is pending (R281). An item that stays held asks for bells (R276). -/
def State.arriveItem (s : State) (i d : Nat) (x : OrdItem) : State :=
  if s.ignores d i then (s.popOrd i d).abandonItem x.payload
  else if x.gen != s.gen then ((s.popOrd i d).loseLate x.payload).startResync .generation
  else if !s.mayEnter i d x then s
  else
    let s := State.settleDie ((s.penItem i d x).takeBells i d) d
    if (s.chan i d).pen.isEmpty then s else s.askBells i d x

/-- The item at the head of a channel's link, when the channel's receiver is live. -/
def State.headOrd (s : State) (i d : Nat) : Option OrdItem :=
  if s.removedDies.contains d then none else (s.chan i d).ord.head?

/-- ORDERED_PACKET (R275): the packet at the head of channel (src, dst) arrives. -/
def execOrderedPacket (src dst : Nat) (s : State) : Out :=
  .next (match s.headOrd src dst with
    | some x => if x.full.isNone then s.arriveItem src dst x else s
    | none => s)

/-- VECTOR_FLIT (R273): the vector flit at the head of channel (src, dst) arrives. -/
def execVectorFlit (src dst : Nat) (s : State) : Out :=
  .next (match s.headOrd src dst with
    | some x => if x.full.isSome then s.arriveItem src dst x else s
    | none => s)

/-! ### Arrival on BELL -/

/-- Take the first item of BELL that satisfies `p` off channel (i, d). -/
def State.popBell (s : State) (i d : Nat) (p : BellItem → Bool) : State :=
  s.updChan i d (fun c => { c with bell := dropFirst p c.bell })

/-- The first item of BELL on channel (i, d) that satisfies `p`, when the receiver is live. -/
def State.firstBell (s : State) (i d : Nat) (p : BellItem → Bool) : Option BellItem :=
  if s.removedDies.contains d then none else (s.chan i d).bell.find? p

/-- The item is a bell. -/
def isBell : BellItem → Bool | .bell _ _ _ => true | _ => false
/-- The item is a bell request. -/
def isRequest : BellItem → Bool | .request _ _ => true | _ => false
/-- The item is a report. -/
def isReport : BellItem → Bool | .report _ _ => true | _ => false
/-- The item is a report request. -/
def isReportRequest : BellItem → Bool | .reportRequest => true | _ => false

/-- BELL (R274, R276): a bell arrives; it counts once its LAST item has arrived. -/
def execBell (src dst : Nat) (s : State) : Out :=
  .next (match s.firstBell src dst isBell with
    | some (.bell gen n last) =>
      let s := s.popBell src dst isBell
      if gen != s.gen || s.ignores dst src then s
      else
        let s := s.updChan src dst (fun c => { c with bellWait := c.bellWait ++ [(n, last)] })
        (s.takeBells src dst).settleDie dst
    | _ => s)

/-- BELL_REQUEST (R276): answered with a bell. -/
def execBellRequest (src dst : Nat) (s : State) : Out :=
  .next (match s.firstBell src dst isRequest with
    | some (.request gen _) =>
      let s := s.popBell src dst isRequest
      if gen != s.gen || s.ignores dst src then s else s.ring dst src
    | _ => s)

/-- REPORT (R278): the floor of die src for die dst's own entry; packets that waited for it go. -/
def execReport (src dst : Nat) (s : State) : Out :=
  .next (match s.firstBell src dst isReport with
    | some (.report gen f) =>
      let s := s.popBell src dst isReport
      if gen != s.gen then s else (s.updChan dst src (fun c => { c with floor := f })).flush
    | _ => s)

/-- REPORT_REQUEST (R278): answered with a report of the floor. -/
def execReportRequest (src dst : Nat) (s : State) : Out :=
  .next (match s.firstBell src dst isReportRequest with
    | some _ =>
      let s := s.popBell src dst isReportRequest
      if s.ignores dst src then s else (s.toldAll src dst).report dst src
    | none => s)

/-! ### Removal of a die (R280) -/

/-- Dies of a device (Table 2.3). -/
def State.deviceDies (s : State) (device : Nat) : List Nat :=
  match s.mode with
  | some 1 => (List.range 4).map (fun k => device % 2 * 4 + k)
  | some 2 => [device % 8]
  | _ => List.range 8

/-- FABRIC_LOST in one context: its fork children end, and the halt line rises for a team of a launch (R280, R172). -/
def State.lostContext (s : State) (n : Nat) : State :=
  let ts := s.teams.filter (fun t => t.ctx == n && !t.isEnded)
  let s := (ts.filter (fun t => s.isForkChild t)).foldl (fun (s : State) t =>
    match s.team? t.id with
    | some x => if x.isEnded then s else s.endChild x { kind := 6, code := cFABRICLOST, core := 0xFFFFFFFF }
    | none => s) s
  if ts.any (fun t => !s.isForkChild t) then s.lostCtx n else s

/-- Contexts whose device includes a die. -/
def State.contextsOn (s : State) (die : Nat) : List Nat :=
  (s.contexts.filter (fun c => (s.deviceDies c.device).contains die)).map (fun c => c.num)

/-- What die d does when the broadcast of die k's removal arrives (R280): its items from k and its requests for k go, and its
pen is examined again. -/
def State.learnRemoval (s : State) (d k : Nat) : State :=
  let s := { s with removalDue := s.removalDue.filter (fun x => x != (d, k)) }
  let lost := (((s.chan d k).pen ++ (s.chan d k).ord).map (fun x => x.payload)) ++ (s.outq.filter (fun x => x.1 == d && x.2.1 == k)).map (fun x => x.2.2)
  let s := { s with outq := s.outq.filter (fun x => !(x.1 == d && x.2.1 == k)) }
  let s := { s with untold := s.untold.filter (fun u => !(u.src == d && u.dst == k)) }
  let gone := lost.filter isResponse ++ (s.chan k d).pen.map (fun x => x.payload)
  let s := s.updChan k d (fun c => { c with pen := [], bellWait := [] })
  let s := s.updChan d k (fun c => { c with pen := [], ord := [], bell := [] })
  let s := (lost.filter (fun p => !isResponse p)).foldl (fun (s : State) p => s.lose p) s
  let s := gone.foldl (fun (s : State) p => s.abandonItem p) s
  s.settleDie d

/-- The hub declares die k removed (R280). `cause`: 0 frequency change, 1 port error, 2 command. During a resynchronisation the
removal waits for its step 4 (R282). -/
def State.declareRemoved (s : State) (k cause : Nat) : State :=
  if s.removedDies.contains k || s.removalHeld.any (fun x => x.1 == k) then s
  else if s.resync.isSome then { s with removalHeld := s.removalHeld ++ [(k, cause)] }
  else
    let ctxs := s.contextsOn k
    let s := { s with removedDies := s.removedDies ++ [k],
                      removalDue := s.removalDue ++ ((List.range 8).filter (fun d => d != k && s.liveDie d)).map (fun d => (d, k)) }
    let s := s.updMgmt (fun m => { m with ready := m.ready &&& ~~~ (1#64 <<< (8 + k)) })
    let s := s.logEvent (eventRec 0x43 k cause 0 ctxs.length 0 0 s.time)
    let s := s.updMgmt (fun m => { m with frozen := true })
    let s := ctxs.foldl (fun (s : State) n => s.lostContext n) s
    s.learnRemoval 8 k

/-- DIE_REMOVED (R280): the broadcast arrives at a live die. -/
def execDieRemoved (die dead : Nat) (s : State) : Out :=
  .next (if s.removalDue.contains (die, dead) then s.learnRemoval die dead else s)

/-- FABRIC_PORT_ERROR (R280): a die's fabric port reports an uncorrectable internal error. -/
def execFabricPortError (die : Nat) (s : State) : Out :=
  .next (if die < 8 && s.liveDie die then s.declareRemoved die 1 else s)

/-! ### Resynchronisation (R281) -/

/-- Code of a cause (Table 18.6). -/
def causeCode : ResyncCause → Nat
  | .link => 0 | .generation => 1 | .pen => 2 | .command => 3

/-- FABRIC_RESYNC (R281). -/
def execFabricResync (cause : ResyncCause) (s : State) : Out := .next (s.startResync cause)

/-- A channel after step 4: every count, mark, floor and last full vector zero, nothing held. Items on the link stay. -/
def Chan.zero (c : Chan) : Chan := { Chan.fresh c.src c.dst with ord := c.ord, bell := c.bell }

/-- The generation that an item of BELL carries. -/
def BellItem.gen? : BellItem → Option (BitVec 4)
  | .bell g _ _ => some g
  | .request g _ => some g
  | .report g _ => some g
  | .reportRequest => none

/-- An item on a link to a die that is there carries a generation: none of the generation that comes next may still be in flight (Table
18.4). -/
def State.onLinks (s : State) (g : BitVec 4) : Bool :=
  s.chans.any (fun c => !s.removedDies.contains c.dst && (c.ord.any (fun x => x.gen == g) || c.bell.any (fun b => b.gen? == some g)))

/-- RESYNC_DROP (R281, steps 3 to 5): held items are dropped and lost, counts zeroed, GEN advanced, removals that waited
applied, and the dies released. -/
def execResyncDrop (s : State) : Out :=
  .next (match s.resync with
    | none => s
    | some r =>
      if s.onLinks (s.gen + 1) then s else
      let items := s.chans.flatMap (fun c => c.pen)
      let s := { s with chans := s.chans.map Chan.zero, vecs := Vector.replicate 9 zeroCounts, untold := [], gen := s.gen + 1, resync := none }
      let held := s.removalHeld
      let s := held.foldl (fun (s : State) x => s.declareRemoved x.1 x.2) { s with removalHeld := [] }
      let s := items.foldl (fun (s : State) x => s.lose x.payload) s
      let s := s.logEvent (eventRec 0x42 (causeCode r) s.gen.toNat 0 items.length 0 0 s.time)
      s.flush)

/-! ### Light (R285 to R288) -/

/-- Number of set bits. -/
def popCount {w : Nat} (m : BitVec w) : Nat := ((List.range w).filter (fun i => m.getLsbD i)).length

/-- LIVE of a fibre (Table 18.5): 0 before it is trained. -/
def Fibre.live (f : Fibre) : Nat := if f.trained then 128 - popCount f.dark else 0

/-- A record of light lost or restored (Table 18.6). -/
def lightRecord (time ty : Nat) (f : Fibre) (mask : BitVec 128) : BitVec 256 :=
  record (leBytes 1 ty ++ leBytes 1 f.num ++ leBytes 1 f.live ++ leBytes 1 0 ++ leBytes 16 mask.toNat ++ leBytes 4 0 ++ leBytes 8 time)

/-- A fibre by number. -/
def State.fibre? (s : State) (n : Nat) : Option Fibre := s.fibres.find? (fun f => f.num == n)

/-- Change a fibre. -/
def State.updFibre (s : State) (n : Nat) (f : Fibre → Fibre) : State := { s with fibres := updWhere (fun x => x.num == n) f s.fibres }

/-- Wavelengths of a trained fibre lose light. -/
def State.loseLight (s : State) (n : Nat) (mask : BitVec 128) : State :=
  match s.fibre? n with
  | none => s
  | some f =>
    let new := mask &&& ~~~ f.dark
    if !f.trained || new = 0 then s
    else
      let g := { f with dark := f.dark ||| new, los := true, loscnt := min 255 (f.loscnt + 1) }
      (s.updFibre n (fun _ => g)).logEvent (lightRecord s.time 0x40 g new)

/-- Wavelengths whose light returns are retrained and added back. -/
def State.regainLight (s : State) (n : Nat) (mask : BitVec 128) : State :=
  match s.fibre? n with
  | none => s
  | some f =>
    let back := mask &&& f.dark
    if !f.trained || back = 0 then s
    else
      let g := { f with dark := f.dark &&& ~~~ back }
      (s.updFibre n (fun _ => g)).logEvent (lightRecord s.time 0x41 g back)

/-- A transmit fibre (R285). -/
def transmits (n : Nat) : Bool := decide (n % 16 < 8)

/-- LOSS_OF_LIGHT (R285). -/
def execLossOfLight (fibre : Nat) (mask : BitVec 128) (s : State) : Out := .next (s.loseLight fibre mask)

/-- LIGHT_RESTORED (R285). A transmit fibre has no light while LASER_EN is not asserted (Table 22.4). -/
def execLightRestored (fibre : Nat) (mask : BitVec 128) (s : State) : Out :=
  .next (if transmits fibre && !s.laserEn then s else s.regainLight fibre mask)

end Sys2Proof.Machine
end

