-- ==== Sys2Proof/Machine/LaneFloat.lean ====
section
/-! DEFINITION. Lane floating-point instructions (R129, R130), classification (R132), conversion (R133), packing (R134) and
scaling (R135). -/

namespace Sys2Proof.Machine

open Sys2Proof

/-- The value of a source in TYPE. -/
def fval (ty : LType) (bits : Nat) : FV := (fmtOf ty).decode bits

/-- Round and saturate a value into TYPE (R123, R124). -/
def fput (f : LaneFields) (v : FV) : Nat := (fmtOf f.ty).finish f.rnd f.sat ((fmtOf f.ty).round f.rnd v)

/-- A floating-point instruction on one value, rounded once (R129). -/
def State.laneF1 (s : State) (opc : Nat) (f : LaneFields) (op : FV → FV) : Out :=
  s.laneV opc f (fun x c l => fput f (op (fval f.ty (x.sa c l))))

/-- A floating-point instruction on two values, rounded once (R129). -/
def State.laneF2 (s : State) (opc : Nat) (f : LaneFields) (op : FV → FV → FV) : Out :=
  s.laneV opc f (fun x c l => fput f (op (fval f.ty (x.sa c l)) (fval f.ty (x.sb c l))))

/-- A floating-point instruction with a rounding of its own (R129). -/
def State.laneFR (s : State) (opc : Nat) (f : LaneFields) (op : FFmt → FV → FRes) : Out :=
  s.laneV opc f (fun x c l => (fmtOf f.ty).finish f.rnd f.sat (op (fmtOf f.ty) (fval f.ty (x.sa c l))))

/-- VFADD (R129, R130). -/
def execVfadd (f : LaneFields) (s : State) : Out := s.laneF2 0x080 f (fun a b => FV.add f.rnd a b)
/-- VFSUB (R129, R130). -/
def execVfsub (f : LaneFields) (s : State) : Out := s.laneF2 0x081 f (fun a b => FV.add f.rnd a b.neg)
/-- VFMUL (R129, R130). -/
def execVfmul (f : LaneFields) (s : State) : Out := s.laneF2 0x082 f (fun a b => FV.mul a b)

/-- VFMA: one rounding (R129). -/
def execVfma (f : LaneFields) (s : State) : Out :=
  s.laneV 0x083 f (fun x c l =>
    fput f (FV.add f.rnd (FV.mul (fval f.ty (x.sa c l)) (fval f.ty (x.sb c l))) (fval f.ty (x.sc c l))))
/-- VFMS: one rounding (R129). -/
def execVfms (f : LaneFields) (s : State) : Out :=
  s.laneV 0x084 f (fun x c l =>
    fput f (FV.add f.rnd (FV.mul (fval f.ty (x.sa c l)) (fval f.ty (x.sb c l))) (fval f.ty (x.sc c l)).neg))

/-- VFDIV (R129, R130). -/
def execVfdiv (f : LaneFields) (s : State) : Out :=
  s.laneV 0x085 f (fun x c l =>
    (fmtOf f.ty).finish f.rnd f.sat ((fmtOf f.ty).div f.rnd (fval f.ty (x.sa c l)) (fval f.ty (x.sb c l))))
/-- VFSQRT (R129, R130). -/
def execVfsqrt (f : LaneFields) (s : State) : Out := s.laneFR 0x086 f (fun t a => t.sqrt f.rnd a)
/-- VFRCP (R129, R130). -/
def execVfrcp (f : LaneFields) (s : State) : Out := s.laneFR 0x087 f (fun t a => t.div f.rnd (.num false 1 0) a)
/-- VFRSQ (R129, R130). -/
def execVfrsq (f : LaneFields) (s : State) : Out := s.laneFR 0x088 f (fun t a => t.rsqrt f.rnd a)
/-- VFEXP2 (R129, R130). -/
def execVfexp2 (f : LaneFields) (s : State) : Out := s.laneFR 0x089 f (fun t a => t.exp2 f.rnd a)
/-- VFLOG2 (R129, R130). -/
def execVflog2 (f : LaneFields) (s : State) : Out := s.laneFR 0x08A f (fun t a => t.log2 f.rnd a)
/-- VFMIN: minimumNumber (R129, R130). -/
def execVfmin (f : LaneFields) (s : State) : Out := s.laneF2 0x08B f (fun a b => FV.minMax false a b)
/-- VFMAX: maximumNumber (R129, R130). -/
def execVfmax (f : LaneFields) (s : State) : Out := s.laneF2 0x08C f (fun a b => FV.minMax true a b)
/-- VFABS (R129). -/
def execVfabs (f : LaneFields) (s : State) : Out := s.laneF1 0x08D f FV.abs
/-- VFNEG (R129). -/
def execVfneg (f : LaneFields) (s : State) : Out := s.laneF1 0x08E f FV.neg
/-- VFRND: an integral value (R129, R130). -/
def execVfrnd (f : LaneFields) (s : State) : Out := s.laneF1 0x08F f (fun a => FV.integral f.rnd a)

/-- VFCLASS: one bit of Table R132 (R132). -/
def execVfclass (f : LaneFields) (s : State) : Out := s.lane32 0x108 f (fun x c l => 2 ^ (fmtOf f.ty).class (x.sa c l))

/-- VCVT from type `t` (Table 7.8). -/
def cvt (f : LaneFields) (t : LType) (a : Nat) : Nat :=
  match t.isInt, f.ty.isInt with
  | true, true => f.ty.result (f.sat == .sat) (t.toInt a)
  | true, false => fput f (FV.ofInt (t.toInt a))
  | false, true => f.ty.wrap (FV.toInt f.rnd f.ty.lo f.ty.hi (fval t a))
  | false, false => fput f (fval t a)

/-- VCVT (R133). -/
def execVcvt (f : LaneFields) (s : State) : Out :=
  s.laneV 0x110 f (fun x c l =>
    match f.srcType with
    | some t => cvt f t (x.src c f.sa x.e.bcA t l)
    | none => 0)

/-- The packed field of a wide value (R134). -/
def packField (f : LaneFields) (a : Nat) : Nat :=
  match packInfo f.ty with
  | none => 0
  | some (w, _, wide) =>
    if wide == .i32 then f.ty.result (f.sat == .sat) (LType.toInt .i32 a)
    else if f.ty == .e8m0 then toE8M0 f.rnd (f.sat == .sat) (fmtF32.decode a)
    else fput f (fmtF32.decode a) % 2 ^ w

/-- VPACK: field k of DST replaced (R134). -/
def execVpack (f : LaneFields) (s : State) : Out :=
  s.lane32 0x111 f (fun x c l =>
    match packInfo f.ty with
    | none => 0
    | some (w, _, _) =>
      let d : Half := c.vget f.dst.toNat l
      (bitInsert d (BitVec.ofNat 32 (packField f (x.src c f.sa x.e.bcA .b32 l))) (w * f.pos) w).toNat)

/-- VUNPACK: the exact value of a field in the wide type (R134). -/
def unpackField (f : LaneFields) (word : Nat) : Nat :=
  match packInfo f.ty with
  | none => 0
  | some (w, _, wide) =>
    let x := word / 2 ^ (w * f.pos) % 2 ^ w
    if wide == .i32 then LType.wrap .i32 (f.ty.toInt x)
    else
      let v := if f.ty == .e8m0 then decodeE8M0 x else (fmtOf f.ty).decode x
      fmtF32.finish .rne .none (fmtF32.round .rne v)

/-- VUNPACK (R134). -/
def execVunpack (f : LaneFields) (s : State) : Out :=
  s.lane32 0x112 f (fun x c l => unpackField f (x.src c f.sa x.e.bcA .b32 l))

/-- VSCALE: an e8m0 scale, read from b[7:0] (R135). -/
def execVscale (f : LaneFields) (s : State) : Out :=
  s.laneV 0x113 f (fun x c l =>
    fput f (FV.mul (fval f.ty (x.sa c l)) (decodeE8M0 (x.src c f.sb x.e.bcB .b32 l % 256))))

end Sys2Proof.Machine
end

