-- ==== Sys2Proof/Machine/LaneInt.lean ====
section
/-! DEFINITION. Lane integer instructions (R127, R128), lane comparisons (R131) and predicate logic (R149). -/

namespace Sys2Proof.Machine

open Sys2Proof

/-- Is SAT 1 set? -/
def LaneFields.sat1 (f : LaneFields) : Bool := f.sat == .sat

/-- An integer instruction on the exact values of two sources, wrapped or clamped (R124, R127). -/
def State.laneI2 (s : State) (opc : Nat) (f : LaneFields) (op : Int → Int → Int) : Out :=
  s.laneV opc f (fun x c l => f.ty.result (f.sat == .sat) (op (f.ty.toInt (x.sa c l)) (f.ty.toInt (x.sb c l))))

/-- A bit instruction on the raw bits of two sources. -/
def State.laneB2 (s : State) (opc : Nat) (f : LaneFields) (op : Nat → Nat → Nat) : Out :=
  s.laneV opc f (fun x c l => f.ty.low (op (x.sa c l) (x.sb c l)))

/-- A bit instruction on the raw bits of one source. -/
def State.laneB1 (s : State) (opc : Nat) (f : LaneFields) (op : Nat → Nat) : Out :=
  s.laneV opc f (fun x c l => f.ty.low (op (x.sa c l)))

/-- VADD (R127). -/
def execVadd (f : LaneFields) (s : State) : Out := s.laneI2 0x001 f (fun a b => a + b)

/-- VSUB (R127). -/
def execVsub (f : LaneFields) (s : State) : Out := s.laneI2 0x002 f (fun a b => a - b)

/-- VMUL (R127). -/
def execVmul (f : LaneFields) (s : State) : Out := s.laneI2 0x003 f (fun a b => a * b)

/-- VMULH: bits [2w−1:w] of the product (R127). -/
def execVmulh (f : LaneFields) (s : State) : Out := s.laneI2 0x004 f (fun a b => (a * b) / ((2 ^ f.ty.bits : Nat) : Int))

/-- VDIV: toward zero; all ones for b = 0 (R127, R128). -/
def execVdiv (f : LaneFields) (s : State) : Out := s.laneI2 0x005 f (fun a b => if b = 0 then -1 else Int.tdiv a b)

/-- VREM: the sign of a; a for b = 0 (R127, R128). -/
def execVrem (f : LaneFields) (s : State) : Out := s.laneI2 0x006 f (fun a b => if b = 0 then a else Int.tmod a b)

/-- VMIN (R127). -/
def execVmin (f : LaneFields) (s : State) : Out := s.laneI2 0x007 f (fun a b => if a < b then a else b)

/-- VMAX (R127). -/
def execVmax (f : LaneFields) (s : State) : Out := s.laneI2 0x008 f (fun a b => if a < b then b else a)

/-- VABS (R127, R128). -/
def execVabs (f : LaneFields) (s : State) : Out :=
  s.laneV 0x009 f (fun x c l => f.ty.result (f.sat == .sat) (((f.ty.toInt (x.sa c l)).natAbs : Nat) : Int))

/-- VNEG (R127, R128). -/
def execVneg (f : LaneFields) (s : State) : Out :=
  s.laneV 0x00A f (fun x c l => f.ty.result (f.sat == .sat) (-(f.ty.toInt (x.sa c l))))

/-- VMAD: a × b + c, clamped once under SAT (R127). -/
def execVmad (f : LaneFields) (s : State) : Out :=
  s.laneV 0x00B f (fun x c l =>
    f.ty.result (f.sat == .sat) (f.ty.toInt (x.sa c l) * f.ty.toInt (x.sb c l) + f.ty.toInt (x.sc c l)))

/-- VAND (R127). -/
def execVand (f : LaneFields) (s : State) : Out := s.laneB2 0x010 f (fun a b => a &&& b)

/-- VOR (R127). -/
def execVor (f : LaneFields) (s : State) : Out := s.laneB2 0x011 f (fun a b => a ||| b)

/-- VXOR (R127). -/
def execVxor (f : LaneFields) (s : State) : Out := s.laneB2 0x012 f (fun a b => a ^^^ b)

/-- VNOT (R127). -/
def execVnot (f : LaneFields) (s : State) : Out := s.laneB1 0x013 f (fun a => 2 ^ f.ty.bits - 1 - a)

/-- VSHL: the count modulo w (R127, R128). -/
def execVshl (f : LaneFields) (s : State) : Out := s.laneB2 0x014 f (fun a b => a * 2 ^ (b % f.ty.bits))

/-- VSHR: sign fill for i types, zero fill otherwise (R127). -/
def execVshr (f : LaneFields) (s : State) : Out :=
  s.laneV 0x015 f (fun x c l => f.ty.wrap (f.ty.toInt (x.sa c l) / ((2 ^ (x.sb c l % f.ty.bits) : Nat) : Int)))

/-- VROTL (R127). -/
def execVrotl (f : LaneFields) (s : State) : Out :=
  s.laneB2 0x016 f (fun a b => a * 2 ^ (b % f.ty.bits) + a / 2 ^ (f.ty.bits - b % f.ty.bits))

/-- VCLZ: w for 0 (R127). -/
def execVclz (f : LaneFields) (s : State) : Out := s.laneB1 0x017 f (fun a => clzAux f.ty.bits (toWord a))

/-- VPOPC (R127). -/
def execVpopc (f : LaneFields) (s : State) : Out := s.laneB1 0x018 f (fun a => popAux 64 (toWord a))

/-- Position of a bit field: b[4:0] on b32, b[5:0] on b64 (R127). -/
def bfPos (is64 : Bool) (b : Nat) : Nat := if is64 then b % 64 else b % 32
/-- Width of a bit field: b[9:5] + 1 on b32, b[11:6] + 1 on b64 (R127). -/
def bfWid (is64 : Bool) (b : Nat) : Nat := if is64 then b / 64 % 64 + 1 else b / 32 % 32 + 1

/-- VBFX (R127). -/
def execVbfx (f : LaneFields) (s : State) : Out :=
  s.laneB2 0x019 f (fun a b => a / 2 ^ bfPos f.ty.is64 b % 2 ^ bfWid f.ty.is64 b)

/-- VBFI: DST is also read (R127). -/
def execVbfi (f : LaneFields) (s : State) : Out :=
  s.laneV 0x01A f (fun x c l =>
    let p := bfPos f.ty.is64 (x.sb c l)
    let w := bfWid f.ty.is64 (x.sb c l)
    if f.ty.is64 then (bitInsert (BitVec.ofNat 64 (x.sd c l)) (BitVec.ofNat 64 (x.sa c l)) p w).toNat
    else (bitInsert (BitVec.ofNat 32 (x.sd c l)) (BitVec.ofNat 32 (x.sa c l)) p w).toNat)

/-- VMOV (R127). -/
def execVmov (f : LaneFields) (s : State) : Out := s.laneB1 0x020 f (fun a => a)

/-- VSEL: a where bit L of the predicate in SC is 1, otherwise b (R127). -/
def execVsel (f : LaneFields) (s : State) : Out :=
  s.laneV 0x021 f (fun x c l => if (c.pget f.sc.toNat).getLsbD l then x.sa c l else x.sb c l)

/-! ### Comparisons -/

/-- The order of two operands in TYPE: none when either is NaN (R131). -/
def laneOrder (ty : LType) (a b : Nat) : Option Int :=
  if ty.isFloat then FV.cmp ((fmtOf ty).decode a) ((fmtOf ty).decode b) else some (ordInt (ty.toInt a) (ty.toInt b))

/-- VCMP (R131). -/
def State.vcmp (s : State) (opc : Nat) (f : LaneFields) : Out :=
  s.laneP opc f (fun x c l => cmpHolds opc (laneOrder f.ty (x.sa c l) (x.sb c l)))

/-- VCMP.EQ (R131). -/
def execVcmpEq (f : LaneFields) (s : State) : Out := s.vcmp 0x100 f

/-- VCMP.NE (R131). -/
def execVcmpNe (f : LaneFields) (s : State) : Out := s.vcmp 0x101 f

/-- VCMP.LT (R131). -/
def execVcmpLt (f : LaneFields) (s : State) : Out := s.vcmp 0x102 f

/-- VCMP.LE (R131). -/
def execVcmpLe (f : LaneFields) (s : State) : Out := s.vcmp 0x103 f

/-- VCMP.GT (R131). -/
def execVcmpGt (f : LaneFields) (s : State) : Out := s.vcmp 0x104 f

/-- VCMP.GE (R131). -/
def execVcmpGe (f : LaneFields) (s : State) : Out := s.vcmp 0x105 f

/-- VCMP.UN (R131). -/
def execVcmpUn (f : LaneFields) (s : State) : Out := s.vcmp 0x106 f

/-! ### Predicate logic -/

/-- A predicate instruction on the bits of two predicates (R149). -/
def State.pred2 (s : State) (opc : Nat) (f : LaneFields) (op : Bool → Bool → Bool) : Out :=
  s.laneP opc f (fun _ c l => op ((c.pget f.sa.toNat).getLsbD l) ((c.pget f.sb.toNat).getLsbD l))

/-- VPAND (R149). -/
def execVpand (f : LaneFields) (s : State) : Out := s.pred2 0x148 f (fun a b => a && b)

/-- VPOR (R149). -/
def execVpor (f : LaneFields) (s : State) : Out := s.pred2 0x149 f (fun a b => a || b)

/-- VPXOR (R149). -/
def execVpxor (f : LaneFields) (s : State) : Out := s.pred2 0x14A f (fun a b => a != b)

/-- VPANDN (R149). -/
def execVpandn (f : LaneFields) (s : State) : Out := s.pred2 0x14B f (fun a b => a && !b)

/-- VPTEST: the source is not zero (R149). -/
def execVptest (f : LaneFields) (s : State) : Out := s.laneP 0x14C f (fun x c l => x.sa c l != 0)

/-- VPMOV (R149). -/
def execVpmov (f : LaneFields) (s : State) : Out :=
  s.laneV 0x14D f (fun _ c l => ((c.pget f.sa.toNat).getLsbD l).toNat)

end Sys2Proof.Machine
end

