-- ==== Sys2Proof/Machine/LaneXchg.lean ====
section
/-! DEFINITION. Exchange between lanes (R147), reductions and scans (R148). -/

namespace Sys2Proof.Machine

open Sys2Proof

/-! ### Source lanes -/

/-- The lane that lane `l` reads (Table 8.5): `b` is the value of SB, for VSHFL. -/
def srcLane (opc mode l b : Nat) : Nat :=
  let k := b % 32
  if opc == 0x140 then l ^^^ mode % 4
  else if opc == 0x141 then 4 * (l / 4) + mode % 4
  else if opc == 0x142 then
    (match mode with
     | 0 => k
     | 1 => l ^^^ k
     | 2 => if k ≤ l then l - k else l
     | _ => if l + k < 32 then l + k else l)
  else l

/-- The source lane of an entry's lane. -/
def xchgLane (g : Group) (e : QEntry) (f : LaneFields) (opc l : Nat) : Nat :=
  srcLane opc f.mode l (laneRaw g.core g.grpidx f.sb e.bcB 0 false false l)

/-- Waiting and traps of an exchange (R147): the full bit of the lane read counts, an index as for any source. -/
def xchgPre (opc : Nat) (f : LaneFields) : Pre := fun g e act =>
  let n := f.sa.toNat
  let feb := f.feb.getLsbD 0
  let gone := maskOf ((lanesOf e.scope).filter (fun l => (g.core.emptyLanes n f.ty.is64).getLsbD (xchgLane g e f opc l)))
  let idx := if opc == 0x142 then vopOf f.sb false (f.feb.getLsbD 1) else []
  let own := idx ++ (if f.sd then [] else dstOp f.dst.toNat f.ty.is64)
  (blockLanes g.core e.scope act own ||| (if feb then gone &&& ~~~ act else gone),
   trapLanes g.core act own ||| (if feb then gone &&& act else 0))

/-- The values that a register has held in a lane since the SPLIT, the present one first. -/
def Group.held (g : Group) (n lane : Nat) : List Half :=
  g.core.vget n lane :: (g.hist.filter (fun h => h.1 == n)).map (fun h => h.2.getD lane 0)

/-- A register of a lane as an entry reads it (R147): a live lane of the other arm of a split group supplies a value that
the device chooses among those it has held since the SPLIT (log 13). -/
def State.laneOther (s : State) (x : LC) (n lane : Nat) : Half :=
  let g := x.a.g
  if g.core.split && !x.e.both && (g.core.arm (!x.a.b)).mask.getLsbD lane then
    let hs := g.held n lane
    hs.getD (Config.crossArmBack (s.fresh * 1024 + 2 * lane + n % 2) % hs.length) 0
  else g.core.vget n lane

/-- The value of source a in a lane, in TYPE. -/
def State.laneFrom (s : State) (x : LC) (lane : Nat) : Nat :=
  let n := x.f.sa.toNat
  x.f.ty.low ((s.laneOther x n lane).toNat + (if x.f.ty.is64 then 0x100000000 * (s.laneOther x (n + 1) lane).toNat else 0))

/-- A lane-to-lane move (Table 8.5). -/
def State.xchg (s : State) (opc : Nat) (f : LaneFields) : Out :=
  s.lane f (xchgPre opc f) true (fun s x =>
    .done ((s.putV x f.dst.toNat f.ty.is64 (fun l => f.ty.written (s.laneFrom x (xchgLane x.a.g x.e f opc l)))).useFresh))

/-- QSWAP (R147). -/
def execQswap (f : LaneFields) (s : State) : Out := s.xchg 0x140 f
/-- QBCAST (R147). -/
def execQbcast (f : LaneFields) (s : State) : Out := s.xchg 0x141 f
/-- VSHFL (R147). -/
def execVshfl (f : LaneFields) (s : State) : Out := s.xchg 0x142 f

/-! ### Ballots -/

/-- Waiting of an instruction that reads no v register. -/
def dstPre (f : LaneFields) : Pre := fun g e act =>
  (if f.sd then 0 else blockLanes g.core e.scope act (dstOp f.dst.toNat f.ty.is64), 0)

/-- VBALLOT (R147): p[pk] AND the active lanes, to every active lane or to a scalar. -/
def execVballot (f : LaneFields) (s : State) : Out :=
  s.lane f (dstPre f) true (fun s x =>
    let r := x.a.g.core.pget f.sa.toNat &&& x.act
    if f.sd then .done (s.putSd x (r.zeroExtend 64)) else .done (s.putV x f.dst.toNat false (fun _ => r.toNat)))

/-! ### Reductions and scans (R148) -/

/-- One combination of two values carried exactly: numbers of an integer type, or codes of a float or bit type. -/
def combine (f : LaneFields) (a b : Int) : Int :=
  if f.ty.isFloat then
    let t := fmtOf f.ty
    let x := t.decode a.toNat
    let y := t.decode b.toNat
    let r := match f.mode with | 0 => FV.add f.rnd x y | 1 => FV.minMax false x y | _ => FV.minMax true x y
    ((t.finish f.rnd .none (t.round f.rnd r) : Nat) : Int)
  else match f.mode with
    | 0 => a + b
    | 1 => if a < b then a else b
    | 2 => if a < b then b else a
    | 3 => ((f.ty.wrap a &&& f.ty.wrap b : Nat) : Int)
    | 4 => ((f.ty.wrap a ||| f.ty.wrap b : Nat) : Int)
    | _ => ((f.ty.wrap a ^^^ f.ty.wrap b : Nat) : Int)

/-- A lane's value as it is carried. -/
def carried (ty : LType) (bits : Nat) : Int := if ty.isInt then ty.toInt bits else ((ty.low bits : Nat) : Int)

/-- The empty value (Table 8.6). -/
def emptyValue (f : LaneFields) : Int :=
  if f.ty.isFloat then
    let t := fmtOf f.ty
    (match f.mode with
     | 0 => 0
     | 1 => ((t.maxFin + 1 : Nat) : Int)
     | _ => ((t.signBit + t.maxFin + 1 : Nat) : Int))
  else match f.mode with
    | 1 => f.ty.hi
    | 2 => f.ty.lo
    | 3 => ((2 ^ f.ty.bits - 1 : Nat) : Int)
    | _ => 0

/-- A value as it is written: SAT acts here (R148). -/
def writtenValue (f : LaneFields) (v : Int) : Nat :=
  if f.ty.isFloat then
    let t := fmtOf f.ty
    t.finish f.rnd f.sat (t.round f.rnd (t.decode v.toNat))
  else if f.mode ≤ 2 then f.ty.result (f.sat == .sat) v
  else f.ty.wrap v

/-- Combination of values that may be absent. -/
def combineO (f : LaneFields) (a b : Option Int) : Option Int :=
  match a, b with
  | some x, some y => some (combine f x y)
  | some x, none => some x
  | none, y => y

/-- One level of the tree: neighbours combined. -/
def treeLevel (f : LaneFields) : List (Option Int) → List (Option Int)
  | a :: b :: r => combineO f a b :: treeLevel f r
  | l => l

/-- VRED's tree over the 32 lane slots: five levels (R148). -/
def treeRed (f : LaneFields) (l : List (Option Int)) : Option Int :=
  ((treeLevel f (treeLevel f (treeLevel f (treeLevel f (treeLevel f l))))).head?).join

/-- The active lanes' values by slot. -/
def State.slots (s : State) (x : LC) : List (Option Int) :=
  (List.range 32).map (fun l => if x.act.getLsbD l then some (carried x.f.ty (s.laneFrom x l)) else none)

/-- VRED (R148). -/
def execVred (f : LaneFields) (s : State) : Out :=
  s.lane f (xchgPre 0x144 f) true (fun s x =>
    let r := writtenValue f ((treeRed f (s.slots x)).getD (emptyValue f))
    if f.sd then .done (s.putSd x (f.ty.scalar r)) else .done (s.putV x f.dst.toNat f.ty.is64 (fun _ => f.ty.written r)))

/-- Running combinations in ascending lane order: the carried prefix before and with each slot. -/
def prefixes (f : LaneFields) : Option Int → List (Option Int) → List (Option Int × Option Int)
  | _, [] => []
  | acc, v :: r => let n := combineO f acc v; (acc, n) :: prefixes f n r

/-- VSCAN (R148). -/
def execVscan (f : LaneFields) (s : State) : Out :=
  s.lane f (xchgPre 0x145 f) true (fun s x =>
    let ps := prefixes f none (s.slots x)
    .done (s.putV x f.dst.toNat f.ty.is64 (fun l =>
      let p := ps.getD l (none, none)
      f.ty.written (writtenValue f ((if f.excl then p.1 else p.2).getD (emptyValue f))))))

end Sys2Proof.Machine
end

