-- ==== Sys2Proof/Machine/Power.lean ====
section
/-! DEFINITION. Frequency changes (R17, R18), the power capper (R316), wear (R317), the lasers (R315), reset (R309, R313, R314),
and the black box (R318). An event that is not enabled changes nothing. -/

namespace Sys2Proof.Machine

open Sys2Proof

/-! ### Frequency (R17, R18, R316) -/

/-- The later of two step codes is the slower step. -/
def slower (a b : BitVec 2) : BitVec 2 := if a.toNat < b.toNat then b else a

/-- The effective step (R316). -/
def State.effStep (s : State) : BitVec 2 := slower s.mgmt.freqctl s.capStep

/-- A change of the effective step is a request to the hub; the most recent one counts (R18, R316). -/
def State.requestStep (s : State) (before : BitVec 2) : State :=
  if s.effStep == before then s else { s with freqHeld := some s.effStep }

/-- The hub broadcasts a request (Table 2.2, step 1). One for the step in force completes at once (R18). -/
def State.broadcast (s : State) (t : BitVec 2) : State :=
  if t == s.step then { s with freqHeld := none }
  else { s with freqHeld := none, freq := some { target := t, acked := [8], relocked := false } }

/-- FREQUENCY_CHANGE (R17): the held request is broadcast, unless a change or a resynchronisation is in progress (R18, R282). -/
def execFrequencyChange (target : BitVec 2) (s : State) : Out :=
  .next (if s.freqHeld == some target && s.freq.isNone && s.resync.isNone then s.broadcast target else s)

/-- No item of die i is on a link. -/
def State.linksEmpty (s : State) (i : Nat) : Bool :=
  s.chans.all (fun c => c.src != i || !s.liveDie c.dst || (c.ord.isEmpty && c.bell.isEmpty))

/-- A reply to an access of die `i` is on its way. -/
def State.replyDue (s : State) (i : Nat) : Bool :=
  s.pending.any (fun p => p.done && (match s.team? p.team with | some t => dieOf t.coreNum == i | none => false))

/-- DIE_ACKNOWLEDGE (R17): a live die has stopped issue, and the packets in flight to and from it have reached their destinations (log 37). -/
def execDieAcknowledge (die : Nat) (s : State) : Out :=
  .next (match s.freq with
    | none => s
    | some f =>
      if die < 8 && s.liveDie die && !f.acked.contains die && s.linksEmpty die && !s.replyDue die &&
          !s.removalDue.any (fun x => x.1 == die) then { s with freq := some { f with acked := f.acked ++ [die] } }
      else s)

/-- PLL_RELOCK (R17): every live die has acknowledged, and no item is on a link, the broadcast of a removal included (R280). -/
def execPllRelock (s : State) : Out :=
  .next (match s.freq with
    | none => s
    | some f =>
      if !f.relocked && (List.range 8).all (fun d => !s.liveDie d || f.acked.contains d) && (List.range 9).all (fun d => !s.liveDie d || s.linksEmpty d) &&
          s.removalDue.all (fun x => !s.liveDie x.1)
      then { s with freq := some { f with relocked := true }, step := f.target }
      else s)

/-- FREQUENCY_RELEASE (R17, R18, R282): issue and injection resume, and stops, a resynchronisation and a request that were held
are applied. A stop that was held is applied in this step, with no further action of an engine before it, where the bounds of Table 10.12
count from the release: DESIGN CHOICE (log 101). -/
def execFrequencyRelease (s : State) : Out :=
  .next (match s.freq with
    | none => s
    | some f =>
      if !f.relocked then s
      else
        let s := { s with freq := none }
        let s := s.contexts.foldl (fun (s : State) c =>
          match c.halt with
          | .raised o => if s.haltHeld c.num then s else s.applyHalt c o
          | _ => s) s
        let s := match s.resyncHeld with | some r => { s with resyncHeld := none }.startResync r | none => s
        let s := s.flush
        match s.freqHeld with
        | some t => if s.resync.isNone then s.broadcast t else s
        | none => s)

/-- ACK_TIMEOUT (R18): a die has not acknowledged in time. -/
def execAckTimeout (die : Nat) (s : State) : Out :=
  .next (match s.freq with
    | none => s
    | some f => if die < 8 && s.liveDie die && !f.acked.contains die then s.declareRemoved die 0 else s)

/-- A write of FREQCTL (R316). -/
def State.setCeiling (s : State) (v : Nat) : State :=
  (s.updMgmt (fun m => { m with freqctl := BitVec.ofNat 2 v })).requestStep s.effStep

/-- A write of PCAP: above 3400 it is stored as 3400 (R316). -/
def State.setPcap (s : State) (v : Nat) : State := s.updMgmt (fun m => { m with pcap := min 3400 (v % 65536) })

/-- A POWER_LIMIT record (Table 22.6). -/
def powerRecord (time pcap watts : Nat) : BitVec 256 := eventRec 0x50 3 (pcap % 256) (pcap / 256) watts 0 0 time

/-- CAPPER_SAMPLE (R316): the average over 10 µs; 100 samples in a row below 90 % of PCAP are 1 ms (log 37). A step down is a
trip, which freezes the black box (R318, log 37). -/
def execCapperSample (watts : Nat) (s : State) : Out :=
  let before := s.effStep
  .next (
    if s.mgmt.pcap < watts then
      if s.step == 3 then { s with capLow := 0 }.logEvent (powerRecord s.time s.mgmt.pcap watts)
      else
        let s := { s with capStep := if s.capStep == 3 then 3 else s.capStep + 1, capLow := 0 }
        (s.updMgmt (fun m => { m with frozen := true })).requestStep before
    else if watts * 10 < s.mgmt.pcap * 9 then
      if s.capLow + 1 < 100 then { s with capLow := s.capLow + 1 }
      else { s with capLow := 0, capStep := if s.capStep == 0 then 0 else s.capStep - 1 }.requestStep before
    else { s with capLow := 0 })

/-! ### Wear (R317) -/

/-- A unit that exists (WEARIDX, Table 22.5). -/
def wearExists : WearUnit → Bool
  | .laneGroup n => n < 1024
  | .subArray n => n < 1024
  | .bank n => n < 2048
  | .sliceWay n => n < 4096

/-- One more event of a unit at a second: the fourth within 24 h makes it lasting (log 37). -/
def Wear.event (w : Wear) (sec : Nat) : Wear :=
  let times := (sec :: w.times).take 4
  let fourth := match times[3]? with | some t => decide (sec - t ≤ 86400) | none => false
  { w with count := min 0xFFFFFFFF (w.count + 1), times, lasting := w.lasting || fourth }

/-- WEAR_EVENT (R317): a corrected error or a signature mismatch, with the time of the board's clock. -/
def execWearEvent (u : WearUnit) (sec : Nat) (s : State) : Out :=
  .next (if !wearExists u then s
    else s.updMgmt (fun m =>
      if m.wear.any (fun w => w.u == u) then { m with wear := updWhere (fun w => w.u == u) (fun w => w.event sec) m.wear }
      else { m with wear := m.wear ++ [{ u, count := 0, times := [], lasting := false : Wear }.event sec] }))

/-- The core that a core unit belongs to. -/
def coreOfUnit : WearUnit → Option Nat
  | .laneGroup n => some (n / 4)
  | .subArray n => some (n / 4)
  | .bank n => some (n / 8)
  | .sliceWay _ => none

/-- Cores that the overlay retires at a reset. -/
def overlayCores (ws : List Wear) : List Nat := (ws.filter (fun w => w.lasting)).filterMap (fun w => coreOfUnit w.u)

/-- Slice ways whose fault is lasting, in the order of their entries. -/
def overlayWays (ws : List Wear) : List Nat :=
  (ws.filter (fun w => w.lasting)).filterMap (fun w => match w.u with | .sliceWay n => some n | _ => none)

/-- The ways that are disabled: at most four of each slice (R224). -/
def disabledWays : List Nat → List Nat
  | ws => ws.foldl (fun acc x => if 4 ≤ (acc.filter (fun y => y / 16 == x / 16)).length then acc else acc ++ [x]) []

/-- Dies retired because a slice would keep fewer than 12 ways (R224). -/
def overlayDies (ws : List Nat) : List Nat :=
  (List.range 8).filter (fun d => ws.any (fun x => x / 512 == d && 4 < (ws.filter (fun y => y / 16 == x / 16)).length))

/-! ### Lasers (R315) -/

/-- LASER_EN (R315): without it no transmit fibre has light. -/
def execLaserEn (on : Bool) (s : State) : Out :=
  .next (
    let s := { s with laserEn := on }
    if on then s
    else (s.fibres.filter (fun f => transmits f.num)).foldl (fun (s : State) f => s.loseLight f.num (BitVec.allOnes 128)) s)

/-! ### Reset (R309, R313, R314) -/

/-- Members of the second list that the first does not hold, after the first. -/
def union (a b : List Nat) : List Nat := a ++ b.filter (fun x => !a.contains x)

/-- The outcome of the boot ROM's check of the configuration image (R313, CFGSTAT). -/
inductive ImageCheck where
  | valid (img : Config.ImageInfo)
  | noImage
  | badSignature
  | badField
  deriving DecidableEq, Repr

/-- The boot ROM's check of an image (R313): SHA-512 of its key against the hash in ROM, then its signature, then its fields. A wrong key
counts as a bad signature: DESIGN CHOICE (log 77). -/
def checkImage : Option Config.ImageFile → ImageCheck
  | none => .noImage
  | some f =>
    if Config.sha512 f.key != Config.romKeyHash || !Config.ecdsaP521 f.key (Config.sha512 f.signed) f.signature then .badSignature
    else if !f.fieldsOk then .badField
    else .valid f.info

/-- Bytes of the flash. -/
def flashBytes : Nat := 0x4000000
/-- End of the image region. -/
def imageEnd : Nat := 0x1000000

/-- The image that the boot ROM reads from the start of the module flash. -/
def Mgmt.image (m : Mgmt) : ImageCheck := checkImage (Config.imageIn (m.flash.window 0 imageEnd))

/-- The signature of that image; empty: there is none. -/
def Mgmt.imageSig (m : Mgmt) : List Byte := ((Config.imageIn (m.flash.window 0 imageEnd)).map (fun f => f.signature)).getD []

/-- The boot ROM's verdict on the image (R313): retirement, peer number, PCAP default and fibre map, with the wear overlay
(R317), or the cause of the failure. An image is new when its signature is not that of the image which the last boot verified, and a new
image clears the overlay: DEDUCED (log 100). -/
def State.boot (s : State) : ImageCheck → State
  | .valid img =>
    let sig := s.mgmt.imageSig
    let wear := if s.mgmt.bootSig != sig then s.mgmt.wear.map (fun w => { w with lasting := false }) else s.mgmt.wear
    let ways := overlayWays wear
    { s with retiredCores := union img.retiredCores (overlayCores wear), retiredDies := union img.retiredDies (overlayDies ways),
             peerNumber := img.peer, offWays := disabledWays ways,
             fibres := img.fibrePeers.map (fun p => { num := p.1, dark := BitVec.allOnes 128, loscnt := ((s.fibre? p.1).map (fun f => f.loscnt)).getD 0,
                                                      peer := p.2, los := false, trained := false }),
             mgmt := { s.mgmt with verified := true, cfgstat := 0, pcap := img.pcap.toNat, wear, bootSig := sig } }
  | .noImage => s.updMgmt (fun m => { m with cfgstat := 1 })
  | .badSignature => s.updMgmt (fun m => { m with cfgstat := 2 })
  | .badField => s.updMgmt (fun m => { m with cfgstat := 3 })

/-- What every reset leaves: the reset state, with what lies outside the reset, namely the flash and its wear records, the
board's LASER_EN, host memory and the peers' memory. The choice of who moves next goes on (log 3). -/
def State.cleared (s : State) : State :=
  { State.reset with
    fresh := s.fresh, agenda := s.agenda, nextId := s.nextId, laserEn := s.laserEn, hostMem := s.hostMem, peerMem := s.peerMem,
    mgmt := { Mgmt.reset with flash := s.mgmt.flash, wear := s.mgmt.wear, bootSig := s.mgmt.bootSig } }

/-- COLD_RESET (R313). No rule gives TIME after a reset: `time` (log 6). -/
def execColdReset (time : Nat) (s : State) : Out := .next (State.boot { s.cleared with time } s.mgmt.image)

/-- What a warm reset leaves: device memory (log 40), both logs, and LOSCNT, which counts since the cold reset. -/
def State.warmCleared (s : State) : State :=
  let m := s.mgmt
  let fibres := s.fibres.map (fun (f : Fibre) => { f with dark := BitVec.allOnes 128, los := false, trained := false })
  { s.cleared with
    mem := s.mem, poison := s.poison, fibres,
    mgmt := { s.cleared.mgmt with mewr := m.mewr, melog := m.melog, bbwr := m.bbwr, bblog := m.bblog, frozen := m.frozen } }

/-- Numbers of the READY bits of Table 22.2. -/
def readyBit (b : Nat) : Bool := decide (b < 5) || (decide (8 ≤ b) && decide (b < 40))

/-- The conditions of Table 22.2 for a READY bit, and those of R313 and R309: after a failed check only CXL rises, and the bit
of a retired or removed die stays 0. -/
def State.mayBeReady (s : State) (b : Nat) : Bool :=
  let r := s.mgmt.ready
  readyBit b && (s.mgmt.cfgstat == 0 || b == 1) &&
  (if b = 0 then s.mgmt.verified
   else if b = 3 then r.getLsbD 0
   else if 8 ≤ b ∧ b < 16 then r.getLsbD (16 + 2 * (b - 8)) && r.getLsbD (17 + 2 * (b - 8)) && s.liveDie (b - 8)
   else true)

/-- An optical die has trained: its fibres carry light, transmit fibres only under LASER_EN. -/
def State.train (s : State) (j : Nat) : State :=
  let up := fun (f : Fibre) => { f with trained := true, dark := if transmits f.num && !s.laserEn then BitVec.allOnes 128 else 0 }
  { s with fibres := updWhere (fun (f : Fibre) => f.num / 16 == j && !f.trained) up s.fibres }

/-- FUNCTION_READY (R309). -/
def execFunctionReady (bit : Nat) (s : State) : Out :=
  .next (if !s.mayBeReady bit then s
    else
      let s := s.updMgmt (fun m => { m with ready := m.ready ||| (1#64 <<< bit) })
      if 32 ≤ bit then s.train (bit - 32) else s)

/-! ### The black box and firmware (R318, R315) -/

/-- HUB_UNCORRECTABLE_ERROR (R318): the ring freezes. -/
def execHubUncorrectableError (s : State) : Out := .next (s.updMgmt (fun m => { m with frozen := true }))

/-- FIRMWARE_BUS_MASTERING (R315): an access outside the management regions is dropped and logged. One inside them reaches
memory of the firmware's own, which the manual gives no contents (log 39). -/
def execFirmwareBusMastering (addr : Nat) (write : Option (List Byte)) (s : State) : Out :=
  .next (match Config.fwRegion addr, write with
    | true, _ => s
    | false, _ => s.logEvent (eventRec 0x61 0 0 0 0 addr 0 s.time))

end Sys2Proof.Machine
end

