-- ==== Sys2Proof/Machine/Manage.lean ====
section
/-! DEFINITION. The management space (R306, R307): commands (R310), answers of root effects (R312), event queues (R311),
slice registers (R223), flash commands (R314), register writes (R5) and register reads (R306). -/

namespace Sys2Proof.Machine

open Sys2Proof

/-! ### Command blocks (R310) -/

/-- The eight 64-bit words of the command block at CMDPTR, in the memory of device 0 (log 41). -/
def State.cmdBlock (s : State) : List Nat := (List.range 8).map (fun i => s.mem.le (s.mgmt.cmdptr.toNat % 0x100000000000000 + 8 * i) 8)

/-- Word `i` of a block. -/
def word (b : List Nat) (i : Nat) : Nat := b.getD i 0

/-- Every unused byte of a block is zero: byte 0 is the context number where the command uses one, and `n` words from byte 8
on are its operands. -/
def blockOk (b : List Nat) (ctx : Bool) (n : Nat) : Bool :=
  decide (word b 0 < (if ctx then 256 else 1)) && (b.drop (1 + n)).all (fun x => x == 0)

/-- BAR0 takes writes of every register: the image has not failed its check (R313). -/
def State.barOpen (s : State) : Bool := s.mgmt.cfgstat == 0

/-- The end of a command's execution, for COMMAND_DONE to report. -/
def State.ran (s : State) (op status result : Nat) : State :=
  s.updMgmt (fun m => { m with running := some { op, status, result, ctx := 0, lo := 0, hi := 0 } })

/-- A write of CMD (R310): while BUSY it is ignored and sets LOST. `ctx` and `n`: what the block holds; `f` executes the
command, given the block. -/
def State.command (s : State) (op : Nat) (ctx : Bool) (n : Nat) (f : State → List Nat → State) : State :=
  if !s.barOpen then s
  else if s.mgmt.cmdBusy then s.updMgmt (fun m => { m with cmdLost := true })
  else
    let b := s.cmdBlock
    let s := s.updMgmt (fun m => { m with cmdBusy := true })
    if !blockOk b ctx n || (ctx && (s.ctx? (word b 0)).isNone) then s.ran op 0xFF 0 else f s b

/-- The context has halted (R174). -/
def Context.halted (c : Context) : Bool := match c.halt with | .applied _ => true | _ => false

/-- A command that names a context. One that has halted accepts only its destruction (R174); any other returns 0xFF (log 43). -/
def State.commandCtx (s : State) (op n : Nat) (f : State → Context → List Nat → State) : State :=
  s.command op true n (fun s b =>
    match s.ctx? (word b 0) with
    | some c => if c.halted && op != 3 then s.ran op 0xFF 0 else f s c b
    | none => s)

/-! ### CTX_CREATE (R155) -/

/-- Bytes of device memory: 128 GiB for each die (R13). -/
def deviceBytes (mode : Nat) : Nat := 0x2000000000 * (if mode = 0 then 8 else if mode = 1 then 4 else 1)

/-- The fields of a context descriptor (Table 10.1). -/
structure CtxDesc where
  root : Nat
  mode : Nat
  device : Nat
  ceiling : Nat
  pool : Nat
  watchdog : Nat
  memBytes : Nat
  eqBase : Nat
  eqLog : Nat
  areasT : Nat
  areasG : Nat
  zero36 : Nat
  imageBase : Nat
  rootMap : Nat
  zero56 : Nat
  deriving DecidableEq, Repr

/-- Read a descriptor. -/
def readDesc (m : Memory) (a : Nat) : CtxDesc :=
  { root := m.le a 8, mode := m.le (a + 8) 1, device := m.le (a + 9) 1, ceiling := m.le (a + 10) 1, pool := m.le (a + 11) 1,
    watchdog := m.le (a + 12) 4, memBytes := m.le (a + 16) 8, eqBase := m.le (a + 24) 8, eqLog := m.le (a + 32) 1, areasT := m.le (a + 33) 1,
    areasG := m.le (a + 34) 2, zero36 := m.le (a + 36) 4, imageBase := m.le (a + 40) 8, rootMap := m.le (a + 48) 8, zero56 := m.le (a + 56) 8 }

/-- Every field is within its limits (Table 10.1). -/
def CtxDesc.ok (d : CtxDesc) : Bool :=
  d.root % 0x10000 == 0 && decide (d.mode < 3) && decide (d.device < (if d.mode = 0 then 1 else if d.mode = 1 then 2 else 8)) &&
  decide (d.ceiling < 4) && (d.pool == 0 || (decide (2 ≤ d.pool) && decide (d.pool < 6))) && d.memBytes % 0x10000 == 0 &&
  decide (6 ≤ d.eqLog) && decide (d.eqLog ≤ 20) && d.eqBase % (32 * 2 ^ d.eqLog) == 0 && d.areasT != 0 && d.areasG != 0 &&
  d.zero36 == 0 && d.imageBase % 0x200000 == 0 && decide (d.imageBase < deviceBytes d.mode) && d.rootMap % 64 == 0 && d.zero56 == 0

/-- Bytes of the twin pool (Table 10.1, byte 11). -/
def CtxDesc.poolBytes (d : CtxDesc) : Nat := d.memBytes / 2 ^ (if d.pool = 0 then 5 else d.pool)

/-- Bytes of an image region (Table 10.3). -/
def imageBytes (t g : Nat) : Nat := (0x200000 + t * 0x610000 + 0x1FFFFF) / 0x200000 * 0x200000 + g * 0xB0000

/-- Bytes that a live context has reserved: its image region and its pool. -/
def Context.reserved (c : Context) : Nat := imageBytes c.nTeamAreas c.nGroupAreas + 144 * c.poolCap

/-- The lowest context number that no live context has. -/
def State.freeCtx (s : State) : Option Nat := (List.range 64).find? (fun n => (s.ctx? n).isNone)

/-- The image region and the pool can be reserved: the region, whose base lies in the device's memory, ends in it and meets no other
context's, and memory is left for both (log 42). -/
def State.canReserve (s : State) (d : CtxDesc) : Bool :=
  let n := imageBytes d.areasT d.areasG
  let same := s.contexts.filter (fun c => c.device == d.device)
  decide (d.imageBase + n ≤ deviceBytes d.mode) &&
  same.all (fun c => decide (d.imageBase + n ≤ c.imageBase) || decide (c.imageBase + imageBytes c.nTeamAreas c.nGroupAreas ≤ d.imageBase)) &&
  decide ((same.map (fun c => c.reserved)).sum + n + d.poolBytes ≤ deviceBytes d.mode)

/-- A die of the named device is retired or not ready (R309). -/
def State.deviceDown (s : State) (d : CtxDesc) : Bool :=
  (({ s with mode := some d.mode }).deviceDies d.device).any (fun k => s.retiredDies.contains k || !s.mgmt.ready.getLsbD (8 + k))

/-- The creation status (Table 10.2, R19), in the table's order, where an unknown mode is a bad descriptor (log 42). -/
def State.createStatus (s : State) (d : CtxDesc) : Nat :=
  if decide (d.mode < 3) && (match s.mode with | some m => m != d.mode | none => false) then 1
  else if !d.ok then 2
  else if s.freeCtx.isNone || !s.canReserve d then 3
  else if s.deviceDown d then 4
  else 0

/-- The event-queue registers of a context number that is not live. -/
def Mgmt.eqRegs (m : Mgmt) (n : Nat) : EqRegs := (m.eqIdle.find? (fun x => x.ctx == n)).getD { ctx := n, wr := 0, rd := 0, lost := 0 }

/-- A context as it is created: its root map is read once, and of its event-queue registers only EQLOST is cleared (R307, log 74). -/
def newContext (m : Memory) (n : Nat) (d : CtxDesc) (q : EqRegs) : Context :=
  { num := n, ptRoot := d.root, mode := d.mode, device := d.device, ceiling := d.ceiling, watchdog := d.watchdog, memBytes := d.memBytes,
    eqBase := d.eqBase, eqLog := d.eqLog, nTeamAreas := d.areasT, nGroupAreas := d.areasG, imageBase := d.imageBase,
    rootMap := BitVec.ofNat 4096 (m.le (gaOf d.device d.rootMap) 512), poolCap := d.poolBytes / 144, poolFree := d.poolBytes / 144,
    eqwr := q.wr, eqrd := q.rd, eqlost := 0, heldEffects := [], halt := .none, skid := [], faults := [], removing := false, removedPosted := false, exited := 0,
    stops := 0, stopsLost := 0, rootTokens := [] }

/-- CTX_CREATE (R155, Table 22.3). -/
def execCtxCreate (s : State) : Out :=
  .next (s.command 1 false 1 (fun s b =>
    let d := readDesc s.mem (word b 1 % 0x100000000000000)
    match s.createStatus d, s.freeCtx with
    | 0, some n => ({ s with mode := some d.mode, contexts := s.contexts ++ [newContext s.mem n d (s.mgmt.eqRegs n)] }).ran 1 0 n
    | k, _ => s.ran 1 k 0))

/-! ### CTX_REMOVE and CTX_DESTROY (R178, R310) -/

/-- CTX_REMOVE (R178): the command ends when the REMOVED record is posted. -/
def execCtxRemove (s : State) : Out :=
  .next (s.commandCtx 2 0 (fun s c _ =>
    let s := if c.removing then s else s.removeContext c.num
    s.updMgmt (fun m => { m with running := some { op := 2, status := 0, result := 0, ctx := c.num, lo := 0, hi := 0 } })))

/-- The regions that stay when a context's are dropped, and the number by which a push knows each. -/
def State.dropRegions (s : State) (n : Nat) : State :=
  let keep := fun (r : Region) => r.ctx != n
  { s with regions := s.regions.filter keep,
           haloRels := (s.haloRels.filter (fun h => match s.regions[h.region]? with | some r => keep r | none => false)).map
             (fun h => { h with region := ((s.regions.take h.region).filter keep).length }) }

/-- The translations that stay when those of a context go, or of its pages that a range meets (R180). -/
def State.dropTlb (s : State) (n : Nat) (p : TlbEntry → Bool) : State :=
  let keep := fun (x : TlbEntry) => !(x.ctx == n && p x)
  { s with tlb1 := s.tlb1.filter keep, tlb2 := s.tlb2.filter keep }

/-- The atomics of some teams that have been issued and not performed are performed; the host gives up its copies of their lines. -/
def State.endAtomics (s : State) (teams : List Nat) : State :=
  (s.pending.filter (fun p => teams.contains p.team && p.unwritten false)).foldl (fun (s : State) p =>
    (p.items.foldl (fun (s : State) i => match i.t.loc with | .dev ga => s.takeBack ga | _ => s) s).bindOne p) s

/-- The work that is left of a context goes with its teams. A write and an atomic that have been issued to memory are performed all the same,
and the event-queue registers keep their values (log 74). -/
def State.dropWork (s : State) (c : Context) : State :=
  let dead := (s.teams.filter (fun t => t.ctx == c.num)).map (fun t => t.id)
  let s := (dead.foldl (fun (s : State) t => s.removeTeam t) s).endAtomics dead
  { s with teams := s.teams.filter (fun t => t.ctx != c.num), sets := s.sets.filter (fun x => x.ctx != c.num),
           views := s.views.filter (fun v => v.ctx != c.num), grids := s.grids.filter (fun g => g.ctx != c.num),
           pending := s.pending.filter (fun p => !dead.contains p.team || (p.rmw && p.waits)),
           heldWrites := s.heldWrites.filter (fun h => !(h.ctx == some c.num && h.view.isSome)),
           imageWrites := s.imageWrites.filter (fun x =>
             decide (x.2.1 < c.ga c.imageBase) || decide (c.ga c.imageBase + imageBytes c.nTeamAreas c.nGroupAreas ≤ x.2.1)),
           mgmt := { s.mgmt with eqIdle :=
             { ctx := c.num, wr := c.eqwr, rd := c.eqrd, lost := c.eqlost } :: s.mgmt.eqIdle.filter (fun x => x.ctx != c.num) } }

/-- Destroy a context: its queues, translations, pins, regions, pool and image region go, and everything kept of its work. -/
def State.destroy (s : State) (c : Context) : State :=
  let s := ((s.dropRegions c.num).dropWork c).dropTlb c.num (fun _ => true)
  let cs := s.contexts.filter (fun x => x.num != c.num)
  { s with contexts := cs, mode := if cs.isEmpty then none else s.mode, queues := s.queues.filter (fun q => q.ctx != c.num),
           infield := updWhere (fun (l : InLine) => l.pin && l.pinCtx == c.num) (fun l => { l with pin := false }) s.infield }

/-- CTX_DESTROY (R310): refused while any team of the context exists, unless the context has halted: then its destruction is accepted
as it stands (R174). -/
def execCtxDestroy (s : State) : Out :=
  .next (s.commandCtx 3 0 (fun s c _ =>
    if !c.halted && s.teams.any (fun t => t.ctx == c.num && !t.isEnded) then s.ran 3 1 0 else (s.destroy c).ran 3 0 0))

/-! ### Queues (R157, R310) -/

/-- A header that a bind accepts (Table 10.5, R6). -/
def State.headerOk (s : State) (base : Nat) : Bool :=
  let k := s.mem.le (base + 16) 1
  decide (1 ≤ k) && decide (k ≤ 16) && decide (s.mem.le (base + 17) 1 < 2) && (s.mem.bytes (base + 19) 45).all (fun b => b == 0)

/-- QUEUE_BIND (R157). A priority above the context's ceiling has no status of its own: 0xFF (log 43). -/
def execQueueBind (s : State) : Out :=
  .next (s.commandCtx 4 3 (fun s c b =>
    let slot := word b 2
    let base := c.ga (word b 1)
    if c.ceiling < word b 3 then s.ran 4 0xFF 0
    else if slotsPerDevice c.mode ≤ slot || s.queues.any (fun q => q.device == c.device && q.slot == slot) then s.ran 4 1 0
    else if word b 1 % 64 != 0 || !s.headerOk base then s.ran 4 2 0
    else
      let q : QBind := { device := c.device, slot, ctx := c.num, hdr := word b 1, prio := word b 3, halted := cellRead s.mem (base + 17) == 1 }
      ({ s with queues := s.queues ++ [q] }).ran 4 0 0))

/-- QUEUE_UNBIND (R310): refused while launches of the slot are outstanding. A slot that the context has not bound stays as it
is (log 43). -/
def execQueueUnbind (s : State) : Out :=
  .next (s.commandCtx 5 1 (fun s c b =>
    let slot := word b 1
    if s.grids.any (fun g => g.ctx == c.num && g.slot == slot && !g.finished) then s.ran 5 1 0
    else ({ s with queues := s.queues.filter (fun q => !(q.ctx == c.num && q.slot == slot)) }).ran 5 0 0))

/-! ### INVALIDATE (R180, R234) -/

/-- Does the page of a virtual address, of the size of its entry, meet a range? -/
def pageMeets (va : Nat) (e : BitVec 64) (lo hi : Nat) : Bool :=
  let n := pageBytes (pteSize e)
  decide (va / n * n < hi) && decide (lo < va / n * n + n)

/-- The range covers a page of a declared region of the context (R234). -/
def State.haloCovered (s : State) (c : Context) (lo hi : Nat) : Bool :=
  s.regions.any (fun r => r.ctx == c.num && r.pieces.any (fun p =>
    let va := r.base + p.1 * r.tstride + p.2.1 * r.pstride
    pageMeets va ((s.walk c false va).getD 0) lo hi))

/-- No translation of a range stays (R180). -/
def State.dropRange (s : State) (n lo hi : Nat) : State :=
  s.dropTlb n (fun x => pageMeets (x.va % 0x100000000000000) x.pte lo hi)

/-- INVALIDATE (R180): no translation of the range stays. -/
def execInvalidate (s : State) : Out :=
  .next (s.commandCtx 6 2 (fun s c b =>
    let lo := word b 1 % 0x100000000000000
    let hi := lo + word b 2
    if s.haloCovered c lo hi then s.ran 6 1 0
    else
      let s := s.dropRange c.num lo hi
      s.updMgmt (fun m => { m with running := some { op := 6, status := 0, result := 0, ctx := c.num, lo, hi } })))

/-- A team of a context. -/
def State.isTeamOf (s : State) (n t : Nat) : Bool := match s.team? t with | some x => x.ctx == n | none => false

/-- A range, made wider to the whole pages at its ends, as the tables now give them (R180). -/
def State.wholePages (s : State) (n lo hi : Nat) : Nat × Nat :=
  let bytes := fun (va : Nat) => match s.ctx? n with
    | some c => pageBytes (pteSize (((s.walk c false va).orElse (fun _ => s.walk c true va)).getD 0))
    | none => 0x10000
  (lo / bytes lo * bytes lo, ((hi - 1) / bytes (hi - 1) + 1) * bytes (hi - 1))

/-- An access of a context that may have used a translation of the range has not been performed, or a copy or matrix operation
whose hurdle covers a page of it, or that keeps a translation of one, has not completed (R180, R194). -/
def State.rangeBusy (s : State) (n lo hi : Nat) : Bool :=
  let wide := s.wholePages n lo hi
  let va := fun (t : Target) => (match t.loc with | .spad _ _ => false | _ => pageMeets (t.va % 0x100000000000000) t.pte lo hi)
  s.pending.any (fun p => s.isTeamOf n p.team && p.items.any (fun i => i.val.isNone && va i.t)) ||
  s.haloRels.any (fun h => s.isTeamOf n h.team && va h.flag) ||
  s.heldWrites.any (fun h => match h.owner with | some o => s.isTeamOf n o.1 | none => false) ||
  s.peerStores.any (fun p => s.isTeamOf n p.team) || s.causalStores.any (fun x => s.isTeamOf n x.team || (x.team == 0 && s.hubCtx x.grp == some n)) ||
  s.copies.any (fun c => s.isTeamOf n c.team && c.trans.any (fun x => pageMeets (x.va % 0x100000000000000) x.pte lo hi)) ||
  s.hurdles.any (fun h => h.space == .va n && decide (h.lo % 0x100000000000000 < wide.2) &&
    decide (wide.1 < h.lo % 0x100000000000000 + (h.hi - h.lo)))

/-! ### Pins (R231, R224) -/

/-- Pins that a set may keep: E − OUTWAYS, under the larger value while a change is in progress (R224, R223). -/
def State.pinLimit (s : State) (slice : Nat) : Nat :=
  let c := s.sliceCfg (slice / 32)
  s.waysOf slice - max c.outways (c.target.getD 0)

/-- Pin one line of a context; none: it failed. -/
def State.pinLine (s : State) (c : Context) (va : Nat) : Option State :=
  if windowOf va != .lower then none
  else match s.walk c false va with
  | none => none
  | some e =>
    let ga := c.ga (leafPa e va)
    let line := lineOf ga
    let slice := s.sliceOf e ga
    if pteViewed e || pteHalo e || s.poisoned (line * 128) 128 then none
    else if (match s.inLine? line with | some l => l.pin | none => false) then some s
    else if s.pinLimit slice ≤ s.pinsIn slice (setOf line) then none
    else
      let s := s.fillIn slice line
      some { s with infield := updWhere (fun (l : InLine) => l.line == line) (fun l => { l with pin := true, pinCtx := c.num }) s.infield }

/-- Unpin one line of a context; none: it has no translation. -/
def State.unpinLine (s : State) (c : Context) (va : Nat) : Option State :=
  if windowOf va != .lower then none
  else (s.walk c false va).map (fun e =>
    { s with infield := updWhere (fun (l : InLine) => l.line == lineOf (c.ga (leafPa e va))) (fun l => { l with pin := false }) s.infield })

/-- Walk a range line by line, counting the lines that failed. -/
def State.walkLines (s : State) (va len : Nat) (f : State → Nat → Option State) : State × Nat :=
  (linesOf va len).foldl (fun (acc : State × Nat) l =>
    match f acc.1 (l * 128) with | some s => (s, acc.2) | none => (acc.1, acc.2 + 1)) (s, 0)

/-- PIN (R231). -/
def execPin (s : State) : Out :=
  .next (s.commandCtx 7 2 (fun s c b =>
    let r := s.walkLines (word b 1) (word b 2) (fun s va => s.pinLine c va)
    r.1.ran 7 0 r.2))

/-- UNPIN (R231). -/
def execUnpin (s : State) : Out :=
  .next (s.commandCtx 8 2 (fun s c b =>
    let r := s.walkLines (word b 1) (word b 2) (fun s va => s.unpinLine c va)
    r.1.ran 8 0 r.2))

/-! ### HALO_DECLARE (R233, R234) -/

/-- No member twice. -/
def distinct : List Nat → Bool
  | [] => true
  | x :: xs => !xs.contains x && distinct xs

/-- The region of a descriptor, its pieces without physical addresses; none: a field is outside its limits (Table 14.4). -/
def readHalo (m : Memory) (a ctx : Nat) : Option Region :=
  let f := fun (o n : Nat) => m.le (a + o) n
  let tiles := f 22 1 * f 23 1
  let r : Region :=
    { ctx, base := f 0 8, tstride := f 8 4, pstride := f 12 4, w := f 16 2, h := f 18 2, hw := f 20 1, esize := f 21 1, tx := f 22 1, ty := f 23 1,
      rpitch := f 24 4, corners := f 28 1 == 1, die := f 29 1, ownBase := f 30 2, slices := (List.range tiles).map (fun t => f (32 + t) 1), pieces := [] }
  if r.base % 4096 == 0 && r.tstride != 0 && r.tstride % 4096 == 0 && r.pstride != 0 && r.pstride % 4096 == 0 &&
     decide (1 ≤ r.w) && decide (r.w ≤ 1024) && decide (1 ≤ r.h) && decide (r.h ≤ 1024) &&
     decide (1 ≤ r.hw) && decide (r.hw ≤ 16) && decide (r.hw ≤ r.w) && decide (r.hw ≤ r.h) && decide (r.esize < 4) &&
     decide (1 ≤ r.tx) && decide (r.tx ≤ 32) && decide (1 ≤ r.ty) && decide (r.ty ≤ 32) && decide (tiles ≤ 32) &&
     r.rpitch % r.esz == 0 && decide ((r.w + 2 * r.hw) * r.esz ≤ r.rpitch) && decide (f 28 1 < 2) && decide (r.die < 8) &&
     r.slices.all (fun k => decide (k < 32)) && (List.range (32 - tiles)).all (fun i => f (32 + tiles + i) 1 == 0)
  then some r else none

/-- The 4 KiB pieces of every tile's storage: tile, piece and virtual address (R233). -/
def Region.parts (r : Region) : List (Nat × Nat × Nat) :=
  (List.range (r.tx * r.ty)).flatMap (fun t => (List.range ((r.storage + 4095) / 4096)).map (fun k => (t, k, r.addrOf t (k * 4096))))

/-- The package address of a piece, when its page and its home are as R234 asks. -/
def State.pieceAt (s : State) (c : Context) (r : Region) (t va : Nat) : Option Nat :=
  if windowOf va != .lower then none
  else match s.walk c false va with
  | none => none
  | some e =>
    let ga := c.ga (leafPa e va)
    if pteHalo e && !pteViewed e && !pteCausal e && s.homeDie ga == r.die &&
       (List.range 32).all (fun i => homeSlice e (ga + 128 * i) == r.slices.getD t 0)
    then some ga else none

/-- The declaration of a region: its status (Table 14.5), and the region with its physical addresses. -/
def State.declareHalo (s : State) (c : Context) (a : Nat) : Nat × Option Region :=
  match readHalo s.mem a c.num with
  | none => (1, none)
  | some r =>
    if !distinct (r.parts.map (fun p => p.2.2)) then (1, none)
    else
      let ps := r.parts.map (fun p => (p.1, p.2.1, s.pieceAt c r p.1 p.2.2))
      if ps.any (fun p => p.2.2.isNone) then (2, none)
      else if 8 ≤ (s.regions.filter (fun x => x.die == r.die)).length then (3, none)
      else
        let pieces := ps.map (fun p => (p.1, p.2.1, p.2.2.getD 0))
        if s.regions.any (fun x => x.pieces.any (fun p => pieces.any (fun q => p.2.2 == q.2.2))) then (4, none)
        else (0, some { r with pieces })

/-- The bytes of device memory that a packet of the fabric is going to write. -/
def Payload.writes : Payload → List (Nat × Nat)
  | .store _ _ runs _ => runs.map (fun r => (r.1, r.2.length))
  | .rmw _ t _ _ _ => [(t.ga, t.size)]
  | .hostWrite pa bs => [(pa, bs.length)]
  | _ => []

/-- Bytes of device memory that writes which have been issued, and commits of the granules that a view has stored to, are going to write. -/
def State.writesDue (s : State) : List (Nat × Nat) :=
  let dev := fun (t : Target) => match t.loc with | .dev ga => [(ga, t.size)] | _ => []
  s.heldWrites.flatMap (fun h => match h.t.loc with | .dev _ => h.runs.map (fun r => (r.1, r.2.length)) | _ => []) ++
  s.pending.flatMap (fun p => p.items.flatMap (fun i => if i.upd.isSome && i.val.isNone then dev i.t else [])) ++
  s.haloRels.flatMap (fun h => dev h.flag) ++ s.views.flatMap (fun v => v.dirty.map (fun g => (g.ga, 128))) ++
  (s.chans.flatMap (fun c => c.ord ++ c.pen)).flatMap (fun x => x.payload.writes) ++ s.outq.flatMap (fun x => x.2.2.writes)

/-- A write that has been issued and is not performed meets the storage of a region. -/
def State.haloBusy (s : State) (r : Region) : Bool :=
  s.writesDue.any (fun w => r.pieces.any (fun p => decide (w.1 < p.2.2 + 4096) && decide (p.2.2 < w.1 + w.2)))

/-- The declaration takes effect, with its status. -/
def State.haloDone (s : State) (c : Context) (a : Nat) : State × Nat :=
  match s.declareHalo c a with
  | (k, some r) => ({ s with regions := s.regions ++ [r] }, k)
  | (k, none) => (s, k)

/-- A declaration would be made now: no write on its way meets its storage. -/
def State.haloReady (s : State) (c : Context) (a : Nat) : Bool :=
  match (s.declareHalo c a).2 with | some r => !s.haloBusy r | none => true

/-- HALO_DECLARE (R234). Each replica holds what memory holds at the declaration (R245): while writes that were checked before it are on
their way to the region's storage, the command goes on, and the declaration is made at its end, which `hi` marks. -/
def execHaloDeclare (s : State) : Out :=
  .next (s.commandCtx 9 1 (fun s c b =>
    let a := c.ga (word b 1)
    if s.haloReady c a then (let x := s.haloDone c a; x.1.ran 9 x.2 0)
    else s.updMgmt (fun m => { m with running := some { op := 9, status := 0, result := 0, ctx := c.num, lo := a, hi := 1 } })))

/-! ### RESYNC and RETIRE_DIE (R281, R280) -/

/-- RESYNC (R281): the command ends when step 5 of Table 18.3 ends. -/
def execResync (s : State) : Out := .next (s.command 10 false 0 (fun s _ => (s.startResync .command).ran 10 0 0))

/-- RETIRE_DIE (R280). A number above 7 names no die: 0xFF (log 43). -/
def execRetireDie (s : State) : Out :=
  .next (s.command 11 false 1 (fun s b =>
    if 8 ≤ word b 1 then s.ran 11 0xFF 0
    else (s.declareRemoved (word b 1) 2).updMgmt (fun m => { m with running := some { op := 11, status := 0, result := 0, ctx := 0, lo := word b 1, hi := 0 } })))

/-! ### COMMAND_DONE (R310) -/

/-- A command has run to its end (Table 22.3). -/
def State.finished (s : State) (r : RunCmd) : Bool :=
  r.status != 0 ||
  (match r.op with
   | 2 => (match s.ctx? r.ctx with | some c => c.removedPosted | none => true)
   | 6 => !s.rangeBusy r.ctx r.lo r.hi
   | 9 => r.hi == 0 || (match s.ctx? r.ctx with | some c => s.haloReady c r.lo | none => true)
   | 10 => s.resync.isNone && s.resyncHeld.isNone
   | 11 => s.removedDies.contains r.lo
   | _ => true)

/-- What the end of a command does, and its status: a translation that has come back meanwhile into a range to invalidate leaves again, so
that every later access uses a fresh walk (R180), and a declaration that has waited is made (R245). -/
def State.commandEnd (s : State) (r : RunCmd) : State × Nat :=
  if r.op == 6 && r.status == 0 then (s.dropRange r.ctx r.lo r.hi, 0)
  else if r.op == 9 && r.hi == 1 then (match s.ctx? r.ctx with | some c => s.haloDone c r.lo | none => (s, r.status))
  else (s, r.status)

/-- COMMAND_DONE (R310): BUSY clears, and STATUS and CMDRES are set. -/
def execCommandDone (s : State) : Out :=
  .next (match s.mgmt.running with
    | some r =>
      if s.finished r then
        let x := s.commandEnd r
        x.1.updMgmt (fun m => { m with running := none, cmdBusy := false, cmdStatus := BitVec.ofNat 8 x.2, cmdres := toWord r.result })
      else s
    | none => s)

/-! ### Answers of root effects (R312, R111) -/

/-- The group of a pending root token; a context that has halted answers to none (R174). -/
def State.tokenGroup (s : State) (tok : Word) : Option (Team × Group) :=
  ((s.contexts.filter (fun c => !c.halted)).flatMap (fun c => c.rootTokens)).findSome? (fun x =>
    if x.1 != tok then none
    else match s.team? x.2.1 with
      | some t => (t.group? x.2.2).bind (fun g => if g.rootDest.isSome && !g.retired then some (t, g) else none)
      | none => none)

/-- Change a group where it is: in its team, and in its image while the team's state lies there. -/
def State.onGroup (s : State) (t : Team) (g : Group) (f : Group → Group) : State :=
  match t.imaged, s.ctx? t.ctx with
  | true, some c =>
    let y := f ((s.readGroupOf c t g).getD g)
    (s.updGroup t.id g.grpidx (fun _ => y)).saveGroup c y
  | _, _ => s.updGroup t.id g.grpidx f

/-- The resumption of a group: its value is delivered as in Table 6.6, at the word after its PERFORM. -/
def Group.answered (g : Group) (v : Word) : Group :=
  match g.rootDest with
  | none => g
  | some (rkind, mask, d) =>
    { (g.deliver rkind d.toNat mask v).finish false (fun x => { x with wait := .none }) (g.core.armA.spc + 4) with rootDest := none }

/-- The root token is answered. -/
def State.dropToken (s : State) (n : Nat) (tok : Word) : State :=
  s.updCtx n (fun c => { c with rootTokens := c.rootTokens.filter (fun x => x.1 != tok) })

/-- The resumption is an acquire at system scope of the host's answer, which carries no signature: all ones (R115, R229, log 44). -/
def State.acquireAnswer (s : State) (t : Team) : State :=
  match t.core? with
  | some c => { s.sweepDie (dieOf c) with w := accSet s.w c (BitVec.allOnes 64) }
  | none => s

/-- EACTL status. -/
def State.eaDone (s : State) (k : Byte) : State := s.updMgmt (fun m => { m with eaStatus := k, eaHeld := none })

/-- An answer that names no pending root token is ignored and logged (R111). R308 gives no record type for it and closes its list, so it is
logged in a list of its own, which no register shows: DESIGN CHOICE (log 88). -/
def State.eaIgnored (s : State) : State :=
  s.updMgmt (fun m => { m with eaStatus := 1, eaHeld := none, eaLog := (m.eatok, s.time) :: m.eaLog })

/-- An answer that comes during a frequency change waits, BUSY, until the dies are released: no group of a stopped die changes before
(R17, log 37). -/
def State.eaWait (s : State) (resume : Bool) : State := s.updMgmt (fun m => { m with eaHeld := some resume })

/-- EACTL_RESUME (R312): the value of EAVAL reaches the group as RESUME's value. -/
def execEactlResume (s : State) : Out :=
  .next (if !s.barOpen then s
    else if s.freq.isSome then s.eaWait true
    else match s.tokenGroup s.mgmt.eatok with
    | none => s.eaIgnored
    | some (t, g) =>
      let v := s.mgmt.eaval
      let s := (s.dropToken t.ctx s.mgmt.eatok).eaDone 0
      (s.acquireAnswer t).onGroup t g (fun y => y.answered v))

/-- EACTL_ABANDON (R312): the group is killed with NO_HANDLER, and contained (R111, R175). -/
def execEactlAbandon (s : State) : Out :=
  .next (if !s.barOpen then s
    else if s.freq.isSome then s.eaWait false
    else match s.tokenGroup s.mgmt.eatok with
    | none => s.eaIgnored
    | some (t, g) =>
      let s := (s.dropToken t.ctx s.mgmt.eatok).eaDone 0
      s.containedKill t g false { code := cNOHANDLER } 1)

/-! ### Event queues (R311) -/

/-- Post held EFFECT records while the queue has room. -/
def State.releaseHeld : Nat → State → Nat → State
  | 0, s, _ => s
  | fuel + 1, s, n =>
    match s.ctx? n with
    | none => s
    | some c =>
      match c.heldEffects with
      | [] => s
      | r :: rs =>
        if c.eqFull then s
        else State.releaseHeld fuel ((s.updCtx n (fun c => { c with heldEffects := rs })).putRecord n r) n

/-- EQRD_WRITE (R311). -/
def execEqrdWrite (ctx : Nat) (v : Word) (s : State) : Out :=
  .next (if !s.barOpen then s
    else match s.ctx? ctx with
    | none =>
      if 64 ≤ ctx then s
      else s.updMgmt (fun m => { m with eqIdle := { m.eqRegs ctx with rd := v } :: m.eqIdle.filter (fun x => x.ctx != ctx) })
    | some c => State.releaseHeld c.heldEffects.length (s.updCtx ctx (fun c => { c with eqrd := v })) ctx)

/-! ### Slice registers (R223) -/

/-- Keep the newest members of a list (oldest first) as far as `room` allows for each key. -/
def keepNewest {α : Type} (key room : α → Nat) (l : List α) : List α :=
  (l.foldr (fun (x : α) (acc : List α) => if (acc.filter (fun y => key y == key x)).length < room x then x :: acc else acc) [])

/-- The lines of a die under a new OUTWAYS: outfield lines and unpinned infield lines that have no way any more leave, the
oldest first, and the L1 copies of outfield lines leave with them. -/
def State.reway (s : State) (die n : Nat) : State :=
  let key := fun (slice line : Nat) => slice * 4096 + setOf line
  let inRoom := fun (l : InLine) => s.waysOf l.slice - min n (s.waysOf l.slice) - s.pinsIn l.slice (setOf l.line)
  let mine := fun (l : InLine) => l.slice / 32 == die
  let kept := keepNewest (fun (l : InLine) => key l.slice l.line) inRoom (s.infield.filter (fun l => mine l && !l.pin))
  let out := keepNewest (fun (l : OutLine) => key l.slice l.line) (fun l => min n (s.waysOf (die * 32 + l.slice))) (s.outfield.filter (fun l => l.die == die))
  { s with infield := s.infield.filter (fun l => !mine l || l.pin || kept.any (fun k => k.line == l.line)),
           outfield := s.outfield.filter (fun l => l.die != die || out.any (fun k => k == l)),
           l1 := s.l1.filter (fun x => x.ro || dieOf x.core != die || s.homeDie (x.line * 128) == die || out.any (fun k => k.peer.isNone && k.line == x.line)) }

/-- A set of the die holds more pins than a new value leaves room for. -/
def State.pinsExceed (s : State) (die n : Nat) : Bool :=
  s.infield.any (fun l => l.pin && l.slice / 32 == die && decide (s.waysOf l.slice - n < s.pinsIn l.slice (setOf l.line)))

/-- A write of OUTWAYS while no change is in progress. -/
def State.startReway (s : State) (die n : Nat) : State :=
  if 8 < n then s.updSliceCfg die (fun c => { c with badval := true })
  else if s.pinsExceed die n then s.updSliceCfg die (fun c => { c with pinfail := true })
  else s.updSliceCfg die (fun c => { c with target := some n })

/-- The held writes of a die, oldest first, are taken until one of them starts a change (R223). -/
def State.takeHeldWrites (die : Nat) : List Nat → State → State
  | [], s => s.updSliceCfg die (fun c => { c with heldWrites := [] })
  | n :: ns, s =>
    let u := s.startReway die n
    if (u.sliceCfg die).target.isSome then u.updSliceCfg die (fun c => { c with heldWrites := ns }) else takeHeldWrites die ns u

/-- SLCFG_WRITE (R223): a write while BUSY is held until the change in progress ends. -/
def execSlcfgWrite (die : Nat) (v : BitVec 32) (s : State) : Out :=
  .next (if !s.barOpen || 8 ≤ die then s
    else if (s.sliceCfg die).target.isSome then s.updSliceCfg die (fun c => { c with heldWrites := c.heldWrites ++ [v.toNat % 16] })
    else s.startReway die (v.toNat % 16))

/-- OUTWAYS_CHANGE_DONE (R223): the new value is in force, and held writes are taken. -/
def execOutwaysChangeDone (die : Nat) (s : State) : Out :=
  .next (match (s.sliceCfg die).target with
    | none => s
    | some n =>
      let s := (s.reway die n).updSliceCfg die (fun c => { c with outways := n, target := none })
      State.takeHeldWrites die (s.sliceCfg die).heldWrites s)

/-! ### FREQCTL, PCAP and the black box (R316, R318) -/

/-- FREQCTL_WRITE (R316). -/
def execFreqctlWrite (v : BitVec 32) (s : State) : Out := .next (if s.barOpen then s.setCeiling (v.toNat % 4) else s)

/-- PCAP_WRITE (R316). -/
def execPcapWrite (v : BitVec 32) (s : State) : Out := .next (if s.barOpen then s.setPcap v.toNat else s)

/-- FROZEN_CLEAR (R318): writing 1 to BBCTL[0] releases the ring. -/
def execFrozenClear (v : BitVec 32) (s : State) : Out :=
  .next (if s.barOpen && v.getLsbD 0 then s.updMgmt (fun m => { m with frozen := false }) else s)

/-! ### Flash (R314) -/

/-- The command is refused while any context exists and READY.CFG is set. -/
def State.flashRefused (s : State) : Bool := s.mgmt.ready.getLsbD 0 && !s.contexts.isEmpty

/-- The status of a flash command at FLADDR (Tables 22.7, 22.8): refused, then address and alignment, then the protected
region (log 38). -/
def State.flashStatus (s : State) (change : Bool) (align : Nat) : Nat :=
  let a := s.mgmt.fladdr.toNat
  if change && s.flashRefused then 4
  else if a % align != 0 || flashBytes ≤ a then 1
  else if change && imageEnd ≤ a then 2
  else 0

/-- A flash command that FLASH_COMMAND_DONE will report. A write of FLCTL while BUSY is ignored. -/
def State.flashCommand (s : State) (change : Bool) (align : Nat) (f : Mgmt → Mgmt) : State :=
  if s.mgmt.flBusy then s
  else
    let k := s.flashStatus change align
    s.updMgmt (fun m => { (if k = 0 then f m else m) with flBusy := true, flPending := some (BitVec.ofNat 8 k) })

/-- ERASE (R314): what an erased byte reads as is not stated (log 38). -/
def execErase (s : State) : Out :=
  .next (s.flashCommand true 0x10000 (fun m =>
    { m with flash := (m.flash.clear m.fladdr.toNat 0x10000).store m.fladdr.toNat (List.replicate 0x10000 Config.erasedByte) }))

/-- PROGRAM (R314). -/
def execProgram (s : State) : Out :=
  .next (s.flashCommand true 0x1000 (fun m => { m with flash := m.flash.store m.fladdr.toNat (m.flbuf.bytes 0 0x1000) }))

/-- The number of a unit's kind, and the unit (WEARIDX, Table 22.5). -/
def wearKey : WearUnit → Nat × Nat
  | .laneGroup n => (0, n)
  | .subArray n => (1, n)
  | .bank n => (2, n)
  | .sliceWay n => (3, n)

/-- A page of the flash: of the image region, or of the region that holds the wear records (R314). -/
def Mgmt.flashPage (m : Mgmt) (a : Nat) : Memory :=
  if a < imageEnd then m.flash.window a 0x1000
  else
    let recs := m.wear.map (fun w => ((wearKey w.u).1, (wearKey w.u).2, w.count, w.times, w.lasting))
    Memory.store [] 0 ((List.range 0x1000).map (fun i => Config.wearByte recs (a + i)))

/-- READ (R314). -/
def execRead (s : State) : Out := .next (s.flashCommand false 0x1000 (fun m => { m with flbuf := m.flashPage m.fladdr.toNat }))

/-- A command that has no effect: status 1 at once (Table 22.8). -/
def State.flashBad (s : State) : State := if s.mgmt.flBusy then s else s.updMgmt (fun m => { m with flStatus := 1 })

/-- WARM_RESET (R314): refused while a context exists. `time`: TIME as it leaves it (log 6). -/
def execWarmReset (time : Nat) (s : State) : Out :=
  .next (if s.mgmt.flBusy then s
    else if s.flashRefused then s.updMgmt (fun m => { m with flStatus := 4 })
    else State.boot { s.warmCleared with time } s.mgmt.image)

/-- FLASH_COMMAND_DONE (R314). -/
def execFlashCommandDone (s : State) : Out :=
  .next (match s.mgmt.flPending with
    | some k => s.updMgmt (fun m => { m with flBusy := false, flStatus := k, flPending := none })
    | none => s)

/-! ### REGISTER_WRITE (R5, R306, R307) -/

/-- The next state of an outcome, or the state before it. -/
def stateOf (s : State) : Out → State
  | .next s' => s'
  | _ => s

/-- A write of CMD: each opcode of Table 22.3, and status 0xFF for a reserved one. -/
def State.writeCmd (s : State) (op : Nat) : State :=
  match op with
  | 1 => stateOf s (execCtxCreate s) | 2 => stateOf s (execCtxRemove s) | 3 => stateOf s (execCtxDestroy s)
  | 4 => stateOf s (execQueueBind s) | 5 => stateOf s (execQueueUnbind s) | 6 => stateOf s (execInvalidate s)
  | 7 => stateOf s (execPin s) | 8 => stateOf s (execUnpin s) | 9 => stateOf s (execHaloDeclare s)
  | 10 => stateOf s (execResync s) | 11 => stateOf s (execRetireDie s)
  | k => s.command k true 0 (fun s _ => s.ran k 0xFF 0)

/-- A write of FLCTL (Table 22.8). -/
def State.writeFlctl (s : State) (k : Nat) : State :=
  match k with
  | 1 => stateOf s (execErase s) | 2 => stateOf s (execProgram s) | 3 => stateOf s (execRead s)
  | 4 => stateOf s (execWarmReset (Config.resetTime s.fresh) s)
  | _ => s.flashBad

/-- A write of a 64-bit register. -/
def State.write64 (s : State) (off : Nat) (v : Word) : State :=
  if off = 0x10 then s.setCeiling (v.toNat % 4)
  else if off = 0x18 then s.setPcap v.toNat
  else if off = 0x100 then
    s.updMgmt (fun m => if m.cmdBusy then { m with cmdLost := true } else { m with cmdptr := v &&& ~~~ 63 })
  else if off = 0x200 then s.updMgmt (fun m => { m with eatok := v })
  else if off = 0x208 then s.updMgmt (fun m => { m with eaval := v })
  else if 0x1000 ≤ off ∧ off < 0x2000 ∧ off % 0x40 = 8 then stateOf s (execEqrdWrite ((off - 0x1000) / 0x40) v s)
  else s

/-- A write of a 32-bit register. -/
def State.write32 (s : State) (off : Nat) (v : BitVec 32) : State :=
  if off = 0x10 then s.setCeiling (v.toNat % 4)
  else if off = 0x18 then s.setPcap v.toNat
  else if off = 0x108 then s.writeCmd (v.toNat % 256)
  else if off = 0x110 then s.updMgmt (fun m => { m with cmdLost := m.cmdLost && !v.getLsbD 1 })
  else if off = 0x210 then
    (if v.toNat % 4 = 1 then stateOf s (execEactlResume s) else if v.toNat % 4 = 2 then stateOf s (execEactlAbandon s) else s)
  else if off = 0x10008 then s.updMgmt (fun m => { m with meidx := v })
  else if off = 0x20008 then s.updMgmt (fun m => { m with bbidx := v })
  else if off = 0x20010 then stateOf s (execFrozenClear v s)
  else if off = 0x30000 then s.updMgmt (fun m => { m with wearidx := v })
  else if 0x100000 ≤ off ∧ off < 0x108000 ∧ off % 0x1000 = 0 then stateOf s (execSlcfgWrite ((off - 0x100000) / 0x1000) v s)
  else if 0x100000 ≤ off ∧ off < 0x108000 ∧ off % 0x1000 = 4 then
    s.updSliceCfg ((off - 0x100000) / 0x1000) (fun c => { c with badval := c.badval && !v.getLsbD 1, pinfail := c.pinfail && !v.getLsbD 2 })
  else if 0x200000 ≤ off ∧ off < 0x200400 ∧ off % 8 = 0 then
    s.updFibre ((off - 0x200000) / 8) (fun f => { f with los := f.los && !v.getLsbD 1 })
  else s

/-- A write of a flash-update register, which works in every state of READY (R313, R314). -/
def State.writeFlash (s : State) (off width : Nat) (v : Word) : State :=
  if off = 0x40000 ∧ width = 64 then s.updMgmt (fun m => { m with fladdr := v })
  else if off = 0x40008 ∧ width = 32 then s.writeFlctl (v.toNat % 16)
  else if 0x41000 ≤ off ∧ off < 0x42000 ∧ off % 8 = 0 ∧ width = 64 then
    s.updMgmt (fun m => { m with flbuf := m.flbuf.storeLE (off - 0x41000) 8 v.toNat })
  else s

/-- REGISTER_WRITE (R5, R306): a write acts on a listed register at its own width, in bits, as its access code gives; any other
is ignored. -/
def execRegisterWrite (off width : Nat) (v : Word) (s : State) : Out :=
  .next (if 0x40000 ≤ off ∧ off < 0x42000 then s.writeFlash off width v
    else if !s.barOpen then s
    else if width = 64 then s.write64 off v
    else if width = 32 then s.write32 off (v.setWidth 32)
    else s)

/-! ### What a read of BAR0 returns (R306 to R309, R286, R223) -/

/-- A bit of a register. -/
def bitAt (b : Bool) (i : Nat) : Nat := if b then 2 ^ i else 0

/-- Word `j` of the record that an index selects in a ring, newest first: record `idx` of `n` written, compared in the low 32
bits, when the ring still holds it; otherwise zero (R308, Table 22.5). -/
def ringWord (ring : List (BitVec 256)) (size : Nat) (n : Word) (idx : Half) (j : Nat) : Nat :=
  let back := (n.setWidth 32 - 1 - idx).toNat
  if back < size then (ring.getD back 0).toNat / 2 ^ (64 * j) % 2 ^ 64 else 0

/-- The unit that WEARIDX names (Table 22.5); none: a reserved KIND or a unit out of range. -/
def wearUnit (idx : Half) : Option WearUnit :=
  let n := idx.toNat % 0x10000000
  let u : Option WearUnit := match idx.toNat / 0x10000000 with
    | 0 => some (.laneGroup n) | 1 => some (.subArray n) | 2 => some (.bank n) | 3 => some (.sliceWay n) | _ => none
  u.filter wearExists

/-- The unit is retired or disabled now (Table 22.5). -/
def State.unitOff (s : State) (u : WearUnit) : Bool :=
  match u, coreOfUnit u with
  | .sliceWay n, _ => s.offWays.contains n || s.retiredDies.contains (n / 512)
  | _, some c => s.retiredCores.contains c || s.retiredDies.contains (dieOf c)
  | _, none => false

/-- Word `j` of WEARDATA (Table 22.5). -/
def State.wearWord (s : State) (j : Nat) : Nat :=
  match wearUnit s.mgmt.wearidx with
  | none => 0
  | some u =>
    let w := (s.mgmt.wear.find? (fun w => w.u == u)).getD { u, count := 0, times := [], lasting := false }
    if j = 0 then w.count + bitAt w.lasting 32 + bitAt (s.unitOff u) 33 else w.times.headD 0 % 2 ^ 64

/-- OFSTAT of a fibre (Table 18.5). -/
def Fibre.stat (f : Fibre) : Nat :=
  bitAt (f.trained && decide (1 ≤ f.live)) 0 + bitAt f.los 1 + f.peer % 64 * 4 + f.loscnt * 0x100 + f.live * 0x10000

/-- A 64-bit register (Tables 22.1 and 22.5); the widths of CFGSTAT, FREQCTL and PCAP are not stated (log 51). -/
def State.read64 (s : State) (off : Nat) : Nat :=
  let m := s.mgmt
  if off = 0 then m.ready.toNat
  else if off = 8 then m.cfgstat.toNat
  else if off = 0x10 then m.freqctl.toNat
  else if off = 0x18 then m.pcap
  else if off = 0x100 then m.cmdptr.toNat
  else if off = 0x118 then m.cmdres.toNat
  else if off = 0x200 then m.eatok.toNat
  else if off = 0x208 then m.eaval.toNat
  else if 0x1000 ≤ off ∧ off < 0x2000 then
    (let q : EqRegs := match s.ctx? ((off - 0x1000) / 0x40) with
       | some c => { ctx := c.num, wr := c.eqwr, rd := c.eqrd, lost := c.eqlost }
       | none => m.eqRegs ((off - 0x1000) / 0x40)
     match off % 0x40 with | 0 => q.wr.toNat | 8 => q.rd.toNat | 0x10 => q.lost.toNat | _ => 0)
  else if off = 0x10000 then m.mewr.toNat
  else if 0x10020 ≤ off ∧ off < 0x10040 then ringWord m.melog 1024 m.mewr m.meidx ((off - 0x10020) / 8)
  else if off = 0x20000 then m.bbwr.toNat
  else if 0x20020 ≤ off ∧ off < 0x20040 then ringWord m.bblog 4096 m.bbwr m.bbidx ((off - 0x20020) / 8)
  else if 0x30010 ≤ off ∧ off < 0x30020 then s.wearWord ((off - 0x30010) / 8)
  else 0

/-- A 32-bit register (Tables 22.1 and 22.5). -/
def State.read32 (s : State) (off : Nat) : Nat :=
  let m := s.mgmt
  if off = 8 then m.cfgstat.toNat
  else if off = 0x10 then m.freqctl.toNat
  else if off = 0x18 then m.pcap
  else if off = 0x110 then bitAt m.cmdBusy 0 + bitAt m.cmdLost 1 + m.cmdStatus.toNat * 0x100
  else if off = 0x210 then m.eaStatus.toNat * 0x100 + (if m.eaHeld.isSome then 1 else 0)
  else if off = 0x10008 then m.meidx.toNat
  else if off = 0x20008 then m.bbidx.toNat
  else if off = 0x20010 then bitAt m.frozen 0
  else if off = 0x30000 then m.wearidx.toNat
  else if 0x100000 ≤ off ∧ off < 0x108000 ∧ off % 0x1000 = 0 then (s.sliceCfg ((off - 0x100000) / 0x1000)).outways
  else if 0x100000 ≤ off ∧ off < 0x108000 ∧ off % 0x1000 = 4 then
    (let c := s.sliceCfg ((off - 0x100000) / 0x1000)
     bitAt c.target.isSome 0 + bitAt c.badval 1 + bitAt c.pinfail 2)
  else if 0x200000 ≤ off ∧ off < 0x200400 ∧ off % 8 = 0 then ((s.fibre? ((off - 0x200000) / 8)).map Fibre.stat).getD 0
  else 0

/-- A flash-update register (Table 22.7). -/
def State.readFlash (s : State) (off width : Nat) : Nat :=
  let m := s.mgmt
  if off = 0x40000 ∧ width = 64 then m.fladdr.toNat
  else if off = 0x40010 ∧ width = 32 then bitAt m.flBusy 0 + m.flStatus.toNat * 0x100
  else if 0x41000 ≤ off ∧ off < 0x42000 ∧ width = 64 then m.flbuf.le (off - 0x41000) 8
  else 0

/-- What a read of BAR0 returns (R306): a listed register at its own width, in bits, aligned; any other access reads zero.
After a failed image check only READY, CFGSTAT and the flash-update registers are read (R313). A read changes nothing. -/
def State.readReg (s : State) (off width : Nat) : Nat :=
  if off % (width / 8) != 0 then 0
  else if 0x40000 ≤ off ∧ off < 0x42000 then s.readFlash off width
  else if !s.barOpen && 0x10 ≤ off then 0
  else if width = 64 then s.read64 off
  else if width = 32 then s.read32 off
  else 0

end Sys2Proof.Machine
end

