-- ==== Sys2Proof/Machine/ScalarMem.lean ====
section
/-! DEFINITION. Scalar loads, stores and atomics (R73, R74), fences, releases and acquires (R88, R89, R236), and the
wait for copies (R90). -/

namespace Sys2Proof.Machine

open Sys2Proof

/-- Effective address of a scalar access (R73). -/
def scalarEa (x : Arm) (a : SReg) (imm : BitVec 13) : Word := x.get a + sext13 imm

/-- A scalar load of a size (R73). -/
def State.scalarLoad (s : State) (i : Instr) (d a : SReg) (imm : BitVec 13) (size : Nat) : Out :=
  s.shep i { src := [a], dst := [d], preds := [] } (fun s g =>
    (s.issueLoad g d (scalarEa g.arm a imm) size 6).eff (scalarEa g.arm a imm))

/-- A scalar store of a size; its data is the register in the sd field, read at issue (R73). -/
def State.scalarStore (s : State) (i : Instr) (v a : SReg) (imm : BitVec 13) (size : Nat) : Out :=
  s.shep i { src := [v, a], dst := [], preds := [] } (fun s g =>
    (s.issueStore g (scalarEa g.arm a imm) size (g.arm.get v).toNat).eff (scalarEa g.arm a imm))

/-- LDB (R73). -/
def execLdb (d a : SReg) (imm : BitVec 13) (s : State) : Out := s.scalarLoad (.ldb d a imm) d a imm 1

/-- STB (R73). -/
def execStb (v a : SReg) (imm : BitVec 13) (s : State) : Out := s.scalarStore (.stb v a imm) v a imm 1

/-- LDH (R73). -/
def execLdh (d a : SReg) (imm : BitVec 13) (s : State) : Out := s.scalarLoad (.ldh d a imm) d a imm 2

/-- STH (R73). -/
def execSth (v a : SReg) (imm : BitVec 13) (s : State) : Out := s.scalarStore (.sth v a imm) v a imm 2

/-- LDW (R73). -/
def execLdw (d a : SReg) (imm : BitVec 13) (s : State) : Out := s.scalarLoad (.ldw d a imm) d a imm 4

/-- STW (R73). -/
def execStw (v a : SReg) (imm : BitVec 13) (s : State) : Out := s.scalarStore (.stw v a imm) v a imm 4

/-- LDD (R73). -/
def execLdd (d a : SReg) (imm : BitVec 13) (s : State) : Out := s.scalarLoad (.ldd d a imm) d a imm 8

/-- STD (R73). -/
def execStd (v a : SReg) (imm : BitVec 13) (s : State) : Out := s.scalarStore (.std v a imm) v a imm 8

/-- AMOS (R74, Table 5.3): 64 bits when `dbl`. `cas`: sd is also a source, the expected value. -/
def State.amos (s : State) (i : Instr) (d a b : SReg) (dbl : Bool) (op : RmwOp) (sgn cas : Bool) : Out :=
  s.shep i { src := if cas then [d, a, b] else [a, b], dst := [d], preds := [] } (fun s g =>
    (s.issueAmos g d (g.arm.get a) (if dbl then 8 else 4) op sgn (g.arm.get b).toNat (g.arm.get d).toNat).eff (g.arm.get a))

/-- AMOS.SWAP (R74). -/
def execAmosSwap (d a b : SReg) (dbl : Bool) (s : State) : Out :=
  s.amos (.amosSwap d a b dbl) d a b dbl .swap false false

/-- AMOS.ADD (R74). -/
def execAmosAdd (d a b : SReg) (dbl : Bool) (s : State) : Out :=
  s.amos (.amosAdd d a b dbl) d a b dbl .add false false

/-- AMOS.AND (R74). -/
def execAmosAnd (d a b : SReg) (dbl : Bool) (s : State) : Out :=
  s.amos (.amosAnd d a b dbl) d a b dbl .and false false

/-- AMOS.OR (R74). -/
def execAmosOr (d a b : SReg) (dbl : Bool) (s : State) : Out :=
  s.amos (.amosOr d a b dbl) d a b dbl .or false false

/-- AMOS.XOR (R74). -/
def execAmosXor (d a b : SReg) (dbl : Bool) (s : State) : Out :=
  s.amos (.amosXor d a b dbl) d a b dbl .xor false false

/-- AMOS.MIN (R74). -/
def execAmosMin (d a b : SReg) (dbl : Bool) (s : State) : Out :=
  s.amos (.amosMin d a b dbl) d a b dbl .min true false

/-- AMOS.MAX (R74). -/
def execAmosMax (d a b : SReg) (dbl : Bool) (s : State) : Out :=
  s.amos (.amosMax d a b dbl) d a b dbl .max true false

/-- AMOS.MINN (R74). -/
def execAmosMinn (d a b : SReg) (dbl : Bool) (s : State) : Out :=
  s.amos (.amosMinn d a b dbl) d a b dbl .min false false

/-- AMOS.MAXN (R74). -/
def execAmosMaxn (d a b : SReg) (dbl : Bool) (s : State) : Out :=
  s.amos (.amosMaxn d a b dbl) d a b dbl .max false false

/-- AMOS.CAS (R74). -/
def execAmosCas (d a b : SReg) (dbl : Bool) (s : State) : Out :=
  s.amos (.amosCas d a b dbl) d a b dbl .cas false true

/-- FENCE (R88, R229). -/
def execFence (sc : Scope) (s : State) : Out :=
  s.shep (.fence sc) { src := [], dst := [], preds := [] } (fun s g => (s.issueFence g sc).eff 0)

/-- REL: s[sd] is stored to s[sa] (R89, R228). -/
def execRel (d a : SReg) (sc : Scope) (sz : Size) (s : State) : Out :=
  s.shep (.rel d a sc sz) { src := [d, a], dst := [], preds := [] } (fun s g =>
    (s.issueRel g (g.arm.get a) sz.bytes (g.arm.get d).toNat sc).eff (g.arm.get a))

/-- REL.HALO (R236). -/
def execRelHalo (d a : SReg) (sz : Size) (s : State) : Out :=
  s.shep (.relHalo d a sz) { src := [d, a], dst := [], preds := [] } (fun s g =>
    (s.issueRelHalo g (g.arm.get a) sz.bytes (g.arm.get d).toNat).eff (g.arm.get a))

/-- ACQ (R89, R229). -/
def execAcq (d a : SReg) (sc : Scope) (sz : Size) (s : State) : Out :=
  s.shep (.acq d a sc sz) { src := [a], dst := [d], preds := [] } (fun s g =>
    (s.issueLoad g d (g.arm.get a) sz.bytes sc.code).eff (g.arm.get a))

/-- TWAIT: the arm waits while a named token is busy (R90). -/
def execTwait (mask : BitVec 8) (s : State) : Out :=
  s.shep (.twait mask) { src := [], dst := [], preds := [] } (fun s g =>
    if g.g.tokens &&& mask != 0 then .hold s else .next s)

end Sys2Proof.Machine
end

