-- ==== Sys2Proof/Machine/Dispatch.lean ====
section
/-! DEFINITION. One arm per constructor of Instr. -/

namespace Sys2Proof.Machine

open Sys2Proof

/-- The meaning of one instruction, packet or event. -/
def exec (i : Instr) (s : State) : Host.Outcome State Fault Refusal :=
  match i with
  | .add d a b => Sys2Proof.Machine.execAdd d a b s
  | .sub d a b => Sys2Proof.Machine.execSub d a b s
  | .and d a b => Sys2Proof.Machine.execAnd d a b s
  | .or d a b => Sys2Proof.Machine.execOr d a b s
  | .xor d a b => Sys2Proof.Machine.execXor d a b s
  | .shl d a b => Sys2Proof.Machine.execShl d a b s
  | .shr d a b => Sys2Proof.Machine.execShr d a b s
  | .sra d a b => Sys2Proof.Machine.execSra d a b s
  | .mul d a b => Sys2Proof.Machine.execMul d a b s
  | .mulh d a b => Sys2Proof.Machine.execMulh d a b s
  | .mulhn d a b => Sys2Proof.Machine.execMulhn d a b s
  | .div d a b => Sys2Proof.Machine.execDiv d a b s
  | .divn d a b => Sys2Proof.Machine.execDivn d a b s
  | .rem d a b => Sys2Proof.Machine.execRem d a b s
  | .remn d a b => Sys2Proof.Machine.execRemn d a b s
  | .min d a b => Sys2Proof.Machine.execMin d a b s
  | .minn d a b => Sys2Proof.Machine.execMinn d a b s
  | .max d a b => Sys2Proof.Machine.execMax d a b s
  | .maxn d a b => Sys2Proof.Machine.execMaxn d a b s
  | .seq d a b => Sys2Proof.Machine.execSeq d a b s
  | .sne d a b => Sys2Proof.Machine.execSne d a b s
  | .slt d a b => Sys2Proof.Machine.execSlt d a b s
  | .sltn d a b => Sys2Proof.Machine.execSltn d a b s
  | .clz d a => Sys2Proof.Machine.execClz d a s
  | .popc d a => Sys2Proof.Machine.execPopc d a s
  | .rotl d a b => Sys2Proof.Machine.execRotl d a b s
  | .bfx d a b => Sys2Proof.Machine.execBfx d a b s
  | .bfi d a b => Sys2Proof.Machine.execBfi d a b s
  | .sel d a b => Sys2Proof.Machine.execSel d a b s
  | .addi d a imm => Sys2Proof.Machine.execAddi d a imm s
  | .andi d a imm => Sys2Proof.Machine.execAndi d a imm s
  | .ori d a imm => Sys2Proof.Machine.execOri d a imm s
  | .xori d a imm => Sys2Proof.Machine.execXori d a imm s
  | .shli d a n => Sys2Proof.Machine.execShli d a n s
  | .shri d a n => Sys2Proof.Machine.execShri d a n s
  | .srai d a n => Sys2Proof.Machine.execSrai d a n s
  | .slti d a imm => Sys2Proof.Machine.execSlti d a imm s
  | .li d imm => Sys2Proof.Machine.execLi d imm s
  | .lis d a imm => Sys2Proof.Machine.execLis d a imm s
  | .li32 d lit => Sys2Proof.Machine.execLi32 d lit s
  | .li32N d lit => Sys2Proof.Machine.execLi32N d lit s
  | .li32Hi d lit => Sys2Proof.Machine.execLi32Hi d lit s
  | .ldb d a imm => Sys2Proof.Machine.execLdb d a imm s
  | .ldh d a imm => Sys2Proof.Machine.execLdh d a imm s
  | .ldw d a imm => Sys2Proof.Machine.execLdw d a imm s
  | .ldd d a imm => Sys2Proof.Machine.execLdd d a imm s
  | .stb v a imm => Sys2Proof.Machine.execStb v a imm s
  | .sth v a imm => Sys2Proof.Machine.execSth v a imm s
  | .stw v a imm => Sys2Proof.Machine.execStw v a imm s
  | .std v a imm => Sys2Proof.Machine.execStd v a imm s
  | .amosSwap d a b dbl => Sys2Proof.Machine.execAmosSwap d a b dbl s
  | .amosAdd d a b dbl => Sys2Proof.Machine.execAmosAdd d a b dbl s
  | .amosAnd d a b dbl => Sys2Proof.Machine.execAmosAnd d a b dbl s
  | .amosOr d a b dbl => Sys2Proof.Machine.execAmosOr d a b dbl s
  | .amosXor d a b dbl => Sys2Proof.Machine.execAmosXor d a b dbl s
  | .amosMin d a b dbl => Sys2Proof.Machine.execAmosMin d a b dbl s
  | .amosMax d a b dbl => Sys2Proof.Machine.execAmosMax d a b dbl s
  | .amosMinn d a b dbl => Sys2Proof.Machine.execAmosMinn d a b dbl s
  | .amosMaxn d a b dbl => Sys2Proof.Machine.execAmosMaxn d a b dbl s
  | .amosCas d a b dbl => Sys2Proof.Machine.execAmosCas d a b dbl s
  | .beq a b off => Sys2Proof.Machine.execBeq a b off s
  | .bne a b off => Sys2Proof.Machine.execBne a b off s
  | .blt a b off => Sys2Proof.Machine.execBlt a b off s
  | .bge a b off => Sys2Proof.Machine.execBge a b off s
  | .bltn a b off => Sys2Proof.Machine.execBltn a b off s
  | .bgen a b off => Sys2Proof.Machine.execBgen a b off s
  | .bpany p off => Sys2Proof.Machine.execBpany p off s
  | .bpall p off => Sys2Proof.Machine.execBpall p off s
  | .br off => Sys2Proof.Machine.execBr off s
  | .call off => Sys2Proof.Machine.execCall off s
  | .jr d a => Sys2Proof.Machine.execJr d a s
  | .loop a off => Sys2Proof.Machine.execLoop a off s
  | .loopi n off => Sys2Proof.Machine.execLoopi n off s
  | .lbrk => Sys2Proof.Machine.execLbrk s
  | .lq n => Sys2Proof.Machine.execLq n s
  | .lrep cnt steps => Sys2Proof.Machine.execLrep cnt steps s
  | .lj w => Sys2Proof.Machine.execLj w s
  | .split p off => Sys2Proof.Machine.execSplit p off s
  | .join => Sys2Proof.Machine.execJoin s
  | .lexit p => Sys2Proof.Machine.execLexit p s
  | .barArrive d a n => Sys2Proof.Machine.execBarArrive d a n s
  | .barWait d a n => Sys2Proof.Machine.execBarWait d a n s
  | .barSync d a n => Sys2Proof.Machine.execBarSync d a n s
  | .barrierPhaseComplete team bar => Sys2Proof.Machine.execBarrierPhaseComplete team bar s
  | .fence sc => Sys2Proof.Machine.execFence sc s
  | .rel d a sc sz => Sys2Proof.Machine.execRel d a sc sz s
  | .relHalo d a sz => Sys2Proof.Machine.execRelHalo d a sz s
  | .haloPush id => Sys2Proof.Machine.execHaloPush id s
  | .acq d a sc sz => Sys2Proof.Machine.execAcq d a sc sz s
  | .twait mask => Sys2Proof.Machine.execTwait mask s
  | .fork d a b => Sys2Proof.Machine.execFork d a b s
  | .fstat d n => Sys2Proof.Machine.execFstat d n s
  | .handle e k inh lit => Sys2Proof.Machine.execHandle e k inh lit s
  | .unhandle a => Sys2Proof.Machine.execUnhandle a s
  | .perform d a b => Sys2Proof.Machine.execPerform d a b s
  | .performl vd a b p => Sys2Proof.Machine.execPerforml vd a b p s
  | .resume a b => Sys2Proof.Machine.execResume a b s
  | .resumek d a b => Sys2Proof.Machine.execResumek d a b s
  | .drop a => Sys2Proof.Machine.execDrop a s
  | .tcp a => Sys2Proof.Machine.execTcp a s
  | .tcpr a => Sys2Proof.Machine.execTcpr a s
  | .sget d a idx => Sys2Proof.Machine.execSget d a idx s
  | .sset a idx => Sys2Proof.Machine.execSset a idx s
  | .sigchk lit => Sys2Proof.Machine.execSigchk lit s
  | .trap a code => Sys2Proof.Machine.execTrap a code s
  | .yield => Sys2Proof.Machine.execYield s
  | .yieldExpiry team grp armB => Sys2Proof.Machine.execYieldExpiry team grp armB s
  | .tend => Sys2Proof.Machine.execTend s
  | .groupRetire team grp => Sys2Proof.Machine.execGroupRetire team grp s
  | .memoryResponse id => Sys2Proof.Machine.execMemoryResponse id s
  | .laneFaultDelivery team grp => Sys2Proof.Machine.execLaneFaultDelivery team grp s
  | .vadd f => Sys2Proof.Machine.execVadd f s
  | .vsub f => Sys2Proof.Machine.execVsub f s
  | .vmul f => Sys2Proof.Machine.execVmul f s
  | .vmulh f => Sys2Proof.Machine.execVmulh f s
  | .vdiv f => Sys2Proof.Machine.execVdiv f s
  | .vrem f => Sys2Proof.Machine.execVrem f s
  | .vmin f => Sys2Proof.Machine.execVmin f s
  | .vmax f => Sys2Proof.Machine.execVmax f s
  | .vabs f => Sys2Proof.Machine.execVabs f s
  | .vneg f => Sys2Proof.Machine.execVneg f s
  | .vmad f => Sys2Proof.Machine.execVmad f s
  | .vand f => Sys2Proof.Machine.execVand f s
  | .vor f => Sys2Proof.Machine.execVor f s
  | .vxor f => Sys2Proof.Machine.execVxor f s
  | .vnot f => Sys2Proof.Machine.execVnot f s
  | .vshl f => Sys2Proof.Machine.execVshl f s
  | .vshr f => Sys2Proof.Machine.execVshr f s
  | .vrotl f => Sys2Proof.Machine.execVrotl f s
  | .vclz f => Sys2Proof.Machine.execVclz f s
  | .vpopc f => Sys2Proof.Machine.execVpopc f s
  | .vbfx f => Sys2Proof.Machine.execVbfx f s
  | .vbfi f => Sys2Proof.Machine.execVbfi f s
  | .vmov f => Sys2Proof.Machine.execVmov f s
  | .vsel f => Sys2Proof.Machine.execVsel f s
  | .vfadd f => Sys2Proof.Machine.execVfadd f s
  | .vfsub f => Sys2Proof.Machine.execVfsub f s
  | .vfmul f => Sys2Proof.Machine.execVfmul f s
  | .vfma f => Sys2Proof.Machine.execVfma f s
  | .vfms f => Sys2Proof.Machine.execVfms f s
  | .vfdiv f => Sys2Proof.Machine.execVfdiv f s
  | .vfsqrt f => Sys2Proof.Machine.execVfsqrt f s
  | .vfrcp f => Sys2Proof.Machine.execVfrcp f s
  | .vfrsq f => Sys2Proof.Machine.execVfrsq f s
  | .vfexp2 f => Sys2Proof.Machine.execVfexp2 f s
  | .vflog2 f => Sys2Proof.Machine.execVflog2 f s
  | .vfmin f => Sys2Proof.Machine.execVfmin f s
  | .vfmax f => Sys2Proof.Machine.execVfmax f s
  | .vfabs f => Sys2Proof.Machine.execVfabs f s
  | .vfneg f => Sys2Proof.Machine.execVfneg f s
  | .vfrnd f => Sys2Proof.Machine.execVfrnd f s
  | .vcmpEq f => Sys2Proof.Machine.execVcmpEq f s
  | .vcmpNe f => Sys2Proof.Machine.execVcmpNe f s
  | .vcmpLt f => Sys2Proof.Machine.execVcmpLt f s
  | .vcmpLe f => Sys2Proof.Machine.execVcmpLe f s
  | .vcmpGt f => Sys2Proof.Machine.execVcmpGt f s
  | .vcmpGe f => Sys2Proof.Machine.execVcmpGe f s
  | .vcmpUn f => Sys2Proof.Machine.execVcmpUn f s
  | .vfclass f => Sys2Proof.Machine.execVfclass f s
  | .vcvt f => Sys2Proof.Machine.execVcvt f s
  | .vpack f => Sys2Proof.Machine.execVpack f s
  | .vunpack f => Sys2Proof.Machine.execVunpack f s
  | .vscale f => Sys2Proof.Machine.execVscale f s
  | .vld f => Sys2Proof.Machine.execVld f s
  | .vst f => Sys2Proof.Machine.execVst f s
  | .vldw f => Sys2Proof.Machine.execVldw f s
  | .vpref f => Sys2Proof.Machine.execVpref f s
  | .vamoSwap f => Sys2Proof.Machine.execVamoSwap f s
  | .vamoAdd f => Sys2Proof.Machine.execVamoAdd f s
  | .vamoAnd f => Sys2Proof.Machine.execVamoAnd f s
  | .vamoOr f => Sys2Proof.Machine.execVamoOr f s
  | .vamoXor f => Sys2Proof.Machine.execVamoXor f s
  | .vamoMin f => Sys2Proof.Machine.execVamoMin f s
  | .vamoMax f => Sys2Proof.Machine.execVamoMax f s
  | .vamoCas f => Sys2Proof.Machine.execVamoCas f s
  | .vamoFadd f => Sys2Proof.Machine.execVamoFadd f s
  | .vamoFmin f => Sys2Proof.Machine.execVamoFmin f s
  | .vamoFmax f => Sys2Proof.Machine.execVamoFmax f s
  | .vamoAmaxrst f => Sys2Proof.Machine.execVamoAmaxrst f s
  | .vtld f => Sys2Proof.Machine.execVtld f s
  | .vtst f => Sys2Proof.Machine.execVtst f s
  | .qswap f => Sys2Proof.Machine.execQswap f s
  | .qbcast f => Sys2Proof.Machine.execQbcast f s
  | .vshfl f => Sys2Proof.Machine.execVshfl f s
  | .vballot f => Sys2Proof.Machine.execVballot f s
  | .vred f => Sys2Proof.Machine.execVred f s
  | .vscan f => Sys2Proof.Machine.execVscan f s
  | .vpand f => Sys2Proof.Machine.execVpand f s
  | .vpor f => Sys2Proof.Machine.execVpor f s
  | .vpxor f => Sys2Proof.Machine.execVpxor f s
  | .vpandn f => Sys2Proof.Machine.execVpandn f s
  | .vptest f => Sys2Proof.Machine.execVptest f s
  | .vpmov f => Sys2Proof.Machine.execVpmov f s
  | .mbeg acc => Sys2Proof.Machine.execMbeg acc s
  | .mstep acc ta tb kb ka => Sys2Proof.Machine.execMstep acc ta tb kb ka s
  | .mend acc => Sys2Proof.Machine.execMend acc s
  | .mzero acc => Sys2Proof.Machine.execMzero acc s
  | .mout fmt sat scl acc ta aux off rows cols => Sys2Proof.Machine.execMout fmt sat scl acc ta aux off rows cols s
  | .mamax acc aux rows cols => Sys2Proof.Machine.execMamax acc aux rows cols s
  | .mbind lvl sa sx sb sk => Sys2Proof.Machine.execMbind lvl sa sx sb sk s
  | .mmark n => Sys2Proof.Machine.execMmark n s
  | .mwait n => Sys2Proof.Machine.execMwait n s
  | .mloop fromMs k len cnt => Sys2Proof.Machine.execMloop fromMs k len cnt s
  | .mjmp off => Sys2Proof.Machine.execMjmp off s
  | .mset k v => Sys2Proof.Machine.execMset k v s
  | .msetBf k v => Sys2Proof.Machine.execMsetBf k v s
  | .msetLd k off => Sys2Proof.Machine.execMsetLd k off s
  | .mtrel ta => Sys2Proof.Machine.execMtrel ta s
  | .copy p => Sys2Proof.Machine.execCopy p s
  | .expand p => Sys2Proof.Machine.execExpand p s
  | .fill p => Sys2Proof.Machine.execFill p s
  | .bload p => Sys2Proof.Machine.execBload p s
  | .regfill p => Sys2Proof.Machine.execRegfill p s
  | .mcast p => Sys2Proof.Machine.execMcast p s
  | .signal p => Sys2Proof.Machine.execSignal p s
  | .drain p => Sys2Proof.Machine.execDrain p s
  | .copyComplete id => Sys2Proof.Machine.execCopyComplete id s
  | .launch slot p => Sys2Proof.Machine.execLaunch slot p s
  | .teamPlacement set core core1 => Sys2Proof.Machine.execTeamPlacement set core core1 s
  | .twinReservation set => Sys2Proof.Machine.execTwinReservation set s
  | .gridComplete grid => Sys2Proof.Machine.execGridComplete grid s
  | .preemption team => Sys2Proof.Machine.execPreemption team s
  | .teamResumption team core => Sys2Proof.Machine.execTeamResumption team core s
  | .parentResume team core => Sys2Proof.Machine.execParentResume team core s
  | .halt ctx => Sys2Proof.Machine.execHalt ctx s
  | .removed ctx => Sys2Proof.Machine.execRemoved ctx s
  | .joinStart set => Sys2Proof.Machine.execJoinStart set s
  | .commitDecision set => Sys2Proof.Machine.execCommitDecision set s
  | .joinComplete set => Sys2Proof.Machine.execJoinComplete set s
  | .backInvalidationResponse id => Sys2Proof.Machine.execBackInvalidationResponse id s
  | .orderedPacket src dst => Sys2Proof.Machine.execOrderedPacket src dst s
  | .vectorFlit src dst => Sys2Proof.Machine.execVectorFlit src dst s
  | .bell src dst => Sys2Proof.Machine.execBell src dst s
  | .bellRequest src dst => Sys2Proof.Machine.execBellRequest src dst s
  | .report src dst => Sys2Proof.Machine.execReport src dst s
  | .dieRemoved die dead => Sys2Proof.Machine.execDieRemoved die dead s
  | .frequencyChange target => Sys2Proof.Machine.execFrequencyChange target s
  | .dieAcknowledge die => Sys2Proof.Machine.execDieAcknowledge die s
  | .outwaysChangeDone die => Sys2Proof.Machine.execOutwaysChangeDone die s
  | .matrixOperationComplete team => Sys2Proof.Machine.execMatrixOperationComplete team s
  | .reportRequest src dst => Sys2Proof.Machine.execReportRequest src dst s
  | .peerAcknowledge id => Sys2Proof.Machine.execPeerAcknowledge id s
  | .watchdog grid => Sys2Proof.Machine.execWatchdog grid s
  | .outfieldSweep die => Sys2Proof.Machine.execOutfieldSweep die s
  | .poisonWritten addr => Sys2Proof.Machine.execPoisonWritten addr s
  | .hostMemwr addr bytes => Sys2Proof.Machine.execHostMemwr addr bytes s
  | .hostMemrd addr len => Sys2Proof.Machine.execHostMemrd addr len s
  | .hostSnoop addr => Sys2Proof.Machine.execHostSnoop addr s
  | .peerWrite addr bytes => Sys2Proof.Machine.execPeerWrite addr bytes s
  | .fabricResync cause => Sys2Proof.Machine.execFabricResync cause s
  | .resyncDrop => Sys2Proof.Machine.execResyncDrop s
  | .lossOfLight fibre mask => Sys2Proof.Machine.execLossOfLight fibre mask s
  | .lightRestored fibre mask => Sys2Proof.Machine.execLightRestored fibre mask s
  | .pllRelock => Sys2Proof.Machine.execPllRelock s
  | .frequencyRelease => Sys2Proof.Machine.execFrequencyRelease s
  | .ackTimeout die => Sys2Proof.Machine.execAckTimeout die s
  | .capperSample watts => Sys2Proof.Machine.execCapperSample watts s
  | .wearEvent u sec => Sys2Proof.Machine.execWearEvent u sec s
  | .laserEn on => Sys2Proof.Machine.execLaserEn on s
  | .coldReset time => Sys2Proof.Machine.execColdReset time s
  | .functionReady bit => Sys2Proof.Machine.execFunctionReady bit s
  | .ctxCreate => Sys2Proof.Machine.execCtxCreate s
  | .ctxRemove => Sys2Proof.Machine.execCtxRemove s
  | .ctxDestroy => Sys2Proof.Machine.execCtxDestroy s
  | .queueBind => Sys2Proof.Machine.execQueueBind s
  | .queueUnbind => Sys2Proof.Machine.execQueueUnbind s
  | .invalidate => Sys2Proof.Machine.execInvalidate s
  | .pin => Sys2Proof.Machine.execPin s
  | .unpin => Sys2Proof.Machine.execUnpin s
  | .haloDeclare => Sys2Proof.Machine.execHaloDeclare s
  | .resync => Sys2Proof.Machine.execResync s
  | .retireDie => Sys2Proof.Machine.execRetireDie s
  | .commandDone => Sys2Proof.Machine.execCommandDone s
  | .eactlResume => Sys2Proof.Machine.execEactlResume s
  | .eactlAbandon => Sys2Proof.Machine.execEactlAbandon s
  | .eqrdWrite ctx v => Sys2Proof.Machine.execEqrdWrite ctx v s
  | .slcfgWrite die v => Sys2Proof.Machine.execSlcfgWrite die v s
  | .freqctlWrite v => Sys2Proof.Machine.execFreqctlWrite v s
  | .pcapWrite v => Sys2Proof.Machine.execPcapWrite v s
  | .frozenClear v => Sys2Proof.Machine.execFrozenClear v s
  | .erase => Sys2Proof.Machine.execErase s
  | .program => Sys2Proof.Machine.execProgram s
  | .read => Sys2Proof.Machine.execRead s
  | .warmReset time => Sys2Proof.Machine.execWarmReset time s
  | .flashCommandDone => Sys2Proof.Machine.execFlashCommandDone s
  | .registerWrite off width v => Sys2Proof.Machine.execRegisterWrite off width v s
  | .peerRead addr len => Sys2Proof.Machine.execPeerRead addr len s
  | .fabricPortError die => Sys2Proof.Machine.execFabricPortError die s
  | .hubUncorrectableError => Sys2Proof.Machine.execHubUncorrectableError s
  | .firmwareBusMastering addr write => Sys2Proof.Machine.execFirmwareBusMastering addr write s
  | .vnop => Sys2Proof.Machine.execVnop s
  | .mnop => Sys2Proof.Machine.execMnop s
  | .mnext => Sys2Proof.Machine.execMnext s
  | .mstop => Sys2Proof.Machine.execMstop s

end Sys2Proof.Machine
end

