-- ==== Sys2Proof/Machine/Schedule.lean ====
section
/-! DEFINITION. Who moves next, and what it runs: fetching the instruction of an agent, the scheduler of a core (R150, R166), and the
moves that are open when the agenda is empty (log 3). -/

namespace Sys2Proof.Machine

open Sys2Proof

/-- What a move comes to: an instruction to execute, or a state reached without one. -/
inductive Pick where
  | run (i : Instr) (s : State)
  | done (s : State)

/-- The instruction that an arm issues next: an LQ that has begun, whose own word is not fetched again (R66, R81), or the word at SPC. A
word that gives none faults (R68), and leaves a pending repeat as it is (R60): DESIGN CHOICE (log 85). -/
def State.pickArm (s : State) (t g : Nat) (b : Bool) : Pick :=
  match s.agent t g b with
  | none => .done s
  | some a =>
    if !s.armLive a then .done s
    else if a.arm.lqLeft != 0 then .run (.lq 0) s
    else match s.fetchShep a.w.ctx a.w.core a.arm.spc with
    | .ok i => .run i (s.keepFetch a.w.ctx a.w.core a.arm.spc)
    | .error c => .done ((s.armFault a { code := c, addr := if c == cPAGE || c == cUNCORRECTABLE then a.arm.spc else 0 } false).issued a)

/-- The entry that the lane engine executes next for an arm (R82). -/
def State.pickLane (s : State) (t g : Nat) (b : Bool) : Pick :=
  match s.agent t g b with
  | none => .done s
  | some a =>
    match a.g.nextEntry b with
    | some (_, e) => .run e.instr s
    | none => .done s

/-- The word at MPC of a sequencer (R200). A word that gives no instruction faults (R215). -/
def State.pickMatrix (s : State) (t : Nat) : Pick :=
  match s.team? t with
  | none => .done s
  | some x =>
    match s.ctx? x.ctx with
    | none => .done s
    | some c =>
      if !s.seqLive x then .done s
      else match s.fetchMat c x.coreNum x.seq.mpc with
      | .ok i => .run i (s.keepFetch c x.coreNum x.seq.mpc)
      | .error k => .done (s.seqFault t k (if k == cPAGE || k == cUNCORRECTABLE then x.seq.mpc.toNat else 0))

/-- The packet of a copy in flight, which moves its next piece, or a later one at a place in its transfer (R305). -/
def State.pickCopy (s : State) (id : Nat) (turn : Option Nat) : Pick :=
  match s.copy? id with
  | some c => .run (c.op.mk c.pkt) (s.updCopy id (fun x => { x with turn }))
  | none => .done s

/-- The packet at the head of a hardware queue slot (R158). -/
def State.pickQueue (s : State) (slot : Nat) : Pick :=
  match s.queue? slot with
  | some q => .run (.launch slot (s.headPacket q)) s
  | none => .done s

/-! ### The scheduler of a core (R150, R166) -/

/-- An arm that a scheduler may issue. `age`: the cycle of its last issue; `slot`: its team's residency slot and its place in the team. -/
structure Cand where
  team : Nat
  grp : Nat
  armB : Bool
  age : Nat
  slot : Nat × Nat
  deriving DecidableEq, Repr

/-- Is arm `a` taken before arm `b`: more cycles since its last issue, then the lower core-local group slot, then arm A (R166)? -/
def candLe (a b : Cand) : Bool :=
  decide (a.age < b.age) ||
  (a.age == b.age && (keyLe a.slot b.slot && (a.slot != b.slot || !a.armB || b.armB)))

/-- Put an arm into its place in the order of issue. -/
def candInsert (x : Cand) : List Cand → List Cand
  | [] => [x]
  | y :: ys => if candLe x y then x :: y :: ys else y :: candInsert x ys

/-- The arms of a core that wait for nothing but R68, in the order of issue. -/
def State.candidates (s : State) (core : Nat) : List Cand :=
  (s.teams.flatMap (fun t =>
    match t.place with
    | .running c k =>
      if c != core then []
      else t.groups.flatMap (fun g => [false, true].filterMap (fun b =>
        (s.agent t.id g.grpidx b).bind (fun a =>
          if s.armLive a then some { team := t.id, grp := g.grpidx, armB := b, age := a.arm.age, slot := (k, g.grpidx) } else none)))
    | _ => [])).foldr candInsert []

/-- The state after an arm has tried its next instruction. -/
def State.tryArm (s : State) (x : Cand) : State :=
  match State.pickArm { s with sel := .arm x.team x.grp x.armB } x.team x.grp x.armB with
  | .run i u => stateOf s (exec i u)
  | .done u => u

/-- The arm has issued in the present cycle: its age is the cycle, or its arm or group is gone (R166). -/
def State.hasIssued (s : State) (x : Cand) : Bool :=
  match s.group? x.team x.grp with
  | some g => g.retired || (x.armB && !g.core.split) || (g.core.arm x.armB).age == s.cycle
  | none => true

/-- The arm is ready: its next instruction issues when it is tried (R166). -/
def State.candReady (s : State) (x : Cand) : Bool := (s.tryArm x).hasIssued x

/-- An exchange among lanes, which is never paired (R150). -/
def isExchange (w : BitVec 96) : Bool := decide (0x140 ≤ laneOpc w) && decide (laneOpc w ≤ 0x145)

/-- The next instruction of an arm enqueues no exchange (R150). -/
def State.noExchange (s : State) (a : Ag) : Bool :=
  if a.arm.lqLeft != 0 then !a.arm.lqWords.any isExchange
  else match s.fetchShep a.w.ctx a.w.core a.arm.spc with
  | .ok (.lq n) => (match s.lqFetch a.w.ctx a.w.core (n.toNat + 1) a.arm.lpc with | .ok ws => !ws.any isExchange | .error _ => true)
  | _ => true

/-- Two arms may be issued together: of two groups of one team, at the same shepherd PC and lane PC, with disjoint lanes (R150). -/
def State.mayPair (s : State) (x y : Cand) : Bool :=
  match s.agent x.team x.grp x.armB, s.agent y.team y.grp y.armB with
  | some a, some b =>
    x.team == y.team && x.grp != y.grp && a.arm.spc == b.arm.spc && a.arm.lpc == b.arm.lpc && a.arm.active &&& b.arm.active == 0 &&
    s.noExchange a && s.noExchange b
  | _, _ => false

/-- What `n` issue slots take of the ready arms, in their order; a pair takes one slot, where the scheduler chooses one (R150, log 93). -/
def State.takeSlots (s : State) : Nat → List Cand → List Cand
  | 0, _ => []
  | _, [] => []
  | n + 1, x :: xs =>
    match if Config.pairsGroups (4 * s.fresh + n) then xs.find? (s.mayPair x) else none with
    | some y => x :: y :: s.takeSlots n (xs.filter (fun z => z != y))
    | none => x :: s.takeSlots n xs

/-- The arms of a cycle, with arm A of a group before its arm B: when both issue a packet, arm A's goes first (R193). -/
def armsInOrder (l : List Cand) : List Cand :=
  l.foldl (fun acc x =>
    if acc.contains x then acc
    else match l.find? (fun y => x.armB && !y.armB && y.team == x.team && y.grp == x.grp && !acc.contains y) with
    | some y => acc ++ [y, x]
    | none => acc ++ [x]) []

/-- The arms of the groups that run on a core. -/
def State.armsOn (s : State) (core : Nat) : List (Nat × Nat × Bool) :=
  s.teams.flatMap (fun t => if t.core? == some core then t.groups.flatMap (fun g => [(t.id, g.grpidx, false), (t.id, g.grpidx, true)]) else [])

/-- Some other group of the core is ready and has issued no instruction since the arm's YIELD, its last (R95). -/
def State.othersDue (s : State) (core : Nat) (k : Nat × Nat × Bool) (since : Nat) : Bool :=
  let u : State := { s with cycle := s.cycle + 1 }
  ((u.candidates core).filter (fun x => !(x.team == k.1 && x.grp == k.2.1))).any (fun x =>
    u.candReady x &&
    (match s.group? x.team x.grp with | some g => decide (g.core.armA.age ≤ since) && (!g.core.split || decide (g.core.armB.age ≤ since)) | none => false))

/-- The YIELD of an arm ends before the next cycle of its core: 64 cycles have passed, or every other ready group of the core has issued once
(R95). -/
def State.yieldEnds (s : State) (core : Nat) (k : Nat × Nat × Bool) : Bool :=
  match (s.group? k.1 k.2.1).map (fun g => g.core.arm k.2.2) with
  | some a => (match a.yielded with | some n => n == 0 || !s.othersDue core k a.age | none => false)
  | none => false

/-- The arms of a core whose YIELD is in force have waited one cycle more. -/
def State.countYields (s : State) (core : Nat) : State :=
  (s.armsOn core).foldl (fun (s : State) k => s.updArm k.1 k.2.1 k.2.2 (fun a => { a with yielded := a.yielded.map (fun n => n - 1) })) s

/-- A cycle of the scheduler of a core (R166): the arms that it issues go next, and then every other arm tries what it may do while it does
not issue. An arm whose YIELD ends may take part: YIELD_EXPIRY comes first (R95). -/
def State.runCycle (s : State) (core : Nat) : State :=
  let ends := (s.armsOn core).filter (s.yieldEnds core)
  if !ends.isEmpty then
    let s := ends.foldl (fun (s : State) k => s.updArm k.1 k.2.1 k.2.2 (fun a => { a with yielded := some 0 })) s
    { s with agenda := ends.map (fun k => Action.event (.yieldExpiry k.1 k.2.1 k.2.2)) ++ [.cycle core] ++ s.agenda }
  else
  let s := s.countYields core
  let s := { s with cycle := s.cycle + 1 }
  let all := s.candidates core
  let ready := all.filter s.candReady
  { s with agenda := (armsInOrder (s.takeSlots 4 ready)).map (fun x => Action.arm x.team x.grp x.armB) ++
                     (all.filter (fun x => !ready.contains x)).map (fun x => Action.attempt x.team x.grp x.armB) ++ s.agenda }

/-- An arm that does not issue in this cycle does what it may do all the same. -/
def State.attempt (s : State) (t g : Nat) (b : Bool) : State :=
  match s.agent t g b with
  | none => s
  | some a =>
    let x : Cand := { team := t, grp := g, armB := b, age := a.arm.age, slot := (0, g) }
    let u := s.tryArm x
    if a.arm.age == s.cycle || u.hasIssued x then s else u

/-- An arm waits when an exit reaches it (R178): in an instruction that has begun, or before one that cannot issue now: for an empty
register, at a BAR, in a TWAIT or for anything else. That the latter count too is DEDUCED from 'each arm that is waiting' (log 34). -/
def State.armWaits (s : State) (a : Ag) : Bool :=
  a.arm.wait != .none ||
  (s.armLive a &&
    !({ s with cycle := s.cycle + 1 } : State).candReady { team := a.t.id, grp := a.g.grpidx, armB := a.b, age := a.arm.age, slot := (0, a.g.grpidx) })

/-- An arm of a context that is being removed takes the exit that is injected into it (R178). -/
def State.exitArm (s : State) (t g : Nat) (b : Bool) : State :=
  match s.agent t g b with
  | none => s
  | some a =>
    if a.g.retired || a.arm.wait == .exited || (b && !a.g.core.split) || s.dieStopped a.die ||
        !(match s.ctx? a.t.ctx with | some c => c.removing | none => false) then s
    else s.updGroup t g (fun y => y.removeArm b (s.armWaits a))

/-- What a move runs, with the agent selected. -/
def State.pick (s : State) (x : Action) : Pick :=
  match x with
  | .arm t g b => State.pickArm { s with sel := .arm t g b } t g b
  | .lane t g b => State.pickLane { s with sel := .lane t g b } t g b
  | .matrix t => State.pickMatrix { s with sel := .matrix t } t
  | .copy id => State.pickCopy { s with sel := .copy id } id none
  | .sector id off => State.pickCopy { s with sel := .copy id } id (some off)
  | .queue slot => State.pickQueue { s with sel := .none } slot
  | .cycle core => .done (State.runCycle { s with sel := .none } core)
  | .attempt t g b => .done (s.attempt t g b)
  | .exit t g b => .done (State.exitArm { s with sel := .none } t g b)
  | .store id => .done (State.performStore { s with sel := .none } id)
  | .item id k => .done (State.bindLane { s with sel := .none } id k)
  | .row id => .done (State.moveRow { s with sel := .none } id)
  | .image id => .done (State.imageMiss { s with sel := .none } id)
  | .spoil ga => .done (State.spoil { s with sel := .none } ga)
  | .hostWrite pa bytes => .done (State.hostOwnWrite { s with sel := .none } pa bytes)
  | .any => .done s
  | .event i => .run i { s with sel := .none }

/-! ### Moves that may be open -/

/-- Moves of a team that runs. -/
def State.teamMoves (s : State) (t : Team) : List Action :=
  (if (match s.ctx? t.ctx with | some c => c.removing | none => false) then t.armsLeft.map (fun (k : Nat × Nat × Bool) => Action.exit k.1 k.2.1 k.2.2) else []) ++
  (t.groups.filter (fun g => !g.retired)).flatMap (fun g =>
    let lane := fun (b : Bool) => if (g.nextEntry b).isSome then [Action.lane t.id g.grpidx b] else []
    lane false ++ lane true ++
    (if g.core.armA.yielded == some 0 then [.event (.yieldExpiry t.id g.grpidx false)] else []) ++
    (if g.core.split && g.core.armB.yielded == some 0 then [.event (.yieldExpiry t.id g.grpidx true)] else []) ++
    (if g.frozen.isSome then [.event (.laneFaultDelivery t.id g.grpidx)] else []) ++
    (if g.exiting then [.event (.groupRetire t.id g.grpidx)] else [])) ++
  ((List.range 16).filter (fun n => t.phaseDone (t.bar n))).map (fun n => .event (.barrierPhaseComplete t.id n)) ++
  (if t.seq.run == 0 then [.matrix t.id] else []) ++
  ((s.mops.filter (fun m => m.team == t.id)).map (fun m => .row m.id)) ++ (if s.mops.any (fun m => m.team == t.id) then [.event (.matrixOperationComplete t.id)] else [])

/-- The placement that is open for a child set. -/
def State.placeMoves (s : State) (x : ChildSet) : List Action :=
  match s.ctx? x.ctx with
  | some c => (match s.childPlace c x with | some p => [.event (.teamPlacement x.id p.1 p.2)] | none => [])
  | none => []

/-- Moves of the distributor and of the folds. -/
def State.hubMoves (s : State) : List Action :=
  ((s.queues.filter (fun q => s.queueReady q)).map (fun q => Action.queue (slotNumber q.device q.slot))) ++
  ((s.sets.filter (fun x => s.setWaits x)).flatMap (fun x => s.placeMoves x)) ++
  ((s.sets.filter (fun x => x.phase == .poolWait)).map (fun x => .event (.twinReservation x.id))) ++
  ((s.sets.filter (fun x => x.phase == .running)).map (fun x => .event (.joinStart x.id))) ++
  ((s.sets.filter (fun x => x.phase == .joined)).map (fun x => .event (.commitDecision x.id))) ++
  ((s.sets.filter (fun x => x.phase == .committed || x.phase == .aborted)).map (fun x => .event (.joinComplete x.id))) ++
  ((s.grids.filter (fun g => !g.finished)).flatMap (fun g => [.event (.gridComplete g.id), .event (.watchdog g.id)])) ++
  (s.toPreempt.map (fun t => .event (.preemption t))) ++
  ((s.teams.filter (fun t => s.teamWaits t)).flatMap (fun t =>
    match (s.ctx? t.ctx).bind (fun c => s.teamOption c t []) with
    | some k => [.event (if t.isPreempted then .teamResumption t.id k else .parentResume t.id k)]
    | none => [])) ++
  (s.contexts.flatMap (fun c =>
    (match c.halt with | .raised _ => [.event (.halt c.num)] | _ => []) ++ (if c.removing && !c.removedPosted then [.event (.removed c.num)] else [])))

/-- Moves of memory and of the copy engines. -/
def State.memoryMoves (s : State) : List Action :=
  (s.pending.flatMap (fun p => ((List.range p.items.length).map (fun k => Action.item p.id k)) ++ [.event (.memoryResponse p.id)])) ++ (s.copies.flatMap (fun c => [Action.copy c.id, .sector c.id (Config.sectorTurn s.fresh c.id)])) ++
  (s.copies.map (fun c => .event (.copyComplete c.id))) ++ (s.haloRels.map (fun h => .event (.haloPush h.id))) ++
  (s.heldWrites.flatMap (fun h => [Action.store h.id, .event (.backInvalidationResponse h.id)])) ++ (s.imageWrites.map (fun x => .image x.1)) ++
  ((s.peerStores.filter (fun p => p.sent)).map (fun p => .event (.peerAcknowledge p.id)))

/-- Moves of the fabric. -/
def State.fabricMoves (s : State) : List Action :=
  s.chans.flatMap (fun c =>
    (match c.ord with
     | [] => []
     | x :: _ => [.event (if x.full.isSome then .vectorFlit c.src c.dst else .orderedPacket c.src c.dst)]) ++
    (match c.bell with
     | [] => []
     | .bell _ _ _ :: _ => [.event (.bell c.src c.dst)]
     | .request _ _ :: _ => [.event (.bellRequest c.src c.dst)]
     | .report _ _ :: _ => [.event (.report c.src c.dst)]
     | .reportRequest :: _ => [.event (.reportRequest c.src c.dst)])) ++
  (s.removalDue.map (fun x => .event (.dieRemoved x.1 x.2)))

/-- Moves of the hub's management: what a write has set in motion comes to its end. -/
def State.manageMoves (s : State) : List Action :=
  (if s.mgmt.running.isSome then [.event .commandDone] else []) ++
  (match s.mgmt.eaHeld with | some r => [.event (if r then .eactlResume else .eactlAbandon)] | none => []) ++ (if s.mgmt.flPending.isSome then [.event .flashCommandDone] else []) ++
  (((List.range 8).filter (fun d => (s.sliceCfg d).target.isSome)).map (fun d => .event (.outwaysChangeDone d))) ++
  (match s.freqHeld with | some t => [.event (.frequencyChange t)] | none => []) ++
  (match s.freq with
   | some f =>
     ((List.range 8).filter (fun d => !f.acked.contains d)).map (fun d => .event (.dieAcknowledge d)) ++ [.event .pllRelock, .event .frequencyRelease]
   | none => []) ++
  (if s.resync.isSome then [.event .resyncDrop] else [])

/-- The cores on which teams run. -/
def State.busyCores (s : State) : List Nat :=
  s.teams.foldl (fun (l : List Nat) t => match t.core? with | some c => if l.contains c then l else l ++ [c] | none => l) []

/-- Every move that the device may make of itself now, and some that come to nothing. -/
def State.moves (s : State) : List Action :=
  s.busyCores.map Action.cycle ++ ((s.teams.filter (fun t => t.core?.isSome)).flatMap (fun t => s.teamMoves t)) ++ s.hubMoves ++ s.memoryMoves ++ s.fabricMoves ++ s.manageMoves

/-- A move that is left open is any one of the open moves (R305, log 3). -/
def State.resolve (s : State) : Action → Option Action
  | .any => s.moves[Config.pickMove s.fresh % s.moves.length]?
  | x => some x

/-- What an empty agenda becomes: some free choices, and then a round in which every move that is open now takes place, so that each goes
on (R30, log 3). -/
def State.nextRound (s : State) : List Action := List.replicate (Config.stretch s.fresh) .any ++ s.moves

/-- The move of a step, and the state without it. -/
def State.nextMove (s : State) : Option Action × State :=
  let l := if s.agenda.isEmpty then s.nextRound else s.agenda
  (l.head?.bind s.resolve, { s with agenda := l.tail })

/-- What stays of a core's W after a sweep has begun on every die (R227): the buckets of its writes that have not been performed at
their homes. -/
def State.unswept (s : State) (x : Nat × BitVec 64) : BitVec 64 :=
  if s.causalStores.isEmpty && !s.pending.any (fun p => p.items.any (fun i => i.remote && i.val.isNone)) then
    x.2 &&& s.heldWrites.foldl (fun (m : BitVec 64) h =>
      match h.t.loc with | .dev ga => if h.core == some x.1 then m ||| bucketBit ga else m | _ => m) 0
  else x.2

/-- The outfield sweep of every die, each time TIME crosses a multiple of 65 536 ns (R227). -/
def State.sweepAll (s : State) (cross : Bool) : State :=
  { s with w := if cross then (s.w.map (fun x => (x.1, s.unswept x))).filter (fun x => x.2 != 0) else s.w,
           outfield := if cross then [] else s.outfield,
           l1 := if cross then s.l1.filter (fun x => x.ro || s.homeDie (x.line * 128) == dieOf x.core) else s.l1 }

/-- What every step does after its move: forks whose last group has ended start, TIME advances, and the sweep takes place. -/
def State.settle (s : State) : State :=
  let s := s.settleForks
  let t := s.time + Config.tick s.fresh
  { s.sweepAll (t / 65536 != s.time / 65536) with time := t, fresh := s.fresh + 1 }

end Sys2Proof.Machine
end

