-- ==== Sys2Proof/Machine/Step.lean ====
section
/-! DEFINITION. One step of the package: the move that is due, the instruction it runs, and what every step does after it. -/

namespace Sys2Proof.Machine

open Sys2Proof

/-- An outcome after its step has settled. -/
def settled (o : Out) : Out :=
  match o with
  | .next s => .next s.settle
  | .fault f => .fault f
  | .refused r => .refused r

/-- One step. -/
def step (s : State) : Host.Outcome State Fault Refusal :=
  match s.nextMove with
  | (none, s) => .next s.settle
  | (some x, s) =>
    match s.pick x with
    | .run i s => settled (exec i s)
    | .done s => .next s.settle

/-- Physical and virtual address at which withFetchWord places an instruction. -/
def fetchBase : Nat := 0x10000

/-- The context in which withFetchWord places an instruction: context 0, in mode ONE, with no page table: its one page is held
by the L1 TLB of core 0. -/
def fetchCtx : Context :=
  { num := 0, ptRoot := 0, mode := 0, device := 0, ceiling := 3, watchdog := 0, memBytes := 0, eqBase := 0x80000, eqLog := 6, nTeamAreas := 1,
    nGroupAreas := 1, imageBase := 0x200000, rootMap := 0, poolCap := 0, poolFree := 0, eqwr := 0, eqrd := 0, eqlost := 0, heldEffects := [],
    halt := .none, skid := [], faults := [], removing := false, removedPosted := false, exited := 0, stops := 0, stopsLost := 0, rootTokens := [] }

/-- The team that runs it, of one group with every register full, on core 0. -/
def fetchTeam (id : Nat) (q : List QEntry) (mat : Word) : Team :=
  { id, ctx := 0, grid := 0, set := 0, teamIdx := 0, flockIdx := 0, flockPos := none, childIdx := 0, childN := 1, gridN := 1, run := 0, view := none,
    depth := 0, viewId := 0, prio := 0, entry := toWord fetchBase, laneBase := toWord fetchBase, matEntry := mat, kargs := 0, vregs := 320, spch := 512,
    ntiles := 256, nacc := 6, groups := [{ Group.fresh 0 0 (toWord fetchBase) (toWord fetchBase) [] with queue := q }], spad := [], ops := [],
    opsUsed := false, tiles := List.replicate 256 Tile.none_, bars := List.replicate 16 Barrier.fresh, seq := Seq.fresh mat,
    place := .running 0 0, placedAt := 0, saveArea := 0, stored := false, round := none }

/-- The team, with the move that fetches. -/
def State.fetchState (s : State) (q : List QEntry) (mat : Word) (bs : List Byte) (x : Action) : State :=
  { s with mode := some 0, contexts := fetchCtx :: s.contexts.filter (fun c => c.num != 0),
           tlb1 := { unit := 0, ctx := 0, va := fetchBase, pte := 0x10001 } :: s.tlb1.filter (fun x => !x.hits 0 0 fetchBase),
           mem := s.mem.store fetchBase bs, teams := fetchTeam s.nextId q mat :: s.teams, nextId := s.nextId + 1, freq := none,
           agenda := x :: s.agenda }

/-- The entry of a lane word that an LQ has enqueued. -/
def fetchEntry (nbits w : Nat) : List QEntry :=
  match decodeTableWord nbits w with
  | some i => [{ instr := i, word := BitVec.ofNat 96 w, active := allLanes, scope := allLanes, bcA := 0, bcB := 0, bcC := 0, armB := false, po := 0, both := false,
                 marks := false, sdDrop := false, saved := none }]
  | none => []

/-- The packet of an opcode-table word. -/
def fetchPacket (nbits w : Nat) : Option (CopyOp × CopyPacket) := (decodeTableWord nbits w).bind copyOf

/-- A packet that the copy engine of core 0 has. -/
def fetchCopy (id team : Nat) (p : CopyOp × CopyPacket) : CopyRec :=
  { id, op := p.1, pkt := p.2, team, grp := 0, armB := false, core := 0, addr := toWord fetchBase, progress := 0, dests := [], liveAt := allLanes,
    suspended := false, ranges := [], trans := [], buf := [], faulted := false, cancelled := false }

/-- The state with an instruction where its step fetches it, and the step that fetches it next: a shepherd word at SPC of an
arm, a matrix word at MPC of a sequencer, a lane word at the head of a lane queue, a copy packet in a copy engine, a launch
packet at the head of a bound queue. -/
def State.withFetchWord (s : State) (nbits w : Nat) : State :=
  let bs := tableBytes nbits w
  let t := s.nextId
  match streamOf nbits w with
  | .shep => s.fetchState [] 0 bs (.arm t 0 false)
  | .lane => s.fetchState (fetchEntry nbits w) 0 bs (.lane t 0 false)
  | .mat => s.fetchState [] (toWord fetchBase) bs (.matrix t)
  | .copy =>
    let s1 := s.fetchState [] 0 bs (.copy (t + 1))
    match fetchPacket nbits w with
    | some p => { s1 with nextId := t + 2, copies := fetchCopy (t + 1) t p :: s.copies }
    | none => s1
  | .launch =>
    -- a queue header at 0x10000, one slot claimed, LOGN 1; the packet in its first slot
    let hdr : List Byte := [1] ++ List.replicate 15 0 ++ [1] ++ List.replicate 47 0
    let s1 := s.fetchState [] 0 (hdr ++ bs) (.queue 0)
    { s1 with queues := { device := 0, slot := 0, ctx := 0, hdr := fetchBase, prio := 0, halted := false } :: s.queues.filter (fun q => !(q.device == 0 && q.slot == 0)) }

end Sys2Proof.Machine
end

