-- ==== Sys2Proof/Safety.lean ====
section
/-! DEFINITION. The terms in which claims are stated: when an arm may execute an instruction, what a completed instruction
leaves of its group, and the parts of the state that a claim says are unchanged. -/

namespace Sys2Proof.Safety

open Sys2Proof Sys2Proof.Machine

/-! ### When an arm may execute (R68, R166) -/

/-- The state has selected arm `b` of group `g` of team `t`, which is live and waits for nothing but the registers of `n`,
and those are full (R68, R166). -/
structure ArmMay (s : State) (t g : Nat) (b : Bool) (a : Ag) (n : Needs) : Prop where
  sel : s.sel = .arm t g b
  agent : s.agent t g b = some a
  live : s.armLive a = true
  full : a.ready n = true

/-- And no repeat is pending: the condition of every instruction but LQ and LJ (R67). -/
structure ArmReady (s : State) (t g : Nat) (b : Bool) (a : Ag) (n : Needs) : Prop extends ArmMay s t g b a n where
  single : a.arm.rep = none

/-- Every memory event that an arm has issued, or put into its lane queue, is performed (R88, R89). -/
structure ArmQuiet (s : State) (a : Ag) : Prop where
  queue : a.g.memQueued a.b = false
  accesses : ∀ p ∈ s.pending, p.ofArm a.key = false
  writes : ∀ h ∈ s.heldWrites, h.ofArm a.key = false
  flags : ∀ h ∈ s.haloRels, h.ofArm a.key = false
  causals : ∀ c ∈ s.causalStores, armOf a.key c.team c.grp c.armB c.both = false
  peers : ∀ p ∈ s.peerStores, armOf a.key p.team p.grp p.armB p.both = false

/-! ### What completion leaves (R69, R79, R92) -/

/-- Words of an instruction, as an advance of SPC. -/
def bytesOf (i : Instr) : Word := toWord (4 * (encodeShep i).length)

/-- An arm of a group has issued in cycle `n` (R166). -/
def aged (g : Group) (b : Bool) (n : Nat) : Group := { g with core := g.core.updArm (b && g.core.split) (fun m => { m with age := n }) }

/-- A group after arm `b` has executed a shepherd instruction in cycle `n`: the words of the instruction have entered SIG, `f` is the
instruction's own effect on the arm, and the arm completes at `next` (R69), with loop-end processing, or without while a lane fault of the
group waits for its delivery (R110). -/
def completed (g : Group) (b : Bool) (i : Instr) (next : Word) (n : Nat) (f : Arm → Arm) : Group :=
  aged (g.finish b (fun m => f (m.signed i)) next) b n

/-- A group that stands where a lane fault that waits is delivered, without loop-end processing to be done (R110). -/
def atFault (g : Group) : Group := if g.due then g.atBoundary false else g

/-- The same of a group whose arm A is in no instruction. -/
def atRest (g : Group) : Group := if g.due && !g.stopped && g.core.armA.wait == .none && g.core.armA.lqLeft == 0 then g.atBoundary false else g

/-- A group after arm `b` has executed a shepherd instruction that transfers control to `pc`: no loop-end processing (R69). -/
def transferred (g : Group) (b : Bool) (i : Instr) (pc : Word) (n : Nat) (f : Arm → Arm) : Group :=
  aged (atFault { g with core := g.core.updArm b (fun m => { f (m.signed i) with spc := pc }) }) b n

/-- The state in which an action of an arm counts for its skid bound, which it does while its context's stop is due (R174). -/
def skidded (s : State) (a : Ag) : State := s.noteSkid a.t.ctx (.arm a.t.id a.g.grpidx a.b)

/-- The instruction completes at the word after it with effect `f` on its arm, and nothing else of the package changes. -/
def CompletesWith (i : Instr) (s : State) (t g : Nat) (b : Bool) (a : Ag) (f : Arm → Arm) : Prop :=
  exec i s = .next ((skidded s a).updGroup t g (fun y => completed y b i (a.arm.spc + bytesOf i) s.cycle f))

/-- The instruction transfers control to `pc` with effect `f` on its arm, and nothing else of the package changes. -/
def TransfersTo (i : Instr) (s : State) (t g : Nat) (b : Bool) (a : Ag) (pc : Word) (f : Arm → Arm) : Prop :=
  exec i s = .next ((skidded s a).updGroup t g (fun y => transferred y b i pc s.cycle f))

/-- The state in which the words of an instruction have entered SIG of its arm (R92): its effect is on this state. -/
def withSig (s : State) (a : Ag) (i : Instr) : State := s.setArm a (fun m => m.signed i)

/-- The agent in that state. -/
def agSig (a : Ag) (i : Instr) : Ag := { a with g := { a.g with core := a.g.core.updArm a.b (fun m => m.signed i) } }

/-- The instruction completes at the word after it, its effect having made `u` of the state (R69). -/
def CompletesAs (i : Instr) (s : State) (a : Ag) (u : State) : Prop :=
  exec i s = .next ((u.advance a.t.id a.g.grpidx a.b (a.arm.spc + bytesOf i)).issued a)

/-- The instruction leaves SPC where its effect, which has made `u` of the state, put it: the arm waits, has ended, or goes on
elsewhere. -/
def StaysAs (i : Instr) (s : State) (a : Ag) (u : State) : Prop :=
  exec i s = .next ((u.updGroup a.t.id a.g.grpidx atRest).issued a)

/-- The instruction faults and changes nothing but what the fault's course does (R68, R172). -/
def Faults (i : Instr) (s : State) (a : Ag) (f : Flt) (tcp : Bool) : Prop := exec i s = .next ((s.armFault a f tcp).issued a)

/-- The fault of a code alone. -/
def FaultsWith (i : Instr) (s : State) (a : Ag) (code : Nat) : Prop := Faults i s a { code } false

/-- An instruction whose whole effect is that sd receives a value computed from its sources (R68, R70). -/
def WritesReg (i : Instr) (d : SReg) (src : List SReg) (v : (SReg → Word) → Word) : Prop :=
  ∀ (s : State) (t g : Nat) (b : Bool) (a : Ag), ArmReady s t g b a { src, dst := [d], preds := [] } →
    CompletesWith i s t g b a (fun m => m.put d (v a.arm.get))

/-! ### When the lane engine, a sequencer and the copy engine execute -/

/-- The state has selected arm `b` of a group whose lane engine may go on, and `e`, the entry at place `idx` of its queue, is the arm's next one and holds
instruction `i` (R82). -/
structure LaneAt (s : State) (t g : Nat) (b : Bool) (a : Ag) (i : Instr) (idx : Nat) (e : QEntry) : Prop where
  sel : s.sel = .lane t g b
  agent : s.agent t g b = some a
  live : s.laneLive a = true
  next : a.g.nextEntry b = some (idx, e)
  holds : e.instr = i

/-- The state has selected the sequencer of team `x`, which may issue (R200, R210), and a word whose accumulator and tiles are below the
team's requests (R199). -/
structure MatAt (s : State) (t : Nat) (x : Team) (accs tiles : List Nat) : Prop where
  sel : s.sel = .matrix t
  team : s.team? t = some x
  live : s.seqLive x = true
  accsOk : ∀ a ∈ accs, a < x.nacc
  tilesOk : ∀ i ∈ tiles, i < x.ntiles

/-- The state has selected copy `c`, of packet `p`, which the engine works on and which has bytes left to move (R194): those whose turn it
is, which may be moved now. -/
structure CopyAt (s : State) (c : CopyRec) (op : CopyOp) (p : CopyPacket) (t : Team) (a : Ag) : Prop where
  sel : s.sel = .copy c.id
  copy : s.copy? c.id = some c
  isOp : c.op = op
  isPkt : c.pkt = p
  live : s.copyLive c = true
  team : s.team? c.team = some t
  agent : s.copyAgent c t = some a
  left : c.progress < (geoOf op p (t.tile (p.tile.toNat % 256))).total
  may : c.mayMove (geoOf op p (t.tile (p.tile.toNat % 256))) = true

end Sys2Proof.Safety
end

