-- ==== Sys2Proof/Certificates/Slice0/Obligations.lean ====
section
/-! DEFINITION. The statements about the model: what each instruction does where it completes, where it faults, what it leaves
unchanged, and the rules of the whole machine. -/

open Sys2Proof Sys2Proof.Machine Sys2Proof.Safety

/-! ### Scalar registers: R70 to R72 -/

/-- R70, Table 5.1, the operations of two sources: sd receives the result; SPC, the loops, SIG and the arm's age change as for
every instruction that completes, and nothing else of the package changes. -/
def ScalarTwoSourceResults : Prop :=
  ∀ d a b : SReg,
    WritesReg (.add d a b) d [a, b] (fun r => r a + r b) ∧
    WritesReg (.sub d a b) d [a, b] (fun r => r a - r b) ∧
    WritesReg (.and d a b) d [a, b] (fun r => r a &&& r b) ∧
    WritesReg (.or d a b) d [a, b] (fun r => r a ||| r b) ∧
    WritesReg (.xor d a b) d [a, b] (fun r => r a ^^^ r b) ∧
    WritesReg (.shl d a b) d [a, b] (fun r => r a <<< ((r b).toNat % 64)) ∧
    WritesReg (.shr d a b) d [a, b] (fun r => r a >>> ((r b).toNat % 64)) ∧
    WritesReg (.sra d a b) d [a, b] (fun r => (r a).sshiftRight ((r b).toNat % 64)) ∧
    WritesReg (.rotl d a b) d [a, b] (fun r => r a <<< ((r b).toNat % 64) ||| r a >>> (64 - (r b).toNat % 64)) ∧
    WritesReg (.mul d a b) d [a, b] (fun r => BitVec.ofNat 64 ((r a).toNat * (r b).toNat)) ∧
    WritesReg (.mulh d a b) d [a, b] (fun r => BitVec.ofInt 64 ((r a).toInt * (r b).toInt / 2 ^ 64)) ∧
    WritesReg (.mulhn d a b) d [a, b] (fun r => BitVec.ofNat 64 ((r a).toNat * (r b).toNat / 2 ^ 64)) ∧
    WritesReg (.div d a b) d [a, b]
      (fun r => if r b = 0 then BitVec.allOnes 64 else BitVec.ofInt 64 (Int.tdiv (r a).toInt (r b).toInt)) ∧
    WritesReg (.divn d a b) d [a, b]
      (fun r => if r b = 0 then BitVec.allOnes 64 else BitVec.ofNat 64 ((r a).toNat / (r b).toNat)) ∧
    WritesReg (.rem d a b) d [a, b] (fun r => if r b = 0 then r a else BitVec.ofInt 64 (Int.tmod (r a).toInt (r b).toInt)) ∧
    WritesReg (.remn d a b) d [a, b] (fun r => if r b = 0 then r a else BitVec.ofNat 64 ((r a).toNat % (r b).toNat)) ∧
    WritesReg (.min d a b) d [a, b] (fun r => if (r a).toInt < (r b).toInt then r a else r b) ∧
    WritesReg (.minn d a b) d [a, b] (fun r => if (r a).toNat < (r b).toNat then r a else r b) ∧
    WritesReg (.max d a b) d [a, b] (fun r => if (r a).toInt < (r b).toInt then r b else r a) ∧
    WritesReg (.maxn d a b) d [a, b] (fun r => if (r a).toNat < (r b).toNat then r b else r a) ∧
    WritesReg (.seq d a b) d [a, b] (fun r => if r a = r b then 1 else 0) ∧
    WritesReg (.sne d a b) d [a, b] (fun r => if r a = r b then 0 else 1) ∧
    WritesReg (.slt d a b) d [a, b] (fun r => if (r a).toInt < (r b).toInt then 1 else 0) ∧
    WritesReg (.sltn d a b) d [a, b] (fun r => if (r a).toNat < (r b).toNat then 1 else 0) ∧
    WritesReg (.bfx d a b) d [a, b]
      (fun r => BitVec.ofNat 64 ((r a).toNat / 2 ^ ((r b).toNat % 64) % 2 ^ ((r b).toNat / 64 % 64 + 1)))

/-- R70, Table 5.1, the operations of one source and those that also read sd: CLZ and POPC count, BFI replaces bits of sd, and
SEL chooses by sd. `field` is the mask of BFI's field. -/
def ScalarCountInsertSelect : Prop :=
  ∀ d a b : SReg,
    WritesReg (.clz d a) d [a] (fun r => if r a = 0 then 64 else BitVec.ofNat 64 (63 - (r a).toNat.log2)) ∧
    WritesReg (.popc d a) d [a] (fun r => BitVec.ofNat 64 ((List.range 64).filter (fun i => (r a).getLsbD i)).length) ∧
    WritesReg (.bfi d a b) d [d, a, b] (fun r =>
      let p := (r b).toNat % 64
      let w := (r b).toNat / 64 % 64 + 1
      let field := BitVec.ofNat 64 (2 ^ (p + w) - 2 ^ p)
      (r d &&& ~~~ field) ||| (r a <<< p &&& field)) ∧
    WritesReg (.sel d a b) d [d, a, b] (fun r => if r d = 0 then r b else r a)

/-- R71 and R72: immediates are sign-extended from 13 bits, shift counts have 6 bits, and the literals of LI32 are sign-extended,
zero-extended or put into the high half. -/
def ScalarImmediatesAndConstants : Prop :=
  ∀ (d a : SReg) (imm : BitVec 13) (n : BitVec 6) (lit : BitVec 32),
    WritesReg (.addi d a imm) d [a] (fun r => r a + imm.signExtend 64) ∧
    WritesReg (.andi d a imm) d [a] (fun r => r a &&& imm.signExtend 64) ∧
    WritesReg (.ori d a imm) d [a] (fun r => r a ||| imm.signExtend 64) ∧
    WritesReg (.xori d a imm) d [a] (fun r => r a ^^^ imm.signExtend 64) ∧
    WritesReg (.slti d a imm) d [a] (fun r => if (r a).toInt < imm.toInt then 1 else 0) ∧
    WritesReg (.shli d a n) d [a] (fun r => r a <<< n.toNat) ∧
    WritesReg (.shri d a n) d [a] (fun r => r a >>> n.toNat) ∧
    WritesReg (.srai d a n) d [a] (fun r => (r a).sshiftRight n.toNat) ∧
    WritesReg (.li d imm) d [] (fun _ => imm.signExtend 64) ∧
    WritesReg (.lis d a imm) d [a] (fun r => r a <<< 13 ||| imm.zeroExtend 64) ∧
    WritesReg (.li32 d lit) d [] (fun _ => lit.signExtend 64) ∧
    WritesReg (.li32N d lit) d [] (fun _ => lit.zeroExtend 64) ∧
    WritesReg (.li32Hi d lit) d [d] (fun r => BitVec.ofNat 64 (lit.toNat * 2 ^ 32 + (r d).toNat % 2 ^ 32))

/-! ### Control of an arm: R75 to R86, R91 to R95 -/

/-- A conditional branch: to its target, an offset in words from the branch itself, when `c` holds; else to the next word. -/
def BranchesWhen (i : Instr) (n : Needs) (off : BitVec 13) (c : Ag → Prop) : Prop :=
  ∀ (s : State) (t g : Nat) (b : Bool) (a : Ag), ArmReady s t g b a n →
    (c a → TransfersTo i s t g b a (a.arm.spc + 4 * off.signExtend 64) (fun m => m)) ∧
    (¬ c a → CompletesWith i s t g b a (fun m => m))

/-- R75 and R76: when each branch is taken. The predicate branches look at the lanes of the current path. -/
def BranchesAreTakenOnTheirCondition : Prop :=
  ∀ (a b : SReg) (p : PReg) (off : BitVec 13),
    BranchesWhen (.beq a b off) { src := [a, b], dst := [], preds := [] } off (fun x => x.arm.get a = x.arm.get b) ∧
    BranchesWhen (.bne a b off) { src := [a, b], dst := [], preds := [] } off (fun x => x.arm.get a ≠ x.arm.get b) ∧
    BranchesWhen (.blt a b off) { src := [a, b], dst := [], preds := [] } off (fun x => (x.arm.get a).toInt < (x.arm.get b).toInt) ∧
    BranchesWhen (.bge a b off) { src := [a, b], dst := [], preds := [] } off (fun x => (x.arm.get b).toInt ≤ (x.arm.get a).toInt) ∧
    BranchesWhen (.bltn a b off) { src := [a, b], dst := [], preds := [] } off (fun x => (x.arm.get a).toNat < (x.arm.get b).toNat) ∧
    BranchesWhen (.bgen a b off) { src := [a, b], dst := [], preds := [] } off (fun x => (x.arm.get b).toNat ≤ (x.arm.get a).toNat) ∧
    BranchesWhen (.bpany p off) { src := [], dst := [], preds := [p.toNat] } off
      (fun x => ∃ l, x.arm.active.getLsbD l = true ∧ (x.g.core.pget p.toNat).getLsbD l = true) ∧
    BranchesWhen (.bpall p off) { src := [], dst := [], preds := [p.toNat] } off
      (fun x => ∀ l, x.arm.active.getLsbD l = true → (x.g.core.pget p.toNat).getLsbD l = true)

/-- R77: BR and CALL go to an offset in words from themselves, CALL with the return address in s63; JR goes to the address in
its register with the return address in sd, and faults MISALIGNED, changing nothing, when that is no multiple of 4. -/
def JumpsGoToTheirTarget : Prop :=
  ∀ (s : State) (t g : Nat) (b : Bool) (a : Ag),
    (∀ off : BitVec 25, ArmReady s t g b a { src := [], dst := [], preds := [] } →
      TransfersTo (.br off) s t g b a (a.arm.spc + 4 * off.signExtend 64) (fun m => m)) ∧
    (∀ off : BitVec 25, ArmReady s t g b a { src := [], dst := [63], preds := [] } →
      TransfersTo (.call off) s t g b a (a.arm.spc + 4 * off.signExtend 64) (fun m => m.put 63 (a.arm.spc + 4))) ∧
    (∀ d r : SReg, ArmReady s t g b a { src := [r], dst := [d], preds := [] } →
      ((a.arm.get r).toNat % 4 = 0 → TransfersTo (.jr d r) s t g b a (a.arm.get r) (fun m => m.put d (a.arm.spc + 4))) ∧
      ((a.arm.get r).toNat % 4 ≠ 0 → Faults (.jr d r) s a { code := 0x03, addr := a.arm.get r } false))

/-- The cases of LOOP and LOOPI with a count and an offset (R78). `inner` is the innermost level that the group's current
handler may see. -/
def LoopStarts (i : Instr) (s : State) (t g : Nat) (b : Bool) (a : Ag) (count : BitVec 32) (off : BitVec 13) : Prop :=
  let last : Word := a.arm.spc + 4 * BitVec.ofInt 64 (off.toInt - 1)
  let inner := if a.g.lbase < a.arm.loops.length then a.arm.loops.head? else none
  let escapes := ∃ l, inner = some l ∧ l.endAddr.toNat < last.toNat
  (off.toInt < 2 ∨ escapes → FaultsWith i s a 0x01) ∧
  (2 ≤ off.toInt → ¬ escapes → count = 0 → TransfersTo i s t g b a (last + 4) (fun m => m)) ∧
  (2 ≤ off.toInt → ¬ escapes → count ≠ 0 → a.arm.loops.length = 4 → FaultsWith i s a 0x15) ∧
  (2 ≤ off.toInt → ¬ escapes → count ≠ 0 → a.arm.loops.length ≠ 4 →
    CompletesWith i s t g b a (fun m =>
      { m with loops := { count, len := BitVec.ofInt 32 (off.toInt - 1), endAddr := last } :: m.loops, spare := m.spare.tail }))

/-- R78 and R80: a loop level is pushed with its count, body length and last address, a count of 0 skips the body (the place it
goes to is the model's choice, log 19), and LBRK pops the innermost level and goes past its body. The popped level keeps its fields, as
the lowest free one. -/
def LoopsArePushedSkippedAndBroken : Prop :=
  ∀ (s : State) (t g : Nat) (b : Bool) (a : Ag),
    (∀ (r : SReg) (off : BitVec 13), ArmReady s t g b a { src := [r], dst := [], preds := [] } →
      LoopStarts (.loop r off) s t g b a ((a.arm.get r).setWidth 32) off) ∧
    (∀ (n : BitVec 12) (off : BitVec 13), ArmReady s t g b a { src := [], dst := [], preds := [] } →
      LoopStarts (.loopi n off) s t g b a (n.zeroExtend 32) off) ∧
    (ArmReady s t g b a { src := [], dst := [], preds := [] } →
      (a.arm.loops.length ≤ a.g.lbase → FaultsWith .lbrk s a 0x15) ∧
      (∀ l ls, a.arm.loops = l :: ls → a.g.lbase < a.arm.loops.length →
        TransfersTo .lbrk s t g b a (l.endAddr + 4) (fun m => m.setDepth ls.length) ∧
          a.arm.setDepth ls.length = { a.arm with loops := ls, spare := l :: a.arm.spare }))

/-- R79: where the next address is the word after the body of the innermost level above `base`, the count falls by one and
control goes to the first word of the body; at count 1 the level is popped and the next level is tried. Everywhere else SPC is
the next address. Loop levels are an arm's own, and SPLIT copies them to arm B (R47). -/
def Obligations.LoopEndGoesBackOrPops : Prop :=
  ∀ (m : Arm) (base : Nat) (next : Word),
    (m.loops = [] → m.advance base next = { m with spc := next }) ∧
    (∀ l ls, m.loops = l :: ls →
      (ls.length < base ∨ next ≠ l.endAddr + 4 → m.advance base next = { m with spc := next }) ∧
      (base ≤ ls.length → next = l.endAddr + 4 → l.count ≠ 1 →
        m.advance base next =
          { m with loops := { l with count := l.count - 1 } :: ls, spc := l.endAddr - 4 * ((l.len - 1).zeroExtend 64) }) ∧
      (base ≤ ls.length → next = l.endAddr + 4 → l.count = 1 →
        m.advance base next = { m with loops := ls, spare := { l with count := 0 } :: m.spare }.advance base next)) ∧
    (∀ (s : State) (t g : Nat) (a : Ag) (p : PReg) (off : BitVec 13), ArmReady s t g false a { src := [], dst := [], preds := [p.toNat] } →
      a.g.core.split = false → a.arm.active &&& ~~~ a.g.core.pget p.toNat ≠ 0 → a.arm.active &&& a.g.core.pget p.toNat ≠ 0 →
      ∃ u, exec (.split p off) s = .next u ∧ ∃ y, u.group? t g = some y ∧ y.core.armB.loops = a.arm.loops ∧ y.core.armB.spare = a.arm.spare)

/-- R91 and Table 4.1: the state registers that SGET reads; R51: SSET writes SIG and no other. Indices from 20 up are reserved. That the words
of SGET and SSET enter SIG before they read or write it is the model's choice (log 87). -/
def StateRegistersAreReadAndWritten : Prop :=
  ∀ (s : State) (t g : Nat) (b : Bool) (a : Ag) (d r : SReg),
    let die := a.w.core / 32
    let sget := fun (k : Nat) (v : Word) =>
      ArmReady s t g b a { src := if k = 19 then [r] else [], dst := [d], preds := [] } →
        CompletesWith (.sget d r (BitVec.ofNat 6 k)) s t g b a (fun m => m.put d v)
    sget 0 (a.g.core.live.zeroExtend 64) ∧
    sget 1 (a.arm.active.zeroExtend 64) ∧
    sget 2 (BitVec.ofNat 64 a.g.grpidx) ∧
    sget 3 (BitVec.ofNat 64 a.t.teamIdx) ∧
    sget 4 (BitVec.ofNat 64 a.t.flockIdx) ∧
    sget 5 (BitVec.ofNat 64 a.t.gridN) ∧
    sget 6 (BitVec.ofNat 64 a.t.childIdx) ∧
    sget 7 (BitVec.ofNat 64 a.t.childN) ∧
    sget 8 a.t.viewId ∧
    sget 9 (BitVec.ofNat 64 a.w.core) ∧
    sget 10 (BitVec.ofNat 64 die) ∧
    sget 11 (BitVec.ofNat 64 s.time) ∧
    sget 12 ((crcWords a.arm.sig (encodeShep (.sget d r 12))).zeroExtend 64) ∧
    sget 13 ((a.g.core.status b).zeroExtend 64) ∧
    sget 14 a.arm.lpc ∧
    sget 15 (BitVec.ofNat 64 a.g.frames.length) ∧
    sget 16 a.t.kargs ∧
    (∀ k, a.t.flockPos = some k → sget 17 (BitVec.ofNat 64 (flockWindow + k * spadBytes))) ∧
    (a.t.flockPos = none → sget 17 0) ∧
    sget 18 (BitVec.ofNat 64 (s.sliceCfg die).outways) ∧
    (∀ j, (a.arm.get r).toNat % 16 = j → j < 9 → sget 19 (s.gen.zeroExtend 52 ++ s.vecAt die j)) ∧
    (9 ≤ (a.arm.get r).toNat % 16 → sget 19 0) ∧
    (∀ idx : BitVec 6, 20 ≤ idx.toNat → ArmReady s t g b a { src := [], dst := [d], preds := [] } →
      FaultsWith (.sget d r idx) s a 0x02) ∧
    (ArmReady s t g b a { src := [r], dst := [], preds := [] } →
      CompletesWith (.sset r 12) s t g b a (fun m => { m with sig := (a.arm.get r).setWidth 32 }) ∧
      (∀ idx : BitVec 6, idx.toNat < 20 → idx ≠ 12 → FaultsWith (.sset r idx) s a 0x05) ∧
      (∀ idx : BitVec 6, 20 ≤ idx.toNat → FaultsWith (.sset r idx) s a 0x02))

/-- R93: SIGCHK compares SIG, without its own words, with its literal; equal, it sets SIG to 0; else it faults SIGNATURE.
R94: TRAP raises code 0x1A with its own code and the value of its register. R95: YIELD completes and the arm is not ready
until YIELD_EXPIRY, which takes effect once the scheduler has found the hold at its end: of 64 cycles of the core at the latest, and at once when
no other ready group of the core is still to issue. R90: TWAIT completes once every named copy token is free, and holds the arm until then. -/
def SignatureTrapYieldAndTwait : Prop :=
  ∀ (s : State) (t g : Nat) (b : Bool) (a : Ag),
    (∀ lit : BitVec 32, ArmReady s t g b a { src := [], dst := [], preds := [] } →
      (a.arm.sig = lit → CompletesWith (.sigchk lit) s t g b a (fun m => { m with sig := 0 })) ∧
      (a.arm.sig ≠ lit → FaultsWith (.sigchk lit) s a 0x0D)) ∧
    (∀ (r : SReg) (code : BitVec 13), ArmReady s t g b a { src := [r], dst := [], preds := [] } →
      Faults (.trap r code) s a { code := 0x1A, tcode := code.toNat, data := a.arm.get r } false) ∧
    (ArmReady s t g b a { src := [], dst := [], preds := [] } →
      CompletesWith .yield s t g b a (fun m => { m with yielded := some 64 })) ∧
    (∀ m, s.agent t g b = some a → s.arm? a = some m → ∃ u, exec (.yieldExpiry t g b) s = .next u ∧
      u.arm? a = some (if m.yielded = some 0 then { m with yielded := none } else m)) ∧
    (∀ core, s.agent t g b = some a → a.arm.yielded = some 0 → s.yieldEnds core (t, g, b) = true) ∧
    (∀ core n, s.agent t g b = some a → a.arm.yielded = some (n + 1) →
      (s.yieldEnds core (t, g, b) = true ↔ ∀ x ∈ ({ s with cycle := s.cycle + 1 } : State).candidates core, ¬ (x.team = t ∧ x.grp = g) →
        ({ s with cycle := s.cycle + 1 } : State).candReady x = true → ∀ y, s.group? x.team x.grp = some y →
          a.arm.age < y.core.armA.age ∨ (y.core.split = true ∧ a.arm.age < y.core.armB.age))) ∧
    (∀ mask : BitVec 8, ArmReady s t g b a { src := [], dst := [], preds := [] } →
      (a.g.tokens &&& mask = 0 → CompletesWith (.twait mask) s t g b a (fun m => m)) ∧
      (a.g.tokens &&& mask ≠ 0 → ∃ u, exec (.twait mask) s = .next u ∧ u.group? t g = s.group? t g))

/-- What a state holds for a group after a step. -/
def HasGroup (u : State) (t g : Nat) (p : Group → Prop) : Prop := ∃ y, u.group? t g = some y ∧ p y

/-- R83: SPLIT where the group is not split. No lane failing, it completes; no lane passing, it branches; else arm A keeps the
passing lanes and arm B is a copy of it with the failing lanes at the target, without the pending repeat (R47), and every queue
entry so far stands before both (R40). -/
def SplitDividesTheGroup : Prop :=
  ∀ (s : State) (t g : Nat) (a : Ag) (p : PReg) (off : BitVec 13),
    ArmReady s t g false a { src := [], dst := [], preds := [p.toNat] } → a.g.core.split = false →
    let pass := a.arm.active &&& a.g.core.pget p.toNat
    let fail := a.arm.active &&& ~~~ a.g.core.pget p.toNat
    let target := a.arm.spc + 4 * off.signExtend 64
    (fail = 0 → CompletesWith (.split p off) s t g false a (fun m => m)) ∧
    (fail ≠ 0 → pass = 0 → TransfersTo (.split p off) s t g false a target (fun m => m)) ∧
    (fail ≠ 0 → pass ≠ 0 → ∃ u, exec (.split p off) s = .next u ∧ HasGroup u t g (fun y =>
      let x := a.arm.signed (.split p off)
      y.core.split = true ∧
      y.core.armA = { ({ x with mask := pass }).advance a.g.lbase (a.arm.spc + 4) with age := s.cycle } ∧
      y.core.armB = { x with mask := fail, spc := target, rep := none, age := s.cycle } ∧
      y.core.vregs = a.g.core.vregs ∧ y.core.preds = a.g.core.preds ∧ y.core.live = a.g.core.live ∧
      y.queue = a.g.queue.map (fun e => { e with both := true })))

/-- R83: SPLIT in an arm of a split group pushes an entry of the mask stack, with the failing lanes and the target deferred when
both paths have lanes; a full stack of 16 entries faults SPLIT_DEPTH. -/
def InnerSplitPushesTheMaskStack : Prop :=
  ∀ (s : State) (t g : Nat) (b : Bool) (a : Ag) (p : PReg) (off : BitVec 13),
    ArmReady s t g b a { src := [], dst := [], preds := [p.toNat] } → a.g.core.split = true →
    let pass := a.arm.active &&& a.g.core.pget p.toNat
    let fail := a.arm.active &&& ~~~ a.g.core.pget p.toNat
    let target := a.arm.spc + 4 * off.signExtend 64
    let push := fun (e : MaskEntry) (m : Arm) => { m with stack := e :: m.stack }
    (a.arm.stack.length = 16 → FaultsWith (.split p off) s a 0x16) ∧
    (a.arm.stack.length ≠ 16 →
      (pass ≠ 0 → fail = 0 → CompletesWith (.split p off) s t g b a (push { lanes := 0, dspc := 0, dlpc := 0 })) ∧
      (pass ≠ 0 → fail ≠ 0 → CompletesWith (.split p off) s t g b a (push { lanes := fail, dspc := target, dlpc := a.arm.lpc })) ∧
      (pass = 0 → TransfersTo (.split p off) s t g b a target (push { lanes := 0, dspc := 0, dlpc := 0 })))

/-- No BAR of the group is pending at any barrier of its team. -/
def NoBarPending (a : Ag) : Prop := ∀ n, (a.t.bar n).pend.getLsbD a.g.grpidx = false

/-- R84: JOIN in a group that is not split completes. In a split group it takes up the deferred path of the top entry, or pops
it; with an empty stack the arm waits until its partner has come to its own outer JOIN or has ended, and then the group goes on
as arm A, or as arm B when arm A has ended, with the lanes of both and with that arm's registers, full bits, LPC, SIG, STATUS code and
loops. SIG takes one zero word more (R92). With a lane fault that waits, loop-end processing is left to RESUME (R110). -/
def Obligations.JoinEndsAPath : Prop :=
  ∀ (s : State) (t g : Nat) (b : Bool) (a : Ag), ArmReady s t g b a { src := [], dst := [], preds := [] } →
    let sig := fun (m : Arm) => { m with sig := crcWord m.sig 0 }
    (a.g.core.split = false → CompletesWith .join s t g b a sig) ∧
    (a.g.core.split = true →
      (∀ e rest, a.arm.stack = e :: rest → e.dspc ≠ 0 →
        TransfersTo .join s t g b a e.dspc (fun m =>
          { sig m with stack := { lanes := a.arm.active, dspc := 0, dlpc := 0 } :: rest, lpc := e.dlpc })) ∧
      (∀ e rest, a.arm.stack = e :: rest → e.dspc = 0 → CompletesWith .join s t g b a (fun m => { sig m with stack := rest })) ∧
      (a.arm.stack = [] → (a.g.core.arm (!b)).wait ≠ .join → (a.g.core.arm (!b)).wait ≠ .exited →
        StaysAs .join s a ((withSig s a .join).updArm t g b (fun m => { sig m with wait := .join }))) ∧
      (a.arm.stack = [] → (a.g.core.arm (!b)).wait = .join ∨ (a.g.core.arm (!b)).wait = .exited → NoBarPending a →
        ∃ u, exec .join s = .next u ∧ HasGroup u t g (fun y =>
          let mine := sig (a.arm.signed .join)
          let kept := if (a.g.core.arm (!b)).wait = .exited ∧ b = true then mine else if b = true then a.g.core.arm false else mine
          let merged := if a.g.frozen.isSome then { kept with spc := kept.spc + 4 } else kept.advance a.g.lbase (kept.spc + 4)
          y.core.split = false ∧ y.core.armA.wait = .none ∧ y.core.armA.stack = [] ∧
          y.core.armA.mask = a.g.core.armA.mask ||| a.g.core.armB.mask ∧
          y.core.armA.regs = kept.regs ∧ y.core.armA.full = kept.full ∧ y.core.armA.lpc = kept.lpc ∧
          y.core.armA.sig = kept.sig ∧ y.core.armA.code = kept.code ∧
          y.core.armA.loops = merged.loops ∧ y.core.armA.spare = merged.spare ∧ y.core.armA.spc = merged.spc ∧
          y.core.vregs = a.g.core.vregs ∧ y.core.preds = a.g.core.preds)))

/-- R85, R86 and R95: LEXIT ends the lanes of the current path that its predicate names, TEND every lane of the arm. An arm with
lanes left goes on; an arm with none has ended, and the group with it when it is not split or its other arm has ended too: it
then waits only for GROUP_RETIRE. `out` are the lanes that end. -/
def Obligations.ExitEndsLanesArmsAndGroups : Prop :=
  ∀ (s : State) (t g : Nat) (b : Bool) (a : Ag) (i : Instr) (n : Needs) (out : BitVec 32),
    ((∃ p : PReg, i = .lexit p ∧ n = { src := [], dst := [], preds := [p.toNat] } ∧ out = a.arm.active &&& a.g.core.pget p.toNat) ∨
      (i = .tend ∧ n = { src := [], dst := [], preds := [] } ∧ out = a.arm.mask)) →
    ArmReady s t g b a n →
    let lanes := fun (c : Core) => { c.updArm b (fun m => { m with mask := m.mask &&& ~~~ out }) with live := c.live &&& ~~~ out }
    (a.arm.mask &&& ~~~ out ≠ 0 → CompletesAs i s a ((withSig s a i).updCore t g lanes)) ∧
    (a.arm.mask &&& ~~~ out = 0 → (a.g.core.split = false ∨ (a.g.core.arm (!b)).wait = .exited) →
      StaysAs i s a ((withSig s a i).updGroup t g (fun y =>
        { y with core := (lanes y.core).updArm b (fun m => { m with wait := .exited, mask := 0, stack := [] }), exiting := true }))) ∧
    (a.arm.mask &&& ~~~ out = 0 → a.g.core.split = true → (a.g.core.arm (!b)).wait = .join → NoBarPending a →
      ∃ u, exec i s = .next u ∧ HasGroup u t g (fun y =>
        y.core.split = false ∧ y.core.armA.wait = .none ∧ y.core.armA.mask = (a.g.core.arm (!b)).mask ∧
        y.core.armA.regs = (a.g.core.arm (!b)).regs ∧ y.core.live = a.g.core.live &&& ~~~ out)) ∧
    (a.arm.mask &&& ~~~ out = 0 → a.g.core.split = true → (a.g.core.arm (!b)).wait ≠ .exited → (a.g.core.arm (!b)).wait ≠ .join →
      NoBarPending a → ∃ u, exec i s = .next u ∧ HasGroup u t g (fun y =>
        y.core.split = true ∧ (y.core.arm b).wait = .exited ∧ y.core.arm (!b) = a.g.core.arm (!b) ∧ y.exiting = false))

/-- A lane word that passes Table 4.13, of an operation that writes no scalar register and no predicate, and whose scalar sources are full. -/
def EnqueuesAs (a : Ag) (x : BitVec 96) (i : Instr) : Prop :=
  decodeLane a.t.vregs x = .ok i ∧ ∃ f, laneOf i = some (laneOpc x, f) ∧ f.sd = false ∧ predDest (laneOpc x) = false ∧
    ∀ c ∈ [f.sa, f.sb, f.sc], isS c = true → a.arm.isFull (sOf c) = true

/-- R66: repetition `j` of a lane word: DST, SA, SB and SC stepped by `j` times their step, 0, 1, 2 or 4 for the codes 0 to 3, without wrap,
and the rest of the word as it is; no repetition where a field would exceed 511. -/
def RepetitionsAreStepped : Prop :=
  ∀ (w : BitVec 96) (steps : BitVec 8) (j : Nat),
    let f := fun (lo k : Nat) => (w.extractLsb' lo 9).toNat + j * [0, 1, 2, 4].getD (steps.extractLsb' k 2).toNat 0
    (511 < f 15 6 ∨ 511 < f 24 4 ∨ 511 < f 33 2 ∨ 511 < f 42 0 → stepWord w steps j = none) ∧
    (f 15 6 ≤ 511 → f 24 4 ≤ 511 → f 33 2 ≤ 511 → f 42 0 ≤ 511 → ∃ x, stepWord w steps j = some x ∧
      (x.extractLsb' 15 9).toNat = f 15 6 ∧ (x.extractLsb' 24 9).toNat = f 24 4 ∧ (x.extractLsb' 33 9).toNat = f 33 2 ∧
      (x.extractLsb' 42 9).toNat = f 42 0 ∧ x.extractLsb' 0 15 = w.extractLsb' 0 15 ∧ x.extractLsb' 51 45 = w.extractLsb' 51 45)

/-- R65, Table 4.13: what the enqueue checks answer: ILLEGAL_OPCODE for an OPC that is not assigned, a TYPE, RND or SAT that is reserved, and a
combination of fields that the OPC does not accept; then RESERVED_REGISTER for a register code or a predicate out of place. -/
def LaneWordsAreChecked : Prop :=
  ∀ (v : Nat) (w : BitVec 96), laneOpc w ≠ 0x3FF →
    (laneRow (laneOpc w) = none ∨ laneFields w = none → decodeLane v w = .error .illegal) ∧
    (∀ r f, laneRow (laneOpc w) = some r → laneFields w = some f →
      (r.legal f = false → decodeLane v w = .error .illegal) ∧
      (r.legal f = true → r.regsOk v f = false → decodeLane v w = .error .reserved) ∧
      (r.legal f = true → r.regsOk v f = true → decodeLane v w = .ok (r.make f)))

/-- R65, R66, R67, R81: an LQ of one lane word `w`, with the repeat that is pending: repetition after repetition is checked and enqueued, with
ACTIVE, the arm mask and the broadcast values as they stand, and the repeat is consumed. Where repetition `k` fails its checks, or a field of
it would exceed 511, the LQ faults at the lane word, and the repetitions before it stay enqueued. -/
def RepetitionsAreEnqueued : Prop :=
  ∀ (s : State) (t g : Nat) (b : Bool) (a : Ag) (w : BitVec 96) (is : Nat → Instr) (xs : Nat → BitVec 96) (k : Nat),
    ArmMay s t g b a { src := [], dst := [], preds := [] } → a.arm.lqLeft = 0 → a.arm.lqOwed = false → a.t.laneBase ≠ 0 →
    a.g.queue.length < 16 → a.g.queue.length + k ≤ 16 → s.fetchLane a.w.ctx a.w.core a.arm.lpc = .ok w →
    let n := match a.arm.rep with | some r => r.cnt.toNat + 1 | none => 1
    let word := fun (j : Nat) => match a.arm.rep with | some r => stepWord w r.steps j | none => some w
    k ≤ n → (∀ j, j < k → word j = some (xs j) ∧ EnqueuesAs a (xs j) (is j)) →
    let enqueued := fun (y : Group) => ∃ es, y.queue = a.g.queue ++ es ∧ es.length = k ∧ ∀ j e, es[j]? = some e →
      e.word = xs j ∧ e.instr = is j ∧ e.armB = b ∧ e.active = a.arm.active ∧ e.scope = a.arm.mask ∧ e.both = false ∧
      e.bcA = broadcast a.arm ((xs j).extractLsb' 24 9) ∧ e.bcB = broadcast a.arm ((xs j).extractLsb' 33 9) ∧
      e.bcC = broadcast a.arm ((xs j).extractLsb' 42 9)
    (k = n → ∃ u, exec (.lq 0) s = .next u ∧ HasGroup u t g (fun y =>
      enqueued y ∧ (y.core.arm b).lpc = a.arm.lpc + 12 ∧ (y.core.arm b).rep = none)) ∧
    (∀ c, k < n → (word k = none ∧ c = 0x02 ∨ ∃ x e, word k = some x ∧ decodeLane a.t.vregs x = .error e ∧ c = decErrCode e) →
      ∃ u, exec (.lq 0) s = .next ((u.armFault a { code := c, addr := a.arm.lpc } false).issued a) ∧ HasGroup u t g (fun y =>
        enqueued y ∧ (y.core.arm b).lpc = a.arm.lpc ∧ (y.core.arm b).spc = a.arm.spc ∧ (y.core.arm b).rep = none ∧ (y.core.arm b).lqLeft = 0))

/-- R67, R81: LREP arms a repeat; LJ, which a pending repeat allows, sets LPC to word `w` of the lane program; LQ
enqueues the words from LPC on, which it fetches before it begins: a word that cannot be fetched faults, with nothing enqueued and the repeat
kept, and an LQ without a lane section faults ILLEGAL_OPCODE. The last clause says what one word of it becomes: an entry with ACTIVE,
the arm mask and the broadcast values as they stand (R54), at its place in program order. A full queue holds the LQ (R54). -/
def LaneIssueStartsAndEnqueues : Prop :=
  ∀ (s : State) (t g : Nat) (b : Bool) (a : Ag),
    (∀ (cnt : BitVec 6) (steps : BitVec 8), ArmReady s t g b a { src := [], dst := [], preds := [] } →
      CompletesWith (.lrep cnt steps) s t g b a (fun m => { m with rep := some { cnt, steps } })) ∧
    (∀ w : BitVec 25, ArmMay s t g b a { src := [], dst := [], preds := [] } →
      (a.t.laneBase ≠ 0 → CompletesWith (.lj w) s t g b a (fun m => { m with lpc := a.t.laneBase + 12 * w.zeroExtend 64 })) ∧
      (a.t.laneBase = 0 → FaultsWith (.lj w) s a 0x01)) ∧
    (∀ (n : BitVec 6) (ws : List (BitVec 96)), ArmMay s t g b a { src := [], dst := [], preds := [] } → a.arm.lqLeft = 0 →
      a.arm.lqOwed = false → a.t.laneBase ≠ 0 → a.g.queue.length < 16 →
      (withSig s a (.lq n)).lqFetch a.w.ctx a.w.core (n.toNat + 1) a.arm.lpc = .ok ws →
      ∀ u, State.pumpLq 192 (((withSig s a (.lq n)).lqKeep a.w.ctx a.w.core a.arm.lpc (n.toNat + 1)).updArm t g b
          (fun m => m.lqBegin (n.toNat + 1) ws)) (agSig a (.lq n)) = .done u → CompletesAs (.lq n) s a u) ∧
    (∀ n : BitVec 6, ArmMay s t g b a { src := [], dst := [], preds := [] } → a.arm.lqLeft = 0 → a.t.laneBase ≠ 0 →
      16 ≤ a.g.queue.length → ∃ u, exec (.lq n) s = .next u ∧ u.group? t g = s.group? t g) ∧
    (∀ n : BitVec 6, ArmMay s t g b a { src := [], dst := [], preds := [] } → a.arm.lqLeft = 0 →
      (a.t.laneBase = 0 → FaultsWith (.lq n) s a 0x01) ∧
      (a.t.laneBase ≠ 0 → a.g.queue.length < 16 → ∀ c p, s.lqFetch a.w.ctx a.w.core (n.toNat + 1) a.arm.lpc = .error (c, p) →
        Faults (.lq n) s a { code := c, addr := p } false)) ∧
    (ArmReady s t g b a { src := [], dst := [], preds := [] } → a.arm.lqLeft = 0 → a.t.laneBase ≠ 0 →
      a.g.queue.length < 16 → ∀ (w : BitVec 96) (i : Instr), s.fetchLane a.w.ctx a.w.core a.arm.lpc = .ok w → decodeLane a.t.vregs w = .ok i →
      ∀ (opc : Nat) (f : LaneFields), laneOf i = some (opc, f) → opc = laneOpc w →
      (∀ c ∈ [f.sa, f.sb, f.sc], isS c = true → a.arm.isFull (sOf c) = true) →
      (f.sd = true → opc = 0x143 ∨ opc = 0x144 → a.arm.isFull f.sn = true) → (predDest opc = true → a.g.core.pIsFull f.dst.toNat = true) →
      let e : QEntry := { instr := i, word := w, active := a.arm.active, scope := a.arm.mask, bcA := broadcast a.arm f.sa,
                          bcB := broadcast a.arm f.sb, bcC := broadcast a.arm f.sc, armB := b, po := s.nextId, both := false, marks := false,
                          sdDrop := false, saved := none }
      ∃ u, exec (.lq 0) s = .next u ∧ HasGroup u t g (fun y =>
        y.queue = a.g.queue ++ [{ e with marks := predDest opc && e.mayWrite a.g.core != 0 }] ∧
        (y.core.arm b).lpc = a.arm.lpc + 12 ∧ (y.core.arm b).regs = a.arm.regs ∧
        (∀ r : SReg, (∀ r' : SReg, f.sd = true → opc = 0x143 ∨ opc = 0x144 → r' = f.sn → r ≠ r') →
          (y.core.arm b).isFull r = a.arm.isFull r)))

/-- R65, R66, R67, R81: LREP, LJ and LQ, the stepping of a repeat, the checks of a lane word, and what an LQ enqueues. -/
def Obligations.LaneIssueRepeatsJumpsAndEnqueues : Prop :=
  LaneIssueStartsAndEnqueues ∧ RepetitionsAreStepped ∧ LaneWordsAreChecked ∧ RepetitionsAreEnqueued

/-! ### Scalar memory: R73, R74, R88, R89, R228, R229, R236, R25 -/

/-- Tables 5.2 and 8.2, R24, R32, R36: what the checks of an access of `n` bytes answer, in their order: MISALIGNED; PAGE outside the windows or
without a translation, and PROTECTION for a chunk beyond the allocation; PROTECTION for a store to an RO page, for the package's own peer window
and for a lane atomic through a peer window; VIEW_INTRUSION for a store to the parent storage of a tree that holds the page; HURDLE; and TWIN_QUOTA
for a first store to a granule beyond the view's quota. PAGE also answers a HALO page without a declared region (R234) and an entry that
disagrees with what a tree of the agent has latched (R37), PROTECTION a write to a replica cell (R235) and an engine's write to a CAUSAL page
(R269), and FABRIC_LOST, after the others, a die that is removed (R280) or a peer that cannot be reached (R288). A page that a tree of another
agent's views alone has latched is left to the device (log 12), and no clause speaks of it. -/
def AccessesAreChecked : Prop :=
  ∀ (s : State) (w : Who) (k : AKind) (va : Word) (n : Nat), 0 < n →
    let a := va.toNat
    let answer := s.check w k va n
    let own := 0xFFFFFF0000000000
    let flock := 0xFFFFFE0000000000
    let host := 0xFFFFC00000000000
    let peer := 0xFFF0000000000000
    let lower := a < 2 ^ 55
    let inOwn := own ≤ a ∧ a < own + 0x200000
    let inFlock := flock ≤ a ∧ a < flock + 0x2000000
    let inHost := host ≤ a ∧ a < host + 2 ^ 45
    let inPeer := peer ≤ a ∧ a < peer + 2 ^ 46
    let meetsSpad := fun (t off : Nat) => ∃ h ∈ s.hurdles, h.space = .spad t ∧ h.lo < off + n ∧ off < h.hi
    let meets := ∃ h ∈ s.hurdles, h.core = w.core ∧ h.space = .va w.ctx.num ∧ h.lo < a + n ∧ a < h.hi
    let spad := fun (t : Team) (off : Nat) =>
      (4096 * t.spch ≤ off → answer = .error 0x05) ∧
      (off < 4096 * t.spch → meetsSpad t.id off → answer = .error 0x06) ∧
      (off < 4096 * t.spch → ¬ meetsSpad t.id off → answer = .ok { va := a, loc := .spad t.id off, pte := 0, size := n })
    (a % n ≠ 0 → answer = .error 0x03) ∧
    (a % n = 0 → ¬ lower → ¬ inOwn → ¬ inFlock → ¬ inHost → ¬ inPeer → answer = .error 0x04) ∧
    (a % n = 0 → ∀ t, w.team = some t →
      (inOwn → spad t (a - own)) ∧
      (inFlock → let j := (a - flock) / 0x200000
        (t.flockPos = none ∨ (∀ u ∈ s.teams, u.set = t.set → u.childIdx = t.childIdx → u.run = t.run → u.flockPos ≠ some j) → answer = .error 0x05) ∧
        (∀ u, s.flockMate t j = some u → spad u ((a - flock) % 0x200000)))) ∧
    (a % n = 0 → lower ∨ inHost ∨ inPeer →
      (s.pteOf w (decide (2 ^ 55 ≤ a)) a = none → answer = .error 0x04) ∧
      ∀ e, s.pteOf w (decide (2 ^ 55 ≤ a)) a = some e →
        let ga := w.ctx.ga (leafPa e a)
        let target := fun (l : Loc) => answer = .ok { va := a, loc := l, pte := e, size := n }
        let valid := (pteHalo e = true → lower ∧ s.haloPage (w.ctx.ga (ptePA e)) (pageBytes (pteSize e)) = true) ∧
          (lower → s.latchClash w (ga / 0x10000) e = false)
        let readOnly := pteRO e = true ∨ (w.engine = true ∧ pteCausal e = true)
        (¬ valid → answer = .error 0x04) ∧
        (valid → k ≠ .load → readOnly → answer = .error 0x05) ∧
        (valid → (k = .load ∨ ¬ readOnly) →
          (inHost → (meets → answer = .error 0x06) ∧ (¬ meets → target (.host (leafPa e a)))) ∧
          (inPeer → let p := (a - peer) / 2 ^ 40
            (p = s.peerNumber ∨ k = .vatomic → answer = .error 0x05) ∧
            (p ≠ s.peerNumber → k ≠ .vatomic → (meets → answer = .error 0x06) ∧
              (¬ meets → k ≠ .store → s.peerDown p = true → answer = .error 0x18) ∧
              (¬ meets → (k = .store ∨ s.peerDown p = false) → target (.peer p (leafPa e a))))) ∧
          (lower →
            let replica := ∃ i, i < n ∧ ∃ r t o, s.haloCell (ga + i) = some (r, t, o) ∧ (r.sourceOf t o).isSome = true
            let parent := ∃ x ∈ s.sets, x.opened = true ∧ x.holds (ga / 0x10000) = true ∧
              (if pteViewed e = true ∧ w.view.isSome = true then x.kind = .nestedFork ∧ x.parentView = w.view else x.kind ≠ .nestedFork)
            let apart := ∀ x ∈ s.sets, x.opened = true → (x.heldPage (ga / 0x10000)).isSome = true →
              pteViewed e = true ∧ x ∈ s.treesOf (s.viewChain treeFuel w.view) ∧ ¬ (x.kind = .nestedFork ∧ x.parentView = w.view)
            let mayStore := k = .load ∨ (¬ replica ∧ apart)
            let inQuota := k = .load ∨ pteViewed e = false ∨
              (∀ v x, w.view = some v → s.view? v = some x → ga / 128 * 128 ∈ s.dirtyIn x ∨ (s.dirtyIn x).length < x.quota)
            (k ≠ .load → replica → answer = .error 0x05) ∧
            (k ≠ .load → ¬ replica → parent → answer = .error 0x0A) ∧
            (mayStore → meets → answer = .error 0x06) ∧
            (mayStore → ¬ meets → ¬ inQuota → answer = .error 0x09) ∧
            (mayStore → ¬ meets → inQuota → s.homeDie ga ∈ s.removedDies → answer = .error 0x18) ∧
            (mayStore → ¬ meets → inQuota → s.homeDie ga ∉ s.removedDies → target (.dev ga)))))

/-- The outstanding access of one item that a scalar instruction of an arm leaves. `d`: its register; s0 takes no value. -/
def scalarPending (a : Ag) (id : Nat) (d : SReg) (rmw acq : Bool) (scope : Nat) (x : PItem) : Pending :=
  { after := a.arm.fencePo, id, po := id, team := a.t.id, grp := a.g.grpidx, armB := a.b, dest := if d = 0 then .none else .s d, hint := 0, items := [x],
    rmw, acq, scope, both := false, saved := none }

/-- A scalar load or ACQ at an address. No acquire and no AMAXRST of the arm that stands before it is still waited for, and a causal one
has nothing of its arm to follow (R270). No other access of its arm holds its issue; its value is read later, at its home by a packet of
the fabric where it is a causal location of another die (R271). -/
def LoadIssues (i : Instr) (n : Needs) (d : SReg) (ea : Ag → Word) (size scope : Nat) : Prop :=
  ∀ (s : State) (t g : Nat) (b : Bool) (a : Ag), ArmReady s t g b a n →
    let s1 := withSig s a i
    let a1 := agSig a i
    let acq := decide (scope ≤ 5)
    (∀ c, s1.check a1.w .load (ea a) size = .error c → Faults i s a { code := c, addr := ea a } false) ∧
    (∀ tg : Target, s1.check a1.w .load (ea a) size = .ok tg →
      a1.g.amaxQueued b s1.nextId = false → s1.acqWaits a1.key s1.nextId = false → s1.causalHold a1 s1.nextId tg false = none →
      let s2 := s1.touch a1.w tg
      let p := fun (remote : Bool) => scalarPending a s1.nextId d false acq scope { lane := 0, t := tg, val := none, remote }
      (s2.remoteCausal a1 tg = false → CompletesAs i s a ((s2.addPending (p false)).updArm t g b (fun m => m.empty d))) ∧
      (s2.remoteCausal a1 tg = true → CompletesAs i s a
        ((((s2.guess a1 s1.nextId tg true true []).send a1.die (s2.homeDie tg.ga) (.load s1.nextId tg a1.w.core)).addPending (p true)).updArm t g b (fun m => m.empty d))))

/-- R73, R25, R89: a scalar load and ACQ check their address, leave sd empty and an access outstanding, and complete; a failed
check faults with its code and the address, and nothing changes. The value arrives by MEMORY_RESPONSE. -/
def ScalarLoadsIssue : Prop :=
  ∀ (d r : SReg) (imm : BitVec 13) (sc : Scope) (sz : Size),
    let ea := fun (a : Ag) => a.arm.get r + imm.signExtend 64
    let n : Needs := { src := [r], dst := [d], preds := [] }
    LoadIssues (.ldb d r imm) n d ea 1 6 ∧ LoadIssues (.ldh d r imm) n d ea 2 6 ∧
    LoadIssues (.ldw d r imm) n d ea 4 6 ∧ LoadIssues (.ldd d r imm) n d ea 8 6 ∧
    LoadIssues (.acq d r sc sz) n d (fun a => a.arm.get r) sz.bytes sc.code

/-- A scalar store at an address. One that is a release of system scope learns of a lost peer store (R288). Else, with nothing that it
must follow at issue, it is issued: it is performed now or later, by the free value of log 50 (R46). A store that is neither causal nor to a
peer window has nothing of its arm to follow, and only the first store of a tree to a page waits for earlier writes of others to the page (R36,
log 104). -/
def StoreIssues (i : Instr) (n : Needs) (ea : Ag → Word) (v : Ag → Nat) (size : Nat) : Prop :=
  ∀ (s : State) (t g : Nat) (b : Bool) (a : Ag), ArmReady s t g b a n →
    let s1 := withSig s a i
    let a1 := agSig a i
    (∀ c, s1.check a1.w .store (ea a) size = .error c → Faults i s a { code := c, addr := ea a } false) ∧
    (∀ (tg : Target) (s2 : State), s1.check a1.w .store (ea a) size = .ok tg →
      (a1.lostPeer false = true → Faults i s a { code := 0x18, addr := ea a } false) ∧
      (a1.lostPeer false = false → s1.relHold a1 s1.nextId tg false false = false →
        (if tg.causal = true ∨ tg.isPeer = true then s1.writeReady a1 tg size = .ok s2 else s1.viewWait a1.w tg = false ∧ s2 = s1) →
        s2.gone a1 = false →
        let x := s2.doStore a1 s2.nextId tg [(tg.loc.addr, leBytes size (v a))] 0 false a1.arm.relSys
        x.poison = false → x.s.gone a1 = false → CompletesAs i s a x.s))

/-- R73: a scalar store checks its address and issues a write of the low bytes of its register. Whether the write is performed as it issues
or later is left open, and the model's free value of log 50 decides it. -/
def ScalarStoresIssue : Prop :=
  ∀ (v r : SReg) (imm : BitVec 13),
    let ea := fun (a : Ag) => a.arm.get r + imm.signExtend 64
    let n : Needs := { src := [v, r], dst := [], preds := [] }
    let x := fun (a : Ag) => (a.arm.get v).toNat
    StoreIssues (.stb v r imm) n ea x 1 ∧ StoreIssues (.sth v r imm) n ea x 2 ∧ StoreIssues (.stw v r imm) n ea x 4 ∧
    StoreIssues (.std v r imm) n ea x 8

/-- R3, R73: a write that is performed at a checked target writes its bytes, lowest first, and no other byte of any memory: to the
scratchpad, to host memory, or to device memory that no view intercepts. While a team's chunks lie in its save area, a write to its
scratchpad lands there too: the model's choice (log 71). A store of an arm that is no ordered traffic is kept until it is performed, or
performed as it issues, which is the model's free choice (log 50): when its line is not the host's and nothing of its arm must go before
it. -/
def StoresWriteTheirBytesAndNoOthers : Prop :=
  ∀ (s : State) (h : HeldWrite) (bs : List Byte), h.runs = [(h.t.loc.addr, bs)] →
    let u := (s.putWrite h).s
    (∀ tm off, h.t.loc = .spad tm off →
      (s.putWrite h).poison = false ∧ ∀ x, s.team? tm = some x →
        (x.imaged = false → x.stored = false → u = s.updTeam tm (fun y => { y with spad := y.spad.store off bs })) ∧
        (∀ c, x.imaged = true ∨ x.stored = true → s.ctx? x.ctx = some c →
          u = { s.updTeam tm (fun y => { y with spad := y.spad.store off bs }) with
                mem := s.mem.store (c.teamArea x.saveArea + 0x10000 + off) bs })) ∧
    (∀ pa, h.t.loc = .host pa → (s.putWrite h).poison = false ∧ u.hostMem = s.hostMem.store pa bs ∧ u.mem = s.mem ∧
      u.peerMem = s.peerMem ∧ u.teams = s.teams) ∧
    (∀ ga, h.t.loc = .dev ga → (pteViewed h.t.pte = false ∨ h.view = none) → s.partialPoison ga bs.length = false →
      (s.putWrite h).poison = false ∧ u.mem = s.mem.store ga bs ∧ u.hostMem = s.hostMem ∧ u.peerMem = s.peerMem ∧ u.teams = s.teams) ∧
    (s.issueKept h true).s = s.keepWrite h ∧
    (∀ (k : Nat × Nat × Bool) (v : State), h.owner = some k → s.hostHas h = false → s.mustFollow k h = false → s.relFollows k h = false →
      s.bindBefore k h.po (fun t => h.meets t.loc t.size) = some v → v.alive k = true → (v.putWrite h).poison = false →
      s.issueKept h false = { poison := false, s := (v.putWrite h).s.guessWrite k h } ∧
      (s.heldWrites.find? (fun x => x.id == h.id) = some h → (∀ c, h.core = some c → s.dieStopped (c / 32) = false) →
        s.performStore h.id =
          { (v.putWrite h).s.guessWrite k h with
            heldWrites := ((v.putWrite h).s.guessWrite k h).heldWrites.filter (fun x => x.id != h.id) }))

/-- R253, R254, R257: a write of an agent in a view to a viewed page goes to the view's dirty copy of its granule, and to no memory. The copy
starts as the parent view's contents, or as zeros on a page with ZTWIN = 1; where no sibling has stored to the granule a twin with the
parent view's contents is taken first, but none with ZTWIN = 1. Nothing of another view changes. A store that its check lets pass makes no
granule more dirty than the view's quota allows. -/
def ViewStoresGoToTheDirtyCopy : Prop :=
  (∀ (s : State) (h : HeldWrite) (ga v : Nat) (bs : List Byte) (x : View), h.runs = [(ga, bs)] → h.t.loc = .dev ga → pteViewed h.t.pte = true →
    h.view = some v → s.view? v = some x → (s.putWrite h).poison = false →
    let u := (s.putWrite h).s
    let g := ga / 128 * 128
    let parent := s.seen (s.viewChain treeFuel (some v)).tail g
    let start := if pteZtwin h.t.pte then zeroLine else parent
    u.mem = s.mem ∧ u.hostMem = s.hostMem ∧ u.peerMem = s.peerMem ∧ u.teams = s.teams ∧
    (∃ y d, u.view? v = some y ∧ y.granule? g = some d ∧ y.quota = x.quota ∧
      d.data = lineStore (match x.granule? g with | some c => c.data | none => start) (ga % 128) bs ∧
      (∀ k, k ≠ g → y.granule? k = x.granule? k)) ∧
    (∀ w, w ≠ v → u.view? w = s.view? w) ∧
    (∀ z, s.set? x.set = some z → ∃ y, u.set? x.set = some y ∧
      (pteZtwin h.t.pte = true ∨ z.twins.any (fun c => c.ga == g) = true → y.twins = z.twins) ∧
      (pteZtwin h.t.pte = false → z.twins.any (fun c => c.ga == g) = false →
        ∃ c, y.twins = c :: z.twins ∧ c.ga = g ∧ c.data = parent))) ∧
  (∀ (s : State) (w : Who) (va : Word) (size v ga : Nat) (x : View) (tg : Target), s.check w .store va size = .ok tg → tg.loc = .dev ga →
    pteViewed tg.pte = true → w.view = some v → s.view? v = some x →
    ga / 128 * 128 ∈ s.dirtyIn x ∨ (s.dirtyIn x).length < x.quota)

/-- What a little-endian store makes memory read as, byte by byte (R3); every other address reads as before. -/
def ReadAfterStore : Prop :=
  ∀ (m : Memory) (a n v : Nat), m.wf = true →
    (∀ k, k < n → cellRead (m.storeLE a n v) (a + k) = BitVec.ofNat 8 (v / 2 ^ (8 * k))) ∧
    (∀ x, x < a ∨ a + n ≤ x → cellRead (m.storeLE a n v) x = cellRead m x) ∧
    (m.storeLE a n v).le a n = v % 2 ^ (8 * n)

/-- An AMOS at the address in its register, with nothing of its arm that it must follow at issue. It is performed later, at its home: as an
ordered packet for a causal location of another die (R269). -/
def AmosIssues (i : Instr) (n : Needs) (d r y : SReg) (dbl : Bool) (op : RmwOp) (sgn : Bool) : Prop :=
  ∀ (s : State) (t g : Nat) (b : Bool) (a : Ag), ArmReady s t g b a n →
    let s1 := withSig s a i
    let a1 := agSig a i
    let size := if dbl then 8 else 4
    let ea := a.arm.get r
    (∀ c, s1.check a1.w .atomic ea size = .error c → Faults i s a { code := c, addr := ea } false) ∧
    (∀ (tg : Target) (s2 : State), s1.check a1.w .atomic ea size = .ok tg →
      (a1.lostPeer false = true → Faults i s a { code := 0x18, addr := ea } false) ∧
      (a1.lostPeer false = false → s1.relHold a1 s1.nextId tg false false = false →
        a1.g.amaxQueued b s1.nextId = false → s1.acqWaits a1.key s1.nextId = false →
        (if tg.causal = true ∨ tg.isPeer = true then s1.writeReady a1 tg size = .ok s2 else s1.viewWait a1.w tg = false ∧ s2 = s1) →
        s2.gone a1 = false →
        let u := a1.rmw op sgn .rne (a.arm.get y).toNat (a.arm.get d).toNat false
        let p := fun (remote : Bool) =>
          scalarPending a s2.nextId d true false 6 { lane := 0, t := tg, val := none, remote, upd := some u }
        let s3 := (s2.bump.touch a1.w tg).holdPage a1.w tg
        let add := fun (v : State) (q : Pending) => ({ v with pending := v.pending ++ [q] } : State).updArm t g b (fun m => m.empty d)
        (s3.remoteCausal a1 tg = false → CompletesAs i s a (add (s3.askHost a1 tg) (p false))) ∧
        (s3.remoteCausal a1 tg = true →
          let s4 := (s3.guess a1 s2.nextId tg true true []).orW a1.w.core (bucketBit tg.ga)
          CompletesAs i s a (add
            (s4.send a1.die (s4.homeDie tg.ga) (.rmw s2.nextId tg ((s4.relW a1 tg true).getD 0) a1.w.core true)) (p true)))))

/-- R74, Table 5.3: each AMOS is issued as one outstanding access, and leaves sd empty for the old value. At a causal location of another
die it is injected as an ordered packet (R269). -/
def ScalarAtomicsIssue : Prop :=
  ∀ (d r y : SReg) (dbl : Bool),
    let n : Needs := { src := [r, y], dst := [d], preds := [] }
    AmosIssues (.amosSwap d r y dbl) n d r y dbl .swap false ∧ AmosIssues (.amosAdd d r y dbl) n d r y dbl .add false ∧
    AmosIssues (.amosAnd d r y dbl) n d r y dbl .and false ∧ AmosIssues (.amosOr d r y dbl) n d r y dbl .or false ∧
    AmosIssues (.amosXor d r y dbl) n d r y dbl .xor false ∧ AmosIssues (.amosMin d r y dbl) n d r y dbl .min true ∧
    AmosIssues (.amosMax d r y dbl) n d r y dbl .max true ∧ AmosIssues (.amosMinn d r y dbl) n d r y dbl .min false ∧
    AmosIssues (.amosMaxn d r y dbl) n d r y dbl .max false ∧
    AmosIssues (.amosCas d r y dbl) { src := [d, r, y], dst := [d], preds := [] } d r y dbl .cas false

/-- R74, R144: an atomic that is performed reads its location's old value and writes its new value in one step, lowest byte first: in a
scratchpad of a team that is not in its image, or at a place of device memory that no view intercepts, where it meets no poison. No
other byte of memory changes. When it is performed, which is at its own read and not as it issues, is the model's choice (log 56). -/
def AnAtomicIsOneEvent : Prop :=
  ∀ (s : State) (a : Ag) (p : Pending) (i : PItem) (u : Rmw), i.remote = false → i.val = none → i.upd = some u →
    (∀ tm off x, i.t.loc = .spad tm off → s.team? tm = some x → x.imaged = false → x.stored = false → u.acqRel = false →
      let old := leNat (x.spad.bytes off i.t.size)
      s.bindItem a p i = ({ i with val := some old },
        (s.noteSig a.t.id a.g.grpidx a.b a.both 0).updTeam tm (fun y => { y with spad := y.spad.store off (leBytes i.t.size (u.new i.t.size old)) }),
        false)) ∧
    (∀ ga, i.t.loc = .dev ga → (pteViewed i.t.pte = false ∨ a.w.view = none) →
      let old := leNat (s.mem.bytes ga i.t.size)
      let r := s.bindItem a p i
      r.2.2 = false → r.1 = { i with val := some old } ∧ r.2.1.mem = s.mem.store ga (leBytes i.t.size (u.new i.t.size old)) ∧
        r.2.1.hostMem = s.hostMem ∧ r.2.1.peerMem = s.peerMem)

/-- R74, Table 5.3 and Table 8.3, the integer operations: the new value of a location of `w` bits, from its old value, the
operand and, for CAS, the expected value. -/
def AtomicNewValues : Prop :=
  ∀ (w : Nat) (x y e : BitVec w) (rnd : Rnd),
    let new := fun (op : RmwOp) (sgn : Bool) => BitVec.ofNat w (rmwNew op sgn rnd w x.toNat y.toNat e.toNat)
    (∀ sgn, new .swap sgn = y ∧ new .add sgn = x + y ∧ new .and sgn = x &&& y ∧ new .or sgn = x ||| y ∧ new .xor sgn = x ^^^ y ∧
      new .cas sgn = (if x = e then y else x) ∧ new .amaxrst sgn = 0) ∧
    (0 < w → new .min true = (if x.toInt < y.toInt then x else y) ∧ new .max true = (if x.toInt < y.toInt then y else x)) ∧
    new .min false = (if x.toNat < y.toNat then x else y) ∧ new .max false = (if x.toNat < y.toNat then y else x)

/-- R88, R89, R228, R229, R236: FENCE, REL and REL.halo. An arm of which every earlier memory event is performed completes each. A fence of
device or system scope waits for them; it applies the signatures of the arm's loads and makes later stores releases, of system scope after
FENCE.sys (R43). A narrower one waits for the arm's loads, and what the arm issues later follows the stores before it (R21): that they may
still be performed after the fence has completed is the model's choice (log 103). From flock scope on, the arm's later releases stand for the
writes of its whole die: the model's choice (log 96). REL issues its store as a release of its scope, with the same waits, performed at once
or later by the free value of log 50; one of a wide scope follows remote causal stores too, and one of system scope the answers of the peers
(R237, R292), or learns that one is lost (R288). REL.halo is not held: it leaves its flag to HALO_PUSH, and faults PROTECTION where the flag
is not in the storage of the tile that the team owns. -/
def FencesAndReleasesComplete : Prop :=
  ∀ (s : State) (t g : Nat) (b : Bool) (a : Ag),
    (∀ sc : Scope, ArmReady s t g b a { src := [], dst := [], preds := [] } →
      let s1 := withSig s a (.fence sc)
      let a1 := agSig a (.fence sc)
      let wide := sc = .dev ∨ sc = .sys
      let done := fun (u : State) (m : BitVec 64) =>
        let v := u.acquireW a.w.core sc.code
        if wide then
          ((v.invalidateOut (a.w.core / 32) m (sc == .sys)).orW a.w.core m).updArm t g b (fun y =>
            { y with fenceSig := 0, relFence := true, relSys := y.relSys || sc == .sys })
        else v.updArm t g b (fun y => { y with fencePo := v.nextId })
      (ArmQuiet s a → CompletesAs (.fence sc) s a (done s1 a.arm.fenceSig)) ∧
      ∀ (s2 : State) (y : Group), s2.group? t g = some y →
        (if wide then s1.quietArm a1 false false else s1.loadsQuiet a1) = .ok s2 →
        CompletesAs (.fence sc) s a (done s2 (y.core.arm b).fenceSig)) ∧
    (∀ (v r : SReg) (sc : Scope) (sz : Size), ArmReady s t g b a { src := [v, r], dst := [], preds := [] } →
      let s1 := withSig s a (.rel v r sc sz)
      let a1 := agSig a (.rel v r sc sz)
      let ea := a.arm.get r
      let wide := sc == .dev || sc == .sys
      let sys := sc == .sys || a.arm.relSys
      let store := fun (u : State) (tg : Target) =>
        u.doStore a1 u.nextId tg [(tg.loc.addr, leBytes sz.bytes (a.arm.get v).toNat)] 0 wide sys u.nextId
      (∀ c, s1.check a1.w .store ea sz.bytes = .error c → Faults (.rel v r sc sz) s a { code := c, addr := ea } false) ∧
      ∀ tg : Target, s1.check a1.w .store ea sz.bytes = .ok tg →
        (sys = true → a.g.peerLost = true → Faults (.rel v r sc sz) s a { code := 0x18, addr := ea } false) ∧
        ((sys = true → a.g.peerLost = false) → ArmQuiet s a → tg.causal = false → tg.isPeer = false →
          (a.w.view = none ∨ pteViewed tg.pte = false) → s.poison = [] →
          CompletesAs (.rel v r sc sz) s a (store s1 tg).s) ∧
        (∀ s2 s3 : State, (sys = true → a.g.peerLost = false) →
          (if wide = true ∨ a.arm.relFence = true then s1.quietArm a1 true sys else s1.loadsQuiet a1) = .ok s2 →
          s2.writeReady a1 tg sz.bytes = .ok s3 → s3.gone a1 = false → (store s3 tg).poison = false →
          CompletesAs (.rel v r sc sz) s a (store s3 tg).s)) ∧
    (∀ (v r : SReg) (sz : Size), ArmReady s t g b a { src := [v, r], dst := [], preds := [] } →
      let s1 := withSig s a (.relHalo v r sz)
      let a1 := agSig a (.relHalo v r sz)
      let ea := a.arm.get r
      (∀ c, s1.check a1.w .store ea sz.bytes = .error c → Faults (.relHalo v r sz) s a { code := c, addr := ea } false) ∧
      ∀ tg : Target, s1.check a1.w .store ea sz.bytes = .ok tg →
        ((∀ ga, tg.loc = .dev ga → ∀ reg tile o, s1.haloCell ga = some (reg, tile, o) → a.t.teamIdx ≠ reg.ownBase + tile) →
          Faults (.relHalo v r sz) s a { code := 0x05, addr := ea } false) ∧
        (∀ (ga tile o k : Nat) (reg : Region), tg.loc = .dev ga → s1.haloCell ga = some (reg, tile, o) →
          a.t.teamIdx = reg.ownBase + tile →
          (a.arm.relSys = true → a.g.peerLost = true → Faults (.relHalo v r sz) s a { code := 0x18, addr := ea } false) ∧
          ((a.arm.relSys = true → a.g.peerLost = false) →
          (List.range s1.regions.length).find? (fun i => match s1.regions[i]? with | some x => x == reg | none => false) = some k →
          CompletesAs (.relHalo v r sz) s a
            { (s1.touch a1.w tg).bump with haloRels := s1.haloRels ++
                [{ id := s1.nextId, po := s1.nextId, team := t, grp := g, armB := b, both := false, core := a.w.core, region := k, tile,
                   sys := a.arm.relSys, flag := tg, value := (a.arm.get v).toNat, w := (s1.relW a1 tg true).getD 0 }] })))

/-- R25, R170: MEMORY_RESPONSE of an access whose values are all there fills its destination, sets it full, and the access is no
longer outstanding; one whose values are still in memory is read first, after the older accesses it depends on. At a die that is stopped for
a frequency change no response arrives: nothing changes (R17). -/
def MemoryResponseFillsTheDestination : Prop :=
  ∀ (s : State) (id : Nat) (p : Pending), s.pending.find? (fun q => q.id == id) = some p →
    (∀ tm, s.team? p.team = some tm → s.dieStopped (tm.coreNum / 32) = true → exec (.memoryResponse id) s = .next s) ∧
    ((∀ tm, s.team? p.team = some tm → s.dieStopped (tm.coreNum / 32) = false) →
    (p.unbound = false → p.done = true → exec (.memoryResponse id) s = .next (s.fillPending p)) ∧
    (p.unbound = true → ∀ (u : State) (q : Pending), s.bind p = some u → u.pending.find? (fun q => q.id == id) = some q → q.done = true →
      exec (.memoryResponse id) s = .next (u.fillPending q)) ∧
    (∀ (r : SReg) (x : PItem) (v : Nat) (tm : Team) (y : Group), p.unbound = false → p.items = [x] → x.val = some v → p.dest = .s r →
      p.saved = none → p.both = false → s.team? p.team = some tm → s.group? p.team p.grp = some y → s.landsIn tm = none →
      exec (.memoryResponse id) s =
        .next { s.updArm p.team p.grp p.armB (fun m => m.put r (BitVec.ofNat 64 v)) with pending := s.pending.filter (fun q => q.id != p.id) }))

/-- R236: HALO_PUSH of a REL.halo, with every earlier memory event of its arm performed, the loads among them read first, pushes the
tile's cells to its neighbours and then stores the flag as a release, or keeps it for a line that the host holds (R238). With none before
it, no poison in memory and no line with the host it pushes and stores at once. -/
def HaloPushThenFlag : Prop :=
  ∀ (s : State) (id : Nat) (h : HaloRel) (r : Region) (tm : Team) (c : Context),
    s.haloRels.find? (fun x => x.id == id) = some h →
    s.regions[h.region]? = some r → s.team? h.team = some tm → s.ctx? tm.ctx = some c → s.ctxStopped c = false →
    s.dieStopped (h.core / 32) = false →
    let key := (h.team, h.grp, h.armB)
    let x := fun (v : State) => ({ v with haloRels := v.haloRels.filter (fun x => x.id != h.id) } : State).push r h.tile
    let w : HeldWrite :=
      { id := 0, po := h.po, owner := some key, both := false, t := h.flag,
        runs := [(h.flag.loc.addr, leBytes h.flag.size h.value)], ctx := some c.num, view := none, rel := some h.w, wide := false, sys := false,
        mask := 0, core := some h.core }
    s.writesBefore key h.po true h.sys = false → s.queuedBefore h = false →
    ((∀ p ∈ s.pending, p.ofArm key = true → h.po ≤ p.po) → s.poison = [] → s.hostHeld = [] →
      exec (.haloPush id) s = .next ((x s).s.putWrite w).s) ∧
    (s.pending.any (fun p => p.ofArm key && p.waits && decide (p.po < h.po)) = false →
      ∀ v, s.bindWhere key (fun p => decide (p.po < h.po)) = some v → v.alive key = true → (x v).poison = false →
      ((x v).s.hostHas w = true → exec (.haloPush id) s = .next ((x v).s.keepWrite { w with both := h.both })) ∧
      ((x v).s.hostHas w = false → ((x v).s.putWrite w).poison = false → exec (.haloPush id) s = .next ((x v).s.putWrite w).s))

/-! ### Barriers: R87 -/

/-- R87, Table 5.7: BAR.ARRIVE and BAR.SYNC with a word that names their group and agrees with the open phase, every earlier
memory event of the arm performed: the group arrives when this is its last live arm, and else its arm is pending. ARRIVE
completes with sd = 0; SYNC waits with sd empty. One that the arm executes again before the phase completes is held, and changes nothing of
its group. WAIT waits while the group has arrived, and completes with sd = 0 otherwise; that its word is not compared with the open phase's
is the model's choice (log 66). A group whose barrier was abandoned completes with sd = 0x0F and CODE = 0x0F: that it does so whatever its word,
and that an ARRIVE or SYNC which does so is no arrival, is the model's choice (log 98). A word with a reserved bit
set faults ILLEGAL_OPCODE in all three, and one that does not name the group, or disagrees, in ARRIVE and SYNC. -/
def BarArrivesWaitsOrFaults : Prop :=
  ∀ (s : State) (t g : Nat) (b : Bool) (a : Ag) (d r : SReg) (n : BitVec 4) (i : Instr) (op : Nat),
    (i, op) ∈ [(Instr.barArrive d r n, 0), (.barWait d r n, 1), (.barSync d r n, 2)] →
    ArmReady s t g b a { src := [r], dst := [d], preds := [] } →
    let s1 := withSig s a i
    let a1 := agSig a i
    let w := a.arm.get r
    let bar := a.t.bar n.toNat
    let abandoned := if b then a.g.abandonedB else a.g.abandoned
    let here := bar.arrived.getLsbD g || (bar.pend.getLsbD g && bar.pendB.getLsbD g == b)
    let clear := w &&& 0x00000000FFFEFFFF = 0
    let named := clear ∧ w.getLsbD (32 + g) = true
    let last := a.g.core.split = false ∨ (a.g.core.arm (!b)).wait = .exited ∨ bar.pend.getLsbD g = true
    let agrees := bar.pword = none ∨ bar.pword = some w
    let waits := fun (u : State) => u.updArm t g b (fun m => { m.empty d with wait := .bar n.toNat d })
    (abandoned = true → CompletesAs i s a ((s1.updGroup t g (fun y => if b then { y with abandonedB := false } else { y with abandoned := false })).updArm
      t g b (fun m => { m with code := 0x0F }.put d 0x0F))) ∧
    (abandoned = false → op = 1 → ¬ clear → FaultsWith i s a 0x01) ∧
    (abandoned = false → op = 1 → clear → here = true → StaysAs i s a (waits s1)) ∧
    (abandoned = false → op = 1 → clear → here = false → CompletesWith i s t g b a (fun m => m.put d 0)) ∧
    (abandoned = false → op ≠ 1 → here = true → ∃ u, exec i s = .next u ∧ u.group? t g = s.group? t g ∧ u.mem = s.mem) ∧
    (abandoned = false → op ≠ 1 → here = false → ¬ named → FaultsWith i s a 0x01) ∧
    (abandoned = false → op ≠ 1 → here = false → named → last → ¬ agrees → FaultsWith i s a 0x01) ∧
    (abandoned = false → op ≠ 1 → here = false → named → last → agrees → ∀ s2, s1.quietArm a1 false false = .ok s2 →
      (op = 0 → CompletesAs i s a ((s2.arrive t g n.toNat w).updArm t g b (fun m => m.put d 0))) ∧
      (op = 2 → StaysAs i s a (waits (s2.arrive t g n.toNat w)))) ∧
    (abandoned = false → op ≠ 1 → here = false → named → ¬ last → ∀ s2, s1.quietArm a1 false false = .ok s2 →
      let mine := 1#32 <<< g
      let u := s2.updBar t n.toNat (fun x =>
        { x with pend := x.pend ||| mine, pendB := if b then x.pendB ||| mine else x.pendB &&& ~~~ mine, pendW := (g, w) :: x.pendW })
      (op = 0 → CompletesAs i s a (u.updArm t g b (fun m => m.put d 0))) ∧ (op = 2 → StaysAs i s a (waits u)))

/-- R87: an arrival sets the group's bit, latches the first word, and records the phase's parity for the group; nothing else
changes where the sequencer has not arrived at a phase that leaves it out (R211). -/
def ArrivalIsRecorded : Prop :=
  ∀ (s : State) (t g n : Nat) (w : Word) (tm : Team), s.team? t = some tm →
    ((tm.bar n).pword.isSome = true ∨ (tm.bar n).seqArrived = false ∨ w.getLsbD 16 = true) →
    s.arrive t g n w = s.updBar t n (fun b =>
      { b with pword := some (b.pword.getD w), arrived := b.arrived ||| 1#32 <<< g,
               lastPh := if b.parity then b.lastPh ||| 1#32 <<< g else b.lastPh &&& ~~~ (1#32 <<< g),
               pend := b.pend &&& ~~~ (1#32 <<< g), pendB := b.pendB &&& ~~~ (1#32 <<< g),
               pendW := b.pendW.filter (fun p => p.1 != g) })

/-- R87: a phase completes when every participant group has arrived or retired, and the sequencer, when named, has arrived or
does not run. Then every arm that waits there completes its BAR with sd = 0, the parity changes and the barrier is open for its
next phase. With a lane fault of the group that waits, loop-end processing of the BAR is left to RESUME (R110). -/
def BarrierPhaseCompletes : Prop :=
  ∀ (s : State) (t n : Nat) (tm : Team) (w : Word), s.team? t = some tm → s.teamLive tm = true → (tm.bar n).pword = some w →
    (∀ k, k < 32 → w.getLsbD (32 + k) = true → (tm.bar n).arrived.getLsbD k = true ∨ (∀ y, tm.group? k = some y → y.retired = true)) →
    (w.getLsbD 16 = true → (tm.bar n).seqArrived = true ∨ tm.seq.run ≠ 0) →
    ∃ u v, exec (.barrierPhaseComplete t n) s = .next u ∧ u.team? t = some v ∧
      v.bar n = { tm.bar n with pword := none, arrived := 0, seqArrived := false, parity := !(tm.bar n).parity } ∧
      (∀ g y, tm.group? g = some y → (tm.bar n).arrived.getLsbD g = true → y.retired = false →
        ∃ z, v.group? g = some z ∧ ∀ b d, (y.core.arm b).wait = .bar n d → (tm.bar n).armPending g b = false →
          let m := { y.core.arm b with wait := .none }.put d 0
          let pc := (y.core.arm b).spc + 4
          z.core.arm b = if y.frozen.isSome ∧ y.core.split = false then { m with spc := pc } else m.advance y.lbase pc) ∧
      (∀ g y, tm.group? g = some y → (tm.bar n).arrived.getLsbD g = false → v.group? g = some y) ∧
      u.mem = s.mem ∧ u.contexts = s.contexts

/-! ### Effects: R96 to R115 -/

/-- R100: HANDLE pushes a frame with the handler's address, the loop depth and s48 to s55 as its environment; a multi-shot frame
takes a free slot. The rest of the frame's record stays as it stood (R99). A split group faults EFFECT_TOKEN, an ID that is 0 or above 16
bits PROTECTION, a full stack or no free slot HANDLER_DEPTH. -/
def HandlePushesAFrame : Prop :=
  ∀ (s : State) (t g : Nat) (b : Bool) (a : Ag) (e : SReg) (k inh : Bool) (lit : BitVec 32),
    ArmReady s t g b a { src := [e, 48, 49, 50, 51, 52, 53, 54, 55], dst := [], preds := [] } →
    let i : Instr := .handle e k inh lit
    let id := a.arm.get e
    let badId := id.toNat = 0 ∨ 2 ^ 16 ≤ id.toNat
    let full := a.g.frames.length = 64 ∨ (k = true ∧ a.g.slot0.used = true ∧ a.g.slot1.used = true)
    (a.g.core.split = true → FaultsWith i s a 0x0B) ∧
    (a.g.core.split = false → badId → FaultsWith i s a 0x05) ∧
    (a.g.core.split = false → ¬ badId → full → FaultsWith i s a 0x14) ∧
    (a.g.core.split = false → ¬ badId → ¬ full →
      let slot := if k then some (if a.g.slot0.used then 1 else 0) else none
      let f := newFrame (a.g.stale.head?.getD Frame.zero) (id.setWidth 16) k inh slot (a.arm.spc + 4 * lit.signExtend 64) a.arm.loops.length
        (Vector.ofFn (fun j => a.arm.regs.getD (48 + j.val) 0))
      CompletesAs i s a ((withSig s a i).updGroup t g (fun y =>
        let y := match slot with | some n => y.updSlot n (fun _ => { used := true, cont := none, save := none }) | none => y
        { y with frames := f :: y.frames, stale := y.stale.tail })))

/-- R101: UNHANDLE pops the top frame, freeing its slot; where the frame is a multi-shot one whose continuation runs, it waits
until the group is quiet and returns to the handler with its value. A masked top frame, or none, faults EFFECT_TOKEN. -/
def UnhandlePopsOrReturns : Prop :=
  ∀ (s : State) (t g : Nat) (b : Bool) (a : Ag) (r : SReg), ArmReady s t g b a { src := [r], dst := [], preds := [] } →
    let i : Instr := .unhandle r
    let a1 := agSig a i
    (a.g.core.split = true ∨ a.g.frames = [] → FaultsWith i s a 0x0B) ∧
    (∀ f rest, a.g.core.split = false → a.g.frames = f :: rest →
      (f.masker ≠ 0 → FaultsWith i s a 0x0B) ∧
      (f.masker = 0 → f.state = 0 → CompletesAs i s a ((withSig s a i).updGroup t g (fun y => { (y.freeSlots [f]).leave [f] with frames := rest }))) ∧
      (f.masker = 0 → f.state ≠ 0 → a1.g.quiet = true → s.groupBusy t g = false → ∀ k sv, f.slot = some k → (a.g.slot k).save = some sv →
        StaysAs i s a ((withSig s a i).updGroup t g (fun y => y.unhandleReturn sv (a.arm.get r)))))

/-- The registers that handler entry gives the handler (R103): s48 to s55 from the environment, then the token, the argument,
the effect's ID and the lane mask. -/
def EntryRegs (m : Arm) (f : Frame) (tok arg id : Word) (mask : Half) : Prop :=
  (∀ j, j < 8 → m.regs.getD (48 + j) 0 = f.env.getD j 0) ∧ m.regs.getD 56 0 = tok ∧ m.regs.getD 57 0 = arg ∧ m.regs.getD 58 0 = id ∧
  m.regs.getD 59 0 = mask.zeroExtend 64

/-- What a group is after entering the handler of the own frame at depth `c`, `f`, from the group `y` (R103): the handler's pc,
its registers, every frame from `c` up masked, LBASE at the loop depth, and in the frame the continuation: the saved registers,
where it goes on and what awaits its value. -/
def EnteredOwn (y z : Group) (c : Nat) (f : Frame) (id : BitVec 16) (rkind dest : Nat) (mask : Half) (cspc arg : Word) : Prop :=
  let gen := y.gen + 1
  z.gen = gen ∧ z.lbase = y.core.armA.loops.length ∧ z.core.armA.spc = f.pc ∧ z.core.armA.rep = none ∧ z.core.armA.wait = .none ∧
  EntryRegs z.core.armA f (gen ++ BitVec.ofNat 8 c ++ BitVec.ofNat 8 (if f.k then 2 else 1) ++ BitVec.ofNat 32 y.gid) arg (id.zeroExtend 64) mask ∧
  (∀ r, r < 48 ∨ 60 ≤ r → z.core.armA.regs.getD r 0 = y.core.armA.regs.getD r 0) ∧
  z.core.vregs = y.core.vregs ∧ z.core.preds = y.core.preds ∧ z.core.live = y.core.live ∧ z.frames.length = y.frames.length ∧
  ∃ f', z.own? c = some f' ∧ f'.state = 1 ∧ f'.gen = gen ∧ f'.cspc = cspc ∧ f'.clpc = y.core.armA.lpc ∧ f'.rkind = rkind ∧ f'.dest = dest ∧
    f'.mask = mask ∧ f'.hdep = y.frames.length ∧ f'.prevBase = y.lbase ∧ f'.id = f.id ∧ f'.pc = f.pc ∧ f'.env = f.env ∧
    (∀ j, j < 12 → f'.save.getD j 0 = y.core.armA.regs.getD (48 + j) 0) ∧ f'.masker ≠ 0

/-- The conditions and courses that PERFORM and PERFORML share (R102, R105): `mark` empties the destination. A root PERFORM is a release of
system scope (R115), which learns of a lost peer store (R288). That its token carries the group's GEN is the model's choice (log 21). -/
def Performs (i : Instr) (s : State) (t g : Nat) (a : Ag) (id arg : Word) (rkind dest : Nat) (mask : Half) (d : SReg)
    (mark : Core → Core) : Prop :=
  let s1 := withSig s a i
  let a1 := agSig a i
  let id16 := id.setWidth 16
  (a1.g.search a.w.ctx.rootMap id16 false = .none → FaultsWith i s a 0x0C) ∧
  (∀ c f, a1.g.search a.w.ctx.rootMap id16 false = .own c → c ≤ 64 → a.g.own? c = some f →
    (f.state ≠ 0 → FaultsWith i s a 0x0B) ∧
    (f.state = 0 → (f.k = true → a1.g.quiet = true ∧ s.groupBusy t g = false) → ∃ u, exec i s = .next u ∧ HasGroup u t g (fun z =>
        EnteredOwn { a1.g with core := mark a1.g.core } z c f id16 rkind dest mask (a.arm.spc + 4) arg))) ∧
  (∀ j, a1.g.search a.w.ctx.rootMap id16 false = .inherited j → ∀ z f, a1.g.frameAt (0x81 + j) = some f → f.state = 0 → (f.k = true → a1.g.quiet = true ∧ s.groupBusy t g = false) →
    ({ a1.g with core := mark a1.g.core } : Group).enter (0x81 + j) id16
      { rkind, dest, mask, cspc := a.arm.spc + 4, clpc := a.arm.lpc, arg } = some z →
    StaysAs i s a (s1.putEntered t g (0x81 + j) z)) ∧
  (a1.g.search a.w.ctx.rootMap id16 false = .root → a.g.peerLost = true → FaultsWith i s a 0x18) ∧
  (a1.g.search a.w.ctx.rootMap id16 false = .root → a.g.peerLost = false → ∀ s2, s1.quietArm a1 true true = .ok s2 →
    let tok := tokenOf a.g.gen 0 3 a.g.gid
    StaysAs i s a (((((s2.updGroup t g (fun y =>
      { y with rootDest := some (rkind, mask, d), core := y.core.updArm false (fun m => { m with wait := .root }) })).updCtx a.t.ctx
        (fun c => { c with rootTokens := c.rootTokens ++ [(tok, t, g)] })).postEffect a.t.ctx
        (eventRec 0x10 0 (id16.toNat % 256) (id16.toNat / 256) a.g.gid tok.toNat arg.toNat mask.toNat))).updCore t g mark))

/-- R96, R102, R103, R105, R111: PERFORM and PERFORML raise their effect: in the innermost unmasked frame for it the handler is
entered, with no frame the root takes it where the context's root map has it, under a token whose GEN is the model's choice (log 21), and
else NO_HANDLER is raised. In a split group they fault EFFECT_TOKEN; an ID below 0x0100 or above 16 bits faults PROTECTION; PERFORML waits
for vd in every lane of the arm, whatever its predicate (R53), and one of no lane completes. -/
def Obligations.PerformRaisesItsEffect : Prop :=
  ∀ (s : State) (t g : Nat) (a : Ag),
    (∀ d r v : SReg, ArmReady s t g false a { src := [r, v], dst := [d], preds := [] } →
      let id := a.arm.get r
      let bad := id.toNat < 0x100 ∨ 2 ^ 16 ≤ id.toNat
      (a.g.core.split = true → FaultsWith (.perform d r v) s a 0x0B) ∧
      (a.g.core.split = false → bad → FaultsWith (.perform d r v) s a 0x05) ∧
      (a.g.core.split = false → ¬ bad →
        Performs (.perform d r v) s t g a id (a.arm.get v) 0 d.toNat a.arm.active d (fun c => c.updArm false (fun m => m.empty d)))) ∧
    (∀ (vd : BitVec 6) (r v : SReg) (p : PReg), ArmReady s t g false a { src := [r, v], dst := [], preds := [p.toNat], vdst := [vd.toNat] } →
      let i : Instr := .performl vd r v p
      let id := a.arm.get r
      let bad := id.toNat < 0x100 ∨ 2 ^ 16 ≤ id.toNat
      let mask := a.arm.active &&& a.g.core.pget p.toNat
      (a.g.core.split = true → FaultsWith i s a 0x0B) ∧
      (a.g.core.split = false → bad → FaultsWith i s a 0x05) ∧
      (a.g.core.split = false → ¬ bad → a.t.vregs ≤ vd.toNat → FaultsWith i s a 0x02) ∧
      (a.g.core.split = false → ¬ bad → vd.toNat < a.t.vregs → mask = 0 → CompletesWith i s t g false a (fun m => m)) ∧
      (a.g.core.split = false → ¬ bad → vd.toNat < a.t.vregs → mask ≠ 0 →
        Performs i s t g a id (a.arm.get v) 1 vd.toNat mask vd (fun c => c.vmark vd.toNat mask false)))

/-- R104, R106: RESUME with a live token of a single-shot frame at whose stack depth the handler stands: the group goes on as its
continuation. For a PERFORM, sd of it receives the value, s48 to s59 are as they were saved, and SPC is the saved one after
loop-end processing; the frame may be entered again. -/
def ResumeGoesOnWithTheContinuation : Prop :=
  ∀ (s : State) (t g : Nat) (a : Ag) (r v : SReg), ArmReady s t g false a { src := [r, v], dst := [], preds := [] } →
    let i : Instr := .resume r v
    let a1 := agSig a i
    (a.g.core.split = true ∨ a1.g.liveToken (a.arm.get r) = none → FaultsWith i s a 0x0B) ∧
    (∀ c f, a.g.core.split = false → a1.g.liveToken (a.arm.get r) = some (c, f) →
      (f.state ≠ 1 ∨ f.k = true ∨ a.g.frames.length ≠ f.hdep → FaultsWith i s a 0x0B) ∧
      (f.state = 1 → f.k = false → a.g.frames.length = f.hdep → a.g.queue.length + f.queue.length ≤ 16 →
        StaysAs i s a ((((withSig s a i).untag t g c f.gen true).bumpBy (f.queue.length + 1)).updGroup t g (fun y => y.resume c f (a.arm.get v) s.nextId)) ∧
        (f.rkind = 0 → f.lqrem = 0 → f.dest < 48 → f.dest ≠ 0 → ∃ u, exec i s = .next u ∧ HasGroup u t g (fun y =>
          (∀ j, j < 12 → y.core.armA.regs.getD (48 + j) 0 = f.save.getD j 0) ∧ y.core.armA.regs.getD f.dest 0 = a.arm.get v ∧
          (∀ j, j < 48 → j ≠ f.dest → y.core.armA.regs.getD j 0 = a.arm.regs.getD j 0) ∧
          (y.core.armA.loops, y.core.armA.spare, y.core.armA.spc) =
            loopEnd f.prevBase (a.arm.setDepth a.g.lbase).loops (a.arm.setDepth a.g.lbase).spare f.cspc ∧
          y.core.armA.lpc = f.clpc ∧ y.lbase = f.prevBase ∧ y.core.vregs = a.g.core.vregs ∧ y.core.preds = a.g.core.preds))))

/-- R107, R113: RESUMEK with a live token of a multi-shot frame, the group quiet, saves the handler and starts the frame's
snapshot with the value; R108: DROP ends the handler of a live token, with the frames above it, sets the loop depth to the frame's, and the
interrupted instruction receives its value for a drop: 0 for a PERFORM, the join's status for a FORK. That this is the status of the join
that entered the handler is the model's choice (log 86). With a lane fault that waits, loop-end processing is left to RESUME (R110). -/
def ResumekAndDropUseATokenUp : Prop :=
  ∀ (s : State) (t g : Nat) (a : Ag) (d r v : SReg),
    (ArmReady s t g false a { src := [r, v], dst := [d], preds := [] } →
      let i : Instr := .resumek d r v
      let a1 := agSig a i
      (a.g.core.split = true ∨ a1.g.liveToken (a.arm.get r) = none → FaultsWith i s a 0x0B) ∧
      (∀ c f, a.g.core.split = false → a1.g.liveToken (a.arm.get r) = some (c, f) →
        (f.state ≠ 1 ∨ f.k = false ∨ a.g.frames.length ≠ f.hdep → FaultsWith i s a 0x0B) ∧
        (f.state = 1 → f.k = true → a.g.frames.length = f.hdep → a1.g.quiet = true → s.groupBusy t g = false →
          ∀ k sn, f.slot = some k → (a.g.slot k).cont = some sn →
          StaysAs i s a ((withSig s a i).updGroup t g (fun y => y.resumek c f sn d (a.arm.get v)))))) ∧
    (ArmReady s t g false a { src := [r], dst := [], preds := [] } →
      let i : Instr := .drop r
      let a1 := agSig a i
      (a.g.core.split = true ∨ a1.g.liveToken (a.arm.get r) = none → FaultsWith i s a 0x0B) ∧
      (∀ c f, a.g.core.split = false → a1.g.liveToken (a.arm.get r) = some (c, f) →
        (f.state ≠ 1 → FaultsWith i s a 0x0B) ∧
        (f.state = 1 → c ≤ 64 → ∃ u, exec i s = .next u ∧ HasGroup u t g (fun y =>
          y.frames = a.g.frames.drop (a.g.frames.length + 1 - c) ∧ y.lbase = f.prevBase ∧
          (f.rkind = 0 → f.dest ≠ 0 → f.dest < 64 → y.core.armA.regs.getD f.dest 0 = 0) ∧
          (f.rkind = 4 → f.dest ≠ 0 → f.dest < 64 → y.core.armA.regs.getD f.dest 0 = f.join.zeroExtend 64) ∧
          let m := a.arm.setDepth f.ldep
          (y.core.armA.loops, y.core.armA.spare, y.core.armA.spc) =
            if a.g.frozen.isSome then (m.loops, m.spare, a.arm.spc + 4) else loopEnd f.prevBase m.loops m.spare (a.arm.spc + 4)))))

/-! ### Copies, forks and the ends of groups as an arm sees them: R86, R110, R181, R246 to R252 -/

/-- A packet `h` that the arm has read, in state `u` (R181). Its ranges are taken as they are now; a range that fails faults, and the packet
is given up. With its token, its ranges and its tile free it is handed to the copy engine, and the instruction completes; a tile in a wrong
state faults; and while it waits it is kept. -/
def PacketWaits (i : Instr) (s u : State) (a : Ag) (addr : Word) (h : HeldPacket) : Prop :=
  let a1 := agSig a i
  let fails := fun (c : Nat) (va : Word) =>
    exec i s = .next ((((u.dropHeld a1).unsigned a i).armFault a { code := c, addr := va, tile := h.pkt.tile.zeroExtend 64 } true).issued a)
  (∀ c va, u.packetRanges a.t h.op h.pkt = .fault c va → fails c va) ∧
  (∀ rs dests, u.packetRanges a.t h.op h.pkt = .ok rs dests →
    let free := (h.pkt.tokenEn = true → a.g.tokens.getLsbD h.pkt.token.toNat = false) ∧ u.canRegister rs = true
    (free → u.checkTile a.t h.op h.pkt = .ok → (h.op = .regfill → regfillWaits a.t h.pkt = false) →
      CompletesAs i s a ((u.dropHeld a1).startCopy a1 h.op h.pkt addr rs dests)) ∧
    (free → ∀ c, u.checkTile a.t h.op h.pkt = .fault c → fails c (if c = 0x11 then addr else 0)) ∧
    (¬ free ∨ u.checkTile a.t h.op h.pkt = .hold → ∃ v, exec i s = .next v ∧ v.copies = u.copies ∧ v.mem = u.mem ∧
      (h.team = a.t.id → h.grp = a.g.grpidx → h.armB = a.b → v.heldPacket a = some h)))

/-- A packet of bytes `bs`, read in state `u`: one that does not decode faults; any other waits for its token, its ranges and its tile. -/
def PacketIssues (i : Instr) (s u : State) (a : Ag) (addr : Word) (bs : List Byte) : Prop :=
  (∀ e, decodePacket (BitVec.ofNat 512 (leNat bs)) = .error e → Faults i s a { code := decErrCode e, addr } false) ∧
  (∀ (j : Instr) (op : CopyOp) (p : CopyPacket), decodePacket (BitVec.ofNat 512 (leNat bs)) = .ok j → copyOf j = some (op, p) →
    PacketWaits i s u a addr { team := a.t.id, grp := a.g.grpidx, armB := a.b, op, pkt := p })

/-- R181, R182: TCP reads its packet from memory and TCPR from eight registers, once every memory event of the arm before it is
performed, and issues it; a packet that had to wait is not read again. TCP faults MISALIGNED for an address that is no
multiple of 64, TCPR RESERVED_REGISTER for s0 or a register whose number is no multiple of 8. The address that a fault of a packet carries
is the model's choice (log 46): the packet's own, SPC for a TCPR, or that of the range that fails. -/
def CopyPacketsIssue : Prop :=
  ∀ (s : State) (t g : Nat) (b : Bool) (a : Ag) (r : SReg),
    (ArmReady s t g b a { src := [r], dst := [], preds := [] } →
      let i : Instr := .tcp r
      let va := a.arm.get r
      (va.toNat % 64 ≠ 0 → Faults i s a { code := 0x03, addr := va } false) ∧
      (va.toNat % 64 = 0 → ∀ h, s.heldPacket a = some h → PacketWaits i s (withSig s a i) a va h) ∧
      (va.toNat % 64 = 0 → s.heldPacket a = none → ∀ s2, (withSig s a i).quietArm (agSig a i) false true = .ok s2 →
        (∀ c, s2.readBlock (agSig a i) va = .fault c → Faults i s a { code := c, addr := va } false) ∧
        (∀ s3 bs, s2.readBlock (agSig a i) va = .ok s3 bs → PacketIssues i s s3 a va bs))) ∧
    (r.toNat % 8 ≠ 0 ∨ r = 0 → ArmReady s t g b a { src := [], dst := [], preds := [] } → FaultsWith (.tcpr r) s a 0x02) ∧
    (r.toNat % 8 = 0 → r ≠ 0 → ArmReady s t g b a { src := (List.range 8).map (fun k => r + BitVec.ofNat 6 k), dst := [], preds := [] } →
      (∀ h, s.heldPacket a = some h → PacketWaits (.tcpr r) s (withSig s a (.tcpr r)) a a.arm.spc h) ∧
      (s.heldPacket a = none → ∀ s2, (withSig s a (.tcpr r)).quietArm (agSig a (.tcpr r)) false true = .ok s2 →
        PacketIssues (.tcpr r) s s2 a a.arm.spc
          ((List.range 8).flatMap (fun k => leBytes 8 (a.arm.get (r + BitVec.ofNat 6 k)).toNat))))

/-- R26, R181, R191, R192: what the issue of a packet leaves: the copy is in flight with nothing moved, its ranges are in the
hurdle table, and its token, when it has one, is busy. -/
def AnIssuedCopyIsInFlight : Prop :=
  ∀ (s : State) (a : Ag) (op : CopyOp) (p : CopyPacket) (addr : Word) (rs : List Rng) (dests : List Nat) (y : Group),
    s.group? a.t.id a.g.grpidx = some y →
    let u := s.startCopy a op p addr rs dests
    (∃ c, u.copies = s.copies ++ [c] ∧ c.id = s.nextId ∧ c.op = op ∧ c.pkt = p ∧ c.team = a.t.id ∧ c.grp = a.g.grpidx ∧ c.progress = 0 ∧
      c.ahead = [] ∧ c.turn = none ∧ c.suspended = false ∧ c.faulted = false ∧ c.cancelled = false) ∧
    u.hurdles = s.hurdles ++ rs.map (fun r =>
      { core := r.core, owner := .copy s.nextId, space := r.space, lo := r.lo, hi := r.hi, write := r.write }) ∧
    HasGroup u a.t.id a.g.grpidx (fun z => z.tokens = if p.tokenEn then y.tokens ||| 1#8 <<< p.token.toNat else y.tokens) ∧
    u.mem = s.mem ∧ u.pending = s.pending

/-- R246: a group arrives at FORK with an aligned descriptor and record address, below view depth 8, with a descriptor that obeys
Table 16.1 and agrees with the round, and every earlier memory event performed, remote causal and peer stores too (R45): it waits with sd
empty, and the fork starts when it is the last. A descriptor that cannot be read faults. R252: FSTAT reads the join status, the count, the quota, the dirty
granules, the remainder and the depth; that selector 3 gives 0 in a group with no view is the model's choice (log 98). -/
def Obligations.ForkArrivesAndFstatReads : Prop :=
  ∀ (s : State) (t g : Nat) (b : Bool) (a : Ag),
    (∀ d r j : SReg, ArmReady s t g b a { src := [r, j], dst := [d], preds := [] } →
      let i : Instr := .fork d r j
      let s1 := withSig s a i
      let a1 := agSig a i
      let va := a.arm.get r
      let ja := a.arm.get j
      (a.g.core.split = true → FaultsWith i s a 0x01) ∧
      (a.g.core.split = false → va.toNat % 64 ≠ 0 → Faults i s a { code := 0x03, addr := va } false) ∧
      (a.g.core.split = false → va.toNat % 64 = 0 → ja.toNat % 64 ≠ 0 → Faults i s a { code := 0x03, addr := ja } false) ∧
      (a.g.core.split = false → va.toNat % 64 = 0 → ja.toNat % 64 = 0 → a.t.depth = 8 → FaultsWith i s a 0x05) ∧
      (a.g.core.split = false → va.toNat % 64 = 0 → ja.toNat % 64 = 0 → a.t.depth ≠ 8 →
        (∀ c, s1.readBlock a1 va = .fault c → Faults i s a { code := c, addr := va } false) ∧
        ∀ s2 bs, s1.readBlock a1 va = .ok s2 bs →
          let rd : ForkRound := { last := g, a := va, j := ja, desc := BitVec.ofNat 512 (leNat bs) }
          ((∃ l, a.t.round = some l ∧ { l with last := g } ≠ rd) → FaultsWith i s a 0x01) ∧
          ((∀ l, a.t.round = some l → { l with last := g } = rd) →
            (forkDescOk rd.desc = false → FaultsWith i s a 0x1B) ∧
            (forkDescOk rd.desc = true → ∀ s3, s2.quietArm a1 true true = .ok s3 →
              StaysAs i s a (((s3.updTeam t (fun x => { x with round := some rd })).updGroup t g (fun y =>
                { y with forkDest := d, forkSb := ja, forkSig := a.arm.sig, core := y.core.updArm b (fun m => { m.empty d with wait := .fork }) })).forkCheck t))))) ∧
    (∀ (d : SReg) (n : BitVec 7), ArmReady s t g b a { src := [], dst := [d], preds := [] } →
      let v := a.w.view.bind s.view?
      let fstat := fun (k : BitVec 7) (x : Word) => CompletesWith (.fstat d k) s t g b a (fun m => m.put d x)
      fstat 0 (a.g.joinStatus.zeroExtend 64) ∧ fstat 1 (a.g.joinCount.zeroExtend 64) ∧ fstat 5 (BitVec.ofNat 64 a.t.depth) ∧
      (v = none → fstat 2 (BitVec.allOnes 64) ∧ fstat 3 0 ∧ fstat 4 (BitVec.allOnes 64)) ∧
      (∀ x, v = some x → fstat 2 (BitVec.ofNat 64 (x.quota - x.dirty.length)) ∧ fstat 3 (BitVec.ofNat 64 x.dirty.length) ∧
        fstat 4 (BitVec.ofNat 64 (s.remainder x))) ∧
      (5 < n.toNat → FaultsWith (.fstat d n) s a 0x01))

/-- R86: a group whose lanes have all exited retires once its lane queue is empty and its accesses are performed: it has no
frames, no tokens and no lanes any more. -/
def GroupRetires : Prop :=
  ∀ (s : State) (t g : Nat) (tm : Team) (y : Group) (c : Context), s.team? t = some tm → s.group? t g = some y → s.ctx? tm.ctx = some c →
    s.teamLive tm = true → y.exiting = true → y.retired = false → c.removing = false → y.queue = [] → s.groupOut t g = false →
    exec (.groupRetire t g) s = .next (s.retireGroup t g) ∧
    (tm.round = none → (∀ n, (tm.bar n).pend.getLsbD g = false) →
      HasGroup (s.retireGroup t g) t g (fun z => z.retired = true ∧ z.exiting = false ∧ z.frames = [] ∧ z.inherited = [] ∧ z.tokens = 0 ∧
        z.queue = [] ∧ z.core.live = 0))

/-- R109, R110: a lane fault at the head of its queue is delivered. With a frame of the group for its device effect the handler is
entered, RKIND 3, with the queue saved in the frame and emptied; else it takes the ordinary course, the shepherd standing after the
instruction that it has completed, loop-end processing done. -/
def LaneFaultIsDelivered : Prop :=
  ∀ (s : State) (t g : Nat) (tm : Team) (y : Group) (f : LaneFault), s.team? t = some tm → s.group? t g = some y → y.frozen = some f →
    s.mayDeliver tm y f = true → y.retired = false → y.faultIdx = some 0 → (y.core.arm f.armB).inWait = false →
    let e := if f.code = 0x09 then 0x0002 else if f.code = 0x04 then 0x0010 else if f.code = 0x06 then 0x0011 else 0
    let m := y.core.armA
    ((e = 0 ∨ y.core.split = true ∨ y.exiting = true ∨ y.search 0 (BitVec.ofNat 16 e) true = .none) →
      exec (.laneFaultDelivery t g) s =
        .next ((s.updGroup t g (fun _ => y.unstop f)).ordinary tm (y.unstop f) f.armB { code := f.code, addr := f.addr, mask := f.mask } 2)) ∧
    (∀ c fr, e ≠ 0 → y.core.split = false → y.exiting = false → y.search 0 (BitVec.ofNat 16 e) true = .own c → c ≤ 64 → y.own? c = some fr → fr.state = 0 →
      ∃ u, exec (.laneFaultDelivery t g) s = .next u ∧ HasGroup u t g (fun z =>
        EnteredOwn { y with queue := [], frozen := none } z c fr (BitVec.ofNat 16 e) 3 0 f.mask
          (if m.lqLeft ≠ 0 ∧ m.lqOwed = false then m.spc + 4 else m.spc) f.addr ∧
        z.queue = [] ∧ z.frozen = none ∧ ∃ f', z.own? c = some f' ∧ f'.queue = y.queue ∧ f'.lqrem = m.lqLeft ∧
          (f'.after = true ↔ (m.lqLeft ≠ 0 ∧ m.lqOwed = false) ∨ (f.stopped = true ∧ f.after = true))))

/-! ### The course of a fault: R68, R109, R172 to R176 -/

/-- R68, R109, R172, R174: a fault of an arm whose group has no handler for it raises the halt line of its context, with the fault
as its origin when it is the first, and changes nothing else; one that follows before the stop is kept for the record of its engine. A team
that FORK made ends instead, and UNCORRECTABLE and SIGNATURE kill the group alone. That a TRAP in a team that FORK made takes this course of
R172 too, and raises no halt line, is the model's reading (log 65, DEDUCED). -/
def AFaultRaisesTheHaltLine : Prop :=
  ∀ (s : State) (a : Ag) (f : Flt) (tcp : Bool) (tm : Team) (y : Group) (c : Context),
    s.team? a.t.id = some tm → s.group? a.t.id a.g.grpidx = some y → y.retired = false → s.ctx? tm.ctx = some c →
    (effectOf f.code tcp = 0 ∨ y.core.split = true ∨ y.search 0 (BitVec.ofNat 16 (effectOf f.code tcp)) true = .none) →
    let u := s.armFault a f tcp
    let o : Origin := { kind := 1, code := f.code, unit := y.gid, armB := a.b, core := tm.coreNum, addr := f.addr, mask := f.mask,
                        tcode := f.tcode, data := f.data }
    (f.code ≠ 0x0E → f.code ≠ 0x0D → s.isForkChild tm = false →
      { u with contexts := s.contexts } = s ∧
      (c.halt = .none → u.ctx? tm.ctx = some { c with halt := .raised o, skid := [], faults := [] }) ∧
      (∀ x, c.halt = .raised x → u.ctx? tm.ctx = some { c with faults := c.faults ++ [o] }) ∧
      (∀ x, c.halt = .applied x → u.ctx? tm.ctx = some c) ∧
      (∀ n, n ≠ tm.ctx → u.ctx? n = s.ctx? n)) ∧
    (f.code ≠ 0x0E → f.code ≠ 0x0D → s.isForkChild tm = true → u = s.endChild tm (armStop tm y a.b f 1 0)) ∧
    (f.code = 0x0E ∨ f.code = 0x0D → u = s.containedKill tm y a.b f 1)

/-- R109, Table 6.8: a page fault, a hurdle hit, a spent quota or a TCP's tile state enters the handler that the group has for it,
with CSPC at the instruction itself, the lanes of the current path, and the address, or the tile, as its argument. -/
def AFaultEntersItsHandler : Prop :=
  ∀ (s : State) (a : Ag) (f : Flt) (tcp : Bool) (tm : Team) (y : Group) (e c : Nat) (fr : Frame),
    s.team? a.t.id = some tm → s.group? a.t.id a.g.grpidx = some y → y.retired = false → y.core.split = false → a.b = false →
    tm.id = a.t.id → y.grpidx = a.g.grpidx →
    (f.code, e) ∈ [(0x09, 0x0002), (0x04, 0x0010), (0x06, 0x0011)] ∨ (f.code = 0x13 ∧ tcp = true ∧ e = 0x0012) →
    y.search 0 (BitVec.ofNat 16 e) true = .own c → c ≤ 64 → y.own? c = some fr → fr.state = 0 →
    HasGroup (s.armFault a f tcp) a.t.id a.g.grpidx (fun z =>
      EnteredOwn y z c fr (BitVec.ofNat 16 e) 2 0 y.core.armA.active y.core.armA.spc (if e = 0x0012 then f.tile else f.addr)) ∧
    (s.armFault a f tcp).mem = s.mem ∧ (s.armFault a f tcp).contexts = s.contexts

/-- R175: a contained kill retires the faulting group at once with its code in STATUS, gives every other group of the team
BARRIER_ABANDONED, when the team is back where it is stored (R219), and, below the 1024th, adds one stop record of the context, in its
aligned place: its kind, code, group, SPC and address. -/
def AContainedKillEndsTheGroupAlone : Prop :=
  ∀ (s : State) (tm : Team) (y : Group) (b : Bool) (f : Flt) (c : Context), s.team? tm.id = some tm → tm.group? y.grpidx = some y →
    y.retired = false → s.ctx? tm.ctx = some c → c.stops < 1024 → s.mem.wf = true → f.code < 256 →
    (∃ x, s.set? tm.set = some x ∧ x.kind = .openLaunch) →
    let u := s.containedKill tm y b f 1
    let at_ := c.ga (c.imageBase + 64 * c.stops)
    at_ % 64 = 0 →
    HasGroup u tm.id y.grpidx (fun z => z.retired = true ∧ z.killed = true ∧ z.core.armA.code = BitVec.ofNat 8 f.code ∧ z.queue = [] ∧
      z.frames = [] ∧ z.core.live = 0) ∧
    (∀ g z, g ≠ y.grpidx → tm.group? g = some z → u.group? tm.id g = some (if tm.imaged then z.oweAbandon else z.abandon)) ∧
    u.mem.le at_ 1 = 1 ∧ u.mem.le (at_ + 1) 1 = f.code ∧ u.mem.le (at_ + 4) 4 = y.gid % 2 ^ 32 ∧
    u.mem.le (at_ + 16) 8 = (y.core.arm b).spc.toNat ∧ u.mem.le (at_ + 32) 8 = f.addr.toNat ∧
    (∀ x, x < at_ ∨ at_ + 64 ≤ x → cellRead u.mem x = cellRead s.mem x) ∧
    (∃ c', u.ctx? tm.ctx = some c' ∧ c'.stops = c.stops + 1 ∧ c'.halt = c.halt)

/-! ### Lane instructions: R25, R53, R61, R82, R110, R122 to R149 -/

/-- The active lanes of an entry (R61): those of the current path at its enqueue that its predicate names. -/
def activeLanes (a : Ag) (e : QEntry) (f : LaneFields) : BitVec 32 :=
  e.active &&& (if f.pneg then ~~~ a.g.core.pget f.pred.toNat else a.g.core.pget f.pred.toNat)

/-- The state in which an action of the lane engine of a group counts for its skid bound, while its context's stop is due (R174). -/
def laneActed (s : State) (a : Ag) : State := s.noteSkid a.t.ctx (.lane a.t.id a.g.grpidx)

/-- A group whose queue a lane fault has frozen (R110). -/
def frozenAt (y : Group) (b : Bool) (code : Nat) (mask : BitVec 32) (addr : Word) : Group :=
  { y with frozen := some { code, mask, addr, armB := b, stopped := false, after := false } }

/-- A group in which the entry at place `idx` has executed in every lane, or in the lanes other than `trap`, in which it has
trapped FE_TRAP and frozen the queue (R25, R110). -/
def laneEnds (y : Group) (b : Bool) (idx : Nat) (e : QEntry) (trap : BitVec 32) : Group :=
  if trap = 0 then y.complete idx e else frozenAt y b 0x07 trap 0

/-- What the effect of a lane instruction has before it: the agent, of both arms for an entry that was queued before the SPLIT in force (R40,
R53), the entry and its place, and its lanes. -/
def laneCtx (a : Ag) (idx : Nat) (e : QEntry) (f : LaneFields) (act : BitVec 32) : LC := { a := { a with both := e.both }, idx, e, f, act }

/-- A lane instruction that writes, in each active lane, value `v` to its v register, or register pair for `is64`: it waits while a
register it needs is empty in a lane of its scope; lanes whose source is empty under FEB trap, and the others are written; and
nothing else changes. -/
def LaneGives (i : Instr) (opc : Nat) (f : LaneFields) (is64 : Bool) (v : Ag → QEntry → Nat → Nat) : Prop :=
  ∀ (s : State) (t g : Nat) (b : Bool) (a : Ag) (idx : Nat) (e : QEntry), LaneAt s t g b a i idx e →
    let act := activeLanes a e f
    let trap := trapLanes a.g.core act (rowOps opc f)
    (blockLanes a.g.core e.scope act (rowOps opc f) ≠ 0 → exec i s = .next s) ∧
    (blockLanes a.g.core e.scope act (rowOps opc f) = 0 →
      exec i s = .next ((laneActed s a).updGroup t g (fun y =>
        let y := y.note (if is64 then [f.dst.toNat, f.dst.toNat + 1] else [f.dst.toNat])
        laneEnds { y with core := y.core.writeLanes f.dst.toNat is64 (act &&& ~~~ trap) (v a e) } b idx e trap)))

/-- The same for an instruction that writes bits of a predicate. -/
def LaneSetsPredicate (i : Instr) (opc : Nat) (f : LaneFields) (v : Ag → QEntry → Nat → Bool) : Prop :=
  ∀ (s : State) (t g : Nat) (b : Bool) (a : Ag) (idx : Nat) (e : QEntry), LaneAt s t g b a i idx e →
    let act := activeLanes a e f
    let trap := trapLanes a.g.core act (rowOps opc f)
    (blockLanes a.g.core e.scope act (rowOps opc f) ≠ 0 → exec i s = .next s) ∧
    (blockLanes a.g.core e.scope act (rowOps opc f) = 0 →
      exec i s = .next ((laneActed s a).updGroup t g (fun y =>
        laneEnds { y with core := y.core.pput f.dst.toNat (act &&& ~~~ trap) (maskOf ((lanesOf (act &&& ~~~ trap)).filter (v a e))) }
          b idx e trap)))

/-- The sources of a lane in TYPE (R122). -/
def srcA (f : LaneFields) (a : Ag) (e : QEntry) (l : Nat) : Nat := laneSrc a.g.core a.g.grpidx f.sa e.bcA f.ext f.ty l
/-- Source B. -/
def srcB (f : LaneFields) (a : Ag) (e : QEntry) (l : Nat) : Nat := laneSrc a.g.core a.g.grpidx f.sb e.bcB f.ext f.ty l
/-- Source C. -/
def srcC (f : LaneFields) (a : Ag) (e : QEntry) (l : Nat) : Nat := laneSrc a.g.core a.g.grpidx f.sc e.bcC f.ext f.ty l
/-- The old destination. -/
def oldD (f : LaneFields) (a : Ag) (l : Nat) : Nat := a.g.core.vread f.dst.toNat f.ty.is64 l % 2 ^ f.ty.bits

/-- An exact integer result, modulo 2^w, or clamped to TYPE under SAT (R124), as it stands in a register (R122). -/
def intResult (f : LaneFields) (x : Int) : Nat :=
  let y := if f.sat = .sat then (if x < f.ty.lo then f.ty.lo else if f.ty.hi < x then f.ty.hi else x) else x
  f.ty.written ((y % ((2 ^ f.ty.bits : Nat) : Int)).toNat)

/-- R124, R127, R128: the lane integer arithmetic: the exact result on the values of the sources, wrapped or clamped. -/
def LaneIntegerArithmetic : Prop :=
  ∀ f : LaneFields,
    let r := fun (op : Int → Int → Int → Int) (a : Ag) (e : QEntry) (l : Nat) =>
      intResult f (op (f.ty.toInt (srcA f a e l)) (f.ty.toInt (srcB f a e l)) (f.ty.toInt (srcC f a e l)))
    LaneGives (.vadd f) 0x001 f f.ty.is64 (r (fun x y _ => x + y)) ∧
    LaneGives (.vsub f) 0x002 f f.ty.is64 (r (fun x y _ => x - y)) ∧
    LaneGives (.vmul f) 0x003 f f.ty.is64 (r (fun x y _ => x * y)) ∧
    LaneGives (.vmulh f) 0x004 f f.ty.is64 (r (fun x y _ => x * y / ((2 ^ f.ty.bits : Nat) : Int))) ∧
    LaneGives (.vdiv f) 0x005 f f.ty.is64 (r (fun x y _ => if y = 0 then -1 else Int.tdiv x y)) ∧
    LaneGives (.vrem f) 0x006 f f.ty.is64 (r (fun x y _ => if y = 0 then x else Int.tmod x y)) ∧
    LaneGives (.vmin f) 0x007 f f.ty.is64 (r (fun x y _ => min x y)) ∧
    LaneGives (.vmax f) 0x008 f f.ty.is64 (r (fun x y _ => max x y)) ∧
    LaneGives (.vabs f) 0x009 f f.ty.is64 (r (fun x _ _ => if x < 0 then -x else x)) ∧
    LaneGives (.vneg f) 0x00A f f.ty.is64 (r (fun x _ _ => -x)) ∧
    LaneGives (.vmad f) 0x00B f f.ty.is64 (r (fun x y z => x * y + z))

/-- R127, R128: the lane bit operations, moves and selection, on the bits of the sources. `w` is the width of TYPE. -/
def LaneBitOperations : Prop :=
  ∀ f : LaneFields,
    let w := f.ty.bits
    let r := fun (op : Nat → Nat → Nat) (a : Ag) (e : QEntry) (l : Nat) => f.ty.written (op (srcA f a e l) (srcB f a e l) % 2 ^ w)
    let pos := fun (y : Nat) => if f.ty.is64 then y % 64 else y % 32
    let wid := fun (y : Nat) => if f.ty.is64 then y / 64 % 64 + 1 else y / 32 % 32 + 1
    LaneGives (.vand f) 0x010 f f.ty.is64 (r (fun x y => x &&& y)) ∧
    LaneGives (.vor f) 0x011 f f.ty.is64 (r (fun x y => x ||| y)) ∧
    LaneGives (.vxor f) 0x012 f f.ty.is64 (r (fun x y => x ^^^ y)) ∧
    LaneGives (.vnot f) 0x013 f f.ty.is64 (r (fun x _ => 2 ^ w - 1 - x)) ∧
    LaneGives (.vshl f) 0x014 f f.ty.is64 (r (fun x y => x * 2 ^ (y % w))) ∧
    LaneGives (.vshr f) 0x015 f f.ty.is64 (fun a e l =>
      f.ty.written ((f.ty.toInt (srcA f a e l) / ((2 ^ (srcB f a e l % w) : Nat) : Int) % ((2 ^ w : Nat) : Int)).toNat)) ∧
    LaneGives (.vrotl f) 0x016 f f.ty.is64 (r (fun x y => x * 2 ^ (y % w) + x / 2 ^ (w - y % w))) ∧
    LaneGives (.vclz f) 0x017 f f.ty.is64 (r (fun x _ => if x = 0 then w else w - 1 - x.log2)) ∧
    LaneGives (.vpopc f) 0x018 f f.ty.is64 (r (fun x _ => ((List.range 64).filter (fun i => x.testBit i)).length)) ∧
    LaneGives (.vbfx f) 0x019 f f.ty.is64 (r (fun x y => x / 2 ^ pos y % 2 ^ wid y)) ∧
    (w = 32 ∨ w = 64 → LaneGives (.vbfi f) 0x01A f f.ty.is64 (fun a e l =>
      let d := oldD f a l
      let p := pos (srcB f a e l)
      let m := min (wid (srcB f a e l)) (w - p)
      f.ty.written (d % 2 ^ p + srcA f a e l % 2 ^ m * 2 ^ p + d / 2 ^ (p + m) * 2 ^ (p + m)))) ∧
    LaneGives (.vmov f) 0x020 f f.ty.is64 (r (fun x _ => x)) ∧
    LaneGives (.vsel f) 0x021 f f.ty.is64 (fun a e l =>
      f.ty.written (if (a.g.core.pget f.sc.toNat).getLsbD l then srcA f a e l else srcB f a e l))

/-- A value rounded and saturated into TYPE (R123, R124), as it stands in a register. -/
def floatResult (f : LaneFields) (x : FRes) : Nat := f.ty.written ((fmtOf f.ty).finish f.rnd f.sat x)

/-- R123, R129, R130: the lane floating-point arithmetic: one exact operation on the decoded sources, rounded once by RND, saturated
by SAT. -/
def Obligations.LaneFloatingPoint : Prop :=
  ∀ f : LaneFields,
    let t := fmtOf f.ty
    let r := fun (op : FV → FV → FV → FRes) (a : Ag) (e : QEntry) (l : Nat) =>
      floatResult f (op (t.decode (srcA f a e l)) (t.decode (srcB f a e l)) (t.decode (srcC f a e l)))
    let rd := fun (v : FV) => t.round f.rnd v
    LaneGives (.vfadd f) 0x080 f f.ty.is64 (r (fun x y _ => rd (FV.add f.rnd x y))) ∧
    LaneGives (.vfsub f) 0x081 f f.ty.is64 (r (fun x y _ => rd (FV.add f.rnd x y.neg))) ∧
    LaneGives (.vfmul f) 0x082 f f.ty.is64 (r (fun x y _ => rd (FV.mul x y))) ∧
    LaneGives (.vfma f) 0x083 f f.ty.is64 (r (fun x y z => rd (FV.add f.rnd (FV.mul x y) z))) ∧
    LaneGives (.vfms f) 0x084 f f.ty.is64 (r (fun x y z => rd (FV.add f.rnd (FV.mul x y) z.neg))) ∧
    LaneGives (.vfdiv f) 0x085 f f.ty.is64 (r (fun x y _ => t.div f.rnd x y)) ∧
    LaneGives (.vfsqrt f) 0x086 f f.ty.is64 (r (fun x _ _ => t.sqrt f.rnd x)) ∧
    LaneGives (.vfrcp f) 0x087 f f.ty.is64 (r (fun x _ _ => t.div f.rnd (.num false 1 0) x)) ∧
    LaneGives (.vfrsq f) 0x088 f f.ty.is64 (r (fun x _ _ => t.rsqrt f.rnd x)) ∧
    LaneGives (.vfexp2 f) 0x089 f f.ty.is64 (r (fun x _ _ => t.exp2 f.rnd x)) ∧
    LaneGives (.vflog2 f) 0x08A f f.ty.is64 (r (fun x _ _ => t.log2 f.rnd x)) ∧
    LaneGives (.vfmin f) 0x08B f f.ty.is64 (r (fun x y _ => rd (FV.minMax false x y))) ∧
    LaneGives (.vfmax f) 0x08C f f.ty.is64 (r (fun x y _ => rd (FV.minMax true x y))) ∧
    LaneGives (.vfabs f) 0x08D f f.ty.is64 (r (fun x _ _ => rd x.abs)) ∧
    LaneGives (.vfneg f) 0x08E f f.ty.is64 (r (fun x _ _ => rd x.neg)) ∧
    LaneGives (.vfrnd f) 0x08F f f.ty.is64 (r (fun x _ _ => rd (FV.integral f.rnd x)))

/-- R132 to R135: classification, conversion between TYPEs, packing, unpacking and scaling. -/
def LaneConversions : Prop :=
  ∀ f : LaneFields,
    let word := fun (a : Ag) (e : QEntry) (l : Nat) => laneSrc a.g.core a.g.grpidx f.sa e.bcA f.ext .b32 l
    LaneGives (.vfclass f) 0x108 f false (fun a e l => 2 ^ (fmtOf f.ty).class (srcA f a e l)) ∧
    (∀ u, f.srcType = some u → LaneGives (.vcvt f) 0x110 f f.ty.is64 (fun a e l =>
      let x := laneSrc a.g.core a.g.grpidx f.sa e.bcA f.ext u l
      f.ty.written (
        if u.isInt then (if f.ty.isInt then f.ty.result (f.sat == .sat) (u.toInt x)
          else (fmtOf f.ty).finish f.rnd f.sat ((fmtOf f.ty).round f.rnd (FV.ofInt (u.toInt x))))
        else if f.ty.isInt then f.ty.wrap (FV.toInt f.rnd f.ty.lo f.ty.hi ((fmtOf u).decode x))
        else (fmtOf f.ty).finish f.rnd f.sat ((fmtOf f.ty).round f.rnd ((fmtOf u).decode x))))) ∧
    (∀ w n wide, packInfo f.ty = some (w, n, wide) →
      LaneGives (.vpack f) 0x111 f false (fun a e l =>
        (bitInsert (a.g.core.vget f.dst.toNat l) (BitVec.ofNat 32 (packField f (word a e l))) (w * f.pos) w).toNat) ∧
      LaneGives (.vunpack f) 0x112 f false (fun a e l =>
        let x := word a e l / 2 ^ (w * f.pos) % 2 ^ w
        if wide = .i32 then LType.wrap .i32 (f.ty.toInt x)
        else fmtF32.finish .rne .none (fmtF32.round .rne (if f.ty = .e8m0 then decodeE8M0 x else (fmtOf f.ty).decode x)))) ∧
    LaneGives (.vscale f) 0x113 f f.ty.is64 (fun a e l =>
      floatResult f ((fmtOf f.ty).round f.rnd (FV.mul ((fmtOf f.ty).decode (srcA f a e l))
        (decodeE8M0 (laneSrc a.g.core a.g.grpidx f.sb e.bcB f.ext .b32 l % 256)))))

/-- R131, R149: comparisons in TYPE, where NaN is unordered, and the predicate logic, each active lane's bit of the destination;
VPMOV gives a predicate's bit as a value. -/
def LanePredicates : Prop :=
  ∀ f : LaneFields,
    let order := fun (a : Ag) (e : QEntry) (l : Nat) =>
      if f.ty.isFloat then FV.cmp ((fmtOf f.ty).decode (srcA f a e l)) ((fmtOf f.ty).decode (srcB f a e l))
      else some (if f.ty.toInt (srcA f a e l) < f.ty.toInt (srcB f a e l) then -1
        else if f.ty.toInt (srcA f a e l) = f.ty.toInt (srcB f a e l) then 0 else 1)
    let cmp := fun (p : Option Int → Bool) (a : Ag) (e : QEntry) (l : Nat) => p (order a e l)
    let logic := fun (p : Bool → Bool → Bool) (a : Ag) (_ : QEntry) (l : Nat) =>
      p ((a.g.core.pget f.sa.toNat).getLsbD l) ((a.g.core.pget f.sb.toNat).getLsbD l)
    LaneSetsPredicate (.vcmpEq f) 0x100 f (cmp (fun o => o == some 0)) ∧
    LaneSetsPredicate (.vcmpNe f) 0x101 f (cmp (fun o => o != some 0)) ∧
    LaneSetsPredicate (.vcmpLt f) 0x102 f (cmp (fun o => match o with | some x => x < 0 | none => false)) ∧
    LaneSetsPredicate (.vcmpLe f) 0x103 f (cmp (fun o => match o with | some x => x ≤ 0 | none => false)) ∧
    LaneSetsPredicate (.vcmpGt f) 0x104 f (cmp (fun o => match o with | some x => 0 < x | none => false)) ∧
    LaneSetsPredicate (.vcmpGe f) 0x105 f (cmp (fun o => match o with | some x => 0 ≤ x | none => false)) ∧
    LaneSetsPredicate (.vcmpUn f) 0x106 f (cmp (fun o => o == none)) ∧
    LaneSetsPredicate (.vpand f) 0x148 f (logic (fun x y => x && y)) ∧
    LaneSetsPredicate (.vpor f) 0x149 f (logic (fun x y => x || y)) ∧
    LaneSetsPredicate (.vpxor f) 0x14A f (logic (fun x y => x != y)) ∧
    LaneSetsPredicate (.vpandn f) 0x14B f (logic (fun x y => x && !y)) ∧
    LaneSetsPredicate (.vptest f) 0x14C f (fun a e l => srcA f a e l != 0) ∧
    LaneGives (.vpmov f) 0x14D f f.ty.is64 (fun a _ l => f.ty.written (if (a.g.core.pget f.sa.toNat).getLsbD l then 1 else 0))


/-- What a lane access does at its end: lanes that failed their checks freeze the queue with the code and the address of the lowest
(R110, R138), those that trapped FE_TRAP counted among them. -/
def accessEnds (y : Group) (b : Bool) (idx : Nat) (e : QEntry) (trap : BitVec 32) (fail : Option (Nat × BitVec 32 × Word)) : Group :=
  match fail with
  | none => laneEnds y b idx e trap
  | some (c, m, va) => frozenAt y b c (m ||| trap) (if trap ≠ 0 ∧ c = 0x07 then 0 else va)

/-- What a statement of a lane access says of its end: the state that its accesses leave, and the lanes that failed. -/
abbrev LaneEnd := State → Option (Nat × BitVec 32 × Word) → Prop

/-- The cases of an addressed lane instruction that does not wait for a register: `k` is what it does in the lanes of `x` that have
not trapped. -/
def LaneRuns (i : Instr) (opc : Nat) (f : LaneFields) (k : LaneEnd → State → LC → Prop) : Prop :=
  ∀ (s : State) (t g : Nat) (b : Bool) (a : Ag) (idx : Nat) (e : QEntry), LaneAt s t g b a i idx e →
    let act := activeLanes a e f
    let trap := trapLanes a.g.core act (rowOps opc f)
    (blockLanes a.g.core e.scope act (rowOps opc f) ≠ 0 → exec i s = .next s) ∧
    (blockLanes a.g.core e.scope act (rowOps opc f) = 0 →
      k (fun u fail => exec i s = .next ((laneActed u a).updGroup t g (fun y => accessEnds y b idx e trap fail))) s
        (laneCtx a idx e f (act &&& ~~~ trap)))

/-- What a lane load of the targets `ts`, none of them a causal location, leaves: an access outstanding, at the entry's place in program
order, to be read lane by lane or together (R40, R142), and its destination empty in the lanes of `m`. -/
def loadStarted (s : State) (x : LC) (ts : List (Nat × Target)) (hint : Nat) (dest : Dest) (m : BitVec 32) : State :=
  ((ts.foldl (fun (u : State) t => u.touch x.a.w t.2) s).addPending
    { after := x.a.arm.fencePo, id := s.nextId, po := x.e.po, team := x.a.t.id, grp := x.a.g.grpidx, armB := x.a.b, dest, hint,
      items := ts.map (fun t => { lane := t.1, t := t.2, val := none, remote := false }), rmw := false, acq := false, scope := 6,
      both := x.e.both, saved := none }).updCore x.a.t.id x.a.g.grpidx
    (fun c => (vnums x.f.dst.toNat x.f.ty).foldl (fun c k => c.vmark k m false) c)

/-- A load of the targets `ts` into the destination of `x` is started; with none of them causal, all its items wait to be read, and causal
ones of another die are injected in the order of the lanes (R270). -/
def StartsLoad (s : State) (x : LC) (ts : List (Nat × Target)) (hint : Nat) (dest : Dest) (m : BitVec 32)
    (fail : Option (Nat × BitVec 32 × Word)) (ends : LaneEnd) : Prop :=
  ((∀ t ∈ ts, t.2.causal = false) → ends (loadStarted s x ts hint dest m) fail) ∧
  ends (s.startLoad x ts hint dest (fun c => (vnums x.f.dst.toNat x.f.ty).foldl (fun c k => c.vmark k m false) c)) fail

/-- A lane load of accesses `l`: with no lane to load it ends at once; else an access is outstanding for the lanes that passed, with
DST empty in them. -/
def LoadsLanes (l : State → LC → List LaneAcc) (hint : Nat) (ends : LaneEnd) (s : State) (x : LC) : Prop :=
  let ts := passed (l s x)
  s.laneHold x ts false = none →
    (ts = [] → ends s (failed (l s x))) ∧
    (ts ≠ [] → StartsLoad s x ts hint (.v x.f.dst.toNat x.f.ty) (maskOf (ts.map (fun t => t.1))) (failed (l s x)) ends)

/-- R137 to R139, R142, R143, R146: the lane loads and the prefetch. A load that passes leaves DST empty for its values, VLDW in all
its lanes by one access of 128 or 256 bytes of any memory, by lines of 128; VPREF only brings lines in. -/
def Obligations.LaneLoadsIssue : Prop :=
  ∀ f : LaneFields,
    LaneRuns (.vld f) 0x180 f (LoadsLanes (fun s x => s.laneAccs x .load (f.ty.bits / 8)) f.hint) ∧
    LaneRuns (.vtld f) 0x200 f (LoadsLanes (fun s x => s.tileAccs x .load) 0) ∧
    LaneRuns (.vldw f) 0x182 f (fun ends s x =>
      let ea := x.e.bcA + f.disp
      let n := if f.ty.is64 then 256 else 128
      (x.act = 0 → ends s none) ∧
      (x.act ≠ 0 → ∀ c, s.check x.a.w .load ea n = .error c → ends s (some (c, x.act, ea))) ∧
      (x.act ≠ 0 → ∀ tg, s.check x.a.w .load ea n = .ok tg →
        let ts := (List.range (n / 128)).map (fun k =>
          (k, ({ va := tg.va + 128 * k, size := 128, pte := tg.pte, loc := tg.loc.to (tg.loc.addr + 128 * k) } : Target)))
        s.laneHold x ts false = none → StartsLoad s x ts f.hint (.wide f.dst.toNat f.ty x.act) x.act none ends)) ∧
    (∀ (s : State) (t g : Nat) (b : Bool) (a : Ag) (idx : Nat) (e : QEntry), LaneAt s t g b a (.vpref f) idx e →
      let block := blockLanes a.g.core e.scope (activeLanes a e f) (rowOps 0x184 f)
      (block ≠ 0 → exec (.vpref f) s = .next s) ∧
      (block = 0 → ∃ u, exec (.vpref f) s = .next ((laneActed u a).updGroup t g (fun y => y.complete idx e)) ∧ u.mem = s.mem ∧
        u.teams = s.teams ∧ u.pending = s.pending ∧ u.contexts = s.contexts))

/-- A lane store to the lanes of `acc` that pass their checks. A store that is a release of system scope learns of a lost peer store
(R288). Else, with nothing of its arm that it must follow at issue, its lines are written one after the other, and the lanes that failed
are reported in the end. -/
def StoresLanes (acc : State → LC → List LaneAcc) (size : Nat) (ends : LaneEnd) (s : State) (x : LC) : Prop :=
  let ts := passed (acc s x)
  let v := fun l => srcC x.f x.a x.e l
  let ordered := ts.any (fun t => s.ordered x.a t.2)
  (ts ≠ [] → x.a.lostPeer false = true → ends s (some (0x18, maskOf (ts.map (fun t => t.1)), 0))) ∧
  ((ts ≠ [] → x.a.lostPeer false = false) → s.laneHold x ts true = none → ts.any (fun t => s.relHold x.a x.e.po t.2 false false) = false →
    ∀ s2, (if ordered = true then s.laneBlocked x ts = false ∧ s.laneBind x ts = some s2 else s2 = s) → s2.gone x.a = false →
    (∀ u, s2.storeLines x size v (byLine x.a.w.view.isSome ts) ((acc s x).filter (fun y => !y.ok)) [] = .done u → ends u none) ∧
    (∀ u c m va, s2.storeLines x size v (byLine x.a.w.view.isSome ts) ((acc s x).filter (fun y => !y.ok)) [] = .fault u c m va → ends u (some (c, m, va))))

/-- R40, R138, R139, R146: the lane stores. Each line's write is performed as the entry executes or later, by the model's free value of
log 50. -/
def LaneStoresPerform : Prop :=
  ∀ f : LaneFields,
    LaneRuns (.vst f) 0x181 f (StoresLanes (fun s x => s.laneAccs x .store (f.ty.bits / 8)) (f.ty.bits / 8)) ∧
    LaneRuns (.vtst f) 0x201 f (StoresLanes (fun s x => s.tileAccs x .store) (f.ty.bits / 8))

/-- R40, R138, R139, R270: the lines of a store in turn: the lanes of a line that pass their checks are written by one write, by whatever
mappings they reach the line, those that fail are skipped and reported, the lowest first, in the end; and where two lanes of one write meet in
a byte, the higher lane's is written: the write leaves memory as one store after another, in ascending order of lanes, would. The packets of
lines that leave as ordered traffic are injected at the end, in ascending order of lanes; that a line's bytes travel with the packet of
its highest lane is the model's choice (log 90). -/
def LaneStoresGoInLaneOrder : Prop :=
  (∀ (s : State) (x : LC) (size : Nat) (v : Nat → Nat) (g : List (Nat × Target)) (gs : List (List (Nat × Target))) (bad : List LaneAcc)
      (out : List LanePkt),
    (let u := ((List.range 32).flatMap (fun k => out.filter (fun y => y.1 == k))).foldl (fun (s : State) p =>
       s.sendStore x.a x.e.po p.2.1 p.2.2 false) s
     s.storeLines x size v [] bad out = (match failed (sortLanes bad) with | some (c, m, a) => .fault u c m a | none => .done u)) ∧
    (let acc := g.map (fun t =>
       ({ lane := t.1, va := toWord t.2.va, res := s.check x.a.w .store (toWord t.2.va) size } : LaneAcc))
     let bad' := bad ++ acc.filter (fun y => !y.ok)
     (passed acc = [] → s.storeLines x size v (g :: gs) bad out = s.storeLines x size v gs bad' out) ∧
     (∀ n t ts, passed acc = (n, t) :: ts →
       let runs := mergeRuns (((n, t) :: ts).map (fun p => (p.2.loc.addr, leBytes size (v p.1))))
       let lanes := ((n, t) :: ts).map (fun p => p.1)
       let u := lineTarget t ts
       (s.ordered x.a u = true → s.storeLines x size v (g :: gs) bad out =
         (s.touch x.a.w u).storeLines x size v gs bad' (out ++ linePkts u runs lanes)) ∧
       (s.ordered x.a u = false →
         let r := s.doStore x.a x.e.po u runs (maskOf lanes) false x.a.arm.relSys
         r.poison = false → r.s.gone x.a = false → s.storeLines x size v (g :: gs) bad out = r.s.storeLines x size v gs bad' out)))) ∧
  (∀ (m : Memory) (l : List (Nat × List Byte)) (a : Nat), m.wf = true →
    let all := fun (l : List (Nat × List Byte)) => l.foldl (fun (m : Memory) r => m.store r.1 r.2) m
    cellRead (all (mergeRuns l)) a = cellRead (all l) a)

/-- A lane atomic of an operation. AMAXRST (`rel`) is an acquire and a release of device scope, and follows every earlier event of its arm.
A release of system scope learns of a lost peer store (R288). Else, with nothing of its arm that it must follow at issue, its lanes join one
outstanding access in ascending order, each that fails its check left out, and DST is empty in the others. -/
def AtomicLanes (op : RmwOp) (rel : Bool) (ends : LaneEnd) (s : State) (x : LC) : Prop :=
  let size := x.f.ty.bits / 8
  let acc := s.laneAccs x .vatomic size
  let ts := passed acc
  let n := x.f.dst.toNat
  let ordered := ts.any (fun t => s.ordered x.a t.2)
  (ts ≠ [] → x.a.lostPeer false = true → ends s (some (0x18, maskOf (ts.map (fun t => t.1)), 0))) ∧
  ((ts ≠ [] → x.a.lostPeer false = false) → s.laneHold x ts true = none → ts.any (fun t => s.relHold x.a x.e.po t.2 false false) = false →
    (ordered = true → s.laneBlocked x ts = false) →
    ∀ s2, (if rel = true ∧ ts ≠ [] then s.laneQuiet x else if ordered = true then s.laneBind x ts else some s) = some s2 → s2.gone x.a = false →
      (ts = [] → ends s2 (failed acc)) ∧
      (ts ≠ [] →
        let p : Pending := { after := x.a.arm.fencePo, id := s2.nextId, po := x.e.po, team := x.a.t.id, grp := x.a.g.grpidx, armB := x.a.b, dest := .v n x.f.ty, hint := 0,
                             items := [], rmw := true, acq := rel, scope := if rel then 4 else 6, both := x.e.both, saved := none }
        let r := (s2.addPending p).rmwLanes x s2.nextId size op rel acc []
        let m := maskOf ((passed r.2).map (fun t => t.1))
        ends (r.1.updCore x.a.t.id x.a.g.grpidx (fun c => (vnums n x.f.ty).foldl (fun c k => c.vmark k m false) c)) (failed r.2)))

/-- R144, R145: the lane atomics issue, and leave DST empty for the old values. When a lane's access is performed, those of the lanes on its
location are performed with it, in ascending order of lanes; lanes on different locations are not ordered. -/
def Obligations.LaneAtomicsPerform : Prop :=
  (∀ f : LaneFields,
    LaneRuns (.vamoSwap f) 0x190 f (AtomicLanes .swap false) ∧ LaneRuns (.vamoAdd f) 0x191 f (AtomicLanes .add false) ∧
    LaneRuns (.vamoAnd f) 0x192 f (AtomicLanes .and false) ∧ LaneRuns (.vamoOr f) 0x193 f (AtomicLanes .or false) ∧
    LaneRuns (.vamoXor f) 0x194 f (AtomicLanes .xor false) ∧ LaneRuns (.vamoMin f) 0x195 f (AtomicLanes .min false) ∧
    LaneRuns (.vamoMax f) 0x196 f (AtomicLanes .max false) ∧ LaneRuns (.vamoCas f) 0x197 f (AtomicLanes .cas false) ∧
    LaneRuns (.vamoFadd f) 0x198 f (AtomicLanes .fadd false) ∧ LaneRuns (.vamoFmin f) 0x199 f (AtomicLanes .fmin false) ∧
    LaneRuns (.vamoFmax f) 0x19A f (AtomicLanes .fmax false) ∧ LaneRuns (.vamoAmaxrst f) 0x19B f (AtomicLanes .amaxrst true)) ∧
  (∀ (s : State) (id k : Nat) (p : Pending) (i : PItem) (a : Ag) (u : State), s.pending.find? (fun q => q.id == id) = some p →
    p.items[k]? = some i → i.upd.isSome = true → s.agent p.team p.grp p.armB = some a → s.dieStopped (a.w.core / 32) = false →
    s.canRead p i = true → s.bindBefore p.key p.po (p.touches (p.withItem k)) = some u →
    s.bindLane id k = u.bindSome p (fun j =>
      match p.items[j]? with | some y => j == k || (y.upd.isSome && i.t.loc == y.t.loc) | none => false))

/-- An exchange instruction: it waits by the full bit of the lane it reads, traps in every lane when one traps (R147), and else
writes value `v` in each active lane. -/
def ExchangeGives (i : Instr) (f : LaneFields) (opc : Nat) (fresh : Bool) (v : State → LC → Nat → Nat) : Prop :=
  ∀ (s : State) (t g : Nat) (b : Bool) (a : Ag) (idx : Nat) (e : QEntry), LaneAt s t g b a i idx e →
    let act := activeLanes a e f
    let wait := (xchgPre opc f a.g e act).1
    let trap := (xchgPre opc f a.g e act).2
    (wait ≠ 0 → exec i s = .next s) ∧
    (wait = 0 → trap ≠ 0 → exec i s = .next ((laneActed s a).updGroup t g (fun y => frozenAt y b 0x07 trap 0))) ∧
    (wait = 0 → trap = 0 →
      let u := (laneActed s a).updGroup t g (fun y =>
        let y := y.note (if f.ty.is64 then [f.dst.toNat, f.dst.toNat + 1] else [f.dst.toNat])
        ({ y with core := y.core.writeLanes f.dst.toNat f.ty.is64 act (v s (laneCtx a idx e f act)) } : Group).complete idx e)
      exec i s = .next (if fresh then { u with fresh := u.fresh + 1 } else u))

/-- R147, Table 8.5: the lane that each lane reads: QSWAP, QBCAST within its quad, VSHFL by its mode. A lane of the executing arm
supplies its register's value; one of the other arm of a split group any value it has held since the SPLIT (a free value, log 13). -/
def Obligations.LaneExchanges : Prop :=
  ∀ f : LaneFields,
    let k := fun (x : LC) (l : Nat) => laneRaw x.a.g.core x.a.g.grpidx f.sb x.e.bcB 0 false false l % 32
    ExchangeGives (.qswap f) f 0x140 true (fun s x l => f.ty.written (s.laneFrom x (l ^^^ f.mode % 4))) ∧
    ExchangeGives (.qbcast f) f 0x141 true (fun s x l => f.ty.written (s.laneFrom x (4 * (l / 4) + f.mode % 4))) ∧
    (f.mode < 4 → ExchangeGives (.vshfl f) f 0x142 true (fun s x l => f.ty.written (s.laneFrom x (
      if f.mode = 0 then k x l else if f.mode = 1 then l ^^^ k x l
      else if f.mode = 2 then (if k x l ≤ l then l - k x l else l) else if l + k x l < 32 then l + k x l else l)))) ∧
    (∀ (s : State) (x : LC) (l : Nat), x.f = f →
      (x.a.g.core.split = false ∨ x.e.both = true ∨ (x.a.g.core.arm (!x.a.b)).mask.getLsbD l = false →
        s.laneFrom x l = x.a.g.core.vread f.sa.toNat f.ty.is64 l % 2 ^ f.ty.bits) ∧
      (x.a.g.core.split = true → f.ty.is64 = false → ∃ h ∈ x.a.g.held f.sa.toNat l, s.laneFrom x l = h.toNat % 2 ^ f.ty.bits))

/-- R147, R148: VBALLOT, VRED and VSCAN with a vector destination, and VBALLOT and VRED with a scalar one, which is full again when
its value arrives. -/
def LaneBallotsReductionsAndScans : Prop :=
  ∀ f : LaneFields,
    (f.sd = false → ExchangeGives (.vred f) f 0x144 false (fun s x _ =>
      f.ty.written (writtenValue f ((treeRed f (s.slots x)).getD (emptyValue f))))) ∧
    ExchangeGives (.vscan f) f 0x145 false (fun s x l =>
      let p := (prefixes f none (s.slots x)).getD l (none, none)
      f.ty.written (writtenValue f ((if f.excl then p.1 else p.2).getD (emptyValue f)))) ∧
    (∀ (s : State) (t g : Nat) (b : Bool) (a : Ag) (idx : Nat) (e : QEntry) (tm : Team), s.team? t = some tm → s.landsIn tm = none →
      e.sdDrop = false → e.both = false → e.saved = none → f.sd = true →
      let act := activeLanes a e f
      let fills := fun (i : Instr) (v : Word) =>
        exec i s = .next ((laneActed s a).updGroup t g (fun y => ({ y with core := y.core.updArm b (fun m => m.put f.sn v) } : Group).complete idx e))
      (LaneAt s t g b a (.vballot f) idx e → fills (.vballot f) ((a.g.core.pget f.sa.toNat &&& act).zeroExtend 64)) ∧
      (LaneAt s t g b a (.vred f) idx e → xchgPre 0x144 f a.g e act = (0, 0) →
        fills (.vred f) (f.ty.scalar (writtenValue f ((treeRed f (s.slots (laneCtx a idx e f act))).getD (emptyValue f)))))) ∧
    (f.sd = false → ∀ (s : State) (t g : Nat) (b : Bool) (a : Ag) (idx : Nat) (e : QEntry), LaneAt s t g b a (.vballot f) idx e →
      let act := activeLanes a e f
      blockLanes a.g.core e.scope act (dstOp f.dst.toNat f.ty.is64) = 0 →
      exec (.vballot f) s = .next ((laneActed s a).updGroup t g (fun y =>
        let y := y.note [f.dst.toNat]
        ({ y with core := y.core.writeLanes f.dst.toNat false act (fun _ => (a.g.core.pget f.sa.toNat &&& act).toNat) } : Group).complete idx e)))

/-- R148: an integer sum over the active lanes is exact: VRED of mode 0 gives the sum of the lanes' values, wrapped or clamped once,
whatever the tree's shape; and a minimum is the least of them. -/
def ReductionIsTheSumOfTheLanes : Prop :=
  ∀ (f : LaneFields) (l : List (Option Int)), f.ty.isFloat = false → l.length = 32 →
    (f.mode = 0 → (treeRed f l).getD 0 = (l.filterMap id).sum) ∧
    (f.mode = 1 → ∀ m, treeRed f l = some m → m ∈ l.filterMap id ∧ ∀ x ∈ l.filterMap id, m ≤ x) ∧
    (treeRed f l = none ↔ l.filterMap id = [])

/-- R64: VNOP executes with no effect but its leaving the queue; its word alone of its OPC is accepted, so an all-ones word is refused,
and so is every word of an OPC that no entry assigns. -/
def Obligations.VnopLeavesTheQueue : Prop :=
  (∀ (s : State) (t g : Nat) (b : Bool) (a : Ag) (idx : Nat) (e : QEntry), LaneAt s t g b a .vnop idx e →
    exec .vnop s = .next ((laneActed s a).updGroup t g (fun y => { y with queue := y.queue.eraseIdx idx }))) ∧
  (∀ (v : Nat) (w : BitVec 96), laneOpc w = 0x3FF → decodeLane v w = if w = 0x3FF then .ok .vnop else .error .illegal) ∧
  (∀ v : Nat, decodeLane v (BitVec.allOnes 96) = .error .illegal) ∧
  (∀ (v : Nat) (w : BitVec 96), laneOpc w = 0 ∨ (0x00B < laneOpc w ∧ laneOpc w < 0x010) ∨ (0x01A < laneOpc w ∧ laneOpc w < 0x020) ∨
    (0x021 < laneOpc w ∧ laneOpc w < 0x080) ∨ (0x08F < laneOpc w ∧ laneOpc w < 0x100) ∨ laneOpc w = 0x107 ∨ (0x108 < laneOpc w ∧ laneOpc w < 0x110) ∨
    (0x113 < laneOpc w ∧ laneOpc w < 0x140) ∨ laneOpc w = 0x146 ∨ laneOpc w = 0x147 ∨ (0x14D < laneOpc w ∧ laneOpc w < 0x180) ∨ laneOpc w = 0x183 ∨
    (0x184 < laneOpc w ∧ laneOpc w < 0x190) ∨ (0x19B < laneOpc w ∧ laneOpc w < 0x200) ∨ (0x201 < laneOpc w ∧ laneOpc w < 0x3FF) →
    decodeLane v w = .error .illegal)

/-! ### The matrix engine: R198 to R216 -/

/-- A matrix word that issues, goes to the next word, and changes the sequencer by `f` and nothing else. -/
def SeqGives (i : Instr) (s : State) (x : Team) (f : Seq → Seq) : Prop :=
  exec i s = .next (s.updTeam x.id (fun y => { y with seq := { f y.seq with mpc := (f y.seq).mpc + 8 } }))

/-- A matrix word that issues and goes to `pc`, changing nothing else. -/
def SeqGoes (i : Instr) (s : State) (x : Team) (pc : Word) (f : Seq → Seq) : Prop :=
  exec i s = .next (s.updTeam x.id (fun y => { y with seq := { f y.seq with mpc := pc } }))

/-- R208 to R211: the control words of the sequencer: MNOP, MSET, MBIND, the loops, MJMP, MWAIT and MSTOP. MSET.ld is in flight with the range
of its 8 bytes, and waits while a write to them is (R200, R214). -/
def MatrixControlWords : Prop :=
  ∀ (s : State) (t : Nat) (x : Team), MatAt s t x [] [] →
    SeqGives .mnop s x id ∧
    (∀ k v, SeqGives (.mset k v) s x (fun q => { q with ms := q.ms.setIfInBounds k.toNat (v.signExtend 64) })) ∧
    (∀ k v, SeqGives (.msetBf k v) s x (fun q => { q with ms := q.ms.setIfInBounds k.toNat (v.zeroExtend 64 <<< 16) })) ∧
    (∀ k (off : BitVec 16), 8 * off.toNat + 8 ≤ 4096 * x.spch →
      let rs : List Rng := [{ core := x.coreNum, space := .spad x.id, lo := 8 * off.toNat, hi := 8 * off.toNat + 8, write := false }]
      let read := s.updTeam x.id (fun y => { y with seq := { y.seq with ms := y.seq.ms.setIfInBounds k.toNat (toWord (x.spad.le (8 * off.toNat) 8)) } })
      (s.canRegister rs = true → exec (.msetLd k off) s =
        .next ((read.addMop x (.msetLd k off) [] 0 rs).updTeam x.id (fun y => { y with seq := { y.seq with mpc := y.seq.mpc + 8 } }))) ∧
      (s.canRegister rs = false → exec (.msetLd k off) s = .next s)) ∧
    (∀ sa sx sb sk, SeqGives (.mbind false sa sx sb sk) s x (fun q => { q with steps0 := { sa, sx, sb, sk } }) ∧
      SeqGives (.mbind true sa sx sb sk) s x (fun q => { q with steps1 := { sa, sx, sb, sk } })) ∧
    (∀ off, SeqGoes (.mjmp off) s x (x.seq.mpc + 8 * off.signExtend 64) id) ∧
    SeqGives .mstop s x (fun q => { q with run := 1 }) ∧
    (∀ n, (x.bar n.toNat).seqArrived = false → SeqGives (.mwait n) s x id) ∧
    (∀ n, (x.bar n.toNat).seqArrived = true → exec (.mwait n) s = .next s) ∧
    (∀ fromMs k (len cnt : BitVec 16),
      let c : Half := if fromMs then (x.seq.ms.getD k.toNat 0).extractLsb' 0 32 else cnt.zeroExtend 32
      (c = 0 → SeqGoes (.mloop fromMs k len cnt) s x (x.seq.mpc + 8 * len.zeroExtend 64 + 8) id) ∧
      (c ≠ 0 → x.seq.levels.length < 2 → SeqGives (.mloop fromMs k len cnt) s x (fun q => { q with levels :=
        ⟨c, x.seq.mpc + 8, x.seq.mpc + 8 * len.zeroExtend 64, x.seq.oa, x.seq.ox, x.seq.ob, x.seq.ok⟩ :: q.levels })) ∧
      (c ≠ 0 → x.seq.levels.length = 2 → exec (.mloop fromMs k len cnt) s = .next (s.seqFault x.id 0x15 0))) ∧
    (∀ l ls, x.seq.levels = l :: ls → l.next = x.seq.mpc →
      (l.count = 1 → SeqGives .mnext s x (fun q => { q with levels := ls, oa := l.oa, ox := l.ox, ob := l.ob, ok := l.ok })) ∧
      (l.count ≠ 1 → SeqGoes .mnext s x l.start (fun q =>
        let m := if ls = [] then q.steps0 else q.steps1
        { q with oa := q.oa + m.sa, ox := q.ox + m.sx, ob := q.ob + m.sb, ok := q.ok + m.sk, levels := { l with count := l.count - 1 } :: ls }))) ∧
    ((∀ l ls, x.seq.levels = l :: ls → l.next ≠ x.seq.mpc) → exec .mnext s = .next (s.seqFault x.id 0x15 0))

/-- R203: MBEG and MZERO where the chain is closed, MEND where it is open, and TILE_STATE elsewhere; and the words of the three for a0. -/
def ChainsOpenAndClose : Prop :=
  (∀ (s : State) (t : Nat) (x : Team),
    (∀ acc : BitVec 3, MatAt s t x [acc.toNat] [] →
      (x.seq.opened.getLsbD acc.toNat = false →
        SeqGives (.mbeg acc) s x (fun q => { q with
          accs := vecUpd q.accs acc.toNat (fun p => { p with o := [], steps := 0 }), opened := q.opened ||| (1#6 <<< acc.toNat) }) ∧
        SeqGives (.mzero acc) s x (fun q => { q with accs := vecUpd q.accs acc.toNat (fun p => { p with e := [], o := [] }) }) ∧
        exec (.mend acc) s = .next (s.seqFault x.id 0x13 0)) ∧
      (x.seq.opened.getLsbD acc.toNat = true →
        SeqGives (.mend acc) s x (fun q => { q with accs := vecUpd q.accs acc.toNat Acc.mend, opened := q.opened &&& ~~~ (1#6 <<< acc.toNat) }) ∧
        exec (.mbeg acc) s = .next (s.seqFault x.id 0x13 0) ∧ exec (.mzero acc) s = .next (s.seqFault x.id 0x13 0)))) ∧
  decodeMat 0x0000000000000004 = .ok (.mzero 0) ∧ decodeMat 0x0000000000000001 = .ok (.mbeg 0) ∧ decodeMat 0x0000000000000003 = .ok (.mend 0)

/-- R211, R213: MMARK's arrival, after
every earlier operation; MTREL of a READY tile; and PROTECTION for an accumulator or a tile beyond the team's request (R199). -/
def MarksAndReleases : Prop :=
  ∀ (s : State) (t : Nat) (x : Team),
    (∀ n : BitVec 4, MatAt s t x [] [] → s.mops.any (fun m => m.team == x.id) = false → (x.bar n.toNat).seqArrived = false →
      (∀ w, (x.bar n.toNat).pword = some w → w.getLsbD 16 = true) →
      exec (.mmark n) s = .next ((s.updBar x.id n.toNat (fun b => { b with seqArrived := true })).updTeam x.id
        (fun y => { y with seq := { y.seq with lastBar := n.toNat, barPending := true, mpc := y.seq.mpc + 8 } }))) ∧
    (∀ n : BitVec 4, MatAt s t x [] [] → (s.mops.any (fun m => m.team == x.id) = true ∨ (x.bar n.toNat).seqArrived = true) →
      exec (.mmark n) s = .next s) ∧
    (∀ ta : BitVec 8, MatAt s t x [] [(ta + x.seq.oa).toNat] →
      let n := (ta + x.seq.oa).toNat
      ((x.tile n).state = .ready → s.mopNames x.id n = false →
        exec (.mtrel ta) s = .next (s.updTeam x.id (fun y =>
          { y with tiles := y.tiles.modify n (fun z => { z with state := .empty }), seq := { y.seq with mpc := y.seq.mpc + 8 } }))) ∧
      ((x.tile n).state = .filling → exec (.mtrel ta) s = .next s) ∧
      ((x.tile n).state ≠ .ready → (x.tile n).state ≠ .filling → exec (.mtrel ta) s = .next (s.seqFault x.id 0x13 0))) ∧
    (s.sel = .matrix t → s.team? t = some x → s.seqLive x = true →
      let stops := fun (i : Instr) => exec i s = .next (s.seqFault x.id 0x05 0)
      (∀ acc : BitVec 3, x.nacc ≤ acc.toNat → ∀ i ∈ [Instr.mbeg acc, .mend acc, .mzero acc], stops i) ∧
      (∀ (acc : BitVec 3) (aux : BitVec 8) (rows cols : BitVec 7), x.nacc ≤ acc.toNat → stops (.mamax acc aux rows cols)) ∧
      (∀ ta : BitVec 8, x.ntiles ≤ (ta + x.seq.oa).toNat → stops (.mtrel ta)) ∧
      (∀ (acc : BitVec 3) (ta tb : BitVec 8) (kb ka : BitVec 16),
        x.nacc ≤ acc.toNat ∨ x.ntiles ≤ (ta + x.seq.oa).toNat ∨ x.ntiles ≤ (tb + x.seq.ox).toNat → stops (.mstep acc ta tb kb ka)) ∧
      (∀ fmt sat scl (acc : BitVec 3) (ta aux : BitVec 8) (off : BitVec 16) (rows cols : BitVec 7),
        x.nacc ≤ acc.toNat ∨ ((fmt = .bf16 ∨ fmt = .f32) ∧ x.ntiles ≤ (ta + x.seq.oa).toNat) →
        stops (.mout fmt sat scl acc ta aux off rows cols)))

/-- R204: where both tiles are READY, the chain is open and the fields fit, MSTEP adds its k-step to the accumulator and is in flight
with the ranges it reads; where a tile is not READY it waits, and else it faults TILE_STATE. -/
def Obligations.MstepAddsAKStep : Prop :=
  ∀ (s : State) (t : Nat) (x : Team) (acc : BitVec 3) (ta tb : BitVec 8) (kb ka : BitVec 16),
    MatAt s t x [acc.toNat] [(ta + x.seq.oa).toNat, (tb + x.seq.ox).toNat] →
    let na := (ta + x.seq.oa).toNat
    let nb := (tb + x.seq.ox).toNat
    let k0 := (ka + x.seq.ok).toNat
    let r0 := (kb + x.seq.ob).toNat
    let a := x.tile na
    let b := x.tile nb
    let fits := x.seq.opened.getLsbD acc.toNat = true ∧ a.ops = false ∧ b.ops = true ∧ a.elem = 0x0A ∧ b.elem = 0x0A ∧ a.rows ≤ 128 ∧
      k0 % 32 = 0 ∧ r0 % 32 = 0 ∧ k0 + 32 ≤ a.cols ∧ r0 + 32 ≤ b.rows
    (a.state ≠ .ready ∨ b.state ≠ .ready → exec (.mstep acc ta tb kb ka) s = .next s) ∧
    (a.state = .ready → b.state = .ready → ¬ fits → exec (.mstep acc ta tb kb ka) s = .next (s.seqFault x.id 0x13 0)) ∧
    (a.state = .ready → b.state = .ready → fits → s.canRegister [x.tileRng a false, x.tileRng b false] = true →
      exec (.mstep acc ta tb kb ka) s =
        let u := s.updTeam x.id (fun y => { y with seq := { y.seq with accs := vecUpd y.seq.accs acc.toNat (fun p =>
          p.mstep a.rows b.cols ((List.range a.rows).map (fun i => x.rowA a k0 i)) ((List.range b.cols).map (fun j => x.colB b r0 j))) } })
        .next ((u.addMop x (.mstep acc ta tb kb ka) [na, nb] 0 [x.tileRng a false, x.tileRng b false]).updTeam x.id
          (fun y => { y with seq := { y.seq with mpc := y.seq.mpc + 8 } })))

/-- A plane in canonical form (Table 12.3): elements in ascending order, each below 16384 and none +0. -/
def PlaneWf (p : Plane) : Prop := cellWf p = true ∧ ∀ e ∈ p, e.1 < 16384

/-- R203, R204: what the planes hold after a k-step and after MEND, element by element: rows below m and columns below n get the
products of their chain in ascending k, the even ones in E and the odd ones in O, each rounded once; MEND adds O to E. -/
def ChainsRound : Prop :=
  ∀ (p : Acc) (m n : Nat) (rows cols : List (List Nat)) (i j : Nat), PlaneWf p.e → PlaneWf p.o → i < 128 → j < 128 →
    let q := p.mstep m n rows cols
    let pairs := (rows.getD i []).zip (cols.getD j [])
    let steps := fun (parity : Nat) (v : Half) => ((pairs.zip (List.range pairs.length)).filter (fun z => z.2 % 2 == parity)).foldl (fun v z => chainAdd v z.1.1 z.1.2) v
    (q.e.at i j = if i < m ∧ j < n then steps 0 (p.e.at i j) else p.e.at i j) ∧
    (q.o.at i j = if i < m ∧ j < n then steps 1 (p.o.at i j) else p.o.at i j) ∧
    PlaneWf q.e ∧ PlaneWf q.o ∧ q.steps = p.steps + 1 ∧
    (p.mend.e.at i j = BitVec.ofNat 32 (fadd32 (p.e.at i j).toNat (p.o.at i j).toNat)) ∧ p.mend.o.at i j = 0 ∧ PlaneWf p.mend.e

/-- R206, R207, R214: MOUT and MAMAX issue where their checks pass, and are then in flight with their ranges; MOUT of bf16 or f32
rewrites its tile, which is FILLING until the operation completes. -/
def ResultWordsIssue : Prop :=
  ∀ (s : State) (t : Nat) (x : Team),
    (∀ fmt sat scl (acc : BitVec 3) (ta aux : BitVec 8) (boff : BitVec 16) (rows cols : BitVec 7),
      let i := Instr.mout fmt sat scl acc ta aux boff rows cols
      let tiled := fmt = .bf16 ∨ fmt = .f32
      let n := (ta + x.seq.oa).toNat
      let off := 64 * (boff + x.seq.ob).toNat
      let size := (rows.toNat + 1) * (cols.toNat + 1) * (match fmt with | .bf16 => 2 | .f32 => 4 | _ => 1)
      let rs : List Rng := [{ core := x.coreNum, space := .spad x.id, lo := off, hi := off + size, write := true }]
      MatAt s t x [acc.toNat] (if tiled then [n] else []) →
      (4096 * x.spch < off + size → exec i s = .next (s.seqFault x.id 0x05 0)) ∧
      (off + size ≤ 4096 * x.spch → x.seq.opened.getLsbD acc.toNat = true → exec i s = .next (s.seqFault x.id 0x13 0)) ∧
      (off + size ≤ 4096 * x.spch → x.seq.opened.getLsbD acc.toNat = false → s.canRegister rs = true →
        (tiled → ((x.tile n).state = .empty ∨ (x.tile n).state = .ready ∧ s.copyNames x.id n = false ∧ s.mopNames x.id n = false) →
          let tile : Tile := { off, rows := rows.toNat + 1, cols := cols.toNat + 1, elem := (if fmt = .bf16 then 0x0A else 0x08), ops := false, state := .filling }
          exec i s = .next (((s.updTile x.id n (fun _ => tile)).addMop x i [n] off rs).updTeam x.id
            (fun y => { y with seq := { y.seq with mpc := y.seq.mpc + 8 } }))) ∧
        (¬ tiled → exec i s = .next ((s.addMop x i [] off rs).updTeam x.id (fun y => { y with seq := { y.seq with mpc := y.seq.mpc + 8 } }))))) ∧
    (∀ (acc : BitVec 3) (aux : BitVec 8) (rows cols : BitVec 7) (a : Ag) (tg : Target) (u o : Nat),
      let i := Instr.mamax acc aux rows cols
      let va := x.seq.ms.getD aux.toNat 0
      let rs : List Rng := [{ core := x.coreNum, space := .spad u, lo := o, hi := o + 4, write := true }]
      MatAt s t x [acc.toNat] [] →
      (x.seq.opened.getLsbD acc.toNat = true → exec i s = .next (s.seqFault x.id 0x13 0)) ∧
      (x.seq.opened.getLsbD acc.toNat = false → s.seqAgent x = some a →
        (∀ c, s.check a.w .vatomic va 4 = .error c → c ≠ 0x06 → exec i s = .next (s.seqFault x.id c va.toNat)) ∧
        (s.check a.w .vatomic va 4 = .ok tg → tg.loc = .spad u o → s.canRegister rs = true →
          exec i s = .next ((s.addMop x i [] 0 rs).updTeam x.id (fun y => { y with seq := { y.seq with mpc := y.seq.mpc + 8 } })))))

/-- R206, R214, Table 12.5: a MOUT writes its rows one after another, and the oldest operation of a team completes with its last row: a
k-step and an MSET.ld leave flight, and a MOUT's tile is READY. The bytes of its rows are the elements in format F. -/
def MatrixOperationsComplete : Prop :=
  ∀ (s : State) (t : Nat) (x : Team) (m : MOp), s.team? t = some x → s.teamLive x = true → s.mops.find? (fun (y : MOp) => y.team == t) = some m →
    m.faulted = false →
    (m.atEnd = true → exec (.matrixOperationComplete t) s = .next ((s.mopFinish x m).settleTeam t)) ∧
    ((∃ acc ta tb kb ka, m.instr = .mstep acc ta tb kb ka) ∨ (∃ k off, m.instr = .msetLd k off) →
      exec (.matrixOperationComplete t) s =
        .next (({ s with mops := s.mops.filter (fun y => y.id != m.id), hurdles := s.hurdles.filter (fun h => h.owner != Owner.mop m.id) }).settleTeam t)) ∧
    (∀ fmt sat scl acc ta aux boff rows cols, m.instr = .mout fmt sat scl acc ta aux boff rows cols → x.spad.wf = true → m.team = x.id →
      (m.atEnd = false → s.mops.find? (fun (y : MOp) => y.id == m.id) = some m → ∃ y, (s.moveRow m.id).team? t = some y ∧
        (∀ j, j ≤ cols.toNat →
          y.spad.le (m.off + (m.rowsDone * (cols.toNat + 1) + j) * moutSize fmt) (moutSize fmt) =
            moutElem fmt sat (if scl then some ((x.seq.ms.getD aux.toNat 0).toNat % 0x100000000) else none)
              ((x.seq.acc acc.toNat).e.at m.rowsDone j) % 256 ^ moutSize fmt) ∧
        (∀ a, a < m.off + m.rowsDone * (cols.toNat + 1) * moutSize fmt ∨ m.off + (m.rowsDone + 1) * (cols.toNat + 1) * moutSize fmt ≤ a →
          cellRead y.spad a = cellRead x.spad a) ∧
        (s.moveRow m.id).mops.find? (fun (y : MOp) => y.id == m.id) = some { m with rowsDone := m.rowsDone + 1, pmax := 0 }) ∧
      ∃ y, (s.mopFinish x m).team? t = some y ∧ (∀ n ∈ m.tiles, n < y.tiles.length → (y.tile n).state = .ready) ∧
        (s.mopFinish x m).mops = s.mops.filter (fun y => y.id != m.id) ∧
        (∀ i j, m.rowsDone ≤ i → i ≤ rows.toNat → j ≤ cols.toNat →
          y.spad.le (m.off + (i * (cols.toNat + 1) + j) * moutSize fmt) (moutSize fmt) =
            moutElem fmt sat (if scl then some ((x.seq.ms.getD aux.toNat 0).toNat % 0x100000000) else none) ((x.seq.acc acc.toNat).e.at i j)
              % 256 ^ moutSize fmt) ∧
        (∀ a, a < m.off + m.rowsDone * (cols.toNat + 1) * moutSize fmt ∨ m.off + (rows.toNat + 1) * (cols.toNat + 1) * moutSize fmt ≤ a → cellRead y.spad a = cellRead x.spad a))

/-! ### The copy engine: R181 to R197 -/

/-- What the place and the geometry of a copy's transfer are. -/
def geoFor (t : Team) (c : CopyRec) : Geo := geoOf c.op c.pkt (t.tile (c.pkt.tile.toNat % 256))

/-- A copy has moved `n` more bytes, those whose turn it was, the movement having made `u` of the state; it counts for the engine's skid
bound, while its context's stop is due (R174). -/
def Moved (i : Instr) (s : State) (t : Team) (c : CopyRec) (u : State) (n : Nat) : Prop :=
  exec i s = .next ((u.updCopy c.id (fun x => x.moved (geoFor t c) n)).noteSkid t.ctx (.copy c.id))

/-- A fault of the bytes that a copy moves in their turn is the copy's; one that bytes ahead of their turn meet is left for their turn, and
nothing is moved (R194). -/
def MoveFaults (i : Instr) (s : State) (t : Team) (c : CopyRec) (k v : Nat) : Prop :=
  exec i s = .next (if c.turn = none then s.copyFault t c k v else s)

/-- The sector of a transfer of rows of `b` bytes at a pitch that a copy moves now (R185, R195): address and bytes, cut at multiples of 32. -/
structure Sector (c : CopyRec) (b pitch dst : Nat) (r o va n : Nat) : Prop where
  row : r = c.off / b
  offset : o = c.off % b
  addr : va = dst + r * pitch + o
  bytes : n = min (32 - va % 32) (b - o)

/-- R185, R186, R194, R195: COPY, FILL, MCAST, DRAIN and SIGNAL move the next sector of their destination: the bytes they read, the
pattern's, or the tile's; only the trailing sector is a release. A fault of a read or a write is the copy's. The sectors are moved in their
turn or ahead of it (R305): when is the device's free choice, and what has been moved ahead is not moved again. SIGNAL waits for every packet
that its group issued earlier. -/
def RowCopiesMoveASector : Prop :=
  ∀ (s : State) (c : CopyRec) (p : CopyPacket) (t : Team) (a : Ag) (r o va n : Nat) (rel : Bool),
    let pitch := if p.dpitch = 0 then p.length.toNat else p.dpitch.toNat
    let from_ := fun (u : State) => u.copyRead a p.ro false (p.src.toNat + r * p.spitch.toNat + o) n
    let last := fun (b pitch rows : Nat) => rel = decide ((p.dst.toNat + ((rows - 1) * pitch + b) - 1) / 32 * 32 ≤ va)
    (CopyAt s c .copy p t a → Sector c p.length.toNat pitch p.dst.toNat r o va n → last p.length.toNat pitch p.nRows →
      (∀ u w bs x, from_ s = .ok u bs → u.copyWrite a va bs rel = .ok w x → Moved (.copy p) s t c w n) ∧
      (∀ k v, from_ s = .fault k v → MoveFaults (.copy p) s t c k v) ∧
      (∀ u bs k v, from_ s = .ok u bs → u.copyWrite a va bs rel = .fault k v → MoveFaults (.copy p) s t c k v)) ∧
    (CopyAt s c .fill p t a → Sector c p.length.toNat pitch p.dst.toNat r o va n → last p.length.toNat pitch p.nRows →
      ∀ w x, s.copyWrite a va ((List.range n).map (fun j => (leBytes 8 p.src.toNat).getD ((o + j) % 8) 0)) rel = .ok w x → Moved (.fill p) s t c w n) ∧
    (CopyAt s c .mcast p t a → Sector c p.length.toNat pitch p.dst.toNat r o va n →
      ∀ u bs, from_ s = .ok u bs →
        Moved (.mcast p) s t c (c.dests.foldl (fun (u : State) k => u.storeSpad k (va - ownWindow) bs) u) n) ∧
    (CopyAt s c .drain p t a → p.tile.toNat < 256 → p.dst ≠ 0 →
      let x := t.tile p.tile.toNat
      let b := x.cols * x.size
      let pitch := if p.dpitch = 0 then b else p.dpitch.toNat
      Sector c b pitch p.dst.toNat r o va n → last b pitch x.rows →
      ∀ w y, s.copyWrite a va (t.spad.bytes (x.off + r * b + o) n) rel = .ok w y → Moved (.drain p) s t c w n) ∧
    (CopyAt s c .signal p t a →
      (s.copies.any (fun x => x.team == c.team && x.grp == c.grp && x.id < c.id) = true → exec (.signal p) s = .next s) ∧
      (s.copies.any (fun x => x.team == c.team && x.grp == c.grp && x.id < c.id) = false →
        ∀ w y, s.copyWrite a p.dst.toNat (leBytes 8 p.signal.toNat) true = .ok w y → Moved (.signal p) s t c w 8)) ∧
    (∀ (g : Geo) (k : Nat), (c.turn = none → c.ahead = [] → c.moved g k = { c with progress := c.progress + k }) ∧
      (∀ z, c.turn = some z → c.moved g k = { c with turn := none, ahead := z :: c.ahead }) ∧
      (∀ z, c.turn = some z → c.mayMove g = true → c.progress < z ∧ z ∉ c.ahead ∧ z < g.total))

/-- R187 to R190: EXPAND reads a block of 32 elements with its scale at once, and writes the two sectors of its tile one after the other, the
second from what it has read, or read anew after a resumption; a block ahead of its turn is written whole. BLOAD puts 32 rows of a column in
the operand store, which as the size of its piece is the model's choice (log 26); REGFILL fills eight lanes of a register, and the registers
that the moved prefix has passed are full. -/
def BlockCopiesMoveABlock : Prop :=
  ∀ (s : State) (c : CopyRec) (p : CopyPacket) (t : Team) (a : Ag),
    (CopyAt s c .expand p t a →
      let rowB := 2 * p.cols.toNat
      let va := p.dst.toNat + c.off
      let last := decide ((p.dst.toNat + p.rows.toNat * rowB - 1) / 32 * 32 ≤ va)
      let o := c.off / 64 * 64
      let keep := fun (w : State) (bs : List Byte) => w.updCopy c.id (fun x => { x with buf := bs })
      (c.turn = none → c.off % 64 = 0 → ∀ u bs w x, s.expandRow a c (o / rowB) (o % rowB / 2) = .ok u bs →
        u.copyWrite a va (bs.take 32) last = .ok w x → Moved (.expand p) s t c (keep w (bs.drop 32)) 32) ∧
      (c.off % 64 ≠ 0 → c.buf.length = 32 → ∀ w x, s.copyWrite a va c.buf last = .ok w x →
        Moved (.expand p) s t c (keep w []) 32) ∧
      (c.turn = none → c.off % 64 ≠ 0 → c.buf.length ≠ 32 → ∀ u bs w x, s.expandRow a c (o / rowB) (o % rowB / 2) = .ok u bs →
        u.copyWrite a va (bs.drop 32) last = .ok w x → Moved (.expand p) s t c (keep w []) 32) ∧
      (c.turn ≠ none → ∀ u bs v w x y, s.expandRow a c (o / rowB) (o % rowB / 2) = .ok u bs →
        u.copyWrite a va (bs.take 32) false = .ok v x → v.copyWrite a (va + 32) (bs.drop 32) false = .ok w y →
        Moved (.expand p) s t c w 64)) ∧
    (CopyAt s c .bload p t a →
      let k := 32 * (c.off / 64 / p.cols.toNat)
      let j := c.off / 64 % p.cols.toNat
      ∀ u bs, s.expandCol a c k j = .ok u bs →
        Moved (.bload p) s t c (u.updTeam t.id (fun y => { y with ops := y.ops.store (4096 * j + p.dst.toNat + 2 * k) bs, opsUsed := true })) 64) ∧
    (CopyAt s c .regfill p t a →
      let first := (p.dst.extractLsb' 0 16).toNat
      let passed := fun (x : CopyRec) => x.progress / 128
      let full := (List.range (passed (c.moved (geoFor t c) 32) - passed c)).map (fun i => first + passed c + i)
      ∀ u bs, s.copyRead a p.ro false (p.src.toNat + c.off) 32 = .ok u bs →
        Moved (.regfill p) s t c
          (u.updGroup t.id (p.dst.extractLsb' 16 8).toNat (fun g => (g.regfill (first + c.off / 128) (c.off % 128) bs).regfull full)) 32) ∧
    (∀ (g : Group) (n o : Nat) (bs : List Byte), g.retired = false → n < 320 → o + 32 ≤ 128 → o % 32 = 0 →
      let h := g.regfill n o bs
      (∀ l, l < 32 → h.core.vget n l =
        if o / 4 ≤ l ∧ l < o / 4 + 8 ∧ g.core.live.getLsbD l = true then BitVec.ofNat 32 (leNat ((bs.drop (4 * (l - o / 4))).take 4)) else g.core.vget n l) ∧
      h.core.vfull = g.core.vfull) ∧
    (∀ (g : Group) (rs : List Nat) (n : Nat), g.retired = false → n < 320 →
      (g.regfull rs).core.vfullOf n = if n ∈ rs then g.core.vfullOf n ||| g.core.live else g.core.vfullOf n) ∧
    (∀ (g : Group) (n o : Nat) (bs : List Byte) (rs : List Nat), g.retired = true → g.regfill n o bs = g ∧ g.regfull rs = g)

/-- R185, R26, R191: a copy whose bytes are all written and performed completes: its signal, when it has one, is counted, its tile is
READY, or EMPTY after a DRAIN, its token is free, and the copy and its ranges are gone. The signal, a release, also follows the remote causal
stores of the arm that issued the packet (R228). -/
def Obligations.CopiesComplete : Prop :=
  ∀ (s : State) (c : CopyRec) (t : Team) (a : Ag), s.copy? c.id = some c → s.copyLive c = true → s.team? c.team = some t →
    s.copyAgent c t = some a → s.writesOut a.key true true = false → (geoFor t c).total ≤ c.progress →
    (c.pkt.signal ≠ 0 → s.issuerOut a = false) → t.isForked = false → t.isFolded = false →
    let ends := fun (u : State) =>
      let u := if c.pkt.tileEn then u.updTile t.id c.pkt.tile.toNat (fun x => { x with state := if c.op = .drain then .empty else .ready }) else u
      let u := if c.pkt.tokenEn then u.updGroup t.id c.grp (fun g => { g with tokens := g.tokens &&& ~~~ (1#8 <<< c.pkt.token.toNat) }) else u
      exec (.copyComplete c.id) s = .next (({ u with
        copies := u.copies.filter (fun x => x.id != c.id), hurdles := u.hurdles.filter (fun h => h.owner != Owner.copy c.id) } : State).settleTeam t.id)
    (c.op = .signal ∨ c.pkt.signal = 0 → ends s) ∧
    (c.op ≠ .signal → c.pkt.signal ≠ 0 → ∀ u x, s.copySignal a c.pkt.signal.toNat = .ok u x → (∀ y, u.team? t.id = some y → y.isForked = false ∧ y.isFolded = false) → ends u) ∧
    (∀ tg pa, s.checkCopy a.w .atomic c.pkt.signal.toNat 8 = .ok tg → tg.loc = .spad t.id pa → tg.size = 8 → t.spad.wf = true →
      ∃ u y, s.copySignal a c.pkt.signal.toNat = .ok u () ∧ u.team? t.id = some y ∧ y.spad.le pa 8 = (t.spad.le pa 8 + 1) % 2 ^ 64)

/-! ### The distributor, forks and the ends of contexts: R155 to R180, R246 to R265 -/

/-- R158, R160: the queue engine reads the packet of the head slot. A packet that passes every check begins its grid, and the slot is
consumed: its opcode becomes zero and RDIDX advances. Another is refused with its reason: STATE is 1, the queue halts, the packet stays, and a
QUEUE_ERROR record is posted (R177, Table 10.14). That the engine may read what a group has stored before other agents see it is the model's
choice (log 103). -/
def LaunchesStartOrAreRefused : Prop :=
  ∀ (s : State) (n : Nat) (q : QBind) (c : Context) (p : LaunchPacket), s.queue? n = some q → s.ctx? q.ctx = some c →
    s.queueReady q = true → s.headPacket q = p →
    let refused := fun (reason : Nat) => ∃ u, exec (.launch n p) s = .next u ∧ u.queue? n = some { q with halted := true } ∧
      u.grids = s.grids ∧ u.sets = s.sets ∧ u.teams = s.teams ∧
      (s.mem.wf = true → s.partialPoison (q.base + 17) 2 = false →
        let state := u.mem.le (q.base + 17) 2 = 1 + 256 * (reason % 256) ∧ u.rdIdx q = s.rdIdx q
        let at_ := c.ga (c.eqBase + 32 * (c.eqwr.toNat % 2 ^ c.eqLog))
        (c.eqFull = true → state) ∧
        (c.eqFull = false → at_ + 32 ≤ q.base ∨ q.base + 64 ≤ at_ → s.partialPoison at_ 32 = false →
          state ∧ u.mem.le at_ 32 = (eventRec 3 q.slot reason 0 0 (s.rdIdx q) p.opcode.toNat s.time).toNat ∧
          ∃ c', u.ctx? q.ctx = some c' ∧ c'.eqwr = c.eqwr + 1 ∧ c'.eqlost = c.eqlost))
    (∀ r, fieldReason p = some r → refused r) ∧
    (p.opcode ≠ 0x20 → refused 1) ∧
    (fieldReason p = none → s.everFits c (launchSet 0 c.num 0 q.prio p 0) = false → refused 5) ∧
    (fieldReason p = none → s.everFits c (launchSet 0 c.num 0 q.prio p 0) = true →
      ∃ u, exec (.launch n p) s = .next u ∧
        u.grids = s.grids ++ [{ id := s.nextId, ctx := c.num, slot := q.slot, index := s.rdIdx q, pkt := p, set := s.nextId + 1, startedAt := none, startStep := 0, sigSent := false, finished := false }] ∧
        (∃ x, u.sets = s.sets ++ [x] ∧ x.id = s.nextId + 1 ∧ x.ctx = c.num ∧ x.grid = s.nextId ∧ x.count = p.count.toNat ∧ x.groups = p.groups.toNat ∧
          x.tpf = p.teamsPerFlock.toNat ∧ x.entry = p.entry ∧ x.args = p.args ∧ x.nextChild = 0 ∧ (lpViewed p = false → x.phase = .running)) ∧
        u.teams = s.teams ∧
        (s.partialPoison (s.slotAddr q) 1 = false → s.partialPoison (q.base + 8) 8 = false →
          u.mem = (s.mem.store (s.slotAddr q) [0]).store (q.base + 8) (leBytes 8 (s.rdIdx q + 1))))

/-- R10, R27, R163, R248: the next child of a set that goes first and fits is placed: its team is resident at the core, with the set's
groups, all at the entry, and in a view of its own when the set is viewed. -/
def ChildrenArePlaced : Prop :=
  ∀ (s : State) (n core core1 : Nat) (x : ChildSet) (c : Context), s.set? n = some x → s.ctx? x.ctx = some c → s.setTurn x = true →
    s.childFits c x core core1 [] = true → x.mirror = false → x.tpf = 0 →
    ∃ u t, exec (.teamPlacement n core core1) s = .next u ∧ u.teams = s.teams ++ [t] ∧ t.ctx = c.num ∧ t.set = n ∧ t.childIdx = x.nextChild ∧
      t.place = .running core (s.freeSlot core) ∧ t.prio = x.prio ∧ t.depth = x.depth ∧ t.kargs = x.args ∧ t.vregs = (reqOf x.res).vregs ∧
      t.groups.map (fun y => y.grpidx) = List.range x.groups ∧
      (∀ y ∈ t.groups, y.core.armA.spc = x.entry ∧ y.core.armA.lpc = x.laneBase ∧ y.core.live = BitVec.allOnes 32 ∧ y.retired = false ∧
        y.gid < c.nGroupAreas ∧ y.gid ∉ s.gidsUsed c.num) ∧
      t.seq.mpc = x.matEntry ∧ t.seq.run = (if x.matEntry = 0 then 2 else 0) ∧
      (x.kind = .openLaunch → t.view = none ∧ u.views = s.views) ∧
      (x.kind ≠ .openLaunch → ∃ v, u.views = s.views ++ [v] ∧ t.view = some v.id ∧ v.set = n ∧ v.child = x.nextChild ∧ v.dirty = [] ∧ v.quota = x.quota) ∧
      u.set? n = some { x with nextChild := x.nextChild + 1 } ∧ u.pending = s.pending

/-- R27, R28, R163, R264: the next child of a flock launch is placed as one team for each core-in-flock k below TEAMS_PER_FLOCK, all in one
flock, and a child of a MIRROR set twice, the second run in another flock; each run has one view of its own when the set is viewed. -/
def FlocksAndMirrorsArePlaced : Prop :=
  ∀ (s : State) (n core core1 : Nat) (x : ChildSet) (c : Context), s.set? n = some x → s.ctx? x.ctx = some c → s.setTurn x = true →
    s.childFits c x core core1 [] = true →
    let unit := if x.tpf = 0 then 1 else x.tpf
    let runs := if x.mirror then 2 else 1
    (x.mirror = true → flockOf core ≠ flockOf core1) ∧
    ∃ u ts vs, exec (.teamPlacement n core core1) s = .next u ∧ u.teams = s.teams ++ ts ∧ ts.length = runs * unit ∧ u.views = s.views ++ vs ∧
      vs.length = (if x.kind = .openLaunch then 0 else runs) ∧
      (∀ (j : Nat) (t : Team), ts[j]? = some t →
        let k := j % unit
        let base := if j / unit = 0 then core else core1
        t.ctx = c.num ∧ t.set = n ∧ t.childIdx = x.nextChild ∧ t.run = j / unit ∧ t.groups.map (fun y => y.grpidx) = List.range x.groups ∧
        (∃ b, t.place = .running (if x.tpf = 0 then base else coreOf (flockOf base) k) b) ∧
        (x.tpf = 0 → t.flockPos = none ∧ t.teamIdx = x.nextChild) ∧
        (x.tpf ≠ 0 → t.flockPos = some k ∧ t.teamIdx = x.nextChild * x.tpf + k ∧ t.flockIdx = x.nextChild) ∧
        (x.kind = .openLaunch → t.view = none) ∧
        (x.kind ≠ .openLaunch → ∃ v, vs[j / unit]? = some v ∧ t.view = some v.id ∧ v.run = j / unit ∧ v.set = n ∧ v.child = x.nextChild ∧
          v.quota = x.quota ∧ v.dirty = [])) ∧
      u.set? n = some { x with nextChild := x.nextChild + 1 }

/-- R141, R165: a grid that is over completes when its context runs: its signal is stored, and once it is performed its COMPLETE record is
posted, with SIGFAIL when the signal could not be written or was lost on its way, its slot's hold ends, and the lines that its `.ro` loads
have allocated leave the L1s. -/
def GridsComplete : Prop :=
  ∀ (s : State) (n : Nat) (g : Grid) (c : Context) (x : ChildSet), s.grid? n = some g → s.ctx? g.ctx = some c → s.set? g.set = some x →
    g.finished = false → s.ctxRuns c.num = true → s.gridOver x = true →
    let ends := fun (u : State) => exec (.gridComplete n) s =
      .next { u with grids := updWhere (fun (y : Grid) => y.id == n) (fun y => { y with finished := true }) u.grids, l1 := u.l1.filter (fun y => !(y.ro && y.grid == n)) }
    let status : Half := if x.kind = .openLaunch then (match x.fault with | some (k, code, _) => stChildFault k code | none => 1) else x.status
    let rec_ := fun (lost : Nat) (u : State) => eventRec 1 g.slot 0 lost status.toNat g.index g.pkt.sigVal.toNat u.time
    let ended := fun (lost : Nat) (u : State) => (lpEvent g.pkt = false → ends u) ∧ (lpEvent g.pkt = true → ends (u.postEvent c.num (rec_ lost u)))
    let signal := s.hubStore c 0 g.pkt.sigAddr (leBytes 8 g.pkt.sigVal.toNat) false n
    (g.sigSent = true → s.hubWaits n = true → exec (.gridComplete n) s = .next s) ∧
    (g.sigSent = true → s.hubWaits n = false → ended g.sigLost.toNat s) ∧
    (g.sigSent = false → g.pkt.sigAddr = 0 → ended 0 s) ∧
    (∀ u, g.sigSent = false → g.pkt.sigAddr ≠ 0 → signal = some (u, false) → ended 0 u) ∧
    (∀ u, g.sigSent = false → g.pkt.sigAddr ≠ 0 → signal = some (u, true) → exec (.gridComplete n) s =
      .next { u with grids := updWhere (fun (y : Grid) => y.id == n) (fun y => { y with sigSent := true }) u.grids }) ∧
    (g.sigSent = false → g.pkt.sigAddr ≠ 0 → signal = none → ended 1 s)

/-- R169, R171: a team that a placement of a higher priority needs gone is pre-empted, once none of its arms is within an LQ (log 28): its
sequencer reaches its boundary, its state lies in its image, and it holds no core and no hurdle range; one that its sequencer's last
operation ends has retired. A pre-empted team that goes first resumes on a core that fits it, the two runs of a MIRROR child in different
flocks (R264). -/
def TeamsArePreemptedAndResumed : Prop :=
  ∀ (s : State) (n : Nat) (t : Team) (c : Context), s.team? n = some t → s.ctx? t.ctx = some c →
    (∀ v w, s.toPreempt.contains n = true → t.betweenWords = true → (s.stopSeq n).suspendMops n = v → v.team? n = some w →
      (v.teamOver w = true → exec (.preemption n) s = .next (v.endTeam w)) ∧
      (v.teamOver w = false → w.isEnded = false →
        ∃ u, exec (.preemption n) s = .next u ∧ u.team? n = some { w with place := w.place.evict } ∧
          (∀ k, k ≠ n → u.team? k = v.team? k) ∧ (∀ x ∈ u.copies, x.team = n → x.suspended = true) ∧
          (∀ h ∈ u.hurdles, ∀ x ∈ u.copies, x.team = n → h.owner ≠ .copy x.id) ∧ u.contexts = v.contexts)) ∧
    (s.toPreempt.contains n = true → t.betweenWords = true → s.mops.any (fun m => m.team == n) = false → t.allRetired = false → t.isEnded = false →
      ∃ u, exec (.preemption n) s = .next u ∧ u.team? n = some { t with place := t.place.evict }) ∧
    (∀ core t1, t.isPreempted = true → t.allRetired = false → s.teamTurn t = true → s.teamFits c t core [] = true → s.readTeam c t = some t1 →
      (∀ g ∈ t.groups, g.retired = false → (s.readGroupOf c (s.readStores c t1) g).isSome = true) →
      ∃ u y, exec (.teamResumption n core) s = .next u ∧ u.team? n = some y ∧ y.place = .running core (s.freeSlot core) ∧ y.view = t.view ∧
        y.set = t.set ∧ y.groups.length = t.groups.length ∧ y.spad = (s.readStores c t1).spad ∧ y.seq = t1.seq ∧
        (∀ x ∈ u.copies, x.team = n → x.suspended = false ∧ x.core = core) ∧ u.wOf core = BitVec.allOnes 64) ∧
    (∀ core k b, ∀ u ∈ s.teams, u.set = t.set → u.childIdx = t.childIdx → u.run ≠ t.run → u.place = .running k b → flockOf k = flockOf core →
      exec (.teamResumption n core) s = .next s)

/-- R164, R249, R256: a set that waits takes its reservation when the pool has it, completes with QUOTA when the pool never has, and waits
on else. A FORK whose children can never be placed then ends with CHILD_FAULT, code 0x1B. -/
def ReservationsAreTakenInTurn : Prop :=
  ∀ (s : State) (n : Nat) (x : ChildSet) (c : Context), s.set? n = some x → s.ctx? x.ctx = some c → s.mayReserve x = true →
    (c.poolCap < x.need → exec (.twinReservation n) s =
      .next { s with sets := updWhere (fun (y : ChildSet) => y.id == n) (fun y => { y with phase := .done, status := 0x0908 }) s.sets }) ∧
    (x.need ≤ c.poolCap → x.need ≤ c.poolFree → x.isFork = true → s.everFits c x = false → exec (.twinReservation n) s =
      .next { s with sets := updWhere (fun (y : ChildSet) => y.id == n) (fun y => { y with phase := .aborted, status := 0x1B04 }) s.sets }) ∧
    (x.need ≤ c.poolCap → x.need ≤ c.poolFree → (x.isFork = true → s.everFits c x = true) → exec (.twinReservation n) s =
      .next { s with contexts := updWhere (fun (y : Context) => y.num == c.num) (fun y => { y with poolFree := y.poolFree - x.need }) s.contexts,
                     sets := updWhere (fun (y : ChildSet) => y.id == n) (fun y => { y with phase := .running, reserved := x.need }) s.sets }) ∧
    (x.need ≤ c.poolCap → c.poolFree < x.need → exec (.twinReservation n) s = .next s)

/-- R258 to R262: the fold of a set starts when its children have all ended: a faulted set aborts with CHILD_FAULT, and one with nothing
poisoned and no mismatch is joined. That a poisoned granule of the parent aborts with code UNCORRECTABLE and child 0xFFFF, as a poisoned twin does,
is the model's choice (log 98). The decision aborts a set with a conflict, and commits another: at the root its granules replace
committed memory. -/
def FoldsStartAndAreDecided : Prop :=
  ∀ (s : State) (n : Nat) (x : ChildSet), s.set? n = some x → s.ctxRuns x.ctx = true →
    let becomes := fun (u : State) (f : ChildSet → ChildSet) => { u with sets := updWhere (fun (y : ChildSet) => y.id == n) f u.sets }
    (x.kind ≠ .openLaunch → x.phase = .running → s.childrenOver x = true →
      (∀ k code va, x.fault = some (k, code, va) → exec (.joinStart n) s =
        .next (becomes s (fun y => { y with phase := .aborted, status := BitVec.ofNat 32 (k * 65536 + code * 256 + 4) }))) ∧
      (x.fault = none → ∀ k, s.foldPoison x (s.dirtyOf n) = some k → exec (.joinStart n) s =
        .next (becomes s (fun y => { y with phase := .aborted, granules := (s.dirtyOf n).length, poisoned := some k, status := BitVec.ofNat 32 (k * 65536 + 0x0E * 256 + 4) }))) ∧
      (x.fault = none → s.foldPoison x (s.dirtyOf n) = none → x.mirror = false →
        let fs := (s.dirtyOf n).map (fun ga => s.foldGranule x ga)
        let cs := fs.flatMap (fun f => f.2)
        exec (.joinStart n) s = .next (becomes s (fun y => { y with
          phase := .joined, granules := (s.dirtyOf n).length, staged := fs.map (fun f => f.1), conflicts := cs.length, conflict := lowestConflict cs })))) ∧
    (x.phase = .joined →
      (∀ c, x.conflict = some c → exec (.commitDecision n) s = .next (becomes s (fun y =>
        { y with phase := .aborted, staged := [], status := BitVec.ofNat 32 (c.b * 65536 + 0x08 * 256 + 2) }))) ∧
      (x.conflict = none → x.parentView = none → exec (.commitDecision n) s =
        .next (becomes (x.staged.foldl (fun (u : State) g => u.commitHome x g) s) (fun y => { y with phase := .committed, status := 1 }))) ∧
      (∀ v y, x.conflict = none → x.parentView = some v → s.view? v = some y →
        (y.quota < y.dirty.length + y.newly x.staged → exec (.commitDecision n) s =
          .next (becomes s (fun y => { y with phase := .aborted, staged := [], status := 0x0908 }))) ∧
        (y.dirty.length + y.newly x.staged ≤ y.quota → ∃ u, exec (.commitDecision n) s = .next u ∧
          ∃ z, u.set? n = some z ∧ z.phase = .committed ∧ z.status = 1)))

/-- R260: in a page without an operator, each byte that no child has changed keeps the parent's value, a byte that one child has changed
takes that child's, and a byte that two or more have changed is a conflict. -/
def Obligations.TheFoldKeepsTheOneChange : Prop :=
  ∀ (h : HeldPage) (va : Nat) (p t : Line) (cs : List (Nat × Line)) (o : Nat), h.vop = 0 → o < 128 →
    let st := cs.foldl (fun (st : FoldSt) c => foldChild h va t c.1 c.2 st) { p, owner := Vector.replicate 128 none, found := [] }
    let changed := cs.filter (fun c => c.2.getD o 0 != t.getD o 0)
    (changed = [] → st.p.getD o 0 = p.getD o 0) ∧
    (∀ c r, changed = c :: r → st.p.getD o 0 = c.2.getD o 0) ∧
    ((∃ f ∈ st.found, f.va = va + o) ↔ 2 ≤ changed.length)

/-- R260: with an operator of integers (ADD, MIN, MAX, OR), what an element becomes does not depend on the order in which its
children's copies are folded. -/
def Obligations.FoldOrderDoesNotMatter : Prop :=
  ∀ (vop w p t : Nat) (l l' : List Nat), vop ∈ [1, 2, 3, 5] → 0 < w → p < 2 ^ (8 * w) → t < 2 ^ (8 * w) → (∀ d ∈ l, d < 2 ^ (8 * w)) → l.Perm l' →
    l.foldl (fun p d => foldElem vop w p t d) p = l'.foldl (fun p d => foldElem vop w p t d) p

/-- R251, R262, R267, R168, R250: the end of a join: the record, when the parent lives and asked for one, says the status, and the join
ends once it is written; the reservation returns to the pool; views and twins are gone; the set is done. A join that a halt or a removal of
its context has aborted writes no record and releases no parent (R174, R178). The parent then waits for
resumption, and goes on with its status. That no record is written for a killed parent, and its reservation returns, is the model's
choice (log 61), and so is the place in which a parent waits after its fold (log 31). -/
def JoinsEndAndParentsResume : Prop :=
  ∀ (s : State) (n : Nat) (x : ChildSet) (c : Context), s.set? n = some x → s.ctx? x.ctx = some c →
    (x.kind ≠ .openLaunch → (x.phase = .committed ∨ x.phase = .aborted) → s.childrenOver x = true → s.dieStopped 8 = false →
      (x.phase = .aborted → s.ctxRuns x.ctx = true) → (∀ k t core b, x.parent = some k → s.team? k = some t → t.place ≠ .running core b) →
      (x.recSent = true → s.hubWaits n = true → exec (.joinComplete n) s = .next s) ∧
      (∀ t, x.recSent = false → s.parentLives x = some t → x.recAddr ≠ 0 →
        let write := s.hubStore c t.coreNum x.recAddr (joinRecord x.status x.info) true n
        (∀ u, write = some (u, true) → exec (.joinComplete n) s =
          .next { u with sets := updWhere (fun (y : ChildSet) => y.id == n) (fun y => { y with recSent := true, status := x.status }) u.sets }) ∧
        (∀ u, write = some (u, false) → ∃ v z, exec (.joinComplete n) s = .next v ∧ v.set? n = some z ∧ z.phase = .done ∧ z.status = x.status ∧ v.mem = u.mem) ∧
        (write = none → ∃ v z, exec (.joinComplete n) s = .next v ∧ v.set? n = some z ∧ z.phase = .done ∧ z.status = x.status ||| 0x20 ∧ v.mem = s.mem))) ∧
    (x.kind ≠ .openLaunch → (x.phase = .committed ∨ x.phase = .aborted) → s.childrenOver x = true → s.dieStopped 8 = false →
      (x.phase = .aborted → s.ctxRuns x.ctx = true) → (∀ k t core b, x.parent = some k → s.team? k = some t → t.place ≠ .running core b) →
      ((x.recSent = true ∧ s.hubWaits n = false ∧ s.parentAway x = false) ∨ (x.recSent = false ∧ (s.parentLives x = none ∨ x.recAddr = 0))) →
      ∃ u z, exec (.joinComplete n) s = .next u ∧ u.set? n = some z ∧ z.phase = .done ∧ z.status = x.status ∧ z.twins = [] ∧ z.staged = [] ∧ z.held = [] ∧
        u.views = s.views.filter (fun v => v.set != n) ∧ u.mem = s.mem ∧
        (x.kind ≠ .nestedFork → ∃ c', u.ctx? x.ctx = some c' ∧ c'.poolFree = c.poolFree + x.reserved) ∧
        (∀ k t core b, x.parent = some k → s.team? k = some t → t.place = .forked core b → t.allRetired = false →
          ∃ t', u.team? k = some t' ∧ t'.place = .folded core b)) ∧
    (x.kind ≠ .openLaunch → x.phase = .aborted → s.childrenOver x = true → s.dieStopped 8 = false →
      (c.removing = true ∨ ∃ code, c.halt = .applied code) →
      ∃ u z, exec (.joinComplete n) s = .next u ∧ u.set? n = some z ∧ z.phase = .done ∧ z.twins = [] ∧ z.staged = [] ∧ u.mem = s.mem ∧
        u.teams = s.teams ∧ u.views = s.views.filter (fun v => v.set != n)) ∧
    (∀ k t core t1, s.team? k = some t → t.ctx = x.ctx → s.lastFork k = some x → t.isFolded = true → t.imaged = false → t.allRetired = false → s.teamTurn t = true →
      s.teamFits c t core [] = true → s.readTeam c t = some t1 → joinEffect x.status = none →
      ∃ u y, exec (.parentResume k core) s = .next u ∧ u.team? k = some y ∧ y.place = .running core (s.freeSlot core) ∧
        ∀ g ∈ t.groups, (t.groups.filter (fun z => z.grpidx == g.grpidx)).length = 1 → g.retired = false → g.core.armA.wait = .fork →
          ∃ z, y.group? g.grpidx = some z ∧ z.core.armA.wait = .none ∧ z.core.armA.get g.forkDest = (if g.forkDest = 0 then 0 else x.status.zeroExtend 64) ∧
            z.joinStatus = x.status)

/-- R174, R176, R177, Tables 10.12 to 10.14: what a halt records. With no matrix operation of the context in flight: each group on a core
leaves a record of its lane engine, with the entries discarded, and one for each of its arms that has not exited, each team with a stream one
of its sequencer; the records go to the stop area in order, those beyond the 1024th are dropped and counted; and the STOP event says the
origin's code, how many were written and dropped, where the first one is, and the time. A record of 64 bytes has the fields of Table 10.13. -/
def HaltsAreRecorded : Prop :=
  (∀ (s : State) (n : Nat) (c : Context) (o : Origin), s.ctx? n = some c → c.halt = .raised o → s.haltHeld n = false →
    (∀ m ∈ s.mops, ∀ t ∈ s.teams, t.id = m.team → t.ctx ≠ n) →
    let rs := s.haltStops n o
    (∀ t ∈ s.teams, t.ctx = n → t.core?.isSome = true →
      (∀ g ∈ t.groups, g.retired = false →
        (∃ r ∈ rs, r.kind = 2 ∧ r.unit = g.gid ∧ r.core = t.coreNum ∧ r.disc = g.queue.length) ∧
        (∀ b, (b = true → g.core.split = true) → (g.core.arm b).wait ≠ .exited →
          ∃ r ∈ rs, r.kind = 1 ∧ r.unit = g.gid ∧ r.core = t.coreNum ∧ r.flags / 2 % 2 = b.toNat ∧ r.spc = (g.core.arm b).spc.toNat ∧
            r.lpc = (g.core.arm b).lpc.toNat)) ∧
      (t.seq.run ≠ 2 → ∃ r ∈ rs, r.kind = 3 ∧ r.unit = t.saveArea ∧ r.core = t.coreNum)) ∧
    ∃ (w : State) (x : Context), w.ctx? n = some x ∧ x.halt = .applied o.code ∧ (c.stops ≤ 1024 → x.stops = min 1024 (c.stops + rs.length)) ∧
      x.stops + x.stopsLost = c.stops + c.stopsLost + rs.length ∧
      exec (.halt n) s = .next (w.postEvent n (eventRec 2 o.code 0 0 x.stops x.stopsLost c.imageBase s.time))) ∧
  (∀ (s : State) (n : Nat) (c : Context) (r : StopRec), s.ctx? n = some c →
    (c.stops < 1024 → ∃ x : Context, (s.writeStop n r).ctx? n = some x ∧ x.stops = c.stops + 1 ∧ x.stopsLost = c.stopsLost ∧
      (s.partialPoison (c.ga (c.imageBase + 64 * c.stops)) 64 = false →
        (s.writeStop n r).mem = s.mem.store (c.ga (c.imageBase + 64 * c.stops)) (r.bytes s.time))) ∧
    (1024 ≤ c.stops → s.writeStop n r =
      { s with contexts := updWhere (fun (y : Context) => y.num == n) (fun y => { y with stopsLost := y.stopsLost + 1 }) s.contexts })) ∧
  (∀ (r : StopRec) (time : Nat), (r.bytes time).length = 64 ∧
    ∀ f ∈ [(0, 1, r.kind), (1, 1, r.code), (2, 1, r.flags), (3, 1, r.disc), (4, 4, r.unit), (8, 4, r.core), (12, 4, r.tcode), (16, 8, r.spc),
        (24, 8, r.lpc), (32, 8, r.addr), (40, 8, r.data), (48, 4, r.mask), (52, 4, r.status), (56, 8, time)],
      leNat (((r.bytes time).drop f.1).take f.2.1) = f.2.2 % 256 ^ f.2.1)

/-- R174, R176, R178, R172: a halt that is not held stops its context: the line is applied with its code, open trees abort, lane queues
are discarded and a STOP record is posted. A removed context whose teams have all ended unbinds its queues. The watchdog raises the
line of a context whose grid has run longer than its limit. The fields of the origin that no engine gives are the model's choice. -/
def ContextsHaltAndEnd : Prop :=
  ∀ (s : State) (n : Nat) (c : Context), s.ctx? n = some c →
    (∀ o, c.halt = .raised o → s.haltHeld n = false → (∀ m ∈ s.mops, ∀ t ∈ s.teams, t.id = m.team → t.ctx ≠ n) → ∃ u c', exec (.halt n) s = .next u ∧ u.ctx? n = some c' ∧ c'.halt = .applied o.code ∧
      (∀ t ∈ u.teams, t.ctx = n → t.core?.isSome = true → ∀ g ∈ t.groups, g.queue = [] ∧ g.frozen = none) ∧
      (∀ x ∈ u.sets, x.ctx = n → x.kind ≠ .openLaunch → x.phase = .committed ∨ x.phase = .aborted ∨ x.phase = .done)) ∧
    (∀ o, c.halt = .raised o → s.haltHeld n = true → exec (.halt n) s = .next s) ∧
    (c.removing = true → c.removedPosted = false → s.teams.all (fun t => t.ctx != n || t.isEnded) = true →
      ∃ u c', exec (.removed n) s = .next u ∧ u.ctx? n = some c' ∧ c'.removedPosted = true ∧ u.queues = s.queues.filter (fun q => q.ctx != n) ∧
        u.teams = s.teams ∧ (∀ g ∈ u.grids, g.ctx = n → g.finished = true)) ∧
    (∀ k g t0, s.grid? k = some g → g.ctx = n → g.startedAt = some t0 → g.finished = false → s.ctxRuns n = true → c.watchdog ≠ 0 →
      c.watchdog * 1000 < s.time - t0 →
      ∃ u, exec (.watchdog k) s = .next u ∧ u = { s with contexts := u.contexts } ∧ (∀ m, m ≠ n → u.ctx? m = s.ctx? m) ∧
        u.ctx? n = some { c with skid := [], faults := [], halt := .raised { kind := 6, code := 0x17, unit := 0, armB := false, core := 0xFFFFFFFF, addr := 0, mask := 0, tcode := 0, data := 0 } })

/-! ### The fabric: R268 to R288 -/

/-- R274, R275: an item at the head of a live channel, of the fabric's generation and with room for it, enters the pen and raises the
channel's mark; what the pen allows is delivered. One whose test fails with no room stays on the link. An item that stays held asks for
bells: that it asks once, as it enters, is the model's choice (log 73). An item of an earlier generation is dropped: that it is then both
lost and starts a resynchronisation is the model's choice (log 53). -/
def ItemsArriveInOrder : Prop :=
  ∀ (s : State) (i d : Nat) (x : OrdItem) (rest : List OrdItem), s.removedDies.contains d = false → (s.chan i d).ord = x :: rest →
    ∀ e ∈ [Instr.orderedPacket i d, .vectorFlit i d], (e = .orderedPacket i d ↔ x.full = none) →
      (s.ignores d i = false → x.gen = s.gen → s.mayEnter i d x = true →
        let y : OrdItem := { x with shared := decide (s.sharedUsed d < 128) }
        let u := s.putChan { s.chan i d with ord := rest, pen := (s.chan i d).pen ++ [y], arrived := x.own, mark := serMax (s.chan i d).mark x.own }
        let v := (u.takeBells i d).settleDie d
        exec e s = .next (if (v.chan i d).pen.isEmpty then v else v.askBells i d x)) ∧
      (s.ignores d i = false → x.gen = s.gen → s.mayEnter i d x = false → exec e s = .next s) ∧
      (s.ignores d i = false → x.gen ≠ s.gen → exec e s = .next (((s.putChan { s.chan i d with ord := rest }).loseLate x.payload).startResync .generation)) ∧
      (s.ignores d i = true → exec e s = .next ((s.putChan { s.chan i d with ord := rest }).abandonItem x.payload))

/-- R274, R275: a packet is delivered only when every entry of its stamp, its sender's apart, names a count that has arrived at the die
and is not held there; its stamp then joins the die's vector, and its effect takes place. A held packet that waits is not overtaken. A response
tells its receiver of the delivery of its request, whose stamp counts for the floor until then (R278). -/
def Obligations.DeliveryIsCausal : Prop :=
  ∀ (s : State) (i d : Nat),
    ((s.chan i d).pen = [] → s.deliverHead i d = none) ∧
    (∀ x rest, (s.chan i d).pen = x :: rest →
      let allowed := ∀ k c, (k, c) ∈ x.entries i → k ≠ i → k ≠ d → s.ignores d k = false →
        serGe (s.chan k d).mark c = true ∧ ∀ y ∈ (s.chan k d).pen, serGe c y.own = false
      (allowed → s.deliverHead i d =
        some (((((s.putChan { s.chan i d with pen := rest, lastFull := x.stamp (s.chan i d).lastFull i }).updVec d
          (fun v => vecMax v (x.stamp (s.chan i d).lastFull i))).noteDelivery i d x.payload).toldBy i d x.payload).performItem i d x.payload)) ∧
      (¬ allowed → s.deliverHead i d = none))

/-- R272, R273: an ordered packet takes the next count of its die, and carries the entries that have changed on its channel, by a vector
flit ahead of it when they are more than three. Its stamp has the fields of Table 18.1. A request that is answered counts for its die's floor
until the die is told of its delivery (R278). -/
def Obligations.StampsCarryWhatChanged : Prop :=
  ∀ (s : State) (i d : Nat) (p : Payload), i < 9 → d < 9 → i ≠ d →
    let u := s.inject i d p
    let own := s.vecAt i i + 1
    let ps := pairsOf i (s.vec i) (s.chan i d).sent
    u.vecAt i i = own ∧ (∀ k, k ≠ i → u.vecAt i k = s.vecAt i k) ∧
    (ps.length ≤ 3 → (u.chan i d).ord = (s.chan i d).ord ++ [{ gen := s.gen, own, pairs := ps, full := none, payload := p }]) ∧
    (3 < ps.length → (u.chan i d).ord = (s.chan i d).ord ++ [{ gen := s.gen, own := s.vecAt i i, pairs := [], full := some (s.vec i), payload := .vector },
      { gen := s.gen, own, pairs := [], full := none, payload := p }]) ∧
    (∀ k c, (k, c) ∈ ps ↔ k < 9 ∧ k ≠ i ∧ c = s.vecAt i k ∧ (s.chan i d).sent.getD k 0 ≠ c) ∧
    (∀ j k, (j, k) ≠ (i, d) → (u.chan j k).ord = (s.chan j k).ord) ∧
    u.untold = s.untold ++ (if p.answered = true then [{ src := i, dst := d, req := p, stamp := (s.vec i).setIfInBounds i own, delivered := false }] else []) ∧
    (∀ x : OrdItem, x.pairs.length ≤ 3 → (∀ q ∈ x.pairs, q.1 < 9 ∧ q.1 ≠ i) →
      let w := x.stampWord i
      w.extractLsb' 0 4 = x.gen ∧ w.extractLsb' 4 12 = x.own ∧ (w.extractLsb' 16 2).toNat = x.pairs.length ∧
      ∀ n q, x.pairs[n]? = some q → w.extractLsb' (18 + 15 * n) 12 = q.2 ∧ (w.extractLsb' (30 + 15 * n) 3).toNat = (q.1 + 8 - i) % 9)

/-- R274, R276, R278: a bell counts once the item that it names has arrived; a bell request is answered with a bell, and a report request
with a report; a report sets the floor that its sender holds to, and packets that waited go. That a report request tells its receiver of every
packet that the stalled die has had delivered is the model's choice (log 102). A die that
holds nothing later reports the entry of the one packet whose delivery it has not been told of. -/
def BellsAndReportsArrive : Prop :=
  ∀ (s : State) (i d : Nat), s.removedDies.contains d = false →
    (∀ n last, s.firstBell i d isBell = some (.bell s.gen n last) → s.ignores d i = false →
      exec (.bell i d) s = .next ((((s.popBell i d isBell).updChan i d (fun c => { c with bellWait := c.bellWait ++ [(n, last)] })).takeBells i d).settleDie d)) ∧
    (∀ n, s.firstBell i d isRequest = some (.request s.gen n) → s.ignores d i = false →
      exec (.bellRequest i d) s = .next ((s.popBell i d isRequest).ring d i)) ∧
    (∀ f, s.firstBell i d isReport = some (.report s.gen f) →
      exec (.report i d) s = .next (((s.popBell i d isReport).updChan d i (fun c => { c with floor := f })).flush)) ∧
    (s.firstBell i d isReportRequest = some .reportRequest → s.ignores d i = false →
      exec (.reportRequest i d) s = .next (((s.popBell i d isReportRequest).toldAll i d).report d i)) ∧
    (∀ n last gen, s.firstBell i d isBell = some (.bell gen n last) → gen ≠ s.gen → exec (.bell i d) s = .next (s.popBell i d isBell)) ∧
    (∀ u k, s.untold.filter (fun x => x.src == d) = [u] → (∀ j, (s.chan j d).pen = [] ∧ (s.chan d j).pen = [] ∧ (s.chan d j).ord = []) →
      serGe (s.vecAt d k) (u.stamp.getD k 0) = true → s.floorOf d k = u.stamp.getD k 0)

/-- R280, R281: a port error declares a live die removed, once; a die that the broadcast reaches forgets what it held of it and sends it
nothing more; a resynchronisation starts, and its drop advances the generation, zeroes every count and empties every pen, once no item of
the coming generation is on a link (R282). That the drop leaves the items and bells on the links is the model's choice (log 54), and so is
what declaring a die removed sets in READY and in the black box (log 55). -/
def DiesAreRemovedAndTheFabricResynchronised : Prop :=
  ∀ (s : State),
    (∀ d, d < 8 → s.liveDie d = true → exec (.fabricPortError d) s = .next (s.declareRemoved d 1)) ∧
    (∀ d, d < 8 → s.liveDie d = true → s.resync = none → s.removalHeld = [] → (∀ t ∈ s.teams, t.isEnded = true) →
      (∀ c ∈ s.chans, c.pen = [] ∧ c.ord = []) → s.outq = [] → ∃ u, exec (.fabricPortError d) s = .next u ∧ u.removedDies.contains d = true ∧ u.mgmt.ready.getLsbD (8 + d) = false ∧ u.mgmt.frozen = true) ∧
    (∀ d, s.liveDie d = false → exec (.fabricPortError d) s = .next s) ∧
    (∀ d k, s.removalDue.contains (d, k) = true → exec (.dieRemoved d k) s = .next (s.learnRemoval d k)) ∧
    (∀ c, s.resync = none → s.freq = none → ∃ u, exec (.fabricResync c) s = .next u ∧ u.resync = some c ∧ u.gen = s.gen ∧ u.teams = s.teams ∧ u.mem = s.mem) ∧
    (∀ c, s.resync = none → s.freq.isSome = true → s.resyncHeld = none → exec (.fabricResync c) s = .next { s with resyncHeld := some c }) ∧
    (∀ c r, s.resync = some r → exec (.fabricResync c) s = .next s) ∧
    (∀ r, s.resync = some r → s.onLinks (s.gen + 1) = true → exec .resyncDrop s = .next s) ∧
    (∀ r, s.resync = some r → s.onLinks (s.gen + 1) = false → s.removalHeld = [] → (∀ c ∈ s.chans, c.pen = []) → s.outq = [] →
      ∃ u, exec .resyncDrop s = .next u ∧ u.resync = none ∧ u.gen = s.gen + 1 ∧ u.vecs = Vector.replicate 9 (Vector.replicate 9 0) ∧
        u.chans = s.chans.map (fun c => { Chan.fresh c.src c.dst with ord := c.ord, bell := c.bell }) ∧
        u.mgmt.mewr = s.mgmt.mewr + 1 ∧
        u.mgmt.melog.head? = some (eventRec 0x42 (match r with | .link => 0 | .generation => 1 | .pen => 2 | .command => 3) (s.gen + 1).toNat 0 0 0 0 s.time))

/-! ### The host and the peers: R35, R227, R237 to R241 -/

/-- R238, R241: a host or peer write to a page that is not causal stores its bytes and no others, and a read returns the bytes with their
poison; the host keeps the lines that it reads. Nothing arrives from outside while the hub stands still for a frequency change, which is the
model's choice (log 37). That a page without a live translation counts as not causal is the model's choice
(log 36). -/
def HostAndPeersAccessMemory : Prop :=
  ∀ (s : State) (addr : Nat) (bs : List Byte) (n : Nat),
    (s.dieStopped 8 = true → ∀ e ∈ [Instr.hostMemwr addr bs, .hostMemrd addr n, .peerWrite addr bs, .peerRead addr n], exec e s = .next s) ∧
    (s.dieStopped 8 = false → bs ≠ [] → addr % 128 + bs.length ≤ 128 → s.causalPage addr = false → s.foreignFaults addr bs.length = false → s.partialPoison addr bs.length = false →
      s.mem.wf = true → ∀ e ∈ [Instr.hostMemwr addr bs, .peerWrite addr bs],
      ∃ u, exec e s = .next u ∧ u.mem.bytes addr bs.length = bs ∧ (∀ a, a < addr ∨ addr + bs.length ≤ a → cellRead u.mem a = cellRead s.mem a) ∧
        u.hostMem = s.hostMem ∧ u.contexts = s.contexts) ∧
    (s.dieStopped 8 = false → s.causalPage addr = false →
      exec (.peerRead addr n) s = .next { s with hostData := s.mem.bytes addr n, hostPoison := s.poisoned addr n } ∧
      (let held := (linesOf addr n).filter (fun l => !s.hostHeld.contains l) ++ s.hostHeld
       exec (.hostMemrd addr n) s = .next { s with hostHeld := held, hostData := s.mem.bytes addr n, hostPoison := s.poisoned addr n })) ∧
    (s.dieStopped 8 = false → s.causalPage addr = true → exec (.peerRead addr n) s = .next (s.send 8 (s.homeDie addr) (.hostRead addr n)))

/-- R227, R237, R238, R240, R269, R288: a snooped line leaves the hub cache; the sweep invalidates every outfield line of a die; a line that
the host gives up lets the write that waited for it be performed; the oldest peer store that has gone out to a peer is performed, or dropped
when the peer is unreachable, and a later one waits; a poisoned eviction poisons its line's sectors and is logged. That a peer store is
performed at its acknowledgement is the model's choice (log 56). -/
def CoherenceEventsComplete : Prop :=
  ∀ (s : State),
    (∀ addr, exec (.hostSnoop addr) s = .next { s with hubLines := s.hubLines.filter (fun l => l != addr / 128) }) ∧
    (∀ d, ∃ u, exec (.outfieldSweep d) s = .next u ∧ (∀ x ∈ u.outfield, x.die ≠ d) ∧ (∀ x ∈ s.outfield, x.die ≠ d → x ∈ u.outfield) ∧ u.mem = s.mem ∧ u.infield = s.infield) ∧
    (∀ h, s.heldWrites.find? (fun x => x.id == h.id) = some h →
      let gone := exec (.backInvalidationResponse h.id) s
      (h.line = none → gone = .next s) ∧
      (∀ line, h.line = some line → s.hostHeld.contains line = false → gone = .next s) ∧
      (∀ line, h.line = some line → s.hostHeld.contains line = true → s.heldWrites.filter (fun x => x.line == some line) = [h] →
        (∀ k, h.core = some k → s.dieStopped (dieOf k) = false) →
        let v : State := { s with hostHeld := s.hostHeld.filter (fun l => l != line) }
        (h.owner = none → gone = .next { v with heldWrites := s.heldWrites.filter (fun x => x.line != some line) }) ∧
        (h.owner ≠ none →
          (∀ u, v.tryWrite h = .wait u → gone = .next u) ∧
          (∀ u, v.tryWrite h = .done u → gone = .next { u with heldWrites := u.heldWrites.filter (fun x => x.id != h.id) }) ∧
          (∀ u, v.tryWrite h = .poison u →
            gone = .next (({ u with heldWrites := u.heldWrites.filter (fun x => x.id != h.id) } : State).heldPoison h))))) ∧
    (∀ p, s.peerStores.find? (fun x => x.id == p.id) = some p →
      let first := (s.peerStores.find? (fun q => q.sent && q.peer == p.peer)).map (fun q => q.id)
      (first ≠ some p.id → exec (.peerAcknowledge p.id) s = .next s) ∧
      (first = some p.id → s.peerDown p.peer = false → exec (.peerAcknowledge p.id) s =
        .next { p.runs.foldl (fun (u : State) r => (u.dropOut p.die (some p.peer) (r.1 / 128)).peerStore p.peer r.1 r.2) s with
          peerStores := s.peerStores.filter (fun q => q.id != p.id) }) ∧
      (first = some p.id → s.peerDown p.peer = true → ∃ u, exec (.peerAcknowledge p.id) s = .next u ∧ u.peerMem = s.peerMem ∧
        u.peerStores = s.peerStores.filter (fun q => q.id != p.id))) ∧
    (∀ (addr : Nat) (l : InLine), addr < 2 ^ 64 → s.inLine? (addr / 128) = some l → l.dirty = true → l.pin = false →
      ∃ u, exec (.poisonWritten addr) s = .next u ∧ (∀ k, k < 4 → addr / 128 * 128 + 32 * k ∈ u.poison) ∧ u.mem = s.mem ∧
        u.inLine? l.line = none ∧ u.mgmt.melog.head? = some (eventRec 0x60 (l.slice / 32) (l.slice % 256) (l.slice / 256) (l.ctx.getD 0xFFFFFFFF) (l.line * 128 % 2 ^ 56) 0 s.time))

/-! ### Power, reset and management: R17, R18, R155, R223, R306 to R318 -/

/-- R17, R18, R316: the course of a frequency change: the held request is broadcast; each live die acknowledges when its links are empty
and no reply or broadcast of a removal is on its way to it (log 37); once all have, the PLL relocks at the target; and the release starts
issue again. A die that does not acknowledge is removed. -/
def FrequencyChangesGoStepByStep : Prop :=
  ∀ (s : State),
    (∀ t, s.freqHeld = some t → s.freq = none → s.resync = none → s.step ≠ t →
      exec (.frequencyChange t) s = .next { s with freqHeld := none, freq := some { target := t, acked := [8], relocked := false } }) ∧
    (s.freqHeld = some s.step → s.freq = none → s.resync = none → exec (.frequencyChange s.step) s = .next { s with freqHeld := none }) ∧
    (∀ f d, s.freq = some f → d < 8 → s.liveDie d = true → d ∉ f.acked →
      ((∀ c ∈ s.chans, c.src = d → c.ord = [] ∧ c.bell = []) → s.replyDue d = true → exec (.dieAcknowledge d) s = .next s) ∧
      ((∀ c ∈ s.chans, c.src = d → c.ord = [] ∧ c.bell = []) → s.replyDue d = false → (∀ k, (d, k) ∉ s.removalDue) →
        exec (.dieAcknowledge d) s = .next { s with freq := some { f with acked := f.acked ++ [d] } }) ∧
      (∀ k, (d, k) ∈ s.removalDue → exec (.dieAcknowledge d) s = .next s) ∧
      exec (.ackTimeout d) s = .next (s.declareRemoved d 0)) ∧
    (∀ f, s.freq = some f → f.relocked = false → (∀ d, d < 8 → s.liveDie d = true → d ∈ f.acked) → (∀ c ∈ s.chans, c.ord = [] ∧ c.bell = []) →
      (∀ x ∈ s.removalDue, s.liveDie x.1 = false) →
      exec .pllRelock s = .next { s with freq := some { f with relocked := true }, step := f.target }) ∧
    (∀ x ∈ s.removalDue, s.liveDie x.1 = true → exec .pllRelock s = .next s) ∧
    (∀ f, s.freq = some f → f.relocked = true → (∀ c ∈ s.contexts, c.halt = .none) → s.resyncHeld = none → s.freqHeld = none → s.outq = [] →
      exec .frequencyRelease s = .next { s with freq := none }) ∧
    (∀ f, s.freq = some f → f.relocked = false → exec .frequencyRelease s = .next s)

/-- R316: the capper: above PCAP a step down, or at the slowest step a record; below 90 % of PCAP for 1 ms a step up; and FREQCTL and PCAP
as they are written, PCAP at most 3400. A change of the effective step is a request. That each step down is the trip that freezes the black
box (R318 does not define it), that a sample above PCAP ends the row of low samples, at step 3 too, and that 100 samples in a row are the
1 ms are the model's choice (log 37). -/
def PowerIsCapped : Prop :=
  ∀ (s : State),
    (∀ w, s.mgmt.pcap < w → s.step ≠ 3 → ∃ u, exec (.capperSample w) s = .next u ∧ u.capStep = (if s.capStep = 3 then 3 else s.capStep + 1) ∧
      u.capLow = 0 ∧ u.mgmt.frozen = true ∧ (u.effStep ≠ s.effStep → u.freqHeld = some u.effStep) ∧ (u.effStep = s.effStep → u.freqHeld = s.freqHeld)) ∧
    (∀ w, s.mgmt.pcap < w → s.step = 3 → ∃ u, exec (.capperSample w) s = .next u ∧
      u.mgmt.melog.head? = some (eventRec 0x50 3 (s.mgmt.pcap % 256) (s.mgmt.pcap / 256) w 0 0 s.time) ∧ u.capStep = s.capStep ∧ u.capLow = 0) ∧
    (∀ w, w * 10 < s.mgmt.pcap * 9 → s.capLow < 99 → exec (.capperSample w) s = .next { s with capLow := s.capLow + 1 }) ∧
    (∀ w, w * 10 < s.mgmt.pcap * 9 → 99 ≤ s.capLow → ∃ u, exec (.capperSample w) s = .next u ∧ u.capLow = 0 ∧
      u.capStep = (if s.capStep = 0 then 0 else s.capStep - 1) ∧ (u.effStep ≠ s.effStep → u.freqHeld = some u.effStep)) ∧
    (∀ w, w ≤ s.mgmt.pcap → s.mgmt.pcap * 9 ≤ w * 10 → exec (.capperSample w) s = .next { s with capLow := 0 }) ∧
    (s.mgmt.cfgstat = 0 → ∀ v : BitVec 32,
      exec (.pcapWrite v) s = .next { s with mgmt := { s.mgmt with pcap := min 3400 (v.toNat % 65536) } } ∧
      ∃ u, exec (.freqctlWrite v) s = .next u ∧ u.mgmt = { s.mgmt with freqctl := v.setWidth 2 } ∧
        (u.effStep ≠ s.effStep → u.freqHeld = some u.effStep) ∧ (u.effStep = s.effStep → u = { s with mgmt := u.mgmt }))

/-- R285, R315, R317, R318: light lost on a trained fibre is dark, latched and counted; light that returns is added back. That without
LASER_EN every transmit fibre is dark, that its fall counts as loss of light, and that light which returns then does nothing are the model's
choice (log 57). An event of a unit that exists counts; an uncorrectable hub error freezes the black box, until
BBCTL releases it; and a firmware access outside the management regions (log 39) is dropped and logged. -/
def LightWearAndTheBlackBox : Prop :=
  ∀ (s : State),
    (∀ n f (m : BitVec 128), s.fibre? n = some f → f.trained = true → m &&& ~~~ f.dark ≠ 0 → ∃ u, exec (.lossOfLight n m) s = .next u ∧
      u.fibre? n = some { f with dark := f.dark ||| m, los := true, loscnt := min 255 (f.loscnt + 1) } ∧ u.mgmt.mewr = s.mgmt.mewr + 1) ∧
    (∀ n f (m : BitVec 128), s.fibre? n = some f → f.trained = true → m &&& f.dark ≠ 0 → (8 ≤ n % 16 ∨ s.laserEn = true) → ∃ u, exec (.lightRestored n m) s = .next u ∧
      u.fibre? n = some { f with dark := f.dark &&& ~~~ m } ∧ u.mgmt.mewr = s.mgmt.mewr + 1) ∧
    (∀ n (m : BitVec 128), n % 16 < 8 → s.laserEn = false → exec (.lightRestored n m) s = .next s) ∧
    (exec (.laserEn true) s = .next { s with laserEn := true }) ∧
    ((∀ f ∈ s.fibres, (s.fibres.filter (fun x => x.num == f.num)).length = 1) → ∃ u, exec (.laserEn false) s = .next u ∧ u.laserEn = false ∧
      (∀ f ∈ u.fibres, f.num % 16 < 8 → f.trained = true → f.dark = BitVec.allOnes 128) ∧ u.fibres.map (fun f => f.num) = s.fibres.map (fun f => f.num)) ∧
    (∀ un sec, wearExists un = false → exec (.wearEvent un sec) s = .next s) ∧
    (∀ un sec w, wearExists un = true → s.mgmt.wear.find? (fun x => x.u == un) = some w → ∃ u w', exec (.wearEvent un sec) s = .next u ∧
      u.mgmt.wear.find? (fun x => x.u == un) = some w' ∧ w'.count = min 0xFFFFFFFF (w.count + 1) ∧ w'.times = (sec :: w.times).take 4 ∧ u.mem = s.mem) ∧
    (∀ un sec, wearExists un = true → s.mgmt.wear.find? (fun x => x.u == un) = none → exec (.wearEvent un sec) s =
      .next { s with mgmt := { s.mgmt with wear := s.mgmt.wear ++ [{ u := un, count := 1, times := [sec], lasting := false }] } }) ∧
    (exec .hubUncorrectableError s = .next { s with mgmt := { s.mgmt with frozen := true } }) ∧
    (s.mgmt.cfgstat = 0 → ∀ v : BitVec 32, exec (.frozenClear v) s = .next (if v.getLsbD 0 then { s with mgmt := { s.mgmt with frozen := false } } else s)) ∧
    (∀ a w, (Config.fwRegion a = true → exec (.firmwareBusMastering a w) s = .next s) ∧
      (Config.fwRegion a = false → ∃ u, exec (.firmwareBusMastering a w) s = .next u ∧ u.mem = s.mem ∧
        u.mgmt.melog.head? = some (eventRec 0x61 0 0 0 0 a 0 s.time)))

/-- R309, R313, R314, R317: a reset boots the image in the flash. A cold reset with a valid one leaves no context and no work, the image's
retirement with the wear overlay's, and PCAP's default; with another it leaves the cause in CFGSTAT. An image whose signature is not that of
the last one booted clears the overlay, the same image again keeps it (log 100, the model's choice). A warm reset keeps device memory and
both logs, and is refused while a context exists. A READY bit rises when its condition holds. That memory is empty after a cold reset
(log 5), that a warm one keeps it (log 40), TIME after a reset (log 6), and how the image lies in the flash and is checked, a wrong key as a bad signature among it
(log 77), are the model's choice. -/
def ResetsLeaveTheMachineReady : Prop :=
  ∀ (s : State),
    (∀ t, exec (.coldReset t) s = .next (({ s.cleared with time := t } : State).boot s.mgmt.image)) ∧
    (∀ t, s.mgmt.flBusy = false → (s.contexts = [] ∨ s.mgmt.ready.getLsbD 0 = false) →
      exec (.warmReset t) s = .next (({ s.warmCleared with time := t } : State).boot s.mgmt.image)) ∧
    (∀ t, s.mgmt.flBusy = false → s.contexts ≠ [] → s.mgmt.ready.getLsbD 0 = true →
      exec (.warmReset t) s = .next { s with mgmt := { s.mgmt with flStatus := 4 } }) ∧
    (∀ t, s.mgmt.flBusy = true → exec (.warmReset t) s = .next s) ∧
    (checkImage none = .noImage ∧ ∀ f : Config.ImageFile,
      let good := Config.sha512 f.key = Config.romKeyHash ∧ Config.ecdsaP521 f.key (Config.sha512 f.signed) f.signature = true
      (¬ good → checkImage (some f) = .badSignature) ∧ (good → checkImage (some f) = if f.fieldsOk then .valid f.info else .badField)) ∧
    (∀ img t, let u := ({ s.cleared with time := t } : State).boot (.valid img)
      u.contexts = [] ∧ u.teams = [] ∧ u.mem = [] ∧ u.mgmt.cfgstat = 0 ∧ u.mgmt.verified = true ∧
      u.mgmt.ready = State.reset.mgmt.ready ∧ u.mgmt.pcap = img.pcap.toNat ∧ u.peerNumber = img.peer ∧ u.hostMem = s.hostMem ∧ u.mgmt.flash = s.mgmt.flash ∧
      (∀ c ∈ img.retiredCores, c ∈ u.retiredCores) ∧ (∀ d ∈ img.retiredDies, d ∈ u.retiredDies) ∧
      u.mgmt.bootSig = s.mgmt.imageSig ∧
      (s.mgmt.bootSig ≠ s.mgmt.imageSig → u.retiredCores = img.retiredCores ∧ u.retiredDies = img.retiredDies ∧ u.offWays = [] ∧
        ∀ w ∈ u.mgmt.wear, w.lasting = false) ∧
      (s.mgmt.bootSig = s.mgmt.imageSig → u.mgmt.wear = s.mgmt.wear ∧
        ∀ w ∈ s.mgmt.wear, w.lasting = true → ∀ k, coreOfUnit w.u = some k → k ∈ u.retiredCores)) ∧
    (∀ p ∈ [(ImageCheck.noImage, 1), (.badSignature, 2), (.badField, 3)],
      ∀ t, let u := ({ s.cleared with time := t } : State).boot p.1
      u.mgmt.cfgstat = p.2 ∧ u.mgmt.verified = false ∧ u.contexts = [] ∧ u.mem = []) ∧
    (∀ img t, let u := ({ s.warmCleared with time := t } : State).boot (.valid img)
      u.mem = s.mem ∧ u.contexts = [] ∧ u.teams = [] ∧ u.mgmt.melog = s.mgmt.melog ∧ u.mgmt.bblog = s.mgmt.bblog ∧ u.mgmt.cfgstat = 0 ∧
      u.mgmt.pcap = img.pcap.toNat) ∧
    (∀ b, s.mayBeReady b = true → b < 32 → exec (.functionReady b) s = .next { s with mgmt := { s.mgmt with ready := s.mgmt.ready ||| (1#64 <<< b) } }) ∧
    (∀ b, s.mayBeReady b = true → 32 ≤ b → ∃ u, exec (.functionReady b) s = .next u ∧ u.mgmt = { s.mgmt with ready := s.mgmt.ready ||| (1#64 <<< b) } ∧
      ∀ f ∈ u.fibres, f.num / 16 = b - 32 → f.trained = true) ∧
    (∀ b, s.mayBeReady b = false → exec (.functionReady b) s = .next s)

/-- R314: the flash commands: refused while a context exists, then the address, then the protected region; else they change or read the
flash, and their end clears BUSY and sets the status. A command while BUSY is ignored. A write of FLCTL is the command that it names. The
order of the statuses (log 38), that an accepted ERASE or PROGRAM ends with status 0, and the bytes of the region of the wear records
(log 58) are the model's choice. -/
def FlashCommandsRun : Prop :=
  ∀ (s : State),
    let a := s.mgmt.fladdr.toNat
    (s.mgmt.flBusy = true → exec .erase s = .next s ∧ exec .program s = .next s ∧ exec .read s = .next s) ∧
    (s.mgmt.flBusy = false →
      let fails := fun (i : Instr) (k : BitVec 8) => exec i s = .next { s with mgmt := { s.mgmt with flBusy := true, flPending := some k } }
      (s.mgmt.ready.getLsbD 0 = true → s.contexts ≠ [] → fails .erase 4 ∧ fails .program 4) ∧
      ((s.mgmt.ready.getLsbD 0 = false ∨ s.contexts = []) →
        ((a % 0x10000 ≠ 0 ∨ 0x4000000 ≤ a) → fails .erase 1) ∧ ((a % 0x1000 ≠ 0 ∨ 0x4000000 ≤ a) → fails .program 1) ∧
        (a % 0x10000 = 0 → 0x1000000 ≤ a → a < 0x4000000 → fails .erase 2 ∧ fails .program 2) ∧
        (a % 0x10000 = 0 → a < 0x1000000 → ∃ u, exec .erase s = .next u ∧ u.mgmt.flBusy = true ∧ u.mgmt.flPending = some 0 ∧
          (s.mgmt.flash.wf = true → ∀ k, k < a ∨ a + 0x10000 ≤ k → cellRead u.mgmt.flash k = cellRead s.mgmt.flash k)) ∧
        (a % 0x1000 = 0 → a < 0x1000000 → exec .program s = .next { s with mgmt := { s.mgmt with
          flash := s.mgmt.flash.store a (s.mgmt.flbuf.bytes 0 0x1000), flBusy := true, flPending := some 0 } })) ∧
      ((a % 0x1000 ≠ 0 ∨ 0x4000000 ≤ a) → fails .read 1) ∧
      (a % 0x1000 = 0 → a < 0x1000000 → exec .read s = .next { s with mgmt := { s.mgmt with flbuf := s.mgmt.flash.window a 0x1000, flBusy := true, flPending := some 0 } }) ∧
      (a % 0x1000 = 0 → 0x1000000 ≤ a → a < 0x4000000 → ∃ b, exec .read s = .next { s with mgmt := { s.mgmt with flbuf := b, flBusy := true, flPending := some 0 } } ∧
        ∀ i, i < 0x1000 → cellRead b i =
          Config.wearByte (s.mgmt.wear.map (fun w => ((wearKey w.u).1, (wearKey w.u).2, w.count, w.times, w.lasting))) (a + i))) ∧
    (∀ v : Word, (∀ p ∈ [(1, Instr.erase), (2, .program), (3, .read), (4, .warmReset (Config.resetTime s.fresh))], v.toNat % 16 = p.1 → exec (.registerWrite 0x40008 32 v) s = exec p.2 s) ∧
      (s.mgmt.flBusy = false → v.toNat % 16 ∉ [1, 2, 3, 4] → exec (.registerWrite 0x40008 32 v) s = .next { s with mgmt := { s.mgmt with flStatus := 1 } })) ∧
    (∀ k, s.mgmt.flPending = some k → exec .flashCommandDone s = .next { s with mgmt := { s.mgmt with flBusy := false, flStatus := k, flPending := none } })

/-- A state in which a write of CMD is taken, whose block, at CMDPTR in the memory of device 0, holds the context number `n` and the
operands `ws`, and is zero elsewhere (R310). -/
structure CmdAt (s : State) (n : Nat) (ws : List Nat) : Prop where
  opened : s.mgmt.cfgstat = 0
  idle : s.mgmt.cmdBusy = false
  block : s.cmdBlock = n :: ws ++ List.replicate (7 - ws.length) 0
  num : n < 256

/-- The end of a command that has changed `u`: it is BUSY until COMMAND_DONE reports its status and result. -/
def Ran (i : Instr) (s u : State) (op status result : Nat) : Prop :=
  exec i s = .next { u with mgmt := { u.mgmt with cmdBusy := true, running := some { op, status, result, ctx := 0, lo := 0, hi := 0 } } }

/-- R231: a line of a context is pinned when it has a translation on a page with VIEWED = 0 and HALO = 0, no poison, and its set has room for
one more pin: then it stands pinned in its home slice, and every pinned line stays pinned. Any other line fails. -/
def PinsFollowTheirRule : Prop :=
  ∀ (s : State) (c : Context) (va : Nat),
    let entry := if windowOf va = .lower then s.walk c false va else none
    (entry = none → s.pinLine c va = none ∧ s.unpinLine c va = none) ∧
    (∀ e, entry = some e →
      let line := lineOf (c.ga (leafPa e va))
      let slice := s.sliceOf e (c.ga (leafPa e va))
      let pinned := ∃ l, s.inLine? line = some l ∧ l.pin = true
      let mayPin := pteViewed e = false ∧ pteHalo e = false ∧ s.poisoned (line * 128) 128 = false
      (¬ mayPin → s.pinLine c va = none) ∧
      (mayPin → pinned → s.pinLine c va = some s) ∧
      (mayPin → ¬ pinned → s.pinLimit slice ≤ s.pinsIn slice (setOf line) → s.pinLine c va = none) ∧
      (mayPin → ¬ pinned → s.pinsIn slice (setOf line) < s.pinLimit slice → ∃ u l, s.pinLine c va = some u ∧ u.mem = s.mem ∧
        u.inLine? line = some l ∧ l.pin = true ∧ l.pinCtx = c.num ∧ ∀ x ∈ s.infield, x.pin = true → ∃ y ∈ u.infield, y.line = x.line ∧ y.pin = true) ∧
      (∃ u, s.unpinLine c va = some u ∧ u.mem = s.mem ∧ (∀ x ∈ u.infield, x.line = line → x.pin = false) ∧
        ∀ x ∈ s.infield, x.line ≠ line → x ∈ u.infield))

/-- The lines of a range are taken one by one, and the result counts those that have failed (R231). -/
def LinesAreTakenInTurn (s : State) (f : State → Nat → Option State) (va len : Nat) (u : State) (failed : Nat) : Prop :=
  (u, failed) = (linesOf va len).foldl (fun acc l => match f acc.1 (l * 128) with | some v => (v, acc.2) | none => (acc.1, acc.2 + 1)) (s, 0)

/-- R155, R157, R174, R178, R231, R234, R280, R281, R310: the commands of the management space, each with its effect and its statuses; a
write of CMD while BUSY is ignored and sets LOST; a context number that is not live gives 0xFF with every command that names one, and so does
a nonzero byte that the command does not use, and a command other than CTX_DESTROY for a context that has halted (log 43); CTX_CREATE leaves
EQWR and EQRD of its number as they are (log 74, the model's choice); a declaration is made only when no write that was checked before it is on its way to the
region (R245); and the end of a command reports. That the command block lies at a physical address of device 0 is log 41's, and that a context
descriptor, a queue header and a halo descriptor are named by physical addresses log 4's: the model's choices. -/
def CommandsRun : Prop :=
  ∀ (s : State),
    (s.mgmt.cfgstat = 0 → s.mgmt.cmdBusy = true → ∀ i ∈ [Instr.ctxCreate, .ctxRemove, .ctxDestroy, .queueBind, .queueUnbind, .invalidate, .pin, .unpin,
        .haloDeclare, .resync, .retireDie], exec i s = .next { s with mgmt := { s.mgmt with cmdLost := true } }) ∧
    (∀ n, n < 256 → s.ctx? n = none →
      (CmdAt s n [] → Ran .ctxRemove s s 2 0xFF 0 ∧ Ran .ctxDestroy s s 3 0xFF 0) ∧
      (∀ p q r, CmdAt s n [p, q, r] → Ran .queueBind s s 4 0xFF 0) ∧
      (∀ p, CmdAt s n [p] → Ran .queueUnbind s s 5 0xFF 0 ∧ Ran .haloDeclare s s 9 0xFF 0) ∧
      (∀ p q, CmdAt s n [p, q] → Ran .invalidate s s 6 0xFF 0 ∧ Ran .pin s s 7 0xFF 0 ∧ Ran .unpin s s 8 0xFF 0)) ∧
    (s.mgmt.cfgstat = 0 → s.mgmt.cmdBusy = false →
      ∀ c ∈ [(Instr.ctxCreate, 1, 1, 1), (.ctxRemove, 2, 256, 0), (.ctxDestroy, 3, 256, 0), (.queueBind, 4, 256, 3), (.queueUnbind, 5, 256, 1),
        (.invalidate, 6, 256, 2), (.pin, 7, 256, 2), (.unpin, 8, 256, 2), (.haloDeclare, 9, 256, 1), (.resync, 10, 1, 0), (.retireDie, 11, 1, 1)],
      (c.2.2.1 ≤ s.cmdBlock.getD 0 0 ∨ ∃ j, c.2.2.2 < j ∧ j < 8 ∧ s.cmdBlock.getD j 0 ≠ 0) → Ran c.1 s s c.2.1 0xFF 0) ∧
    (∀ p, CmdAt s 0 [p] →
      let d := readDesc s.mem (p % 2 ^ 56)
      (∀ k, s.createStatus d = k → k ≠ 0 → Ran .ctxCreate s s 1 k 0) ∧
      (∀ n, s.createStatus d = 0 → s.freeCtx = some n → Ran .ctxCreate s { s with mode := some d.mode, contexts := s.contexts ++ [newContext s.mem n d (s.mgmt.eqRegs n)] } 1 0 n)) ∧
    (∀ n c, s.ctx? n = some c → c.halted = true →
      (CmdAt s n [] → Ran .ctxRemove s s 2 0xFF 0) ∧ (∀ p q r, CmdAt s n [p, q, r] → Ran .queueBind s s 4 0xFF 0) ∧
      (∀ p, CmdAt s n [p] → Ran .queueUnbind s s 5 0xFF 0 ∧ Ran .haloDeclare s s 9 0xFF 0) ∧
      (∀ p q, CmdAt s n [p, q] → Ran .invalidate s s 6 0xFF 0 ∧ Ran .pin s s 7 0xFF 0 ∧ Ran .unpin s s 8 0xFF 0)) ∧
    (∀ n c, s.ctx? n = some c → CmdAt s n [] →
      let out := s.teams.any (fun t => t.ctx == n && !t.isEnded)
      let busy : State := { s with mgmt := { s.mgmt with cmdBusy := true } }
      (c.halted = false → out = true → Ran .ctxDestroy s s 3 1 0) ∧
      (c.halted = true ∨ out = false → exec .ctxDestroy s = .next ((busy.destroy c).updMgmt
          (fun m => { m with running := some { op := 3, status := 0, result := 0, ctx := 0, lo := 0, hi := 0 } })) ∧
        (busy.destroy c).contexts = s.contexts.filter (fun x => x.num != n) ∧ (∀ t ∈ (busy.destroy c).teams, t.ctx ≠ n) ∧
        (∀ q ∈ (busy.destroy c).queues, q.ctx ≠ n) ∧ (∀ x ∈ (busy.destroy c).tlb1 ++ (busy.destroy c).tlb2, x.ctx ≠ n))) ∧
    (∀ n c, s.ctx? n = some c → c.halted = false →
      (CmdAt s n [] →
        (c.removing = true → exec .ctxRemove s = .next { s with mgmt := { s.mgmt with cmdBusy := true, running := some { op := 2, status := 0, result := 0, ctx := n, lo := 0, hi := 0 } } }) ∧
        (c.removing = false → (∀ t ∈ s.teams, t.ctx ≠ n) → ∃ u c', exec .ctxRemove s = .next u ∧ u.ctx? n = some c' ∧ c'.removing = true ∧ c'.rootTokens = [] ∧
          (∀ x ∈ u.sets, x.ctx = n → x.nextChild = x.count))) ∧
      (∀ hdr slot prio, CmdAt s n [hdr, slot, prio] →
        let taken := slotsPerDevice c.mode ≤ slot ∨ s.queues.any (fun q => q.device == c.device && q.slot == slot) = true
        (prio ≤ c.ceiling → taken → Ran .queueBind s s 4 1 0) ∧
        (prio ≤ c.ceiling → ¬ taken → (hdr % 64 ≠ 0 ∨ s.headerOk (c.ga hdr) = false) → Ran .queueBind s s 4 2 0) ∧
        (prio ≤ c.ceiling → ¬ taken → hdr % 64 = 0 → s.headerOk (c.ga hdr) = true → Ran .queueBind s { s with queues := s.queues ++
          [{ device := c.device, slot, ctx := n, hdr, prio, halted := cellRead s.mem (c.ga hdr + 17) == 1 }] } 4 0 0)) ∧
      (∀ slot, CmdAt s n [slot] →
        let out := s.grids.any (fun g => g.ctx == n && g.slot == slot && !g.finished)
        (out = true → Ran .queueUnbind s s 5 1 0) ∧
        (out = false → Ran .queueUnbind s { s with queues := s.queues.filter (fun q => !(q.ctx == n && q.slot == slot)) } 5 0 0)) ∧
      (∀ va len, CmdAt s n [va, len] →
        let lo := va % 2 ^ 56
        (s.haloCovered c lo (lo + len) = true → Ran .invalidate s s 6 1 0) ∧
        (s.haloCovered c lo (lo + len) = false → ∃ u, exec .invalidate s = .next u ∧
          (∀ x ∈ u.tlb1 ++ u.tlb2, x.ctx = n → pageMeets (x.va % 2 ^ 56) x.pte lo (lo + len) = false) ∧
          (∀ x ∈ s.tlb1, x.ctx ≠ n → x ∈ u.tlb1) ∧ (∀ x ∈ s.tlb2, x.ctx ≠ n → x ∈ u.tlb2) ∧ u.mem = s.mem ∧ u.mgmt.running = some { op := 6, status := 0, result := 0, ctx := n, lo, hi := lo + len })) ∧
      (∀ va len, CmdAt s n [va, len] →
        let busy : State := { s with mgmt := { s.mgmt with cmdBusy := true } }
        (∀ u k, LinesAreTakenInTurn busy (fun v a => v.pinLine c a) va len u k →
          exec .pin s = .next (u.updMgmt (fun m => { m with running := some { op := 7, status := 0, result := k, ctx := 0, lo := 0, hi := 0 } })) ∧ u.mem = s.mem) ∧
        (∀ u k, LinesAreTakenInTurn busy (fun v a => v.unpinLine c a) va len u k →
          exec .unpin s = .next (u.updMgmt (fun m => { m with running := some { op := 8, status := 0, result := k, ctx := 0, lo := 0, hi := 0 } })) ∧ u.mem = s.mem)) ∧
      (∀ p, CmdAt s n [p] →
        (∀ k, s.declareHalo c (c.ga p) = (k, none) → Ran .haloDeclare s s 9 k 0) ∧
        (∀ k r, s.declareHalo c (c.ga p) = (k, some r) →
          let underway := ∃ w ∈ s.writesDue, ∃ q ∈ r.pieces, w.1 < q.2.2 + 4096 ∧ q.2.2 < w.1 + w.2
          (¬ underway → Ran .haloDeclare s { s with regions := s.regions ++ [r] } 9 k 0) ∧
          (underway → exec .haloDeclare s =
            .next { s with mgmt := { s.mgmt with cmdBusy := true, running := some { op := 9, status := 0, result := 0, ctx := n, lo := c.ga p, hi := 1 } } })))) ∧
    (CmdAt s 0 [] → s.resync = none → s.freq = none → ∃ u, exec .resync s = .next u ∧ u.resync = some .command ∧ u.mgmt.cmdBusy = true) ∧
    (∀ d, CmdAt s 0 [d] → (8 ≤ d → Ran .retireDie s s 11 0xFF 0) ∧
      (d < 8 → exec .retireDie s = .next ((({ s with mgmt := { s.mgmt with cmdBusy := true } } : State).declareRemoved d 2).updMgmt
        (fun m => { m with running := some { op := 11, status := 0, result := 0, ctx := 0, lo := d, hi := 0 } })))) ∧
    (∀ r, s.mgmt.running = some r → s.finished r = true → ¬ (r.op = 9 ∧ r.hi = 1) → exec .commandDone s =
      let u := if r.op = 6 ∧ r.status = 0 then s.dropRange r.ctx r.lo r.hi else s
      .next { u with mgmt := { s.mgmt with running := none, cmdBusy := false, cmdStatus := BitVec.ofNat 8 r.status, cmdres := BitVec.ofNat 64 r.result } }) ∧
    (∀ r c, s.mgmt.running = some r → r.op = 9 → r.hi = 1 → r.status = 0 → s.ctx? r.ctx = some c →
      (s.finished r = true ↔ ∀ g, (s.declareHalo c r.lo).2 = some g → ∀ w ∈ s.writesDue, ∀ q ∈ g.pieces, q.2.2 + 4096 ≤ w.1 ∨ w.1 + w.2 ≤ q.2.2) ∧
      (s.finished r = true → exec .commandDone s =
        let u := match (s.declareHalo c r.lo).2 with | some g => { s with regions := s.regions ++ [g] } | none => s
        .next { u with mgmt := { s.mgmt with running := none, cmdBusy := false, cmdStatus := BitVec.ofNat 8 (s.declareHalo c r.lo).1,
                                             cmdres := BitVec.ofNat 64 r.result } })) ∧
    (∀ r, s.mgmt.running = some r → s.finished r = false → exec .commandDone s = .next s)

/-- R223, R311, R312, R306: the other registers: EACTL answers or abandons the group whose token EATOK names; EQRD makes room, and held
EFFECT records go in; SLCFG is taken, refused or held, and a change that ends puts its value in force; and an access acts on a register at its
own width alone: one of 32 bits to a register of 64, or the reverse, reads zero and has no effect. During a frequency change an answer waits,
BUSY. Where an answer without a pending token is logged (log 88), W all ones after a resumption (log 44), and that an answer waits for the end
of a frequency change (log 37), and the event-queue registers of a number with no context (log 74), are the model's choice. -/
def RegistersAreWritten : Prop :=
  ∀ (s : State), s.mgmt.cfgstat = 0 →
    (s.freq ≠ none → exec .eactlResume s = .next { s with mgmt := { s.mgmt with eaHeld := some true } } ∧
      exec .eactlAbandon s = .next { s with mgmt := { s.mgmt with eaHeld := some false } }) ∧
    (s.freq = none → s.tokenGroup s.mgmt.eatok = none → ∀ i ∈ [Instr.eactlResume, .eactlAbandon], exec i s =
      .next { s with mgmt := { s.mgmt with eaStatus := 1, eaHeld := none, eaLog := (s.mgmt.eatok, s.time) :: s.mgmt.eaLog } }) ∧
    (∀ t y rk mask d core slot, s.freq = none → s.tokenGroup s.mgmt.eatok = some (t, y) → s.team? t.id = some t → t.group? y.grpidx = some y → y.rootDest = some (rk, mask, d) →
      t.place = .running core slot →
      (∃ u, exec .eactlResume s = .next u ∧ u.mgmt.eaStatus = 0 ∧ u.mgmt.eaHeld = none ∧ u.wOf core = BitVec.allOnes 64 ∧ u.group? t.id y.grpidx = some (y.answered s.mgmt.eaval) ∧
        (∀ c c', s.ctx? t.ctx = some c → u.ctx? t.ctx = some c' → ∀ x ∈ c'.rootTokens, x.1 ≠ s.mgmt.eatok)) ∧
      (exec .eactlAbandon s = .next (((s.dropToken t.ctx s.mgmt.eatok).eaDone 0).containedKill t y false { code := 0x0C } 1))) ∧
    (∀ n c v, s.ctx? n = some c → c.heldEffects = [] → exec (.eqrdWrite n v) s = .next (s.updCtx n (fun c => { c with eqrd := v }))) ∧
    (∀ n v, s.ctx? n = none → n < 64 → ∃ u, exec (.eqrdWrite n v) s = .next u ∧ u.contexts = s.contexts ∧ u.mem = s.mem ∧
      u.readReg (0x1008 + 0x40 * n) 64 = v.toNat ∧ u.readReg (0x1000 + 0x40 * n) 64 = s.readReg (0x1000 + 0x40 * n) 64) ∧
    (∀ n v, s.ctx? n = none → 64 ≤ n → exec (.eqrdWrite n v) s = .next s) ∧
    (∀ d (v : BitVec 32), d < 8 →
      let cfg := s.sliceCfg d
      let k := v.toNat % 16
      (cfg.target ≠ none → exec (.slcfgWrite d v) s = .next (s.updSliceCfg d (fun c => { c with heldWrites := c.heldWrites ++ [k] }))) ∧
      (cfg.target = none → 8 < k → exec (.slcfgWrite d v) s = .next (s.updSliceCfg d (fun c => { c with badval := true }))) ∧
      (cfg.target = none → k ≤ 8 → s.pinsExceed d k = true → exec (.slcfgWrite d v) s = .next (s.updSliceCfg d (fun c => { c with pinfail := true }))) ∧
      (cfg.target = none → k ≤ 8 → s.pinsExceed d k = false → exec (.slcfgWrite d v) s = .next (s.updSliceCfg d (fun c => { c with target := some k }))) ∧
      (∀ n k ks, cfg.target = some n → cfg.heldWrites = k :: ks → k ≤ 8 →
        ((s.reway d n).updSliceCfg d (fun c => { c with outways := n, target := none })).pinsExceed d k = false → ∃ u, exec (.outwaysChangeDone d) s = .next u ∧
          u.sliceCfg d = { cfg with outways := n, target := some k, heldWrites := ks }) ∧
      (∀ n, cfg.target = some n → cfg.heldWrites = [] → ∃ u, exec (.outwaysChangeDone d) s = .next u ∧
        u.sliceCfg d = { cfg with outways := n, target := none, heldWrites := [] } ∧ u.mem = s.mem ∧
        (∀ l ∈ s.infield, l.pin = true → l ∈ u.infield) ∧ (∀ l ∈ s.outfield, l.die ≠ d → l ∈ u.outfield))) ∧
    (∀ v : Word,
      (∀ off ∈ [0, 0x100, 0x118, 0x200, 0x208, 0x10000, 0x10020, 0x20000, 0x20020, 0x30010, 0x40000, 0x41000],
        exec (.registerWrite off 32 v) s = .next s ∧ s.readReg off 32 = 0) ∧
      (∀ n j, n < 64 → j < 3 → exec (.registerWrite (0x1000 + 0x40 * n + 8 * j) 32 v) s = .next s ∧ s.readReg (0x1000 + 0x40 * n + 8 * j) 32 = 0) ∧
      (∀ off ∈ [0x108, 0x110, 0x210, 0x10008, 0x20008, 0x20010, 0x30000, 0x40008, 0x40010],
        exec (.registerWrite off 64 v) s = .next s ∧ s.readReg off 64 = 0) ∧
      (∀ d, d < 8 → ∀ j ∈ [0, 4], exec (.registerWrite (0x100000 + 0x1000 * d + j) 64 v) s = .next s ∧ s.readReg (0x100000 + 0x1000 * d + j) 64 = 0) ∧
      (∀ f, f < 128 → exec (.registerWrite (0x200000 + 8 * f) 64 v) s = .next s ∧ s.readReg (0x200000 + 8 * f) 64 = 0)) ∧
    (∀ off width v, off < 0x40000 ∨ 0x42000 ≤ off → width ≠ 64 → width ≠ 32 → exec (.registerWrite off width v) s = .next s) ∧
    (∀ v : Word, s.mgmt.cmdBusy = false → exec (.registerWrite 0x100 64 v) s = .next { s with mgmt := { s.mgmt with cmdptr := v &&& ~~~ 63 } }) ∧
    (∀ v : Word, s.mgmt.cmdBusy = true → exec (.registerWrite 0x100 64 v) s = .next { s with mgmt := { s.mgmt with cmdLost := true } }) ∧
    (∀ v : Word, exec (.registerWrite 0x200 64 v) s = .next { s with mgmt := { s.mgmt with eatok := v } } ∧
      exec (.registerWrite 0x208 64 v) s = .next { s with mgmt := { s.mgmt with eaval := v } } ∧
      exec (.registerWrite 0x40000 64 v) s = .next { s with mgmt := { s.mgmt with fladdr := v } }) ∧
    (∀ v : Word, ∀ p ∈ [(1, Instr.ctxCreate), (2, .ctxRemove), (3, .ctxDestroy), (4, .queueBind), (5, .queueUnbind), (6, .invalidate), (7, .pin),
        (8, .unpin), (9, .haloDeclare), (10, .resync), (11, .retireDie)], v.toNat % 256 = p.1 → exec (.registerWrite 0x108 32 v) s = exec p.2 s) ∧
    (∀ r j, j < 4 → ((s.logEvent r).updMgmt (fun m => { m with meidx := s.mgmt.mewr.setWidth 32 })).readReg (0x10020 + 8 * j) 64 =
      r.toNat / 2 ^ (64 * j) % 2 ^ 64) ∧
    (∀ off width, width ≠ 64 → width ≠ 32 → s.readReg off width = 0)

/-! ### The whole machine: R6, R19, R25, R47, R60, R67, R68, R166, R305 -/

/-- What R68 asks of the registers for a shepherd instruction: its sources, its scalar destination and its predicate. -/
def needsOf : Instr → Option Needs
  | .add d a b | .sub d a b | .and d a b | .or d a b | .xor d a b | .shl d a b | .shr d a b | .sra d a b | .mul d a b | .mulh d a b | .mulhn d a b
  | .div d a b | .divn d a b | .rem d a b | .remn d a b | .min d a b | .minn d a b | .max d a b | .maxn d a b | .seq d a b | .sne d a b | .slt d a b
  | .sltn d a b | .rotl d a b | .bfx d a b | .perform d a b | .resumek d a b | .fork d a b => some { src := [a, b], dst := [d], preds := [] }
  | .bfi d a b | .sel d a b => some { src := [d, a, b], dst := [d], preds := [] }
  | .clz d a | .popc d a | .addi d a _ | .andi d a _ | .ori d a _ | .xori d a _ | .slti d a _ | .shli d a _ | .shri d a _ | .srai d a _ | .lis d a _
  | .ldb d a _ | .ldh d a _ | .ldw d a _ | .ldd d a _ | .jr d a | .barArrive d a _ | .barWait d a _ | .barSync d a _ | .acq d a _ _ =>
    some { src := [a], dst := [d], preds := [] }
  | .li d _ | .li32 d _ | .li32N d _ | .fstat d _ => some { src := [], dst := [d], preds := [] }
  | .li32Hi d _ => some { src := [d], dst := [d], preds := [] }
  | .stb d a _ | .sth d a _ | .stw d a _ | .std d a _ | .rel d a _ _ | .relHalo d a _ | .beq d a _ | .bne d a _ | .blt d a _ | .bge d a _ | .bltn d a _
  | .bgen d a _ | .resume d a => some { src := [d, a], dst := [], preds := [] }
  | .amosSwap d a b _ | .amosAdd d a b _ | .amosAnd d a b _ | .amosOr d a b _ | .amosXor d a b _ | .amosMin d a b _ | .amosMax d a b _
  | .amosMinn d a b _ | .amosMaxn d a b _ => some { src := [a, b], dst := [d], preds := [] }
  | .amosCas d a b _ => some { src := [d, a, b], dst := [d], preds := [] }
  | .bpany p _ | .bpall p _ | .split p _ | .lexit p => some { src := [], dst := [], preds := [p.toNat] }
  | .call _ => some { src := [], dst := [63], preds := [] }
  | .loop a _ | .sset a _ | .trap a _ | .unhandle a | .drop a | .tcp a => some { src := [a], dst := [], preds := [] }
  | .sget d a n => some { src := (if n = 19 then [a] else []), dst := [d], preds := [] }
  | .performl _ a b p => some { src := [a, b], dst := [], preds := [p.toNat] }
  | .handle e _ _ _ => some { src := [e, 48, 49, 50, 51, 52, 53, 54, 55], dst := [], preds := [] }
  | .tcpr a => some { src := (if a.toNat % 8 = 0 ∧ a ≠ 0 then (List.range 8).map (fun k => a + BitVec.ofNat 6 k) else []), dst := [], preds := [] }
  | .br _ | .loopi _ _ | .lbrk | .lq _ | .lrep _ _ | .lj _ | .join | .sigchk _ | .yield | .tend | .fence _ | .twait _ => some { src := [], dst := [], preds := [] }
  | _ => none

/-- R25, R67, R68, R166: an arm issues an instruction only when it waits for nothing and every source, its scalar destination and its
predicate are full: until then the instruction waits and nothing changes. A pending repeat is for an LQ or an LJ alone: another
instruction faults ILLEGAL_OPCODE, and the repeat is gone. -/
def EmptyRegistersHoldTheArm : Prop :=
  ∀ (i : Instr) (n : Needs) (s : State) (t g : Nat) (b : Bool) (a : Ag), needsOf i = some n → s.sel = .arm t g b → s.agent t g b = some a →
    (s.armLive a = false → exec i s = .next s) ∧
    (s.armLive a = true → a.arm.rep = none → a.ready n = false → exec i s = .next s) ∧
    (s.armLive a = true → a.arm.rep.isSome = true → (∀ k, i ≠ .lq k) → (∀ k, i ≠ .lj k) →
      exec i s = .next (((s.setArm a (fun m => { m with rep := none })).armFault a { code := 0x01 } false).issued a))

/-- R150, R166, R193: in a cycle, a core's scheduler tries its arms from the one that has waited longest, and issues what its four slots take: an
arm that is ready is passed over only for arms that go before it, and for one that such an arm is paired with. Every arm that does not issue
tries what it may do all the same. The arms whose YIELD ends are released first, and then the cycle takes place (R95). Of the two arms of a group that issue in one cycle, arm A goes first (R193). The counting of cycles, and whether two arms are paired, are the model's choice (log 93). -/
def TheOldestArmsIssue : Prop :=
  ∀ (s : State) (core : Nat),
    let v : State := { s.countYields core with cycle := s.cycle + 1 }
    let all := v.candidates core
    let ends := (s.armsOn core).filter (s.yieldEnds core)
    (ends ≠ [] → (s.runCycle core).cycle = s.cycle ∧ (s.runCycle core).mem = s.mem ∧
      (s.runCycle core).agenda = ends.map (fun k => Action.event (.yieldExpiry k.1 k.2.1 k.2.2)) ++ [Action.cycle core] ++ s.agenda) ∧
    (∀ t ∈ s.teams, ∀ k, t.place = .running core k → ∀ g ∈ t.groups, ∀ b a, v.agent t.id g.grpidx b = some a → v.armLive a = true →
      ({ team := t.id, grp := g.grpidx, armB := b, age := a.arm.age, slot := (k, g.grpidx) } : Cand) ∈ all) ∧
    all.Pairwise (fun x y => x.age < y.age ∨ x.age = y.age ∧
      (x.slot.1 < y.slot.1 ∨ x.slot.1 = y.slot.1 ∧ (x.slot.2 < y.slot.2 ∨ x.slot.2 = y.slot.2 ∧ (x.armB = false ∨ y.armB = true)))) ∧
    (ends = [] → ∃ l : List Cand, (s.runCycle core).agenda = l.map (fun x => Action.arm x.team x.grp x.armB) ++
        (all.filter (fun x => !(all.filter v.candReady).contains x)).map (fun x => Action.attempt x.team x.grp x.armB) ++ s.agenda ∧
      (∀ x ∈ l, x ∈ all ∧ v.candReady x = true) ∧ l.length ≤ 8 ∧
      ((∀ x ∈ all, ∀ y ∈ all, x.team = y.team → x.grp = y.grp → x.armB = y.armB → x = y) →
        l.Pairwise (fun x y => x.team = y.team → x.grp = y.grp → x.armB = true → y.armB = true)) ∧ ((∀ x ∈ all, ∀ y ∈ all, v.mayPair x y = false) → l.length ≤ 4) ∧
      (∀ x ∈ all, v.candReady x = true → x ∉ l → ∀ y ∈ l, candLe y x = true ∨ ∃ z ∈ l, candLe z x = true ∧ v.mayPair z y = true) ∧
      { s.runCycle core with agenda := s.agenda } = v)

/-- R25, R67, R68, R150, R166: an empty register or a pending repeat holds an arm back, and of the arms that are ready the oldest issue. -/
def Obligations.AnEmptyRegisterHoldsTheArm : Prop := EmptyRegistersHoldTheArm ∧ TheOldestArmsIssue

/-- R47, R48, R68 to R72: the frame of the scalar arithmetic: sd alone of the registers may change, and s0 reads as zero; every other
register, every other arm, group and team, every vector and predicate register, the lane queue, the frames and tokens, every byte of
memory and every other part of the package is as before, but for the count of an action in a halt's skid (R174) and the mark that a lane
fault may now be delivered (R110). SPC, the loops and SIG of the arm are not in the frame. -/
def Obligations.ArithmeticChangesOneRegister : Prop :=
  ∀ (d a b : SReg) (imm : BitVec 13) (n : BitVec 6) (lit : BitVec 32) (i : Instr) (k : Needs),
    i ∈ [Instr.add d a b, .sub d a b, .and d a b, .or d a b, .xor d a b, .shl d a b, .shr d a b, .sra d a b, .mul d a b, .mulh d a b, .mulhn d a b,
      .div d a b, .divn d a b, .rem d a b, .remn d a b, .min d a b, .minn d a b, .max d a b, .maxn d a b, .seq d a b, .sne d a b, .slt d a b, .sltn d a b,
      .rotl d a b, .bfx d a b, .bfi d a b, .sel d a b, .clz d a, .popc d a, .addi d a imm, .andi d a imm, .ori d a imm, .xori d a imm, .slti d a imm,
      .shli d a n, .shri d a n, .srai d a n, .li d imm, .lis d a imm, .li32 d lit, .li32N d lit, .li32Hi d lit] →
    needsOf i = some k → ∀ (s : State) (t g : Nat) (x : Bool) (ag : Ag), ArmReady s t g x ag k →
      ∃ u, exec i s = .next u ∧ { u with teams := s.teams } = skidded s ag ∧ (∀ p, cellRead u.mem p = cellRead s.mem p) ∧
        (∀ t' g', (t', g') ≠ (t, g) → u.group? t' g' = s.group? t' g') ∧
        (∀ t' y, s.team? t' = some y → ∃ z, u.team? t' = some z ∧ { z with groups := y.groups } = y) ∧
        HasGroup u t g (fun z =>
          { z with core := ag.g.core, frozen := ag.g.frozen } = ag.g ∧
          z.frozen = (if ag.g.due then ag.g.frozen.map (fun f => { f with stopped := true, after := true }) else ag.g.frozen) ∧ { z.core with armA := ag.g.core.armA, armB := ag.g.core.armB } = ag.g.core ∧
          z.core.arm (!x) = ag.g.core.arm (!x) ∧ (z.core.arm x).get 0 = 0 ∧
          (∀ r, r ≠ d → (z.core.arm x).get r = ag.arm.get r) ∧ (∀ r, (z.core.arm x).isFull r = ag.arm.isFull r) ∧
          (let m := z.core.arm x
           (m.mask, m.stack, m.code, m.rep, m.wait, m.yielded, m.fencePo, m.fenceSig, m.relFence, m.relSys, m.lpc, m.lqLeft, m.lqOwed) =
             (ag.arm.mask, ag.arm.stack, ag.arm.code, ag.arm.rep, ag.arm.wait, ag.arm.yielded, ag.arm.fencePo, ag.arm.fenceSig, ag.arm.relFence, ag.arm.relSys, ag.arm.lpc,
              ag.arm.lqLeft, ag.arm.lqOwed)))

/-- The state that the move of a step starts from, and the move: the head of the agenda, or of what an empty agenda becomes (log 3). -/
def MoveIs (s : State) (x : Action) (u : State) : Prop := s.nextMove = (some x, u)

/-- R58, R60, R82, R158, R200, R305: a step runs the instruction that the moving agent has next: an arm the one whose bytes stand at SPC,
a sequencer the one at MPC, an arm within an LQ goes on with it, the lane engine the next entry of its queue, the copy engine the packet's, the queue engine the packet at
the head of its queue, and an event is run as it is. The step is exec of it, after which it settles. A host that writes its own memory takes
the lines out of the hub cache (R238), and a dirty line found uncorrectable is poisoned where it stands (R240), and so is a private copy of a
view (that an address from 2^64 up names one is the model's choice, log 35). The agenda, what stands in
it, and the time that a step takes are the model's choice (logs 2, 3, 95). -/
def Obligations.StepRunsTheDecodedInstruction : Prop :=
  ∀ (s u : State) (i : Instr),
    (∀ t g b a, MoveIs s (.arm t g b) u → ({ u with sel := .arm t g b } : State).agent t g b = some a →
      let v : State := { u with sel := .arm t g b }
      v.armLive a = true →
      (a.arm.lqLeft ≠ 0 → step s = settled (exec (.lq 0) v)) ∧
      (a.arm.lqLeft = 0 → v.fetchShep a.w.ctx a.w.core a.arm.spc = .ok i → step s = settled (exec i (v.keepFetch a.w.ctx a.w.core a.arm.spc)))) ∧
    (∀ t x c, MoveIs s (.matrix t) u → u.team? t = some x → u.ctx? x.ctx = some c →
      let v : State := { u with sel := .matrix t }
      v.seqLive x = true → v.fetchMat c x.coreNum x.seq.mpc = .ok i → step s = settled (exec i (v.keepFetch c x.coreNum x.seq.mpc))) ∧
    (∀ t g b a idx e, MoveIs s (.lane t g b) u → u.agent t g b = some a → a.g.nextEntry b = some (idx, e) → e.instr = i →
      step s = settled (exec i { u with sel := .lane t g b })) ∧
    (∀ id c turn, (turn = none ∧ MoveIs s (.copy id) u) ∨ (∃ z, turn = some z ∧ MoveIs s (.sector id z) u) → u.copy? id = some c →
      c.op.mk c.pkt = i → step s = settled (exec i (({ u with sel := .copy id } : State).updCopy id (fun x => { x with turn })))) ∧
    (∀ n q, MoveIs s (.queue n) u → u.queue? n = some q → step s = settled (exec (.launch n (u.headPacket q)) { u with sel := .none })) ∧
    (MoveIs s (.event i) u → step s = settled (exec i { u with sel := .none })) ∧
    (∀ pa bs, MoveIs s (.hostWrite pa bs) u → step s =
      .next ({ u with sel := .none, hubLines := u.hubLines.filter (fun l => !(linesOf pa bs.length).contains l), hostMem := u.hostMem.store pa bs } : State).settle) ∧
    (∀ ga l, ga < 2 ^ 64 → MoveIs s (.spoil ga) u → u.inLine? (ga / 128) = some l → l.dirty = true →
      ∃ v : State, step s = .next v.settle ∧ { v with poison := u.poison, sel := u.sel } = u ∧ ∀ a, a ∈ v.poison ↔ a ∈ u.poison ∨ a ∈ sectorsOf (l.line * 128) 128) ∧
    (∀ n ga w, ga < 2 ^ 64 → MoveIs s (.spoil ((2 * n + 1) * 2 ^ 64 + ga)) u → u.view? n = some w → w.dirty.any (fun g => g.ga == ga / 128 * 128) = true →
      ∃ v : State, step s = .next v.settle ∧ v.mem = u.mem ∧
        v.view? n = some { w with dirty := w.dirty.map (fun g => if g.ga = ga / 128 * 128 then { g with bad := 0xF } else g) }) ∧
    (∀ (c : Context) (core : Nat) (pc : Word) (bs : List Byte), s.fetchWords c core pc 1 = some bs → s.fetchPoison c core pc 1 = false →
      isLiteral (BitVec.ofNat 32 (leNat bs)) = false → decodeBytes .shep bs = .ok (i, []) → s.fetchShep c core pc = .ok i) ∧
    (∀ (c : Context) (core : Nat) (pc : Word), s.fetchWords c core pc 1 = none → s.fetchShep c core pc = .error 0x04) ∧
    (∀ x rest, s.agenda = x :: rest → x ≠ .any → MoveIs s x { s with agenda := rest })

/-- An instruction that a machine runs as an event: it has no encoding, or is a launch packet. -/
def isEvent (i : Instr) : Bool := (encodeShep i).isEmpty && (laneOf i).isNone && i != .vnop && (encodeMat i).isNone && (copyOf i).isNone

/-- A lane instruction. -/
def isLaneInstr (i : Instr) : Bool := (laneOf i).isSome || i == .vnop

/-- The moves of the agenda are moves of the machine, and lane queues hold lane instructions. -/
structure Runs (s : State) : Prop where
  agenda : ∀ i, Action.event i ∈ s.agenda → isEvent i = true
  queues : ∀ t ∈ s.teams, ∀ g ∈ t.groups, ∀ e ∈ g.queue, isLaneInstr e.instr = true

/-- No such state of the machine stops it: its step answers a next state, whatever the registers and the memory hold. -/
def Obligations.EveryStepAnswersANextState : Prop := ∀ s : State, Runs s → ∃ u, step s = .next u

/-- R2, R3, R58 to R65, R158, R181, R199: decode and encode agree: for every well-formed instruction that has an encoding, the decoder
reads its bytes back as the instruction, with nothing left over; and what the decoder gives is well-formed. -/
def Obligations.DecodingUndoesEncoding : Prop :=
  (∀ (i : Instr) (k : Stream) (bs : List Byte), i.wf = true → encode i = some (k, bs) →
    decodeBytes k bs = .ok ((match i with | .launch _ p => .launch 0 p | j => j), [])) ∧
  (∀ (k : Stream) (bs rest : List Byte) (i : Instr), k ≠ .launch → decodeBytes k bs = .ok (i, rest) → i.wf = true)

/-- The words that the manual writes out for its examples decode to the instructions they stand for (R65, R67, R73, R79, R83, R87, R89,
R105 to R108, R139, R181, R203 to R211, R246, R252). -/
def Obligations.TheManualsWordsDecode : Prop :=
  (∀ p ∈ [(0x60000000#32, Instr.lq 0), (0x66080004#32, .split 1 4), (0x12280001#32, .li 5 1), (0x50000004#32, .br 4), (0x64000002#32, .lj 2),
      (0x68000000#32, .join), (0xCA000000#32, .tend), (0x62100054#32, .lrep 2 0x54), (0x58010004#32, .loopi 8 4), (0x30184203#32, .amosAdd 3 2 4 true),
      (0x7038C00E#32, .barSync 7 6 3), (0x72000004#32, .fence .dev), (0x7418401C#32, .rel 3 2 .dev .d), (0x92000000#32, .unhandle 0),
      (0x94512580#32, .perform 10 9 11), (0x98070600#32, .resume 56 12), (0x9A6F0600#32, .resumek 13 56 12), (0x9C070000#32, .drop 56),
      (0x80184200#32, .fork 3 2 4), (0x82280001#32, .fstat 5 1), (0xA0004000#32, .tcp 2), (0xA2020000#32, .tcpr 16), (0x78000004#32, .twait 4),
      (0x46CB0024#32, .bge 25 24 0x24), (0x40598002#32, .beq 11 12 2), (0x0030A018#32, .popc 6 5), (0x08604001#32, .xori 12 2 1),
      (0x74516016#32, .relHalo 10 11 .w), (0x76718013#32, .acq 14 12 .die .w), (0xC0100003#32, .sget 2 0 3)], decodeShep p.1 0 = .ok p.2) ∧
  decodeShep 0x90480000 6 = .ok (.handle 9 false false 6) ∧ decodeShep 0x90A02000 7 = .ok (.handle 20 true false 7) ∧
  (∀ p ∈ [(0x0000000000000004#64, Instr.mzero 0), (0x0000000000000001#64, .mbeg 0), (0x0000000000000003#64, .mend 0),
      (0x0000000001090402#64, .mstep 1 4 9 0 0), (0x3FFF004063020705#64, .mout .bf16 true true 3 7 2 0x40 127 127),
      (0x000400030000000A#64, .mloop false 0 3 4), (0x0020002000000007#64, .mbind false 0 0 32 32), (0x0000000000000008#64, .mmark 0),
      (0x0003000000000009#64, .mwait 3), (0x0000000000000000#64, .mnop)], decodeMat p.1 = .ok p.2) ∧
  (let f : LaneFields := { dst := 3, sa := 3, sb := 386, sc := 0, feb := 0, pneg := false, pred := 1, ty := .i32, rnd := .rne, sat := .none, ext := 0 }
   decodeLane 320 (0#32 ++ 0x00800304#32 ++ 0x03018402#32) = .ok (.vsub f)) ∧
  (let f : LaneFields := { dst := 0, sa := 453, sb := 0, sc := 0, feb := 0, pneg := false, pred := 0, ty := .b32, rnd := .rne, sat := .none, ext := 0x43960000 }
   decodeLane 320 (0x43960000#32 ++ 0x04400001#32 ++ 0xC5000020#32) = .ok (.vmov f)) ∧
  (let f : LaneFields := { dst := 1, sa := 386, sb := 448, sc := 449, feb := 0, pneg := false, pred := 1, ty := .i32, rnd := .rne, sat := .none, ext := 0 }
   decodeLane 320 (0#32 ++ 0x00870781#32 ++ 0x82008591#32) = .ok (.vamoAdd f)) ∧
  decodeMat (BitVec.allOnes 64) = .error .illegal

/-- R155, R268, R307, R309, R313, R223: what reset leaves: no mode; every READY bit 0 and no command, root answer or flash command under
way; both logs empty; OUTWAYS 4 with no change in progress; GEN and every count of the fabric 0. That there is no context, team, queue,
grid, access, copy or matrix operation, no resynchronisation and no removed die is the model's choice (log 15), and so is the reset value of
CFGSTAT and of the command status (log 7). -/
def Obligations.ResetLeavesNoWork : Prop :=
  let s := State.reset
  s.contexts = [] ∧ s.teams = [] ∧ s.queues = [] ∧ s.grids = [] ∧ s.pending = [] ∧ s.copies = [] ∧ s.mops = [] ∧ s.mode = none ∧
  s.mgmt.ready = 0 ∧ s.mgmt.cfgstat = 0 ∧ s.mgmt.freqctl = 0 ∧ s.mgmt.cmdBusy = false ∧ s.mgmt.cmdLost = false ∧ s.mgmt.cmdStatus = 0 ∧ s.mgmt.mewr = 0 ∧
  s.mgmt.bbwr = 0 ∧ s.mgmt.frozen = false ∧ s.mgmt.flBusy = false ∧ (∀ d, d < 8 → (s.sliceCfg d).outways = 4 ∧ (s.sliceCfg d).target = none) ∧
  s.gen = 0 ∧ (∀ i k, s.vecAt i k = 0) ∧ s.resync = none ∧ s.removedDies = []

/-- The canonical form of device and host memory: addresses strictly rising, and no byte listed that an unlisted address reads as. -/
def MemoryCanonical (s : State) : Prop := s.mem.wf = true ∧ s.hostMem.wf = true

/-- Every step keeps the canonical form of memory, so that equal memories are equal data. -/
def Obligations.StepsKeepMemoryCanonical : Prop := ∀ s u : State, MemoryCanonical s → step s = .next u → MemoryCanonical u

/-- Memory at reset is canonical, and so are a memory after a store, a clearing, a paste and a window of it. -/
def Obligations.MemoryOperationsKeepTheForm : Prop :=
  MemoryCanonical State.reset ∧
  ∀ m : Memory, m.wf = true →
    (∀ a bs, (m.store a bs).wf = true ∧ (∀ i (h : i < bs.length), cellRead (m.store a bs) (a + i) = bs[i]) ∧
      (∀ c, c < a ∨ a + bs.length ≤ c → cellRead (m.store a bs) c = cellRead m c)) ∧
    (∀ a n, (m.clear a n).wf = true ∧ (m.window a n).wf = true ∧ ∀ c, cellRead (m.clear a n) c = (if a ≤ c ∧ c < a + n then 0 else cellRead m c)) ∧
    (∀ a n (x : Memory), (m.paste a n x).wf = true) ∧
    (∀ m' : Memory, m'.wf = true → (∀ a, cellRead m a = cellRead m' a) → m = m')

/-! ### The statements made of several parts -/

/-- R70 to R72: the results of the scalar arithmetic, on registers and on immediates. -/
def Obligations.ScalarArithmeticResults : Prop := ScalarTwoSourceResults ∧ ScalarCountInsertSelect ∧ ScalarImmediatesAndConstants

/-- R75 to R77: where branches, calls and jumps go. -/
def Obligations.BranchesAndJumpsTransferControl : Prop := BranchesAreTakenOnTheirCondition ∧ JumpsGoToTheirTarget

/-- R78, R80: LOOP, LOOPI and LBRK. -/
def Obligations.LoopsArePushedSkippedAndLeft : Prop := LoopsArePushedSkippedAndBroken

/-- R51, R90, R91, R93 to R95: state registers, SIGCHK, TRAP, YIELD and TWAIT. -/
def Obligations.StateRegistersSignatureTrapAndWaits : Prop := StateRegistersAreReadAndWritten ∧ SignatureTrapYieldAndTwait

/-- R83: SPLIT of a group and of an arm. -/
def Obligations.SplitDividesGroupsAndPaths : Prop := SplitDividesTheGroup ∧ InnerSplitPushesTheMaskStack

/-- R25, R32, R36, R73, R89, R170, Tables 5.2 and 8.2: the checks of an access; scalar loads, ACQ, scalar stores, and the responses of memory. -/
def Obligations.ScalarAccessesIssue : Prop := AccessesAreChecked ∧ ScalarLoadsIssue ∧ ScalarStoresIssue ∧ MemoryResponseFillsTheDestination

/-- R3, R73, R253, R254, R257: what a store writes, and that it is read back. -/
def Obligations.StoredBytesReadBack : Prop := StoresWriteTheirBytesAndNoOthers ∧ ViewStoresGoToTheDirtyCopy ∧ ReadAfterStore

/-- R74: the scalar atomics and the values they leave. -/
def Obligations.ScalarAtomicsUpdateMemory : Prop := ScalarAtomicsIssue ∧ AnAtomicIsOneEvent ∧ AtomicNewValues

/-- R88, R89, R228, R229, R236: fences, releases and the halo push. -/
def Obligations.FencesReleasesAndHaloPushes : Prop := FencesAndReleasesComplete ∧ HaloPushThenFlag

/-- R87: the barrier of a team. -/
def Obligations.BarriersArriveWaitAndComplete : Prop := BarArrivesWaitsOrFaults ∧ ArrivalIsRecorded ∧ BarrierPhaseCompletes

/-- R100, R101: HANDLE and UNHANDLE. -/
def Obligations.HandlersArePushedAndPopped : Prop := HandlePushesAFrame ∧ UnhandlePopsOrReturns

/-- R106 to R108, R115: RESUME, RESUMEK and DROP. -/
def Obligations.ContinuationsAreResumedOrDropped : Prop := ResumeGoesOnWithTheContinuation ∧ ResumekAndDropUseATokenUp

/-- R181 to R184: TCP and TCPR. -/
def Obligations.CopiesAreIssued : Prop := CopyPacketsIssue ∧ AnIssuedCopyIsInFlight

/-- R68, R109, R110, R172, R174: the course of a fault. -/
def Obligations.FaultsHaltOrEnterAHandler : Prop := LaneFaultIsDelivered ∧ AFaultRaisesTheHaltLine ∧ AFaultEntersItsHandler

/-- R86, R175: how a group ends. -/
def Obligations.GroupsRetireOrAreKilled : Prop := GroupRetires ∧ AContainedKillEndsTheGroupAlone

/-- R122, R124, R127, R128: lane operations on integers and bits. -/
def Obligations.LaneIntegerAndBitOperations : Prop := LaneIntegerArithmetic ∧ LaneBitOperations

/-- R131 to R135, R149: conversions, comparisons and predicate logic. -/
def Obligations.LaneConversionsAndPredicates : Prop := LaneConversions ∧ LanePredicates

/-- R40, R138, R139, R146: the lane stores. -/
def Obligations.LaneStoresGoLaneByLane : Prop := LaneStoresPerform ∧ LaneStoresGoInLaneOrder

/-- R147, R148: ballots, reductions and scans. -/
def Obligations.BallotsReductionsAndScans : Prop := LaneBallotsReductionsAndScans ∧ ReductionIsTheSumOfTheLanes

/-- R199 to R211: the control words of the sequencer. -/
def Obligations.SequencerWordsComplete : Prop := MatrixControlWords ∧ MarksAndReleases

/-- R203, R204: chains open and close, and what each element of their planes holds after a k-step and after MEND. -/
def Obligations.ChainsRoundOncePerProduct : Prop := ChainsOpenAndClose ∧ ChainsRound

/-- R206, R207, R214: the words that leave an operation under way, and its end. -/
def Obligations.MatrixResultsIssueAndComplete : Prop := ResultWordsIssue ∧ MatrixOperationsComplete

/-- R185 to R195: what each kind of copy moves. -/
def Obligations.CopiesMoveTheirBytes : Prop := RowCopiesMoveASector ∧ BlockCopiesMoveABlock

/-- R10, R27, R28, R158 to R164, R248, R249, R256, R264: launches, reservations and the placement of teams. -/
def Obligations.TeamsAreLaunchedAndPlaced : Prop := LaunchesStartOrAreRefused ∧ ChildrenArePlaced ∧ FlocksAndMirrorsArePlaced ∧ ReservationsAreTakenInTurn

/-- R165, R172, R174, R176 to R178: the ends of grids and contexts. -/
def Obligations.GridsAndContextsEnd : Prop := GridsComplete ∧ ContextsHaltAndEnd ∧ HaltsAreRecorded

/-- R169, R171: pre-emption and resumption. -/
def Obligations.TeamsMoveInAndOutOfCores : Prop := TeamsArePreemptedAndResumed

/-- R168, R250, R258 to R262: the fold of a set of children and what its parent receives. -/
def Obligations.FoldsAreDecidedAndParentsResume : Prop := FoldsStartAndAreDecided ∧ JoinsEndAndParentsResume

/-- R274 to R278: what the items, the bells and the reports of a channel do when they arrive. -/
def Obligations.FabricItemsArriveInOrder : Prop := ItemsArriveInOrder ∧ BellsAndReportsArrive

/-- R280, R281: the removal of a die and the resynchronisation of the fabric. -/
def Obligations.RemovalAndResynchronisation : Prop := DiesAreRemovedAndTheFabricResynchronised

/-- R35, R227, R237 to R241, R288: the accesses of the host and of the peers, and the events of coherence. -/
def Obligations.HostAndCoherenceEvents : Prop := HostAndPeersAccessMemory ∧ CoherenceEventsComplete

/-- R17, R18, R316: changes of frequency and the power cap. -/
def Obligations.PowerAndFrequencyAreManaged : Prop := FrequencyChangesGoStepByStep ∧ PowerIsCapped

/-- R285, R315, R317, R318: light, wear, the black box and the firmware. -/
def Obligations.LightIsLostAndWearIsCounted : Prop := LightWearAndTheBlackBox

/-- R309, R313, R314: resets and the commands of the flash. -/
def Obligations.ResetsAndFlashCommands : Prop := ResetsLeaveTheMachineReady ∧ FlashCommandsRun

/-- R155, R157, R178, R223, R231, R234, R280, R281, R306, R310 to R312: commands and registers of management. -/
def Obligations.ManagementCommandsAndRegisters : Prop := CommandsRun ∧ PinsFollowTheirRule ∧ RegistersAreWritten
end

