-- ==== Sys2Proof/Laws/State.lean ====
section
/-! SUPPORT. What each update of the state leaves in every field of it. -/

namespace Sys2Proof.Machine

open Sys2Proof

/-! ### updTeam -/

@[simp] theorem State.updTeam_time (s : State) (t : Nat) (f : Team → Team) : (s.updTeam t f).time = s.time := rfl
@[simp] theorem State.updTeam_fresh (s : State) (t : Nat) (f : Team → Team) : (s.updTeam t f).fresh = s.fresh := rfl
@[simp] theorem State.updTeam_cycle (s : State) (t : Nat) (f : Team → Team) : (s.updTeam t f).cycle = s.cycle := rfl
@[simp] theorem State.updTeam_agenda (s : State) (t : Nat) (f : Team → Team) : (s.updTeam t f).agenda = s.agenda := rfl
@[simp] theorem State.updTeam_sel (s : State) (t : Nat) (f : Team → Team) : (s.updTeam t f).sel = s.sel := rfl
@[simp] theorem State.updTeam_mode (s : State) (t : Nat) (f : Team → Team) : (s.updTeam t f).mode = s.mode := rfl
@[simp] theorem State.updTeam_mem (s : State) (t : Nat) (f : Team → Team) : (s.updTeam t f).mem = s.mem := rfl
@[simp] theorem State.updTeam_hostMem (s : State) (t : Nat) (f : Team → Team) : (s.updTeam t f).hostMem = s.hostMem := rfl
@[simp] theorem State.updTeam_peerMem (s : State) (t : Nat) (f : Team → Team) : (s.updTeam t f).peerMem = s.peerMem := rfl
@[simp] theorem State.updTeam_hostHeld (s : State) (t : Nat) (f : Team → Team) : (s.updTeam t f).hostHeld = s.hostHeld := rfl
@[simp] theorem State.updTeam_hubLines (s : State) (t : Nat) (f : Team → Team) : (s.updTeam t f).hubLines = s.hubLines := rfl
@[simp] theorem State.updTeam_hostData (s : State) (t : Nat) (f : Team → Team) : (s.updTeam t f).hostData = s.hostData := rfl
@[simp] theorem State.updTeam_hostPoison (s : State) (t : Nat) (f : Team → Team) : (s.updTeam t f).hostPoison = s.hostPoison := rfl
@[simp] theorem State.updTeam_poison (s : State) (t : Nat) (f : Team → Team) : (s.updTeam t f).poison = s.poison := rfl
@[simp] theorem State.updTeam_tlb1 (s : State) (t : Nat) (f : Team → Team) : (s.updTeam t f).tlb1 = s.tlb1 := rfl
@[simp] theorem State.updTeam_tlb2 (s : State) (t : Nat) (f : Team → Team) : (s.updTeam t f).tlb2 = s.tlb2 := rfl
@[simp] theorem State.updTeam_retiredCores (s : State) (t : Nat) (f : Team → Team) : (s.updTeam t f).retiredCores = s.retiredCores := rfl
@[simp] theorem State.updTeam_retiredDies (s : State) (t : Nat) (f : Team → Team) : (s.updTeam t f).retiredDies = s.retiredDies := rfl
@[simp] theorem State.updTeam_removedDies (s : State) (t : Nat) (f : Team → Team) : (s.updTeam t f).removedDies = s.removedDies := rfl
@[simp] theorem State.updTeam_peerNumber (s : State) (t : Nat) (f : Team → Team) : (s.updTeam t f).peerNumber = s.peerNumber := rfl
@[simp] theorem State.updTeam_step (s : State) (t : Nat) (f : Team → Team) : (s.updTeam t f).step = s.step := rfl
@[simp] theorem State.updTeam_capStep (s : State) (t : Nat) (f : Team → Team) : (s.updTeam t f).capStep = s.capStep := rfl
@[simp] theorem State.updTeam_capLow (s : State) (t : Nat) (f : Team → Team) : (s.updTeam t f).capLow = s.capLow := rfl
@[simp] theorem State.updTeam_freq (s : State) (t : Nat) (f : Team → Team) : (s.updTeam t f).freq = s.freq := rfl
@[simp] theorem State.updTeam_freqHeld (s : State) (t : Nat) (f : Team → Team) : (s.updTeam t f).freqHeld = s.freqHeld := rfl
@[simp] theorem State.updTeam_laserEn (s : State) (t : Nat) (f : Team → Team) : (s.updTeam t f).laserEn = s.laserEn := rfl
@[simp] theorem State.updTeam_nextId (s : State) (t : Nat) (f : Team → Team) : (s.updTeam t f).nextId = s.nextId := rfl
@[simp] theorem State.updTeam_contexts (s : State) (t : Nat) (f : Team → Team) : (s.updTeam t f).contexts = s.contexts := rfl
@[simp] theorem State.updTeam_queues (s : State) (t : Nat) (f : Team → Team) : (s.updTeam t f).queues = s.queues := rfl
@[simp] theorem State.updTeam_grids (s : State) (t : Nat) (f : Team → Team) : (s.updTeam t f).grids = s.grids := rfl
@[simp] theorem State.updTeam_sets (s : State) (t : Nat) (f : Team → Team) : (s.updTeam t f).sets = s.sets := rfl
@[simp] theorem State.updTeam_views (s : State) (t : Nat) (f : Team → Team) : (s.updTeam t f).views = s.views := rfl
@[simp] theorem State.updTeam_teams (s : State) (t : Nat) (f : Team → Team) : (s.updTeam t f).teams = updWhere (fun x => x.id == t) f s.teams := rfl
@[simp] theorem State.updTeam_pending (s : State) (t : Nat) (f : Team → Team) : (s.updTeam t f).pending = s.pending := rfl
@[simp] theorem State.updTeam_heldPackets (s : State) (t : Nat) (f : Team → Team) : (s.updTeam t f).heldPackets = s.heldPackets := rfl
@[simp] theorem State.updTeam_copies (s : State) (t : Nat) (f : Team → Team) : (s.updTeam t f).copies = s.copies := rfl
@[simp] theorem State.updTeam_mops (s : State) (t : Nat) (f : Team → Team) : (s.updTeam t f).mops = s.mops := rfl
@[simp] theorem State.updTeam_hurdles (s : State) (t : Nat) (f : Team → Team) : (s.updTeam t f).hurdles = s.hurdles := rfl
@[simp] theorem State.updTeam_w (s : State) (t : Nat) (f : Team → Team) : (s.updTeam t f).w = s.w := rfl
@[simp] theorem State.updTeam_l1 (s : State) (t : Nat) (f : Team → Team) : (s.updTeam t f).l1 = s.l1 := rfl
@[simp] theorem State.updTeam_roPast (s : State) (t : Nat) (f : Team → Team) : (s.updTeam t f).roPast = s.roPast := rfl
@[simp] theorem State.updTeam_infield (s : State) (t : Nat) (f : Team → Team) : (s.updTeam t f).infield = s.infield := rfl
@[simp] theorem State.updTeam_outfield (s : State) (t : Nat) (f : Team → Team) : (s.updTeam t f).outfield = s.outfield := rfl
@[simp] theorem State.updTeam_slices (s : State) (t : Nat) (f : Team → Team) : (s.updTeam t f).slices = s.slices := rfl
@[simp] theorem State.updTeam_offWays (s : State) (t : Nat) (f : Team → Team) : (s.updTeam t f).offWays = s.offWays := rfl
@[simp] theorem State.updTeam_regions (s : State) (t : Nat) (f : Team → Team) : (s.updTeam t f).regions = s.regions := rfl
@[simp] theorem State.updTeam_haloRels (s : State) (t : Nat) (f : Team → Team) : (s.updTeam t f).haloRels = s.haloRels := rfl
@[simp] theorem State.updTeam_guesses (s : State) (t : Nat) (f : Team → Team) : (s.updTeam t f).guesses = s.guesses := rfl
@[simp] theorem State.updTeam_peerStores (s : State) (t : Nat) (f : Team → Team) : (s.updTeam t f).peerStores = s.peerStores := rfl
@[simp] theorem State.updTeam_heldWrites (s : State) (t : Nat) (f : Team → Team) : (s.updTeam t f).heldWrites = s.heldWrites := rfl
@[simp] theorem State.updTeam_causalStores (s : State) (t : Nat) (f : Team → Team) : (s.updTeam t f).causalStores = s.causalStores := rfl
@[simp] theorem State.updTeam_imageWrites (s : State) (t : Nat) (f : Team → Team) : (s.updTeam t f).imageWrites = s.imageWrites := rfl
@[simp] theorem State.updTeam_gen (s : State) (t : Nat) (f : Team → Team) : (s.updTeam t f).gen = s.gen := rfl
@[simp] theorem State.updTeam_vecs (s : State) (t : Nat) (f : Team → Team) : (s.updTeam t f).vecs = s.vecs := rfl
@[simp] theorem State.updTeam_chans (s : State) (t : Nat) (f : Team → Team) : (s.updTeam t f).chans = s.chans := rfl
@[simp] theorem State.updTeam_untold (s : State) (t : Nat) (f : Team → Team) : (s.updTeam t f).untold = s.untold := rfl
@[simp] theorem State.updTeam_outq (s : State) (t : Nat) (f : Team → Team) : (s.updTeam t f).outq = s.outq := rfl
@[simp] theorem State.updTeam_resync (s : State) (t : Nat) (f : Team → Team) : (s.updTeam t f).resync = s.resync := rfl
@[simp] theorem State.updTeam_resyncHeld (s : State) (t : Nat) (f : Team → Team) : (s.updTeam t f).resyncHeld = s.resyncHeld := rfl
@[simp] theorem State.updTeam_removalDue (s : State) (t : Nat) (f : Team → Team) : (s.updTeam t f).removalDue = s.removalDue := rfl
@[simp] theorem State.updTeam_removalHeld (s : State) (t : Nat) (f : Team → Team) : (s.updTeam t f).removalHeld = s.removalHeld := rfl
@[simp] theorem State.updTeam_fibres (s : State) (t : Nat) (f : Team → Team) : (s.updTeam t f).fibres = s.fibres := rfl
@[simp] theorem State.updTeam_mgmt (s : State) (t : Nat) (f : Team → Team) : (s.updTeam t f).mgmt = s.mgmt := rfl

/-! ### updGroup -/

@[simp] theorem State.updGroup_time (s : State) (t g : Nat) (f : Group → Group) : (s.updGroup t g f).time = s.time := rfl
@[simp] theorem State.updGroup_fresh (s : State) (t g : Nat) (f : Group → Group) : (s.updGroup t g f).fresh = s.fresh := rfl
@[simp] theorem State.updGroup_cycle (s : State) (t g : Nat) (f : Group → Group) : (s.updGroup t g f).cycle = s.cycle := rfl
@[simp] theorem State.updGroup_agenda (s : State) (t g : Nat) (f : Group → Group) : (s.updGroup t g f).agenda = s.agenda := rfl
@[simp] theorem State.updGroup_sel (s : State) (t g : Nat) (f : Group → Group) : (s.updGroup t g f).sel = s.sel := rfl
@[simp] theorem State.updGroup_mode (s : State) (t g : Nat) (f : Group → Group) : (s.updGroup t g f).mode = s.mode := rfl
@[simp] theorem State.updGroup_mem (s : State) (t g : Nat) (f : Group → Group) : (s.updGroup t g f).mem = s.mem := rfl
@[simp] theorem State.updGroup_hostMem (s : State) (t g : Nat) (f : Group → Group) : (s.updGroup t g f).hostMem = s.hostMem := rfl
@[simp] theorem State.updGroup_peerMem (s : State) (t g : Nat) (f : Group → Group) : (s.updGroup t g f).peerMem = s.peerMem := rfl
@[simp] theorem State.updGroup_hostHeld (s : State) (t g : Nat) (f : Group → Group) : (s.updGroup t g f).hostHeld = s.hostHeld := rfl
@[simp] theorem State.updGroup_hubLines (s : State) (t g : Nat) (f : Group → Group) : (s.updGroup t g f).hubLines = s.hubLines := rfl
@[simp] theorem State.updGroup_hostData (s : State) (t g : Nat) (f : Group → Group) : (s.updGroup t g f).hostData = s.hostData := rfl
@[simp] theorem State.updGroup_hostPoison (s : State) (t g : Nat) (f : Group → Group) : (s.updGroup t g f).hostPoison = s.hostPoison := rfl
@[simp] theorem State.updGroup_poison (s : State) (t g : Nat) (f : Group → Group) : (s.updGroup t g f).poison = s.poison := rfl
@[simp] theorem State.updGroup_tlb1 (s : State) (t g : Nat) (f : Group → Group) : (s.updGroup t g f).tlb1 = s.tlb1 := rfl
@[simp] theorem State.updGroup_tlb2 (s : State) (t g : Nat) (f : Group → Group) : (s.updGroup t g f).tlb2 = s.tlb2 := rfl
@[simp] theorem State.updGroup_retiredCores (s : State) (t g : Nat) (f : Group → Group) : (s.updGroup t g f).retiredCores = s.retiredCores := rfl
@[simp] theorem State.updGroup_retiredDies (s : State) (t g : Nat) (f : Group → Group) : (s.updGroup t g f).retiredDies = s.retiredDies := rfl
@[simp] theorem State.updGroup_removedDies (s : State) (t g : Nat) (f : Group → Group) : (s.updGroup t g f).removedDies = s.removedDies := rfl
@[simp] theorem State.updGroup_peerNumber (s : State) (t g : Nat) (f : Group → Group) : (s.updGroup t g f).peerNumber = s.peerNumber := rfl
@[simp] theorem State.updGroup_step (s : State) (t g : Nat) (f : Group → Group) : (s.updGroup t g f).step = s.step := rfl
@[simp] theorem State.updGroup_capStep (s : State) (t g : Nat) (f : Group → Group) : (s.updGroup t g f).capStep = s.capStep := rfl
@[simp] theorem State.updGroup_capLow (s : State) (t g : Nat) (f : Group → Group) : (s.updGroup t g f).capLow = s.capLow := rfl
@[simp] theorem State.updGroup_freq (s : State) (t g : Nat) (f : Group → Group) : (s.updGroup t g f).freq = s.freq := rfl
@[simp] theorem State.updGroup_freqHeld (s : State) (t g : Nat) (f : Group → Group) : (s.updGroup t g f).freqHeld = s.freqHeld := rfl
@[simp] theorem State.updGroup_laserEn (s : State) (t g : Nat) (f : Group → Group) : (s.updGroup t g f).laserEn = s.laserEn := rfl
@[simp] theorem State.updGroup_nextId (s : State) (t g : Nat) (f : Group → Group) : (s.updGroup t g f).nextId = s.nextId := rfl
@[simp] theorem State.updGroup_contexts (s : State) (t g : Nat) (f : Group → Group) : (s.updGroup t g f).contexts = s.contexts := rfl
@[simp] theorem State.updGroup_queues (s : State) (t g : Nat) (f : Group → Group) : (s.updGroup t g f).queues = s.queues := rfl
@[simp] theorem State.updGroup_grids (s : State) (t g : Nat) (f : Group → Group) : (s.updGroup t g f).grids = s.grids := rfl
@[simp] theorem State.updGroup_sets (s : State) (t g : Nat) (f : Group → Group) : (s.updGroup t g f).sets = s.sets := rfl
@[simp] theorem State.updGroup_views (s : State) (t g : Nat) (f : Group → Group) : (s.updGroup t g f).views = s.views := rfl
@[simp] theorem State.updGroup_teams (s : State) (t g : Nat) (f : Group → Group) : (s.updGroup t g f).teams = updWhere (fun x => x.id == t) (fun x => x.updGroup g f) s.teams := rfl
@[simp] theorem State.updGroup_pending (s : State) (t g : Nat) (f : Group → Group) : (s.updGroup t g f).pending = s.pending := rfl
@[simp] theorem State.updGroup_heldPackets (s : State) (t g : Nat) (f : Group → Group) : (s.updGroup t g f).heldPackets = s.heldPackets := rfl
@[simp] theorem State.updGroup_copies (s : State) (t g : Nat) (f : Group → Group) : (s.updGroup t g f).copies = s.copies := rfl
@[simp] theorem State.updGroup_mops (s : State) (t g : Nat) (f : Group → Group) : (s.updGroup t g f).mops = s.mops := rfl
@[simp] theorem State.updGroup_hurdles (s : State) (t g : Nat) (f : Group → Group) : (s.updGroup t g f).hurdles = s.hurdles := rfl
@[simp] theorem State.updGroup_w (s : State) (t g : Nat) (f : Group → Group) : (s.updGroup t g f).w = s.w := rfl
@[simp] theorem State.updGroup_l1 (s : State) (t g : Nat) (f : Group → Group) : (s.updGroup t g f).l1 = s.l1 := rfl
@[simp] theorem State.updGroup_roPast (s : State) (t g : Nat) (f : Group → Group) : (s.updGroup t g f).roPast = s.roPast := rfl
@[simp] theorem State.updGroup_infield (s : State) (t g : Nat) (f : Group → Group) : (s.updGroup t g f).infield = s.infield := rfl
@[simp] theorem State.updGroup_outfield (s : State) (t g : Nat) (f : Group → Group) : (s.updGroup t g f).outfield = s.outfield := rfl
@[simp] theorem State.updGroup_slices (s : State) (t g : Nat) (f : Group → Group) : (s.updGroup t g f).slices = s.slices := rfl
@[simp] theorem State.updGroup_offWays (s : State) (t g : Nat) (f : Group → Group) : (s.updGroup t g f).offWays = s.offWays := rfl
@[simp] theorem State.updGroup_regions (s : State) (t g : Nat) (f : Group → Group) : (s.updGroup t g f).regions = s.regions := rfl
@[simp] theorem State.updGroup_haloRels (s : State) (t g : Nat) (f : Group → Group) : (s.updGroup t g f).haloRels = s.haloRels := rfl
@[simp] theorem State.updGroup_guesses (s : State) (t g : Nat) (f : Group → Group) : (s.updGroup t g f).guesses = s.guesses := rfl
@[simp] theorem State.updGroup_peerStores (s : State) (t g : Nat) (f : Group → Group) : (s.updGroup t g f).peerStores = s.peerStores := rfl
@[simp] theorem State.updGroup_heldWrites (s : State) (t g : Nat) (f : Group → Group) : (s.updGroup t g f).heldWrites = s.heldWrites := rfl
@[simp] theorem State.updGroup_causalStores (s : State) (t g : Nat) (f : Group → Group) : (s.updGroup t g f).causalStores = s.causalStores := rfl
@[simp] theorem State.updGroup_imageWrites (s : State) (t g : Nat) (f : Group → Group) : (s.updGroup t g f).imageWrites = s.imageWrites := rfl
@[simp] theorem State.updGroup_gen (s : State) (t g : Nat) (f : Group → Group) : (s.updGroup t g f).gen = s.gen := rfl
@[simp] theorem State.updGroup_vecs (s : State) (t g : Nat) (f : Group → Group) : (s.updGroup t g f).vecs = s.vecs := rfl
@[simp] theorem State.updGroup_chans (s : State) (t g : Nat) (f : Group → Group) : (s.updGroup t g f).chans = s.chans := rfl
@[simp] theorem State.updGroup_untold (s : State) (t g : Nat) (f : Group → Group) : (s.updGroup t g f).untold = s.untold := rfl
@[simp] theorem State.updGroup_outq (s : State) (t g : Nat) (f : Group → Group) : (s.updGroup t g f).outq = s.outq := rfl
@[simp] theorem State.updGroup_resync (s : State) (t g : Nat) (f : Group → Group) : (s.updGroup t g f).resync = s.resync := rfl
@[simp] theorem State.updGroup_resyncHeld (s : State) (t g : Nat) (f : Group → Group) : (s.updGroup t g f).resyncHeld = s.resyncHeld := rfl
@[simp] theorem State.updGroup_removalDue (s : State) (t g : Nat) (f : Group → Group) : (s.updGroup t g f).removalDue = s.removalDue := rfl
@[simp] theorem State.updGroup_removalHeld (s : State) (t g : Nat) (f : Group → Group) : (s.updGroup t g f).removalHeld = s.removalHeld := rfl
@[simp] theorem State.updGroup_fibres (s : State) (t g : Nat) (f : Group → Group) : (s.updGroup t g f).fibres = s.fibres := rfl
@[simp] theorem State.updGroup_mgmt (s : State) (t g : Nat) (f : Group → Group) : (s.updGroup t g f).mgmt = s.mgmt := rfl

/-! ### updCore -/

@[simp] theorem State.updCore_time (s : State) (t g : Nat) (f : Core → Core) : (s.updCore t g f).time = s.time := rfl
@[simp] theorem State.updCore_fresh (s : State) (t g : Nat) (f : Core → Core) : (s.updCore t g f).fresh = s.fresh := rfl
@[simp] theorem State.updCore_cycle (s : State) (t g : Nat) (f : Core → Core) : (s.updCore t g f).cycle = s.cycle := rfl
@[simp] theorem State.updCore_agenda (s : State) (t g : Nat) (f : Core → Core) : (s.updCore t g f).agenda = s.agenda := rfl
@[simp] theorem State.updCore_sel (s : State) (t g : Nat) (f : Core → Core) : (s.updCore t g f).sel = s.sel := rfl
@[simp] theorem State.updCore_mode (s : State) (t g : Nat) (f : Core → Core) : (s.updCore t g f).mode = s.mode := rfl
@[simp] theorem State.updCore_mem (s : State) (t g : Nat) (f : Core → Core) : (s.updCore t g f).mem = s.mem := rfl
@[simp] theorem State.updCore_hostMem (s : State) (t g : Nat) (f : Core → Core) : (s.updCore t g f).hostMem = s.hostMem := rfl
@[simp] theorem State.updCore_peerMem (s : State) (t g : Nat) (f : Core → Core) : (s.updCore t g f).peerMem = s.peerMem := rfl
@[simp] theorem State.updCore_hostHeld (s : State) (t g : Nat) (f : Core → Core) : (s.updCore t g f).hostHeld = s.hostHeld := rfl
@[simp] theorem State.updCore_hubLines (s : State) (t g : Nat) (f : Core → Core) : (s.updCore t g f).hubLines = s.hubLines := rfl
@[simp] theorem State.updCore_hostData (s : State) (t g : Nat) (f : Core → Core) : (s.updCore t g f).hostData = s.hostData := rfl
@[simp] theorem State.updCore_hostPoison (s : State) (t g : Nat) (f : Core → Core) : (s.updCore t g f).hostPoison = s.hostPoison := rfl
@[simp] theorem State.updCore_poison (s : State) (t g : Nat) (f : Core → Core) : (s.updCore t g f).poison = s.poison := rfl
@[simp] theorem State.updCore_tlb1 (s : State) (t g : Nat) (f : Core → Core) : (s.updCore t g f).tlb1 = s.tlb1 := rfl
@[simp] theorem State.updCore_tlb2 (s : State) (t g : Nat) (f : Core → Core) : (s.updCore t g f).tlb2 = s.tlb2 := rfl
@[simp] theorem State.updCore_retiredCores (s : State) (t g : Nat) (f : Core → Core) : (s.updCore t g f).retiredCores = s.retiredCores := rfl
@[simp] theorem State.updCore_retiredDies (s : State) (t g : Nat) (f : Core → Core) : (s.updCore t g f).retiredDies = s.retiredDies := rfl
@[simp] theorem State.updCore_removedDies (s : State) (t g : Nat) (f : Core → Core) : (s.updCore t g f).removedDies = s.removedDies := rfl
@[simp] theorem State.updCore_peerNumber (s : State) (t g : Nat) (f : Core → Core) : (s.updCore t g f).peerNumber = s.peerNumber := rfl
@[simp] theorem State.updCore_step (s : State) (t g : Nat) (f : Core → Core) : (s.updCore t g f).step = s.step := rfl
@[simp] theorem State.updCore_capStep (s : State) (t g : Nat) (f : Core → Core) : (s.updCore t g f).capStep = s.capStep := rfl
@[simp] theorem State.updCore_capLow (s : State) (t g : Nat) (f : Core → Core) : (s.updCore t g f).capLow = s.capLow := rfl
@[simp] theorem State.updCore_freq (s : State) (t g : Nat) (f : Core → Core) : (s.updCore t g f).freq = s.freq := rfl
@[simp] theorem State.updCore_freqHeld (s : State) (t g : Nat) (f : Core → Core) : (s.updCore t g f).freqHeld = s.freqHeld := rfl
@[simp] theorem State.updCore_laserEn (s : State) (t g : Nat) (f : Core → Core) : (s.updCore t g f).laserEn = s.laserEn := rfl
@[simp] theorem State.updCore_nextId (s : State) (t g : Nat) (f : Core → Core) : (s.updCore t g f).nextId = s.nextId := rfl
@[simp] theorem State.updCore_contexts (s : State) (t g : Nat) (f : Core → Core) : (s.updCore t g f).contexts = s.contexts := rfl
@[simp] theorem State.updCore_queues (s : State) (t g : Nat) (f : Core → Core) : (s.updCore t g f).queues = s.queues := rfl
@[simp] theorem State.updCore_grids (s : State) (t g : Nat) (f : Core → Core) : (s.updCore t g f).grids = s.grids := rfl
@[simp] theorem State.updCore_sets (s : State) (t g : Nat) (f : Core → Core) : (s.updCore t g f).sets = s.sets := rfl
@[simp] theorem State.updCore_views (s : State) (t g : Nat) (f : Core → Core) : (s.updCore t g f).views = s.views := rfl
@[simp] theorem State.updCore_pending (s : State) (t g : Nat) (f : Core → Core) : (s.updCore t g f).pending = s.pending := rfl
@[simp] theorem State.updCore_heldPackets (s : State) (t g : Nat) (f : Core → Core) : (s.updCore t g f).heldPackets = s.heldPackets := rfl
@[simp] theorem State.updCore_copies (s : State) (t g : Nat) (f : Core → Core) : (s.updCore t g f).copies = s.copies := rfl
@[simp] theorem State.updCore_mops (s : State) (t g : Nat) (f : Core → Core) : (s.updCore t g f).mops = s.mops := rfl
@[simp] theorem State.updCore_hurdles (s : State) (t g : Nat) (f : Core → Core) : (s.updCore t g f).hurdles = s.hurdles := rfl
@[simp] theorem State.updCore_w (s : State) (t g : Nat) (f : Core → Core) : (s.updCore t g f).w = s.w := rfl
@[simp] theorem State.updCore_l1 (s : State) (t g : Nat) (f : Core → Core) : (s.updCore t g f).l1 = s.l1 := rfl
@[simp] theorem State.updCore_roPast (s : State) (t g : Nat) (f : Core → Core) : (s.updCore t g f).roPast = s.roPast := rfl
@[simp] theorem State.updCore_infield (s : State) (t g : Nat) (f : Core → Core) : (s.updCore t g f).infield = s.infield := rfl
@[simp] theorem State.updCore_outfield (s : State) (t g : Nat) (f : Core → Core) : (s.updCore t g f).outfield = s.outfield := rfl
@[simp] theorem State.updCore_slices (s : State) (t g : Nat) (f : Core → Core) : (s.updCore t g f).slices = s.slices := rfl
@[simp] theorem State.updCore_offWays (s : State) (t g : Nat) (f : Core → Core) : (s.updCore t g f).offWays = s.offWays := rfl
@[simp] theorem State.updCore_regions (s : State) (t g : Nat) (f : Core → Core) : (s.updCore t g f).regions = s.regions := rfl
@[simp] theorem State.updCore_haloRels (s : State) (t g : Nat) (f : Core → Core) : (s.updCore t g f).haloRels = s.haloRels := rfl
@[simp] theorem State.updCore_guesses (s : State) (t g : Nat) (f : Core → Core) : (s.updCore t g f).guesses = s.guesses := rfl
@[simp] theorem State.updCore_peerStores (s : State) (t g : Nat) (f : Core → Core) : (s.updCore t g f).peerStores = s.peerStores := rfl
@[simp] theorem State.updCore_heldWrites (s : State) (t g : Nat) (f : Core → Core) : (s.updCore t g f).heldWrites = s.heldWrites := rfl
@[simp] theorem State.updCore_causalStores (s : State) (t g : Nat) (f : Core → Core) : (s.updCore t g f).causalStores = s.causalStores := rfl
@[simp] theorem State.updCore_imageWrites (s : State) (t g : Nat) (f : Core → Core) : (s.updCore t g f).imageWrites = s.imageWrites := rfl
@[simp] theorem State.updCore_gen (s : State) (t g : Nat) (f : Core → Core) : (s.updCore t g f).gen = s.gen := rfl
@[simp] theorem State.updCore_vecs (s : State) (t g : Nat) (f : Core → Core) : (s.updCore t g f).vecs = s.vecs := rfl
@[simp] theorem State.updCore_chans (s : State) (t g : Nat) (f : Core → Core) : (s.updCore t g f).chans = s.chans := rfl
@[simp] theorem State.updCore_untold (s : State) (t g : Nat) (f : Core → Core) : (s.updCore t g f).untold = s.untold := rfl
@[simp] theorem State.updCore_outq (s : State) (t g : Nat) (f : Core → Core) : (s.updCore t g f).outq = s.outq := rfl
@[simp] theorem State.updCore_resync (s : State) (t g : Nat) (f : Core → Core) : (s.updCore t g f).resync = s.resync := rfl
@[simp] theorem State.updCore_resyncHeld (s : State) (t g : Nat) (f : Core → Core) : (s.updCore t g f).resyncHeld = s.resyncHeld := rfl
@[simp] theorem State.updCore_removalDue (s : State) (t g : Nat) (f : Core → Core) : (s.updCore t g f).removalDue = s.removalDue := rfl
@[simp] theorem State.updCore_removalHeld (s : State) (t g : Nat) (f : Core → Core) : (s.updCore t g f).removalHeld = s.removalHeld := rfl
@[simp] theorem State.updCore_fibres (s : State) (t g : Nat) (f : Core → Core) : (s.updCore t g f).fibres = s.fibres := rfl
@[simp] theorem State.updCore_mgmt (s : State) (t g : Nat) (f : Core → Core) : (s.updCore t g f).mgmt = s.mgmt := rfl

/-! ### updArm -/

@[simp] theorem State.updArm_time (s : State) (t g : Nat) (b : Bool) (f : Arm → Arm) : (s.updArm t g b f).time = s.time := rfl
@[simp] theorem State.updArm_fresh (s : State) (t g : Nat) (b : Bool) (f : Arm → Arm) : (s.updArm t g b f).fresh = s.fresh := rfl
@[simp] theorem State.updArm_cycle (s : State) (t g : Nat) (b : Bool) (f : Arm → Arm) : (s.updArm t g b f).cycle = s.cycle := rfl
@[simp] theorem State.updArm_agenda (s : State) (t g : Nat) (b : Bool) (f : Arm → Arm) : (s.updArm t g b f).agenda = s.agenda := rfl
@[simp] theorem State.updArm_sel (s : State) (t g : Nat) (b : Bool) (f : Arm → Arm) : (s.updArm t g b f).sel = s.sel := rfl
@[simp] theorem State.updArm_mode (s : State) (t g : Nat) (b : Bool) (f : Arm → Arm) : (s.updArm t g b f).mode = s.mode := rfl
@[simp] theorem State.updArm_mem (s : State) (t g : Nat) (b : Bool) (f : Arm → Arm) : (s.updArm t g b f).mem = s.mem := rfl
@[simp] theorem State.updArm_hostMem (s : State) (t g : Nat) (b : Bool) (f : Arm → Arm) : (s.updArm t g b f).hostMem = s.hostMem := rfl
@[simp] theorem State.updArm_peerMem (s : State) (t g : Nat) (b : Bool) (f : Arm → Arm) : (s.updArm t g b f).peerMem = s.peerMem := rfl
@[simp] theorem State.updArm_hostHeld (s : State) (t g : Nat) (b : Bool) (f : Arm → Arm) : (s.updArm t g b f).hostHeld = s.hostHeld := rfl
@[simp] theorem State.updArm_hubLines (s : State) (t g : Nat) (b : Bool) (f : Arm → Arm) : (s.updArm t g b f).hubLines = s.hubLines := rfl
@[simp] theorem State.updArm_hostData (s : State) (t g : Nat) (b : Bool) (f : Arm → Arm) : (s.updArm t g b f).hostData = s.hostData := rfl
@[simp] theorem State.updArm_hostPoison (s : State) (t g : Nat) (b : Bool) (f : Arm → Arm) : (s.updArm t g b f).hostPoison = s.hostPoison := rfl
@[simp] theorem State.updArm_poison (s : State) (t g : Nat) (b : Bool) (f : Arm → Arm) : (s.updArm t g b f).poison = s.poison := rfl
@[simp] theorem State.updArm_tlb1 (s : State) (t g : Nat) (b : Bool) (f : Arm → Arm) : (s.updArm t g b f).tlb1 = s.tlb1 := rfl
@[simp] theorem State.updArm_tlb2 (s : State) (t g : Nat) (b : Bool) (f : Arm → Arm) : (s.updArm t g b f).tlb2 = s.tlb2 := rfl
@[simp] theorem State.updArm_retiredCores (s : State) (t g : Nat) (b : Bool) (f : Arm → Arm) : (s.updArm t g b f).retiredCores = s.retiredCores := rfl
@[simp] theorem State.updArm_retiredDies (s : State) (t g : Nat) (b : Bool) (f : Arm → Arm) : (s.updArm t g b f).retiredDies = s.retiredDies := rfl
@[simp] theorem State.updArm_removedDies (s : State) (t g : Nat) (b : Bool) (f : Arm → Arm) : (s.updArm t g b f).removedDies = s.removedDies := rfl
@[simp] theorem State.updArm_peerNumber (s : State) (t g : Nat) (b : Bool) (f : Arm → Arm) : (s.updArm t g b f).peerNumber = s.peerNumber := rfl
@[simp] theorem State.updArm_step (s : State) (t g : Nat) (b : Bool) (f : Arm → Arm) : (s.updArm t g b f).step = s.step := rfl
@[simp] theorem State.updArm_capStep (s : State) (t g : Nat) (b : Bool) (f : Arm → Arm) : (s.updArm t g b f).capStep = s.capStep := rfl
@[simp] theorem State.updArm_capLow (s : State) (t g : Nat) (b : Bool) (f : Arm → Arm) : (s.updArm t g b f).capLow = s.capLow := rfl
@[simp] theorem State.updArm_freq (s : State) (t g : Nat) (b : Bool) (f : Arm → Arm) : (s.updArm t g b f).freq = s.freq := rfl
@[simp] theorem State.updArm_freqHeld (s : State) (t g : Nat) (b : Bool) (f : Arm → Arm) : (s.updArm t g b f).freqHeld = s.freqHeld := rfl
@[simp] theorem State.updArm_laserEn (s : State) (t g : Nat) (b : Bool) (f : Arm → Arm) : (s.updArm t g b f).laserEn = s.laserEn := rfl
@[simp] theorem State.updArm_nextId (s : State) (t g : Nat) (b : Bool) (f : Arm → Arm) : (s.updArm t g b f).nextId = s.nextId := rfl
@[simp] theorem State.updArm_contexts (s : State) (t g : Nat) (b : Bool) (f : Arm → Arm) : (s.updArm t g b f).contexts = s.contexts := rfl
@[simp] theorem State.updArm_queues (s : State) (t g : Nat) (b : Bool) (f : Arm → Arm) : (s.updArm t g b f).queues = s.queues := rfl
@[simp] theorem State.updArm_grids (s : State) (t g : Nat) (b : Bool) (f : Arm → Arm) : (s.updArm t g b f).grids = s.grids := rfl
@[simp] theorem State.updArm_sets (s : State) (t g : Nat) (b : Bool) (f : Arm → Arm) : (s.updArm t g b f).sets = s.sets := rfl
@[simp] theorem State.updArm_views (s : State) (t g : Nat) (b : Bool) (f : Arm → Arm) : (s.updArm t g b f).views = s.views := rfl
@[simp] theorem State.updArm_pending (s : State) (t g : Nat) (b : Bool) (f : Arm → Arm) : (s.updArm t g b f).pending = s.pending := rfl
@[simp] theorem State.updArm_heldPackets (s : State) (t g : Nat) (b : Bool) (f : Arm → Arm) : (s.updArm t g b f).heldPackets = s.heldPackets := rfl
@[simp] theorem State.updArm_copies (s : State) (t g : Nat) (b : Bool) (f : Arm → Arm) : (s.updArm t g b f).copies = s.copies := rfl
@[simp] theorem State.updArm_mops (s : State) (t g : Nat) (b : Bool) (f : Arm → Arm) : (s.updArm t g b f).mops = s.mops := rfl
@[simp] theorem State.updArm_hurdles (s : State) (t g : Nat) (b : Bool) (f : Arm → Arm) : (s.updArm t g b f).hurdles = s.hurdles := rfl
@[simp] theorem State.updArm_w (s : State) (t g : Nat) (b : Bool) (f : Arm → Arm) : (s.updArm t g b f).w = s.w := rfl
@[simp] theorem State.updArm_l1 (s : State) (t g : Nat) (b : Bool) (f : Arm → Arm) : (s.updArm t g b f).l1 = s.l1 := rfl
@[simp] theorem State.updArm_roPast (s : State) (t g : Nat) (b : Bool) (f : Arm → Arm) : (s.updArm t g b f).roPast = s.roPast := rfl
@[simp] theorem State.updArm_infield (s : State) (t g : Nat) (b : Bool) (f : Arm → Arm) : (s.updArm t g b f).infield = s.infield := rfl
@[simp] theorem State.updArm_outfield (s : State) (t g : Nat) (b : Bool) (f : Arm → Arm) : (s.updArm t g b f).outfield = s.outfield := rfl
@[simp] theorem State.updArm_slices (s : State) (t g : Nat) (b : Bool) (f : Arm → Arm) : (s.updArm t g b f).slices = s.slices := rfl
@[simp] theorem State.updArm_offWays (s : State) (t g : Nat) (b : Bool) (f : Arm → Arm) : (s.updArm t g b f).offWays = s.offWays := rfl
@[simp] theorem State.updArm_regions (s : State) (t g : Nat) (b : Bool) (f : Arm → Arm) : (s.updArm t g b f).regions = s.regions := rfl
@[simp] theorem State.updArm_haloRels (s : State) (t g : Nat) (b : Bool) (f : Arm → Arm) : (s.updArm t g b f).haloRels = s.haloRels := rfl
@[simp] theorem State.updArm_guesses (s : State) (t g : Nat) (b : Bool) (f : Arm → Arm) : (s.updArm t g b f).guesses = s.guesses := rfl
@[simp] theorem State.updArm_peerStores (s : State) (t g : Nat) (b : Bool) (f : Arm → Arm) : (s.updArm t g b f).peerStores = s.peerStores := rfl
@[simp] theorem State.updArm_heldWrites (s : State) (t g : Nat) (b : Bool) (f : Arm → Arm) : (s.updArm t g b f).heldWrites = s.heldWrites := rfl
@[simp] theorem State.updArm_causalStores (s : State) (t g : Nat) (b : Bool) (f : Arm → Arm) : (s.updArm t g b f).causalStores = s.causalStores := rfl
@[simp] theorem State.updArm_imageWrites (s : State) (t g : Nat) (b : Bool) (f : Arm → Arm) : (s.updArm t g b f).imageWrites = s.imageWrites := rfl
@[simp] theorem State.updArm_gen (s : State) (t g : Nat) (b : Bool) (f : Arm → Arm) : (s.updArm t g b f).gen = s.gen := rfl
@[simp] theorem State.updArm_vecs (s : State) (t g : Nat) (b : Bool) (f : Arm → Arm) : (s.updArm t g b f).vecs = s.vecs := rfl
@[simp] theorem State.updArm_chans (s : State) (t g : Nat) (b : Bool) (f : Arm → Arm) : (s.updArm t g b f).chans = s.chans := rfl
@[simp] theorem State.updArm_untold (s : State) (t g : Nat) (b : Bool) (f : Arm → Arm) : (s.updArm t g b f).untold = s.untold := rfl
@[simp] theorem State.updArm_outq (s : State) (t g : Nat) (b : Bool) (f : Arm → Arm) : (s.updArm t g b f).outq = s.outq := rfl
@[simp] theorem State.updArm_resync (s : State) (t g : Nat) (b : Bool) (f : Arm → Arm) : (s.updArm t g b f).resync = s.resync := rfl
@[simp] theorem State.updArm_resyncHeld (s : State) (t g : Nat) (b : Bool) (f : Arm → Arm) : (s.updArm t g b f).resyncHeld = s.resyncHeld := rfl
@[simp] theorem State.updArm_removalDue (s : State) (t g : Nat) (b : Bool) (f : Arm → Arm) : (s.updArm t g b f).removalDue = s.removalDue := rfl
@[simp] theorem State.updArm_removalHeld (s : State) (t g : Nat) (b : Bool) (f : Arm → Arm) : (s.updArm t g b f).removalHeld = s.removalHeld := rfl
@[simp] theorem State.updArm_fibres (s : State) (t g : Nat) (b : Bool) (f : Arm → Arm) : (s.updArm t g b f).fibres = s.fibres := rfl
@[simp] theorem State.updArm_mgmt (s : State) (t g : Nat) (b : Bool) (f : Arm → Arm) : (s.updArm t g b f).mgmt = s.mgmt := rfl

/-! ### updCtx -/

@[simp] theorem State.updCtx_time (s : State) (n : Nat) (f : Context → Context) : (s.updCtx n f).time = s.time := rfl
@[simp] theorem State.updCtx_fresh (s : State) (n : Nat) (f : Context → Context) : (s.updCtx n f).fresh = s.fresh := rfl
@[simp] theorem State.updCtx_cycle (s : State) (n : Nat) (f : Context → Context) : (s.updCtx n f).cycle = s.cycle := rfl
@[simp] theorem State.updCtx_agenda (s : State) (n : Nat) (f : Context → Context) : (s.updCtx n f).agenda = s.agenda := rfl
@[simp] theorem State.updCtx_sel (s : State) (n : Nat) (f : Context → Context) : (s.updCtx n f).sel = s.sel := rfl
@[simp] theorem State.updCtx_mode (s : State) (n : Nat) (f : Context → Context) : (s.updCtx n f).mode = s.mode := rfl
@[simp] theorem State.updCtx_mem (s : State) (n : Nat) (f : Context → Context) : (s.updCtx n f).mem = s.mem := rfl
@[simp] theorem State.updCtx_hostMem (s : State) (n : Nat) (f : Context → Context) : (s.updCtx n f).hostMem = s.hostMem := rfl
@[simp] theorem State.updCtx_peerMem (s : State) (n : Nat) (f : Context → Context) : (s.updCtx n f).peerMem = s.peerMem := rfl
@[simp] theorem State.updCtx_hostHeld (s : State) (n : Nat) (f : Context → Context) : (s.updCtx n f).hostHeld = s.hostHeld := rfl
@[simp] theorem State.updCtx_hubLines (s : State) (n : Nat) (f : Context → Context) : (s.updCtx n f).hubLines = s.hubLines := rfl
@[simp] theorem State.updCtx_hostData (s : State) (n : Nat) (f : Context → Context) : (s.updCtx n f).hostData = s.hostData := rfl
@[simp] theorem State.updCtx_hostPoison (s : State) (n : Nat) (f : Context → Context) : (s.updCtx n f).hostPoison = s.hostPoison := rfl
@[simp] theorem State.updCtx_poison (s : State) (n : Nat) (f : Context → Context) : (s.updCtx n f).poison = s.poison := rfl
@[simp] theorem State.updCtx_tlb1 (s : State) (n : Nat) (f : Context → Context) : (s.updCtx n f).tlb1 = s.tlb1 := rfl
@[simp] theorem State.updCtx_tlb2 (s : State) (n : Nat) (f : Context → Context) : (s.updCtx n f).tlb2 = s.tlb2 := rfl
@[simp] theorem State.updCtx_retiredCores (s : State) (n : Nat) (f : Context → Context) : (s.updCtx n f).retiredCores = s.retiredCores := rfl
@[simp] theorem State.updCtx_retiredDies (s : State) (n : Nat) (f : Context → Context) : (s.updCtx n f).retiredDies = s.retiredDies := rfl
@[simp] theorem State.updCtx_removedDies (s : State) (n : Nat) (f : Context → Context) : (s.updCtx n f).removedDies = s.removedDies := rfl
@[simp] theorem State.updCtx_peerNumber (s : State) (n : Nat) (f : Context → Context) : (s.updCtx n f).peerNumber = s.peerNumber := rfl
@[simp] theorem State.updCtx_step (s : State) (n : Nat) (f : Context → Context) : (s.updCtx n f).step = s.step := rfl
@[simp] theorem State.updCtx_capStep (s : State) (n : Nat) (f : Context → Context) : (s.updCtx n f).capStep = s.capStep := rfl
@[simp] theorem State.updCtx_capLow (s : State) (n : Nat) (f : Context → Context) : (s.updCtx n f).capLow = s.capLow := rfl
@[simp] theorem State.updCtx_freq (s : State) (n : Nat) (f : Context → Context) : (s.updCtx n f).freq = s.freq := rfl
@[simp] theorem State.updCtx_freqHeld (s : State) (n : Nat) (f : Context → Context) : (s.updCtx n f).freqHeld = s.freqHeld := rfl
@[simp] theorem State.updCtx_laserEn (s : State) (n : Nat) (f : Context → Context) : (s.updCtx n f).laserEn = s.laserEn := rfl
@[simp] theorem State.updCtx_nextId (s : State) (n : Nat) (f : Context → Context) : (s.updCtx n f).nextId = s.nextId := rfl
@[simp] theorem State.updCtx_contexts (s : State) (n : Nat) (f : Context → Context) : (s.updCtx n f).contexts = updWhere (fun c => c.num == n) f s.contexts := rfl
@[simp] theorem State.updCtx_queues (s : State) (n : Nat) (f : Context → Context) : (s.updCtx n f).queues = s.queues := rfl
@[simp] theorem State.updCtx_grids (s : State) (n : Nat) (f : Context → Context) : (s.updCtx n f).grids = s.grids := rfl
@[simp] theorem State.updCtx_sets (s : State) (n : Nat) (f : Context → Context) : (s.updCtx n f).sets = s.sets := rfl
@[simp] theorem State.updCtx_views (s : State) (n : Nat) (f : Context → Context) : (s.updCtx n f).views = s.views := rfl
@[simp] theorem State.updCtx_teams (s : State) (n : Nat) (f : Context → Context) : (s.updCtx n f).teams = s.teams := rfl
@[simp] theorem State.updCtx_pending (s : State) (n : Nat) (f : Context → Context) : (s.updCtx n f).pending = s.pending := rfl
@[simp] theorem State.updCtx_heldPackets (s : State) (n : Nat) (f : Context → Context) : (s.updCtx n f).heldPackets = s.heldPackets := rfl
@[simp] theorem State.updCtx_copies (s : State) (n : Nat) (f : Context → Context) : (s.updCtx n f).copies = s.copies := rfl
@[simp] theorem State.updCtx_mops (s : State) (n : Nat) (f : Context → Context) : (s.updCtx n f).mops = s.mops := rfl
@[simp] theorem State.updCtx_hurdles (s : State) (n : Nat) (f : Context → Context) : (s.updCtx n f).hurdles = s.hurdles := rfl
@[simp] theorem State.updCtx_w (s : State) (n : Nat) (f : Context → Context) : (s.updCtx n f).w = s.w := rfl
@[simp] theorem State.updCtx_l1 (s : State) (n : Nat) (f : Context → Context) : (s.updCtx n f).l1 = s.l1 := rfl
@[simp] theorem State.updCtx_roPast (s : State) (n : Nat) (f : Context → Context) : (s.updCtx n f).roPast = s.roPast := rfl
@[simp] theorem State.updCtx_infield (s : State) (n : Nat) (f : Context → Context) : (s.updCtx n f).infield = s.infield := rfl
@[simp] theorem State.updCtx_outfield (s : State) (n : Nat) (f : Context → Context) : (s.updCtx n f).outfield = s.outfield := rfl
@[simp] theorem State.updCtx_slices (s : State) (n : Nat) (f : Context → Context) : (s.updCtx n f).slices = s.slices := rfl
@[simp] theorem State.updCtx_offWays (s : State) (n : Nat) (f : Context → Context) : (s.updCtx n f).offWays = s.offWays := rfl
@[simp] theorem State.updCtx_regions (s : State) (n : Nat) (f : Context → Context) : (s.updCtx n f).regions = s.regions := rfl
@[simp] theorem State.updCtx_haloRels (s : State) (n : Nat) (f : Context → Context) : (s.updCtx n f).haloRels = s.haloRels := rfl
@[simp] theorem State.updCtx_guesses (s : State) (n : Nat) (f : Context → Context) : (s.updCtx n f).guesses = s.guesses := rfl
@[simp] theorem State.updCtx_peerStores (s : State) (n : Nat) (f : Context → Context) : (s.updCtx n f).peerStores = s.peerStores := rfl
@[simp] theorem State.updCtx_heldWrites (s : State) (n : Nat) (f : Context → Context) : (s.updCtx n f).heldWrites = s.heldWrites := rfl
@[simp] theorem State.updCtx_causalStores (s : State) (n : Nat) (f : Context → Context) : (s.updCtx n f).causalStores = s.causalStores := rfl
@[simp] theorem State.updCtx_imageWrites (s : State) (n : Nat) (f : Context → Context) : (s.updCtx n f).imageWrites = s.imageWrites := rfl
@[simp] theorem State.updCtx_gen (s : State) (n : Nat) (f : Context → Context) : (s.updCtx n f).gen = s.gen := rfl
@[simp] theorem State.updCtx_vecs (s : State) (n : Nat) (f : Context → Context) : (s.updCtx n f).vecs = s.vecs := rfl
@[simp] theorem State.updCtx_chans (s : State) (n : Nat) (f : Context → Context) : (s.updCtx n f).chans = s.chans := rfl
@[simp] theorem State.updCtx_untold (s : State) (n : Nat) (f : Context → Context) : (s.updCtx n f).untold = s.untold := rfl
@[simp] theorem State.updCtx_outq (s : State) (n : Nat) (f : Context → Context) : (s.updCtx n f).outq = s.outq := rfl
@[simp] theorem State.updCtx_resync (s : State) (n : Nat) (f : Context → Context) : (s.updCtx n f).resync = s.resync := rfl
@[simp] theorem State.updCtx_resyncHeld (s : State) (n : Nat) (f : Context → Context) : (s.updCtx n f).resyncHeld = s.resyncHeld := rfl
@[simp] theorem State.updCtx_removalDue (s : State) (n : Nat) (f : Context → Context) : (s.updCtx n f).removalDue = s.removalDue := rfl
@[simp] theorem State.updCtx_removalHeld (s : State) (n : Nat) (f : Context → Context) : (s.updCtx n f).removalHeld = s.removalHeld := rfl
@[simp] theorem State.updCtx_fibres (s : State) (n : Nat) (f : Context → Context) : (s.updCtx n f).fibres = s.fibres := rfl
@[simp] theorem State.updCtx_mgmt (s : State) (n : Nat) (f : Context → Context) : (s.updCtx n f).mgmt = s.mgmt := rfl

/-! ### updSet -/

@[simp] theorem State.updSet_time (s : State) (n : Nat) (f : ChildSet → ChildSet) : (s.updSet n f).time = s.time := rfl
@[simp] theorem State.updSet_fresh (s : State) (n : Nat) (f : ChildSet → ChildSet) : (s.updSet n f).fresh = s.fresh := rfl
@[simp] theorem State.updSet_cycle (s : State) (n : Nat) (f : ChildSet → ChildSet) : (s.updSet n f).cycle = s.cycle := rfl
@[simp] theorem State.updSet_agenda (s : State) (n : Nat) (f : ChildSet → ChildSet) : (s.updSet n f).agenda = s.agenda := rfl
@[simp] theorem State.updSet_sel (s : State) (n : Nat) (f : ChildSet → ChildSet) : (s.updSet n f).sel = s.sel := rfl
@[simp] theorem State.updSet_mode (s : State) (n : Nat) (f : ChildSet → ChildSet) : (s.updSet n f).mode = s.mode := rfl
@[simp] theorem State.updSet_mem (s : State) (n : Nat) (f : ChildSet → ChildSet) : (s.updSet n f).mem = s.mem := rfl
@[simp] theorem State.updSet_hostMem (s : State) (n : Nat) (f : ChildSet → ChildSet) : (s.updSet n f).hostMem = s.hostMem := rfl
@[simp] theorem State.updSet_peerMem (s : State) (n : Nat) (f : ChildSet → ChildSet) : (s.updSet n f).peerMem = s.peerMem := rfl
@[simp] theorem State.updSet_hostHeld (s : State) (n : Nat) (f : ChildSet → ChildSet) : (s.updSet n f).hostHeld = s.hostHeld := rfl
@[simp] theorem State.updSet_hubLines (s : State) (n : Nat) (f : ChildSet → ChildSet) : (s.updSet n f).hubLines = s.hubLines := rfl
@[simp] theorem State.updSet_hostData (s : State) (n : Nat) (f : ChildSet → ChildSet) : (s.updSet n f).hostData = s.hostData := rfl
@[simp] theorem State.updSet_hostPoison (s : State) (n : Nat) (f : ChildSet → ChildSet) : (s.updSet n f).hostPoison = s.hostPoison := rfl
@[simp] theorem State.updSet_poison (s : State) (n : Nat) (f : ChildSet → ChildSet) : (s.updSet n f).poison = s.poison := rfl
@[simp] theorem State.updSet_tlb1 (s : State) (n : Nat) (f : ChildSet → ChildSet) : (s.updSet n f).tlb1 = s.tlb1 := rfl
@[simp] theorem State.updSet_tlb2 (s : State) (n : Nat) (f : ChildSet → ChildSet) : (s.updSet n f).tlb2 = s.tlb2 := rfl
@[simp] theorem State.updSet_retiredCores (s : State) (n : Nat) (f : ChildSet → ChildSet) : (s.updSet n f).retiredCores = s.retiredCores := rfl
@[simp] theorem State.updSet_retiredDies (s : State) (n : Nat) (f : ChildSet → ChildSet) : (s.updSet n f).retiredDies = s.retiredDies := rfl
@[simp] theorem State.updSet_removedDies (s : State) (n : Nat) (f : ChildSet → ChildSet) : (s.updSet n f).removedDies = s.removedDies := rfl
@[simp] theorem State.updSet_peerNumber (s : State) (n : Nat) (f : ChildSet → ChildSet) : (s.updSet n f).peerNumber = s.peerNumber := rfl
@[simp] theorem State.updSet_step (s : State) (n : Nat) (f : ChildSet → ChildSet) : (s.updSet n f).step = s.step := rfl
@[simp] theorem State.updSet_capStep (s : State) (n : Nat) (f : ChildSet → ChildSet) : (s.updSet n f).capStep = s.capStep := rfl
@[simp] theorem State.updSet_capLow (s : State) (n : Nat) (f : ChildSet → ChildSet) : (s.updSet n f).capLow = s.capLow := rfl
@[simp] theorem State.updSet_freq (s : State) (n : Nat) (f : ChildSet → ChildSet) : (s.updSet n f).freq = s.freq := rfl
@[simp] theorem State.updSet_freqHeld (s : State) (n : Nat) (f : ChildSet → ChildSet) : (s.updSet n f).freqHeld = s.freqHeld := rfl
@[simp] theorem State.updSet_laserEn (s : State) (n : Nat) (f : ChildSet → ChildSet) : (s.updSet n f).laserEn = s.laserEn := rfl
@[simp] theorem State.updSet_nextId (s : State) (n : Nat) (f : ChildSet → ChildSet) : (s.updSet n f).nextId = s.nextId := rfl
@[simp] theorem State.updSet_contexts (s : State) (n : Nat) (f : ChildSet → ChildSet) : (s.updSet n f).contexts = s.contexts := rfl
@[simp] theorem State.updSet_queues (s : State) (n : Nat) (f : ChildSet → ChildSet) : (s.updSet n f).queues = s.queues := rfl
@[simp] theorem State.updSet_grids (s : State) (n : Nat) (f : ChildSet → ChildSet) : (s.updSet n f).grids = s.grids := rfl
@[simp] theorem State.updSet_sets (s : State) (n : Nat) (f : ChildSet → ChildSet) : (s.updSet n f).sets = updWhere (fun x => x.id == n) f s.sets := rfl
@[simp] theorem State.updSet_views (s : State) (n : Nat) (f : ChildSet → ChildSet) : (s.updSet n f).views = s.views := rfl
@[simp] theorem State.updSet_teams (s : State) (n : Nat) (f : ChildSet → ChildSet) : (s.updSet n f).teams = s.teams := rfl
@[simp] theorem State.updSet_pending (s : State) (n : Nat) (f : ChildSet → ChildSet) : (s.updSet n f).pending = s.pending := rfl
@[simp] theorem State.updSet_heldPackets (s : State) (n : Nat) (f : ChildSet → ChildSet) : (s.updSet n f).heldPackets = s.heldPackets := rfl
@[simp] theorem State.updSet_copies (s : State) (n : Nat) (f : ChildSet → ChildSet) : (s.updSet n f).copies = s.copies := rfl
@[simp] theorem State.updSet_mops (s : State) (n : Nat) (f : ChildSet → ChildSet) : (s.updSet n f).mops = s.mops := rfl
@[simp] theorem State.updSet_hurdles (s : State) (n : Nat) (f : ChildSet → ChildSet) : (s.updSet n f).hurdles = s.hurdles := rfl
@[simp] theorem State.updSet_w (s : State) (n : Nat) (f : ChildSet → ChildSet) : (s.updSet n f).w = s.w := rfl
@[simp] theorem State.updSet_l1 (s : State) (n : Nat) (f : ChildSet → ChildSet) : (s.updSet n f).l1 = s.l1 := rfl
@[simp] theorem State.updSet_roPast (s : State) (n : Nat) (f : ChildSet → ChildSet) : (s.updSet n f).roPast = s.roPast := rfl
@[simp] theorem State.updSet_infield (s : State) (n : Nat) (f : ChildSet → ChildSet) : (s.updSet n f).infield = s.infield := rfl
@[simp] theorem State.updSet_outfield (s : State) (n : Nat) (f : ChildSet → ChildSet) : (s.updSet n f).outfield = s.outfield := rfl
@[simp] theorem State.updSet_slices (s : State) (n : Nat) (f : ChildSet → ChildSet) : (s.updSet n f).slices = s.slices := rfl
@[simp] theorem State.updSet_offWays (s : State) (n : Nat) (f : ChildSet → ChildSet) : (s.updSet n f).offWays = s.offWays := rfl
@[simp] theorem State.updSet_regions (s : State) (n : Nat) (f : ChildSet → ChildSet) : (s.updSet n f).regions = s.regions := rfl
@[simp] theorem State.updSet_haloRels (s : State) (n : Nat) (f : ChildSet → ChildSet) : (s.updSet n f).haloRels = s.haloRels := rfl
@[simp] theorem State.updSet_guesses (s : State) (n : Nat) (f : ChildSet → ChildSet) : (s.updSet n f).guesses = s.guesses := rfl
@[simp] theorem State.updSet_peerStores (s : State) (n : Nat) (f : ChildSet → ChildSet) : (s.updSet n f).peerStores = s.peerStores := rfl
@[simp] theorem State.updSet_heldWrites (s : State) (n : Nat) (f : ChildSet → ChildSet) : (s.updSet n f).heldWrites = s.heldWrites := rfl
@[simp] theorem State.updSet_causalStores (s : State) (n : Nat) (f : ChildSet → ChildSet) : (s.updSet n f).causalStores = s.causalStores := rfl
@[simp] theorem State.updSet_imageWrites (s : State) (n : Nat) (f : ChildSet → ChildSet) : (s.updSet n f).imageWrites = s.imageWrites := rfl
@[simp] theorem State.updSet_gen (s : State) (n : Nat) (f : ChildSet → ChildSet) : (s.updSet n f).gen = s.gen := rfl
@[simp] theorem State.updSet_vecs (s : State) (n : Nat) (f : ChildSet → ChildSet) : (s.updSet n f).vecs = s.vecs := rfl
@[simp] theorem State.updSet_chans (s : State) (n : Nat) (f : ChildSet → ChildSet) : (s.updSet n f).chans = s.chans := rfl
@[simp] theorem State.updSet_untold (s : State) (n : Nat) (f : ChildSet → ChildSet) : (s.updSet n f).untold = s.untold := rfl
@[simp] theorem State.updSet_outq (s : State) (n : Nat) (f : ChildSet → ChildSet) : (s.updSet n f).outq = s.outq := rfl
@[simp] theorem State.updSet_resync (s : State) (n : Nat) (f : ChildSet → ChildSet) : (s.updSet n f).resync = s.resync := rfl
@[simp] theorem State.updSet_resyncHeld (s : State) (n : Nat) (f : ChildSet → ChildSet) : (s.updSet n f).resyncHeld = s.resyncHeld := rfl
@[simp] theorem State.updSet_removalDue (s : State) (n : Nat) (f : ChildSet → ChildSet) : (s.updSet n f).removalDue = s.removalDue := rfl
@[simp] theorem State.updSet_removalHeld (s : State) (n : Nat) (f : ChildSet → ChildSet) : (s.updSet n f).removalHeld = s.removalHeld := rfl
@[simp] theorem State.updSet_fibres (s : State) (n : Nat) (f : ChildSet → ChildSet) : (s.updSet n f).fibres = s.fibres := rfl
@[simp] theorem State.updSet_mgmt (s : State) (n : Nat) (f : ChildSet → ChildSet) : (s.updSet n f).mgmt = s.mgmt := rfl

/-! ### updView -/

@[simp] theorem State.updView_time (s : State) (n : Nat) (f : View → View) : (s.updView n f).time = s.time := rfl
@[simp] theorem State.updView_fresh (s : State) (n : Nat) (f : View → View) : (s.updView n f).fresh = s.fresh := rfl
@[simp] theorem State.updView_cycle (s : State) (n : Nat) (f : View → View) : (s.updView n f).cycle = s.cycle := rfl
@[simp] theorem State.updView_agenda (s : State) (n : Nat) (f : View → View) : (s.updView n f).agenda = s.agenda := rfl
@[simp] theorem State.updView_sel (s : State) (n : Nat) (f : View → View) : (s.updView n f).sel = s.sel := rfl
@[simp] theorem State.updView_mode (s : State) (n : Nat) (f : View → View) : (s.updView n f).mode = s.mode := rfl
@[simp] theorem State.updView_mem (s : State) (n : Nat) (f : View → View) : (s.updView n f).mem = s.mem := rfl
@[simp] theorem State.updView_hostMem (s : State) (n : Nat) (f : View → View) : (s.updView n f).hostMem = s.hostMem := rfl
@[simp] theorem State.updView_peerMem (s : State) (n : Nat) (f : View → View) : (s.updView n f).peerMem = s.peerMem := rfl
@[simp] theorem State.updView_hostHeld (s : State) (n : Nat) (f : View → View) : (s.updView n f).hostHeld = s.hostHeld := rfl
@[simp] theorem State.updView_hubLines (s : State) (n : Nat) (f : View → View) : (s.updView n f).hubLines = s.hubLines := rfl
@[simp] theorem State.updView_hostData (s : State) (n : Nat) (f : View → View) : (s.updView n f).hostData = s.hostData := rfl
@[simp] theorem State.updView_hostPoison (s : State) (n : Nat) (f : View → View) : (s.updView n f).hostPoison = s.hostPoison := rfl
@[simp] theorem State.updView_poison (s : State) (n : Nat) (f : View → View) : (s.updView n f).poison = s.poison := rfl
@[simp] theorem State.updView_tlb1 (s : State) (n : Nat) (f : View → View) : (s.updView n f).tlb1 = s.tlb1 := rfl
@[simp] theorem State.updView_tlb2 (s : State) (n : Nat) (f : View → View) : (s.updView n f).tlb2 = s.tlb2 := rfl
@[simp] theorem State.updView_retiredCores (s : State) (n : Nat) (f : View → View) : (s.updView n f).retiredCores = s.retiredCores := rfl
@[simp] theorem State.updView_retiredDies (s : State) (n : Nat) (f : View → View) : (s.updView n f).retiredDies = s.retiredDies := rfl
@[simp] theorem State.updView_removedDies (s : State) (n : Nat) (f : View → View) : (s.updView n f).removedDies = s.removedDies := rfl
@[simp] theorem State.updView_peerNumber (s : State) (n : Nat) (f : View → View) : (s.updView n f).peerNumber = s.peerNumber := rfl
@[simp] theorem State.updView_step (s : State) (n : Nat) (f : View → View) : (s.updView n f).step = s.step := rfl
@[simp] theorem State.updView_capStep (s : State) (n : Nat) (f : View → View) : (s.updView n f).capStep = s.capStep := rfl
@[simp] theorem State.updView_capLow (s : State) (n : Nat) (f : View → View) : (s.updView n f).capLow = s.capLow := rfl
@[simp] theorem State.updView_freq (s : State) (n : Nat) (f : View → View) : (s.updView n f).freq = s.freq := rfl
@[simp] theorem State.updView_freqHeld (s : State) (n : Nat) (f : View → View) : (s.updView n f).freqHeld = s.freqHeld := rfl
@[simp] theorem State.updView_laserEn (s : State) (n : Nat) (f : View → View) : (s.updView n f).laserEn = s.laserEn := rfl
@[simp] theorem State.updView_nextId (s : State) (n : Nat) (f : View → View) : (s.updView n f).nextId = s.nextId := rfl
@[simp] theorem State.updView_contexts (s : State) (n : Nat) (f : View → View) : (s.updView n f).contexts = s.contexts := rfl
@[simp] theorem State.updView_queues (s : State) (n : Nat) (f : View → View) : (s.updView n f).queues = s.queues := rfl
@[simp] theorem State.updView_grids (s : State) (n : Nat) (f : View → View) : (s.updView n f).grids = s.grids := rfl
@[simp] theorem State.updView_sets (s : State) (n : Nat) (f : View → View) : (s.updView n f).sets = s.sets := rfl
@[simp] theorem State.updView_views (s : State) (n : Nat) (f : View → View) : (s.updView n f).views = updWhere (fun x => x.id == n) f s.views := rfl
@[simp] theorem State.updView_teams (s : State) (n : Nat) (f : View → View) : (s.updView n f).teams = s.teams := rfl
@[simp] theorem State.updView_pending (s : State) (n : Nat) (f : View → View) : (s.updView n f).pending = s.pending := rfl
@[simp] theorem State.updView_heldPackets (s : State) (n : Nat) (f : View → View) : (s.updView n f).heldPackets = s.heldPackets := rfl
@[simp] theorem State.updView_copies (s : State) (n : Nat) (f : View → View) : (s.updView n f).copies = s.copies := rfl
@[simp] theorem State.updView_mops (s : State) (n : Nat) (f : View → View) : (s.updView n f).mops = s.mops := rfl
@[simp] theorem State.updView_hurdles (s : State) (n : Nat) (f : View → View) : (s.updView n f).hurdles = s.hurdles := rfl
@[simp] theorem State.updView_w (s : State) (n : Nat) (f : View → View) : (s.updView n f).w = s.w := rfl
@[simp] theorem State.updView_l1 (s : State) (n : Nat) (f : View → View) : (s.updView n f).l1 = s.l1 := rfl
@[simp] theorem State.updView_roPast (s : State) (n : Nat) (f : View → View) : (s.updView n f).roPast = s.roPast := rfl
@[simp] theorem State.updView_infield (s : State) (n : Nat) (f : View → View) : (s.updView n f).infield = s.infield := rfl
@[simp] theorem State.updView_outfield (s : State) (n : Nat) (f : View → View) : (s.updView n f).outfield = s.outfield := rfl
@[simp] theorem State.updView_slices (s : State) (n : Nat) (f : View → View) : (s.updView n f).slices = s.slices := rfl
@[simp] theorem State.updView_offWays (s : State) (n : Nat) (f : View → View) : (s.updView n f).offWays = s.offWays := rfl
@[simp] theorem State.updView_regions (s : State) (n : Nat) (f : View → View) : (s.updView n f).regions = s.regions := rfl
@[simp] theorem State.updView_haloRels (s : State) (n : Nat) (f : View → View) : (s.updView n f).haloRels = s.haloRels := rfl
@[simp] theorem State.updView_guesses (s : State) (n : Nat) (f : View → View) : (s.updView n f).guesses = s.guesses := rfl
@[simp] theorem State.updView_peerStores (s : State) (n : Nat) (f : View → View) : (s.updView n f).peerStores = s.peerStores := rfl
@[simp] theorem State.updView_heldWrites (s : State) (n : Nat) (f : View → View) : (s.updView n f).heldWrites = s.heldWrites := rfl
@[simp] theorem State.updView_causalStores (s : State) (n : Nat) (f : View → View) : (s.updView n f).causalStores = s.causalStores := rfl
@[simp] theorem State.updView_imageWrites (s : State) (n : Nat) (f : View → View) : (s.updView n f).imageWrites = s.imageWrites := rfl
@[simp] theorem State.updView_gen (s : State) (n : Nat) (f : View → View) : (s.updView n f).gen = s.gen := rfl
@[simp] theorem State.updView_vecs (s : State) (n : Nat) (f : View → View) : (s.updView n f).vecs = s.vecs := rfl
@[simp] theorem State.updView_chans (s : State) (n : Nat) (f : View → View) : (s.updView n f).chans = s.chans := rfl
@[simp] theorem State.updView_untold (s : State) (n : Nat) (f : View → View) : (s.updView n f).untold = s.untold := rfl
@[simp] theorem State.updView_outq (s : State) (n : Nat) (f : View → View) : (s.updView n f).outq = s.outq := rfl
@[simp] theorem State.updView_resync (s : State) (n : Nat) (f : View → View) : (s.updView n f).resync = s.resync := rfl
@[simp] theorem State.updView_resyncHeld (s : State) (n : Nat) (f : View → View) : (s.updView n f).resyncHeld = s.resyncHeld := rfl
@[simp] theorem State.updView_removalDue (s : State) (n : Nat) (f : View → View) : (s.updView n f).removalDue = s.removalDue := rfl
@[simp] theorem State.updView_removalHeld (s : State) (n : Nat) (f : View → View) : (s.updView n f).removalHeld = s.removalHeld := rfl
@[simp] theorem State.updView_fibres (s : State) (n : Nat) (f : View → View) : (s.updView n f).fibres = s.fibres := rfl
@[simp] theorem State.updView_mgmt (s : State) (n : Nat) (f : View → View) : (s.updView n f).mgmt = s.mgmt := rfl

/-! ### updCopy -/

@[simp] theorem State.updCopy_time (s : State) (n : Nat) (f : CopyRec → CopyRec) : (s.updCopy n f).time = s.time := rfl
@[simp] theorem State.updCopy_fresh (s : State) (n : Nat) (f : CopyRec → CopyRec) : (s.updCopy n f).fresh = s.fresh := rfl
@[simp] theorem State.updCopy_cycle (s : State) (n : Nat) (f : CopyRec → CopyRec) : (s.updCopy n f).cycle = s.cycle := rfl
@[simp] theorem State.updCopy_agenda (s : State) (n : Nat) (f : CopyRec → CopyRec) : (s.updCopy n f).agenda = s.agenda := rfl
@[simp] theorem State.updCopy_sel (s : State) (n : Nat) (f : CopyRec → CopyRec) : (s.updCopy n f).sel = s.sel := rfl
@[simp] theorem State.updCopy_mode (s : State) (n : Nat) (f : CopyRec → CopyRec) : (s.updCopy n f).mode = s.mode := rfl
@[simp] theorem State.updCopy_mem (s : State) (n : Nat) (f : CopyRec → CopyRec) : (s.updCopy n f).mem = s.mem := rfl
@[simp] theorem State.updCopy_hostMem (s : State) (n : Nat) (f : CopyRec → CopyRec) : (s.updCopy n f).hostMem = s.hostMem := rfl
@[simp] theorem State.updCopy_peerMem (s : State) (n : Nat) (f : CopyRec → CopyRec) : (s.updCopy n f).peerMem = s.peerMem := rfl
@[simp] theorem State.updCopy_hostHeld (s : State) (n : Nat) (f : CopyRec → CopyRec) : (s.updCopy n f).hostHeld = s.hostHeld := rfl
@[simp] theorem State.updCopy_hubLines (s : State) (n : Nat) (f : CopyRec → CopyRec) : (s.updCopy n f).hubLines = s.hubLines := rfl
@[simp] theorem State.updCopy_hostData (s : State) (n : Nat) (f : CopyRec → CopyRec) : (s.updCopy n f).hostData = s.hostData := rfl
@[simp] theorem State.updCopy_hostPoison (s : State) (n : Nat) (f : CopyRec → CopyRec) : (s.updCopy n f).hostPoison = s.hostPoison := rfl
@[simp] theorem State.updCopy_poison (s : State) (n : Nat) (f : CopyRec → CopyRec) : (s.updCopy n f).poison = s.poison := rfl
@[simp] theorem State.updCopy_tlb1 (s : State) (n : Nat) (f : CopyRec → CopyRec) : (s.updCopy n f).tlb1 = s.tlb1 := rfl
@[simp] theorem State.updCopy_tlb2 (s : State) (n : Nat) (f : CopyRec → CopyRec) : (s.updCopy n f).tlb2 = s.tlb2 := rfl
@[simp] theorem State.updCopy_retiredCores (s : State) (n : Nat) (f : CopyRec → CopyRec) : (s.updCopy n f).retiredCores = s.retiredCores := rfl
@[simp] theorem State.updCopy_retiredDies (s : State) (n : Nat) (f : CopyRec → CopyRec) : (s.updCopy n f).retiredDies = s.retiredDies := rfl
@[simp] theorem State.updCopy_removedDies (s : State) (n : Nat) (f : CopyRec → CopyRec) : (s.updCopy n f).removedDies = s.removedDies := rfl
@[simp] theorem State.updCopy_peerNumber (s : State) (n : Nat) (f : CopyRec → CopyRec) : (s.updCopy n f).peerNumber = s.peerNumber := rfl
@[simp] theorem State.updCopy_step (s : State) (n : Nat) (f : CopyRec → CopyRec) : (s.updCopy n f).step = s.step := rfl
@[simp] theorem State.updCopy_capStep (s : State) (n : Nat) (f : CopyRec → CopyRec) : (s.updCopy n f).capStep = s.capStep := rfl
@[simp] theorem State.updCopy_capLow (s : State) (n : Nat) (f : CopyRec → CopyRec) : (s.updCopy n f).capLow = s.capLow := rfl
@[simp] theorem State.updCopy_freq (s : State) (n : Nat) (f : CopyRec → CopyRec) : (s.updCopy n f).freq = s.freq := rfl
@[simp] theorem State.updCopy_freqHeld (s : State) (n : Nat) (f : CopyRec → CopyRec) : (s.updCopy n f).freqHeld = s.freqHeld := rfl
@[simp] theorem State.updCopy_laserEn (s : State) (n : Nat) (f : CopyRec → CopyRec) : (s.updCopy n f).laserEn = s.laserEn := rfl
@[simp] theorem State.updCopy_nextId (s : State) (n : Nat) (f : CopyRec → CopyRec) : (s.updCopy n f).nextId = s.nextId := rfl
@[simp] theorem State.updCopy_contexts (s : State) (n : Nat) (f : CopyRec → CopyRec) : (s.updCopy n f).contexts = s.contexts := rfl
@[simp] theorem State.updCopy_queues (s : State) (n : Nat) (f : CopyRec → CopyRec) : (s.updCopy n f).queues = s.queues := rfl
@[simp] theorem State.updCopy_grids (s : State) (n : Nat) (f : CopyRec → CopyRec) : (s.updCopy n f).grids = s.grids := rfl
@[simp] theorem State.updCopy_sets (s : State) (n : Nat) (f : CopyRec → CopyRec) : (s.updCopy n f).sets = s.sets := rfl
@[simp] theorem State.updCopy_views (s : State) (n : Nat) (f : CopyRec → CopyRec) : (s.updCopy n f).views = s.views := rfl
@[simp] theorem State.updCopy_teams (s : State) (n : Nat) (f : CopyRec → CopyRec) : (s.updCopy n f).teams = s.teams := rfl
@[simp] theorem State.updCopy_pending (s : State) (n : Nat) (f : CopyRec → CopyRec) : (s.updCopy n f).pending = s.pending := rfl
@[simp] theorem State.updCopy_heldPackets (s : State) (n : Nat) (f : CopyRec → CopyRec) : (s.updCopy n f).heldPackets = s.heldPackets := rfl
@[simp] theorem State.updCopy_copies (s : State) (n : Nat) (f : CopyRec → CopyRec) : (s.updCopy n f).copies = updWhere (fun x => x.id == n) f s.copies := rfl
@[simp] theorem State.updCopy_mops (s : State) (n : Nat) (f : CopyRec → CopyRec) : (s.updCopy n f).mops = s.mops := rfl
@[simp] theorem State.updCopy_hurdles (s : State) (n : Nat) (f : CopyRec → CopyRec) : (s.updCopy n f).hurdles = s.hurdles := rfl
@[simp] theorem State.updCopy_w (s : State) (n : Nat) (f : CopyRec → CopyRec) : (s.updCopy n f).w = s.w := rfl
@[simp] theorem State.updCopy_l1 (s : State) (n : Nat) (f : CopyRec → CopyRec) : (s.updCopy n f).l1 = s.l1 := rfl
@[simp] theorem State.updCopy_roPast (s : State) (n : Nat) (f : CopyRec → CopyRec) : (s.updCopy n f).roPast = s.roPast := rfl
@[simp] theorem State.updCopy_infield (s : State) (n : Nat) (f : CopyRec → CopyRec) : (s.updCopy n f).infield = s.infield := rfl
@[simp] theorem State.updCopy_outfield (s : State) (n : Nat) (f : CopyRec → CopyRec) : (s.updCopy n f).outfield = s.outfield := rfl
@[simp] theorem State.updCopy_slices (s : State) (n : Nat) (f : CopyRec → CopyRec) : (s.updCopy n f).slices = s.slices := rfl
@[simp] theorem State.updCopy_offWays (s : State) (n : Nat) (f : CopyRec → CopyRec) : (s.updCopy n f).offWays = s.offWays := rfl
@[simp] theorem State.updCopy_regions (s : State) (n : Nat) (f : CopyRec → CopyRec) : (s.updCopy n f).regions = s.regions := rfl
@[simp] theorem State.updCopy_haloRels (s : State) (n : Nat) (f : CopyRec → CopyRec) : (s.updCopy n f).haloRels = s.haloRels := rfl
@[simp] theorem State.updCopy_guesses (s : State) (n : Nat) (f : CopyRec → CopyRec) : (s.updCopy n f).guesses = s.guesses := rfl
@[simp] theorem State.updCopy_peerStores (s : State) (n : Nat) (f : CopyRec → CopyRec) : (s.updCopy n f).peerStores = s.peerStores := rfl
@[simp] theorem State.updCopy_heldWrites (s : State) (n : Nat) (f : CopyRec → CopyRec) : (s.updCopy n f).heldWrites = s.heldWrites := rfl
@[simp] theorem State.updCopy_causalStores (s : State) (n : Nat) (f : CopyRec → CopyRec) : (s.updCopy n f).causalStores = s.causalStores := rfl
@[simp] theorem State.updCopy_imageWrites (s : State) (n : Nat) (f : CopyRec → CopyRec) : (s.updCopy n f).imageWrites = s.imageWrites := rfl
@[simp] theorem State.updCopy_gen (s : State) (n : Nat) (f : CopyRec → CopyRec) : (s.updCopy n f).gen = s.gen := rfl
@[simp] theorem State.updCopy_vecs (s : State) (n : Nat) (f : CopyRec → CopyRec) : (s.updCopy n f).vecs = s.vecs := rfl
@[simp] theorem State.updCopy_chans (s : State) (n : Nat) (f : CopyRec → CopyRec) : (s.updCopy n f).chans = s.chans := rfl
@[simp] theorem State.updCopy_untold (s : State) (n : Nat) (f : CopyRec → CopyRec) : (s.updCopy n f).untold = s.untold := rfl
@[simp] theorem State.updCopy_outq (s : State) (n : Nat) (f : CopyRec → CopyRec) : (s.updCopy n f).outq = s.outq := rfl
@[simp] theorem State.updCopy_resync (s : State) (n : Nat) (f : CopyRec → CopyRec) : (s.updCopy n f).resync = s.resync := rfl
@[simp] theorem State.updCopy_resyncHeld (s : State) (n : Nat) (f : CopyRec → CopyRec) : (s.updCopy n f).resyncHeld = s.resyncHeld := rfl
@[simp] theorem State.updCopy_removalDue (s : State) (n : Nat) (f : CopyRec → CopyRec) : (s.updCopy n f).removalDue = s.removalDue := rfl
@[simp] theorem State.updCopy_removalHeld (s : State) (n : Nat) (f : CopyRec → CopyRec) : (s.updCopy n f).removalHeld = s.removalHeld := rfl
@[simp] theorem State.updCopy_fibres (s : State) (n : Nat) (f : CopyRec → CopyRec) : (s.updCopy n f).fibres = s.fibres := rfl
@[simp] theorem State.updCopy_mgmt (s : State) (n : Nat) (f : CopyRec → CopyRec) : (s.updCopy n f).mgmt = s.mgmt := rfl

/-! ### updSliceCfg -/

@[simp] theorem State.updSliceCfg_time (s : State) (d : Nat) (f : SliceCfg → SliceCfg) : (s.updSliceCfg d f).time = s.time := rfl
@[simp] theorem State.updSliceCfg_fresh (s : State) (d : Nat) (f : SliceCfg → SliceCfg) : (s.updSliceCfg d f).fresh = s.fresh := rfl
@[simp] theorem State.updSliceCfg_cycle (s : State) (d : Nat) (f : SliceCfg → SliceCfg) : (s.updSliceCfg d f).cycle = s.cycle := rfl
@[simp] theorem State.updSliceCfg_agenda (s : State) (d : Nat) (f : SliceCfg → SliceCfg) : (s.updSliceCfg d f).agenda = s.agenda := rfl
@[simp] theorem State.updSliceCfg_sel (s : State) (d : Nat) (f : SliceCfg → SliceCfg) : (s.updSliceCfg d f).sel = s.sel := rfl
@[simp] theorem State.updSliceCfg_mode (s : State) (d : Nat) (f : SliceCfg → SliceCfg) : (s.updSliceCfg d f).mode = s.mode := rfl
@[simp] theorem State.updSliceCfg_mem (s : State) (d : Nat) (f : SliceCfg → SliceCfg) : (s.updSliceCfg d f).mem = s.mem := rfl
@[simp] theorem State.updSliceCfg_hostMem (s : State) (d : Nat) (f : SliceCfg → SliceCfg) : (s.updSliceCfg d f).hostMem = s.hostMem := rfl
@[simp] theorem State.updSliceCfg_peerMem (s : State) (d : Nat) (f : SliceCfg → SliceCfg) : (s.updSliceCfg d f).peerMem = s.peerMem := rfl
@[simp] theorem State.updSliceCfg_hostHeld (s : State) (d : Nat) (f : SliceCfg → SliceCfg) : (s.updSliceCfg d f).hostHeld = s.hostHeld := rfl
@[simp] theorem State.updSliceCfg_hubLines (s : State) (d : Nat) (f : SliceCfg → SliceCfg) : (s.updSliceCfg d f).hubLines = s.hubLines := rfl
@[simp] theorem State.updSliceCfg_hostData (s : State) (d : Nat) (f : SliceCfg → SliceCfg) : (s.updSliceCfg d f).hostData = s.hostData := rfl
@[simp] theorem State.updSliceCfg_hostPoison (s : State) (d : Nat) (f : SliceCfg → SliceCfg) : (s.updSliceCfg d f).hostPoison = s.hostPoison := rfl
@[simp] theorem State.updSliceCfg_poison (s : State) (d : Nat) (f : SliceCfg → SliceCfg) : (s.updSliceCfg d f).poison = s.poison := rfl
@[simp] theorem State.updSliceCfg_tlb1 (s : State) (d : Nat) (f : SliceCfg → SliceCfg) : (s.updSliceCfg d f).tlb1 = s.tlb1 := rfl
@[simp] theorem State.updSliceCfg_tlb2 (s : State) (d : Nat) (f : SliceCfg → SliceCfg) : (s.updSliceCfg d f).tlb2 = s.tlb2 := rfl
@[simp] theorem State.updSliceCfg_retiredCores (s : State) (d : Nat) (f : SliceCfg → SliceCfg) : (s.updSliceCfg d f).retiredCores = s.retiredCores := rfl
@[simp] theorem State.updSliceCfg_retiredDies (s : State) (d : Nat) (f : SliceCfg → SliceCfg) : (s.updSliceCfg d f).retiredDies = s.retiredDies := rfl
@[simp] theorem State.updSliceCfg_removedDies (s : State) (d : Nat) (f : SliceCfg → SliceCfg) : (s.updSliceCfg d f).removedDies = s.removedDies := rfl
@[simp] theorem State.updSliceCfg_peerNumber (s : State) (d : Nat) (f : SliceCfg → SliceCfg) : (s.updSliceCfg d f).peerNumber = s.peerNumber := rfl
@[simp] theorem State.updSliceCfg_step (s : State) (d : Nat) (f : SliceCfg → SliceCfg) : (s.updSliceCfg d f).step = s.step := rfl
@[simp] theorem State.updSliceCfg_capStep (s : State) (d : Nat) (f : SliceCfg → SliceCfg) : (s.updSliceCfg d f).capStep = s.capStep := rfl
@[simp] theorem State.updSliceCfg_capLow (s : State) (d : Nat) (f : SliceCfg → SliceCfg) : (s.updSliceCfg d f).capLow = s.capLow := rfl
@[simp] theorem State.updSliceCfg_freq (s : State) (d : Nat) (f : SliceCfg → SliceCfg) : (s.updSliceCfg d f).freq = s.freq := rfl
@[simp] theorem State.updSliceCfg_freqHeld (s : State) (d : Nat) (f : SliceCfg → SliceCfg) : (s.updSliceCfg d f).freqHeld = s.freqHeld := rfl
@[simp] theorem State.updSliceCfg_laserEn (s : State) (d : Nat) (f : SliceCfg → SliceCfg) : (s.updSliceCfg d f).laserEn = s.laserEn := rfl
@[simp] theorem State.updSliceCfg_nextId (s : State) (d : Nat) (f : SliceCfg → SliceCfg) : (s.updSliceCfg d f).nextId = s.nextId := rfl
@[simp] theorem State.updSliceCfg_contexts (s : State) (d : Nat) (f : SliceCfg → SliceCfg) : (s.updSliceCfg d f).contexts = s.contexts := rfl
@[simp] theorem State.updSliceCfg_queues (s : State) (d : Nat) (f : SliceCfg → SliceCfg) : (s.updSliceCfg d f).queues = s.queues := rfl
@[simp] theorem State.updSliceCfg_grids (s : State) (d : Nat) (f : SliceCfg → SliceCfg) : (s.updSliceCfg d f).grids = s.grids := rfl
@[simp] theorem State.updSliceCfg_sets (s : State) (d : Nat) (f : SliceCfg → SliceCfg) : (s.updSliceCfg d f).sets = s.sets := rfl
@[simp] theorem State.updSliceCfg_views (s : State) (d : Nat) (f : SliceCfg → SliceCfg) : (s.updSliceCfg d f).views = s.views := rfl
@[simp] theorem State.updSliceCfg_teams (s : State) (d : Nat) (f : SliceCfg → SliceCfg) : (s.updSliceCfg d f).teams = s.teams := rfl
@[simp] theorem State.updSliceCfg_pending (s : State) (d : Nat) (f : SliceCfg → SliceCfg) : (s.updSliceCfg d f).pending = s.pending := rfl
@[simp] theorem State.updSliceCfg_heldPackets (s : State) (d : Nat) (f : SliceCfg → SliceCfg) : (s.updSliceCfg d f).heldPackets = s.heldPackets := rfl
@[simp] theorem State.updSliceCfg_copies (s : State) (d : Nat) (f : SliceCfg → SliceCfg) : (s.updSliceCfg d f).copies = s.copies := rfl
@[simp] theorem State.updSliceCfg_mops (s : State) (d : Nat) (f : SliceCfg → SliceCfg) : (s.updSliceCfg d f).mops = s.mops := rfl
@[simp] theorem State.updSliceCfg_hurdles (s : State) (d : Nat) (f : SliceCfg → SliceCfg) : (s.updSliceCfg d f).hurdles = s.hurdles := rfl
@[simp] theorem State.updSliceCfg_w (s : State) (d : Nat) (f : SliceCfg → SliceCfg) : (s.updSliceCfg d f).w = s.w := rfl
@[simp] theorem State.updSliceCfg_l1 (s : State) (d : Nat) (f : SliceCfg → SliceCfg) : (s.updSliceCfg d f).l1 = s.l1 := rfl
@[simp] theorem State.updSliceCfg_roPast (s : State) (d : Nat) (f : SliceCfg → SliceCfg) : (s.updSliceCfg d f).roPast = s.roPast := rfl
@[simp] theorem State.updSliceCfg_infield (s : State) (d : Nat) (f : SliceCfg → SliceCfg) : (s.updSliceCfg d f).infield = s.infield := rfl
@[simp] theorem State.updSliceCfg_outfield (s : State) (d : Nat) (f : SliceCfg → SliceCfg) : (s.updSliceCfg d f).outfield = s.outfield := rfl
@[simp] theorem State.updSliceCfg_slices (s : State) (d : Nat) (f : SliceCfg → SliceCfg) : (s.updSliceCfg d f).slices = vecUpd s.slices d f := rfl
@[simp] theorem State.updSliceCfg_offWays (s : State) (d : Nat) (f : SliceCfg → SliceCfg) : (s.updSliceCfg d f).offWays = s.offWays := rfl
@[simp] theorem State.updSliceCfg_regions (s : State) (d : Nat) (f : SliceCfg → SliceCfg) : (s.updSliceCfg d f).regions = s.regions := rfl
@[simp] theorem State.updSliceCfg_haloRels (s : State) (d : Nat) (f : SliceCfg → SliceCfg) : (s.updSliceCfg d f).haloRels = s.haloRels := rfl
@[simp] theorem State.updSliceCfg_guesses (s : State) (d : Nat) (f : SliceCfg → SliceCfg) : (s.updSliceCfg d f).guesses = s.guesses := rfl
@[simp] theorem State.updSliceCfg_peerStores (s : State) (d : Nat) (f : SliceCfg → SliceCfg) : (s.updSliceCfg d f).peerStores = s.peerStores := rfl
@[simp] theorem State.updSliceCfg_heldWrites (s : State) (d : Nat) (f : SliceCfg → SliceCfg) : (s.updSliceCfg d f).heldWrites = s.heldWrites := rfl
@[simp] theorem State.updSliceCfg_causalStores (s : State) (d : Nat) (f : SliceCfg → SliceCfg) : (s.updSliceCfg d f).causalStores = s.causalStores := rfl
@[simp] theorem State.updSliceCfg_imageWrites (s : State) (d : Nat) (f : SliceCfg → SliceCfg) : (s.updSliceCfg d f).imageWrites = s.imageWrites := rfl
@[simp] theorem State.updSliceCfg_gen (s : State) (d : Nat) (f : SliceCfg → SliceCfg) : (s.updSliceCfg d f).gen = s.gen := rfl
@[simp] theorem State.updSliceCfg_vecs (s : State) (d : Nat) (f : SliceCfg → SliceCfg) : (s.updSliceCfg d f).vecs = s.vecs := rfl
@[simp] theorem State.updSliceCfg_chans (s : State) (d : Nat) (f : SliceCfg → SliceCfg) : (s.updSliceCfg d f).chans = s.chans := rfl
@[simp] theorem State.updSliceCfg_untold (s : State) (d : Nat) (f : SliceCfg → SliceCfg) : (s.updSliceCfg d f).untold = s.untold := rfl
@[simp] theorem State.updSliceCfg_outq (s : State) (d : Nat) (f : SliceCfg → SliceCfg) : (s.updSliceCfg d f).outq = s.outq := rfl
@[simp] theorem State.updSliceCfg_resync (s : State) (d : Nat) (f : SliceCfg → SliceCfg) : (s.updSliceCfg d f).resync = s.resync := rfl
@[simp] theorem State.updSliceCfg_resyncHeld (s : State) (d : Nat) (f : SliceCfg → SliceCfg) : (s.updSliceCfg d f).resyncHeld = s.resyncHeld := rfl
@[simp] theorem State.updSliceCfg_removalDue (s : State) (d : Nat) (f : SliceCfg → SliceCfg) : (s.updSliceCfg d f).removalDue = s.removalDue := rfl
@[simp] theorem State.updSliceCfg_removalHeld (s : State) (d : Nat) (f : SliceCfg → SliceCfg) : (s.updSliceCfg d f).removalHeld = s.removalHeld := rfl
@[simp] theorem State.updSliceCfg_fibres (s : State) (d : Nat) (f : SliceCfg → SliceCfg) : (s.updSliceCfg d f).fibres = s.fibres := rfl
@[simp] theorem State.updSliceCfg_mgmt (s : State) (d : Nat) (f : SliceCfg → SliceCfg) : (s.updSliceCfg d f).mgmt = s.mgmt := rfl

/-! ### updMgmt -/

@[simp] theorem State.updMgmt_time (s : State) (f : Mgmt → Mgmt) : (s.updMgmt f).time = s.time := rfl
@[simp] theorem State.updMgmt_fresh (s : State) (f : Mgmt → Mgmt) : (s.updMgmt f).fresh = s.fresh := rfl
@[simp] theorem State.updMgmt_cycle (s : State) (f : Mgmt → Mgmt) : (s.updMgmt f).cycle = s.cycle := rfl
@[simp] theorem State.updMgmt_agenda (s : State) (f : Mgmt → Mgmt) : (s.updMgmt f).agenda = s.agenda := rfl
@[simp] theorem State.updMgmt_sel (s : State) (f : Mgmt → Mgmt) : (s.updMgmt f).sel = s.sel := rfl
@[simp] theorem State.updMgmt_mode (s : State) (f : Mgmt → Mgmt) : (s.updMgmt f).mode = s.mode := rfl
@[simp] theorem State.updMgmt_mem (s : State) (f : Mgmt → Mgmt) : (s.updMgmt f).mem = s.mem := rfl
@[simp] theorem State.updMgmt_hostMem (s : State) (f : Mgmt → Mgmt) : (s.updMgmt f).hostMem = s.hostMem := rfl
@[simp] theorem State.updMgmt_peerMem (s : State) (f : Mgmt → Mgmt) : (s.updMgmt f).peerMem = s.peerMem := rfl
@[simp] theorem State.updMgmt_hostHeld (s : State) (f : Mgmt → Mgmt) : (s.updMgmt f).hostHeld = s.hostHeld := rfl
@[simp] theorem State.updMgmt_hubLines (s : State) (f : Mgmt → Mgmt) : (s.updMgmt f).hubLines = s.hubLines := rfl
@[simp] theorem State.updMgmt_hostData (s : State) (f : Mgmt → Mgmt) : (s.updMgmt f).hostData = s.hostData := rfl
@[simp] theorem State.updMgmt_hostPoison (s : State) (f : Mgmt → Mgmt) : (s.updMgmt f).hostPoison = s.hostPoison := rfl
@[simp] theorem State.updMgmt_poison (s : State) (f : Mgmt → Mgmt) : (s.updMgmt f).poison = s.poison := rfl
@[simp] theorem State.updMgmt_tlb1 (s : State) (f : Mgmt → Mgmt) : (s.updMgmt f).tlb1 = s.tlb1 := rfl
@[simp] theorem State.updMgmt_tlb2 (s : State) (f : Mgmt → Mgmt) : (s.updMgmt f).tlb2 = s.tlb2 := rfl
@[simp] theorem State.updMgmt_retiredCores (s : State) (f : Mgmt → Mgmt) : (s.updMgmt f).retiredCores = s.retiredCores := rfl
@[simp] theorem State.updMgmt_retiredDies (s : State) (f : Mgmt → Mgmt) : (s.updMgmt f).retiredDies = s.retiredDies := rfl
@[simp] theorem State.updMgmt_removedDies (s : State) (f : Mgmt → Mgmt) : (s.updMgmt f).removedDies = s.removedDies := rfl
@[simp] theorem State.updMgmt_peerNumber (s : State) (f : Mgmt → Mgmt) : (s.updMgmt f).peerNumber = s.peerNumber := rfl
@[simp] theorem State.updMgmt_step (s : State) (f : Mgmt → Mgmt) : (s.updMgmt f).step = s.step := rfl
@[simp] theorem State.updMgmt_capStep (s : State) (f : Mgmt → Mgmt) : (s.updMgmt f).capStep = s.capStep := rfl
@[simp] theorem State.updMgmt_capLow (s : State) (f : Mgmt → Mgmt) : (s.updMgmt f).capLow = s.capLow := rfl
@[simp] theorem State.updMgmt_freq (s : State) (f : Mgmt → Mgmt) : (s.updMgmt f).freq = s.freq := rfl
@[simp] theorem State.updMgmt_freqHeld (s : State) (f : Mgmt → Mgmt) : (s.updMgmt f).freqHeld = s.freqHeld := rfl
@[simp] theorem State.updMgmt_laserEn (s : State) (f : Mgmt → Mgmt) : (s.updMgmt f).laserEn = s.laserEn := rfl
@[simp] theorem State.updMgmt_nextId (s : State) (f : Mgmt → Mgmt) : (s.updMgmt f).nextId = s.nextId := rfl
@[simp] theorem State.updMgmt_contexts (s : State) (f : Mgmt → Mgmt) : (s.updMgmt f).contexts = s.contexts := rfl
@[simp] theorem State.updMgmt_queues (s : State) (f : Mgmt → Mgmt) : (s.updMgmt f).queues = s.queues := rfl
@[simp] theorem State.updMgmt_grids (s : State) (f : Mgmt → Mgmt) : (s.updMgmt f).grids = s.grids := rfl
@[simp] theorem State.updMgmt_sets (s : State) (f : Mgmt → Mgmt) : (s.updMgmt f).sets = s.sets := rfl
@[simp] theorem State.updMgmt_views (s : State) (f : Mgmt → Mgmt) : (s.updMgmt f).views = s.views := rfl
@[simp] theorem State.updMgmt_teams (s : State) (f : Mgmt → Mgmt) : (s.updMgmt f).teams = s.teams := rfl
@[simp] theorem State.updMgmt_pending (s : State) (f : Mgmt → Mgmt) : (s.updMgmt f).pending = s.pending := rfl
@[simp] theorem State.updMgmt_heldPackets (s : State) (f : Mgmt → Mgmt) : (s.updMgmt f).heldPackets = s.heldPackets := rfl
@[simp] theorem State.updMgmt_copies (s : State) (f : Mgmt → Mgmt) : (s.updMgmt f).copies = s.copies := rfl
@[simp] theorem State.updMgmt_mops (s : State) (f : Mgmt → Mgmt) : (s.updMgmt f).mops = s.mops := rfl
@[simp] theorem State.updMgmt_hurdles (s : State) (f : Mgmt → Mgmt) : (s.updMgmt f).hurdles = s.hurdles := rfl
@[simp] theorem State.updMgmt_w (s : State) (f : Mgmt → Mgmt) : (s.updMgmt f).w = s.w := rfl
@[simp] theorem State.updMgmt_l1 (s : State) (f : Mgmt → Mgmt) : (s.updMgmt f).l1 = s.l1 := rfl
@[simp] theorem State.updMgmt_roPast (s : State) (f : Mgmt → Mgmt) : (s.updMgmt f).roPast = s.roPast := rfl
@[simp] theorem State.updMgmt_infield (s : State) (f : Mgmt → Mgmt) : (s.updMgmt f).infield = s.infield := rfl
@[simp] theorem State.updMgmt_outfield (s : State) (f : Mgmt → Mgmt) : (s.updMgmt f).outfield = s.outfield := rfl
@[simp] theorem State.updMgmt_slices (s : State) (f : Mgmt → Mgmt) : (s.updMgmt f).slices = s.slices := rfl
@[simp] theorem State.updMgmt_offWays (s : State) (f : Mgmt → Mgmt) : (s.updMgmt f).offWays = s.offWays := rfl
@[simp] theorem State.updMgmt_regions (s : State) (f : Mgmt → Mgmt) : (s.updMgmt f).regions = s.regions := rfl
@[simp] theorem State.updMgmt_haloRels (s : State) (f : Mgmt → Mgmt) : (s.updMgmt f).haloRels = s.haloRels := rfl
@[simp] theorem State.updMgmt_guesses (s : State) (f : Mgmt → Mgmt) : (s.updMgmt f).guesses = s.guesses := rfl
@[simp] theorem State.updMgmt_peerStores (s : State) (f : Mgmt → Mgmt) : (s.updMgmt f).peerStores = s.peerStores := rfl
@[simp] theorem State.updMgmt_heldWrites (s : State) (f : Mgmt → Mgmt) : (s.updMgmt f).heldWrites = s.heldWrites := rfl
@[simp] theorem State.updMgmt_causalStores (s : State) (f : Mgmt → Mgmt) : (s.updMgmt f).causalStores = s.causalStores := rfl
@[simp] theorem State.updMgmt_imageWrites (s : State) (f : Mgmt → Mgmt) : (s.updMgmt f).imageWrites = s.imageWrites := rfl
@[simp] theorem State.updMgmt_gen (s : State) (f : Mgmt → Mgmt) : (s.updMgmt f).gen = s.gen := rfl
@[simp] theorem State.updMgmt_vecs (s : State) (f : Mgmt → Mgmt) : (s.updMgmt f).vecs = s.vecs := rfl
@[simp] theorem State.updMgmt_chans (s : State) (f : Mgmt → Mgmt) : (s.updMgmt f).chans = s.chans := rfl
@[simp] theorem State.updMgmt_untold (s : State) (f : Mgmt → Mgmt) : (s.updMgmt f).untold = s.untold := rfl
@[simp] theorem State.updMgmt_outq (s : State) (f : Mgmt → Mgmt) : (s.updMgmt f).outq = s.outq := rfl
@[simp] theorem State.updMgmt_resync (s : State) (f : Mgmt → Mgmt) : (s.updMgmt f).resync = s.resync := rfl
@[simp] theorem State.updMgmt_resyncHeld (s : State) (f : Mgmt → Mgmt) : (s.updMgmt f).resyncHeld = s.resyncHeld := rfl
@[simp] theorem State.updMgmt_removalDue (s : State) (f : Mgmt → Mgmt) : (s.updMgmt f).removalDue = s.removalDue := rfl
@[simp] theorem State.updMgmt_removalHeld (s : State) (f : Mgmt → Mgmt) : (s.updMgmt f).removalHeld = s.removalHeld := rfl
@[simp] theorem State.updMgmt_fibres (s : State) (f : Mgmt → Mgmt) : (s.updMgmt f).fibres = s.fibres := rfl
@[simp] theorem State.updMgmt_mgmt (s : State) (f : Mgmt → Mgmt) : (s.updMgmt f).mgmt = f s.mgmt := rfl

/-! ### bump -/

@[simp] theorem State.bump_time (s : State) : (s.bump).time = s.time := rfl
@[simp] theorem State.bump_fresh (s : State) : (s.bump).fresh = s.fresh := rfl
@[simp] theorem State.bump_cycle (s : State) : (s.bump).cycle = s.cycle := rfl
@[simp] theorem State.bump_agenda (s : State) : (s.bump).agenda = s.agenda := rfl
@[simp] theorem State.bump_sel (s : State) : (s.bump).sel = s.sel := rfl
@[simp] theorem State.bump_mode (s : State) : (s.bump).mode = s.mode := rfl
@[simp] theorem State.bump_mem (s : State) : (s.bump).mem = s.mem := rfl
@[simp] theorem State.bump_hostMem (s : State) : (s.bump).hostMem = s.hostMem := rfl
@[simp] theorem State.bump_peerMem (s : State) : (s.bump).peerMem = s.peerMem := rfl
@[simp] theorem State.bump_hostHeld (s : State) : (s.bump).hostHeld = s.hostHeld := rfl
@[simp] theorem State.bump_hubLines (s : State) : (s.bump).hubLines = s.hubLines := rfl
@[simp] theorem State.bump_hostData (s : State) : (s.bump).hostData = s.hostData := rfl
@[simp] theorem State.bump_hostPoison (s : State) : (s.bump).hostPoison = s.hostPoison := rfl
@[simp] theorem State.bump_poison (s : State) : (s.bump).poison = s.poison := rfl
@[simp] theorem State.bump_tlb1 (s : State) : (s.bump).tlb1 = s.tlb1 := rfl
@[simp] theorem State.bump_tlb2 (s : State) : (s.bump).tlb2 = s.tlb2 := rfl
@[simp] theorem State.bump_retiredCores (s : State) : (s.bump).retiredCores = s.retiredCores := rfl
@[simp] theorem State.bump_retiredDies (s : State) : (s.bump).retiredDies = s.retiredDies := rfl
@[simp] theorem State.bump_removedDies (s : State) : (s.bump).removedDies = s.removedDies := rfl
@[simp] theorem State.bump_peerNumber (s : State) : (s.bump).peerNumber = s.peerNumber := rfl
@[simp] theorem State.bump_step (s : State) : (s.bump).step = s.step := rfl
@[simp] theorem State.bump_capStep (s : State) : (s.bump).capStep = s.capStep := rfl
@[simp] theorem State.bump_capLow (s : State) : (s.bump).capLow = s.capLow := rfl
@[simp] theorem State.bump_freq (s : State) : (s.bump).freq = s.freq := rfl
@[simp] theorem State.bump_freqHeld (s : State) : (s.bump).freqHeld = s.freqHeld := rfl
@[simp] theorem State.bump_laserEn (s : State) : (s.bump).laserEn = s.laserEn := rfl
@[simp] theorem State.bump_nextId (s : State) : (s.bump).nextId = s.nextId + 1 := rfl
@[simp] theorem State.bump_contexts (s : State) : (s.bump).contexts = s.contexts := rfl
@[simp] theorem State.bump_queues (s : State) : (s.bump).queues = s.queues := rfl
@[simp] theorem State.bump_grids (s : State) : (s.bump).grids = s.grids := rfl
@[simp] theorem State.bump_sets (s : State) : (s.bump).sets = s.sets := rfl
@[simp] theorem State.bump_views (s : State) : (s.bump).views = s.views := rfl
@[simp] theorem State.bump_teams (s : State) : (s.bump).teams = s.teams := rfl
@[simp] theorem State.bump_pending (s : State) : (s.bump).pending = s.pending := rfl
@[simp] theorem State.bump_heldPackets (s : State) : (s.bump).heldPackets = s.heldPackets := rfl
@[simp] theorem State.bump_copies (s : State) : (s.bump).copies = s.copies := rfl
@[simp] theorem State.bump_mops (s : State) : (s.bump).mops = s.mops := rfl
@[simp] theorem State.bump_hurdles (s : State) : (s.bump).hurdles = s.hurdles := rfl
@[simp] theorem State.bump_w (s : State) : (s.bump).w = s.w := rfl
@[simp] theorem State.bump_l1 (s : State) : (s.bump).l1 = s.l1 := rfl
@[simp] theorem State.bump_roPast (s : State) : (s.bump).roPast = s.roPast := rfl
@[simp] theorem State.bump_infield (s : State) : (s.bump).infield = s.infield := rfl
@[simp] theorem State.bump_outfield (s : State) : (s.bump).outfield = s.outfield := rfl
@[simp] theorem State.bump_slices (s : State) : (s.bump).slices = s.slices := rfl
@[simp] theorem State.bump_offWays (s : State) : (s.bump).offWays = s.offWays := rfl
@[simp] theorem State.bump_regions (s : State) : (s.bump).regions = s.regions := rfl
@[simp] theorem State.bump_haloRels (s : State) : (s.bump).haloRels = s.haloRels := rfl
@[simp] theorem State.bump_guesses (s : State) : (s.bump).guesses = s.guesses := rfl
@[simp] theorem State.bump_peerStores (s : State) : (s.bump).peerStores = s.peerStores := rfl
@[simp] theorem State.bump_heldWrites (s : State) : (s.bump).heldWrites = s.heldWrites := rfl
@[simp] theorem State.bump_causalStores (s : State) : (s.bump).causalStores = s.causalStores := rfl
@[simp] theorem State.bump_imageWrites (s : State) : (s.bump).imageWrites = s.imageWrites := rfl
@[simp] theorem State.bump_gen (s : State) : (s.bump).gen = s.gen := rfl
@[simp] theorem State.bump_vecs (s : State) : (s.bump).vecs = s.vecs := rfl
@[simp] theorem State.bump_chans (s : State) : (s.bump).chans = s.chans := rfl
@[simp] theorem State.bump_untold (s : State) : (s.bump).untold = s.untold := rfl
@[simp] theorem State.bump_outq (s : State) : (s.bump).outq = s.outq := rfl
@[simp] theorem State.bump_resync (s : State) : (s.bump).resync = s.resync := rfl
@[simp] theorem State.bump_resyncHeld (s : State) : (s.bump).resyncHeld = s.resyncHeld := rfl
@[simp] theorem State.bump_removalDue (s : State) : (s.bump).removalDue = s.removalDue := rfl
@[simp] theorem State.bump_removalHeld (s : State) : (s.bump).removalHeld = s.removalHeld := rfl
@[simp] theorem State.bump_fibres (s : State) : (s.bump).fibres = s.fibres := rfl
@[simp] theorem State.bump_mgmt (s : State) : (s.bump).mgmt = s.mgmt := rfl

/-! ### useFresh -/

@[simp] theorem State.useFresh_time (s : State) : (s.useFresh).time = s.time := rfl
@[simp] theorem State.useFresh_fresh (s : State) : (s.useFresh).fresh = s.fresh + 1 := rfl
@[simp] theorem State.useFresh_cycle (s : State) : (s.useFresh).cycle = s.cycle := rfl
@[simp] theorem State.useFresh_agenda (s : State) : (s.useFresh).agenda = s.agenda := rfl
@[simp] theorem State.useFresh_sel (s : State) : (s.useFresh).sel = s.sel := rfl
@[simp] theorem State.useFresh_mode (s : State) : (s.useFresh).mode = s.mode := rfl
@[simp] theorem State.useFresh_mem (s : State) : (s.useFresh).mem = s.mem := rfl
@[simp] theorem State.useFresh_hostMem (s : State) : (s.useFresh).hostMem = s.hostMem := rfl
@[simp] theorem State.useFresh_peerMem (s : State) : (s.useFresh).peerMem = s.peerMem := rfl
@[simp] theorem State.useFresh_hostHeld (s : State) : (s.useFresh).hostHeld = s.hostHeld := rfl
@[simp] theorem State.useFresh_hubLines (s : State) : (s.useFresh).hubLines = s.hubLines := rfl
@[simp] theorem State.useFresh_hostData (s : State) : (s.useFresh).hostData = s.hostData := rfl
@[simp] theorem State.useFresh_hostPoison (s : State) : (s.useFresh).hostPoison = s.hostPoison := rfl
@[simp] theorem State.useFresh_poison (s : State) : (s.useFresh).poison = s.poison := rfl
@[simp] theorem State.useFresh_tlb1 (s : State) : (s.useFresh).tlb1 = s.tlb1 := rfl
@[simp] theorem State.useFresh_tlb2 (s : State) : (s.useFresh).tlb2 = s.tlb2 := rfl
@[simp] theorem State.useFresh_retiredCores (s : State) : (s.useFresh).retiredCores = s.retiredCores := rfl
@[simp] theorem State.useFresh_retiredDies (s : State) : (s.useFresh).retiredDies = s.retiredDies := rfl
@[simp] theorem State.useFresh_removedDies (s : State) : (s.useFresh).removedDies = s.removedDies := rfl
@[simp] theorem State.useFresh_peerNumber (s : State) : (s.useFresh).peerNumber = s.peerNumber := rfl
@[simp] theorem State.useFresh_step (s : State) : (s.useFresh).step = s.step := rfl
@[simp] theorem State.useFresh_capStep (s : State) : (s.useFresh).capStep = s.capStep := rfl
@[simp] theorem State.useFresh_capLow (s : State) : (s.useFresh).capLow = s.capLow := rfl
@[simp] theorem State.useFresh_freq (s : State) : (s.useFresh).freq = s.freq := rfl
@[simp] theorem State.useFresh_freqHeld (s : State) : (s.useFresh).freqHeld = s.freqHeld := rfl
@[simp] theorem State.useFresh_laserEn (s : State) : (s.useFresh).laserEn = s.laserEn := rfl
@[simp] theorem State.useFresh_nextId (s : State) : (s.useFresh).nextId = s.nextId := rfl
@[simp] theorem State.useFresh_contexts (s : State) : (s.useFresh).contexts = s.contexts := rfl
@[simp] theorem State.useFresh_queues (s : State) : (s.useFresh).queues = s.queues := rfl
@[simp] theorem State.useFresh_grids (s : State) : (s.useFresh).grids = s.grids := rfl
@[simp] theorem State.useFresh_sets (s : State) : (s.useFresh).sets = s.sets := rfl
@[simp] theorem State.useFresh_views (s : State) : (s.useFresh).views = s.views := rfl
@[simp] theorem State.useFresh_teams (s : State) : (s.useFresh).teams = s.teams := rfl
@[simp] theorem State.useFresh_pending (s : State) : (s.useFresh).pending = s.pending := rfl
@[simp] theorem State.useFresh_heldPackets (s : State) : (s.useFresh).heldPackets = s.heldPackets := rfl
@[simp] theorem State.useFresh_copies (s : State) : (s.useFresh).copies = s.copies := rfl
@[simp] theorem State.useFresh_mops (s : State) : (s.useFresh).mops = s.mops := rfl
@[simp] theorem State.useFresh_hurdles (s : State) : (s.useFresh).hurdles = s.hurdles := rfl
@[simp] theorem State.useFresh_w (s : State) : (s.useFresh).w = s.w := rfl
@[simp] theorem State.useFresh_l1 (s : State) : (s.useFresh).l1 = s.l1 := rfl
@[simp] theorem State.useFresh_roPast (s : State) : (s.useFresh).roPast = s.roPast := rfl
@[simp] theorem State.useFresh_infield (s : State) : (s.useFresh).infield = s.infield := rfl
@[simp] theorem State.useFresh_outfield (s : State) : (s.useFresh).outfield = s.outfield := rfl
@[simp] theorem State.useFresh_slices (s : State) : (s.useFresh).slices = s.slices := rfl
@[simp] theorem State.useFresh_offWays (s : State) : (s.useFresh).offWays = s.offWays := rfl
@[simp] theorem State.useFresh_regions (s : State) : (s.useFresh).regions = s.regions := rfl
@[simp] theorem State.useFresh_haloRels (s : State) : (s.useFresh).haloRels = s.haloRels := rfl
@[simp] theorem State.useFresh_guesses (s : State) : (s.useFresh).guesses = s.guesses := rfl
@[simp] theorem State.useFresh_peerStores (s : State) : (s.useFresh).peerStores = s.peerStores := rfl
@[simp] theorem State.useFresh_heldWrites (s : State) : (s.useFresh).heldWrites = s.heldWrites := rfl
@[simp] theorem State.useFresh_causalStores (s : State) : (s.useFresh).causalStores = s.causalStores := rfl
@[simp] theorem State.useFresh_imageWrites (s : State) : (s.useFresh).imageWrites = s.imageWrites := rfl
@[simp] theorem State.useFresh_gen (s : State) : (s.useFresh).gen = s.gen := rfl
@[simp] theorem State.useFresh_vecs (s : State) : (s.useFresh).vecs = s.vecs := rfl
@[simp] theorem State.useFresh_chans (s : State) : (s.useFresh).chans = s.chans := rfl
@[simp] theorem State.useFresh_untold (s : State) : (s.useFresh).untold = s.untold := rfl
@[simp] theorem State.useFresh_outq (s : State) : (s.useFresh).outq = s.outq := rfl
@[simp] theorem State.useFresh_resync (s : State) : (s.useFresh).resync = s.resync := rfl
@[simp] theorem State.useFresh_resyncHeld (s : State) : (s.useFresh).resyncHeld = s.resyncHeld := rfl
@[simp] theorem State.useFresh_removalDue (s : State) : (s.useFresh).removalDue = s.removalDue := rfl
@[simp] theorem State.useFresh_removalHeld (s : State) : (s.useFresh).removalHeld = s.removalHeld := rfl
@[simp] theorem State.useFresh_fibres (s : State) : (s.useFresh).fibres = s.fibres := rfl
@[simp] theorem State.useFresh_mgmt (s : State) : (s.useFresh).mgmt = s.mgmt := rfl

end Sys2Proof.Machine
end

