-- ==== Sys2Proof/Laws/Update.lean ====
section
/-! SUPPORT. Updates of parts of the state: their composition, and what a search finds after one. -/

namespace Sys2Proof.Machine

open Sys2Proof

/-! ### Composition -/

/-- Two updates of the same members are one, when the first keeps the members' names. -/
theorem updWhere_updWhere {α : Type} (p : α → Bool) (f g : α → α) (l : List α) (h : ∀ x, p (f x) = p x) :
    updWhere p g (updWhere p f l) = updWhere p (fun x => g (f x)) l := by
  simp only [updWhere, List.map_map]
  apply List.map_congr_left
  intro x _
  simp only [Function.comp]
  by_cases hp : p x <;> simp [hp, h]

/-- Two updates of one team. -/
theorem State.updTeam_updTeam (s : State) (t : Nat) (f g : Team → Team) (h : ∀ x, (f x).id = x.id) :
    (s.updTeam t f).updTeam t g = s.updTeam t (fun x => g (f x)) := by
  simp only [State.updTeam]
  rw [updWhere_updWhere]
  intro x
  simp [h]

/-- Two updates of one group of a team. -/
theorem Team.updGroup_updGroup (t : Team) (n : Nat) (f g : Group → Group) (h : ∀ x, (f x).grpidx = x.grpidx) :
    (t.updGroup n f).updGroup n g = t.updGroup n (fun x => g (f x)) := by
  simp only [Team.updGroup]
  rw [updWhere_updWhere]
  intro x
  simp [h]

/-- Two updates of one group. -/
theorem State.updGroup_updGroup (s : State) (t n : Nat) (f g : Group → Group) (h : ∀ x, (f x).grpidx = x.grpidx) :
    (s.updGroup t n f).updGroup t n g = s.updGroup t n (fun x => g (f x)) := by
  simp only [State.updGroup]
  rw [State.updTeam_updTeam _ _ _ _ (by intro x; rfl)]
  congr 1
  funext x
  exact Team.updGroup_updGroup x n f g h

/-- An update of an arm is an update of its group. -/
theorem State.updArm_eq (s : State) (t g : Nat) (b : Bool) (f : Arm → Arm) :
    s.updArm t g b f = s.updGroup t g (fun x => { x with core := x.core.updArm b f }) := rfl

/-- An update of a core is an update of its group. -/
theorem State.updCore_eq (s : State) (t g : Nat) (f : Core → Core) :
    s.updCore t g f = s.updGroup t g (fun x => { x with core := f x.core }) := rfl

/-- Two updates of one arm. -/
@[simp] theorem Core.updArm_updArm (c : Core) (b : Bool) (f g : Arm → Arm) :
    (c.updArm b f).updArm b g = c.updArm b (fun m => g (f m)) := by cases b <;> rfl

/-- The arm that an update changed. -/
@[simp] theorem Core.updArm_arm (c : Core) (b : Bool) (f : Arm → Arm) : (c.updArm b f).arm b = f (c.arm b) := by cases b <;> rfl

/-- The other arm stays. -/
@[simp] theorem Core.updArm_other (c : Core) (b : Bool) (f : Arm → Arm) : (c.updArm b f).arm (!b) = c.arm (!b) := by cases b <;> rfl

/-- An update of an arm leaves the split. -/
@[simp] theorem Core.updArm_split (c : Core) (b : Bool) (f : Arm → Arm) : (c.updArm b f).split = c.split := by cases b <;> rfl

/-- And the live lanes. -/
@[simp] theorem Core.updArm_live (c : Core) (b : Bool) (f : Arm → Arm) : (c.updArm b f).live = c.live := by cases b <;> rfl

/-- And the vector registers. -/
@[simp] theorem Core.updArm_vregs (c : Core) (b : Bool) (f : Arm → Arm) : (c.updArm b f).vregs = c.vregs := by cases b <;> rfl

/-- And their full bits. -/
@[simp] theorem Core.updArm_vfull (c : Core) (b : Bool) (f : Arm → Arm) : (c.updArm b f).vfull = c.vfull := by cases b <;> rfl

/-- And the predicates. -/
@[simp] theorem Core.updArm_preds (c : Core) (b : Bool) (f : Arm → Arm) : (c.updArm b f).preds = c.preds := by cases b <;> rfl

/-- And their full bits. -/
@[simp] theorem Core.updArm_pfull (c : Core) (b : Bool) (f : Arm → Arm) : (c.updArm b f).pfull = c.pfull := by cases b <;> rfl

/-- A predicate reads as before an update of an arm. -/
@[simp] theorem Core.updArm_pget (c : Core) (b : Bool) (f : Arm → Arm) (p : Nat) : (c.updArm b f).pget p = c.pget p := by
  cases b <;> rfl

/-! ### Searching after an update -/

/-- A search by name after an update of the members with that name. -/
theorem find_updWhere_same {α : Type} (p : α → Bool) (f : α → α) (l : List α) (h : ∀ x, p (f x) = p x) :
    (updWhere p f l).find? p = (l.find? p).map f := by
  induction l with
  | nil => rfl
  | cons x l ih =>
    simp only [updWhere, List.map_cons] at ih ⊢
    by_cases hp : p x
    · simp [List.find?_cons, hp, h]
    · simpa [List.find?_cons, hp] using ih

/-- A search by another name after an update. -/
theorem find_updWhere_other {α : Type} (p q : α → Bool) (f : α → α) (l : List α)
    (h : ∀ x, p x = true → q (f x) = false) (h2 : ∀ x, p x = true → q x = false) :
    (updWhere p f l).find? q = l.find? q := by
  induction l with
  | nil => rfl
  | cons x l ih =>
    simp only [updWhere, List.map_cons] at ih ⊢
    by_cases hp : p x
    · simpa [List.find?_cons, hp, h x hp, h2 x hp] using ih
    · by_cases hq : q x
      · simp [List.find?_cons, hp, hq]
      · simpa [List.find?_cons, hp, hq] using ih

/-- The team that an update changed. -/
theorem State.team_updTeam (s : State) (t : Nat) (f : Team → Team) (h : ∀ x, (f x).id = x.id) :
    (s.updTeam t f).team? t = (s.team? t).map f := by
  simp only [State.team?, State.updTeam]
  exact find_updWhere_same _ f _ (by intro x; simp [h])

/-- Another team after an update. -/
theorem State.team_updTeam_other (s : State) {t u : Nat} (f : Team → Team) (h : ∀ x, (f x).id = x.id) (hu : u ≠ t) :
    (s.updTeam t f).team? u = s.team? u := by
  simp only [State.team?, State.updTeam]
  apply find_updWhere_other
  · intro x hx; simp at hx; simp [h, hx]; omega
  · intro x hx; simp at hx; simp [hx]; omega

/-- The group that an update of its team changed. -/
theorem Team.group_updGroup (t : Team) (g : Nat) (f : Group → Group) (h : ∀ x, (f x).grpidx = x.grpidx) :
    (t.updGroup g f).group? g = (t.group? g).map f := by
  simp only [Team.group?, Team.updGroup]
  exact find_updWhere_same _ f _ (by intro x; simp [h])

/-- The group that an update changed. -/
theorem State.group_updGroup (s : State) (t g : Nat) (f : Group → Group) (h : ∀ x, (f x).grpidx = x.grpidx) :
    (s.updGroup t g f).group? t g = (s.group? t g).map f := by
  simp only [State.group?, State.updGroup]
  rw [State.team_updTeam _ _ _ (by intro x; rfl)]
  cases s.team? t with
  | none => rfl
  | some x => exact Team.group_updGroup x g f h

end Sys2Proof.Machine
end

