-- ==== Sys2Proof/Laws/Engines.lean ====
section
/-! SUPPORT. What the lane engine, a sequencer and the copy engine can do with the instruction that they have next (R82, R110, R199,
R194): one law for each, with every outcome of the instruction's own effect. -/

namespace Sys2Proof.Machine

open Sys2Proof Sys2Proof.Safety

/-- The lane engine runs an arm's next entry: it waits for a register, traps in every lane, or its effect decides. -/
theorem State.lane_run {s : State} {t g : Nat} {b : Bool} {a : Ag} {i : Instr} {idx : Nat} {e : QEntry} (h : LaneAt s t g b a i idx e)
    (f : LaneFields) (pre : Pre) (solo : Bool) (body : State → LC → LEff) :
    s.lane f pre solo body = .next (
      let act := e.lanes a.g.core f
      let wait := (pre a.g e act).1
      let trap := (pre a.g e act).2
      let note := fun (s : State) => s.noteSkid a.t.ctx (.lane a.t.id a.g.grpidx)
      let stops := fun (s : State) (code : Nat) (m : Half) (addr : Word) => (note s).updGroup a.t.id a.g.grpidx (fun y => y.freeze a.b code m addr)
      if wait != 0 then s
      else if solo && trap != 0 then stops s cFETRAP trap 0
      else match body s { a := { a with both := e.both }, idx, e, f, act := act &&& ~~~ trap } with
      | .hold u => u
      | .dead u => u
      | .fault u code m addr => if trap != 0 && code == cFETRAP then stops u cFETRAP (m ||| trap) 0 else stops u code (m ||| trap) addr
      | .done u => if trap != 0 then stops u cFETRAP trap 0 else (note u).updGroup a.t.id a.g.grpidx (fun y => y.complete idx e)) := by
  have hb : a.b = b := by
    have := h.agent
    unfold State.agent at this
    split at this
    · cases this
    · split at this
      · cases this; rfl
      · cases this
  simp only [State.lane, h.sel, h.agent, State.laneRun, h.live, hb, h.next]
  rfl

/-- A sequencer issues a word that names what its team has: its effect decides. -/
theorem State.mat_run {s : State} {t : Nat} {x : Team} {accs tiles : List Nat} (h : MatAt s t x accs tiles) (acc : Option (BitVec 3))
    (names : Seq → List Nat) (hacc : ∀ k, acc = some k → k.toNat ∈ accs) (hn : ∀ k ∈ names x.seq, k ∈ tiles)
    (body : State → Team → MEff) :
    s.mat acc names body = .next (match body s x with
      | .hold => s
      | .fault c k => s.seqFault x.id c k
      | .faultAt u c => u.seqFault x.id c 0
      | .next u => u.updSeq x.id (fun q => { q with mpc := q.mpc + 8 })
      | .goto u pc => u.updSeq x.id (fun q => { q with mpc := pc })
      | .stay u => u) := by
  have h2 : (names x.seq).any (fun k => decide (x.ntiles ≤ k)) = false := by
    rw [List.any_eq_false]
    intro k hk
    have := h.tilesOk _ (hn k hk)
    simp only [decide_eq_true_eq]; omega
  simp only [State.mat, h.sel, h.team, State.matRun, h.live, h2]
  cases acc with
  | none => rfl
  | some k =>
    have : decide (x.nacc ≤ k.toNat) = false := by have := h.accsOk _ (hacc k rfl); simp only [decide_eq_false_iff_not]; omega
    simp only [this]
    rfl

/-- A word that names an accumulator beyond its team's request faults PROTECTION. -/
theorem State.mat_protection {s : State} {t : Nat} {x : Team} (hs : s.sel = .matrix t) (ht : s.team? t = some x) (hl : s.seqLive x = true)
    (k : BitVec 3) (hk : x.nacc ≤ k.toNat) (names : Seq → List Nat) (body : State → Team → MEff) :
    s.mat (some k) names body = .next (s.seqFault x.id cPROTECTION 0) := by
  simp only [State.mat, hs, ht, State.matRun, hl]
  simp [hk]

/-- The copy engine moves the next bytes of the packet that it works on: its effect decides. -/
theorem State.copy_run {s : State} {c : CopyRec} {op : CopyOp} {p : CopyPacket} {t : Team} {a : Ag} (h : CopyAt s c op p t a)
    (body : State → Ag → CopyRec → CEff Nat) :
    s.copyExec body = .next (match body s a c with
      | .hold u => u
      | .fault k v => if c.turn.isSome then s else s.copyFault t c k v
      | .ok u n => (u.updCopy c.id (fun x => x.moved (geoOf op p (t.tile (p.tile.toNat % 256))) n)).noteSkid t.ctx (.copy c.id)) := by
  have hl : (decide ((geoOf op p (t.tile (p.tile.toNat % 256))).total ≤ c.progress) ||
      !c.mayMove (geoOf op p (t.tile (p.tile.toNat % 256)))) = false := by
    have := h.left
    simp only [h.may, Bool.not_true, Bool.or_false, decide_eq_false_iff_not]; omega
  simp only [State.copyExec, h.sel, h.copy, State.copyMove, h.live, h.team, h.agent, h.isOp, h.isPkt, hl]
  rfl

end Sys2Proof.Machine
end

