-- ==== Sys2Proof/Laws/Issue.lean ====
section
/-! SUPPORT. What the issue of a shepherd instruction can do (R68, R69): one law for each outcome of its effect. -/

namespace Sys2Proof.Machine

open Sys2Proof Sys2Proof.Safety

/-- What an agent's names are. -/
theorem State.agent_spec {s : State} {t g : Nat} {b : Bool} {a : Ag} (h : s.agent t g b = some a) :
    a.t.id = t ∧ a.g.grpidx = g ∧ a.b = b ∧ s.team? t = some a.t ∧ a.t.group? g = some a.g := by
  unfold State.agent at h
  split at h
  · cases h
  · rename_i x hx
    split at h
    · rename_i y w hy hw
      cases h
      exact ⟨by simpa using List.find?_some hx, by simpa using List.find?_some hy, rfl, hx, hy⟩
    · cases h

/-- The signature event leaves the registers. -/
@[simp] theorem Arm.signed_get (m : Arm) (i : Instr) : (m.signed i).get = m.get := by
  funext r; unfold Arm.signed; split <;> rfl

/-- And every other part of the arm but SIG. -/
theorem Arm.signed_fields (m : Arm) (i : Instr) :
    (m.signed i).regs = m.regs ∧ (m.signed i).full = m.full ∧ (m.signed i).spc = m.spc ∧ (m.signed i).lpc = m.lpc ∧
    (m.signed i).mask = m.mask ∧ (m.signed i).stack = m.stack ∧ (m.signed i).loops = m.loops ∧ (m.signed i).rep = m.rep ∧
    (m.signed i).wait = m.wait ∧ (m.signed i).lqLeft = m.lqLeft ∧ (m.signed i).lqOwed = m.lqOwed ∧ (m.signed i).relFence = m.relFence ∧
    (m.signed i).fenceSig = m.fenceSig ∧ (m.signed i).code = m.code := by
  unfold Arm.signed; split <;> simp

@[simp] theorem Arm.signed_spc (m : Arm) (i : Instr) : (m.signed i).spc = m.spc := (m.signed_fields i).2.2.1
@[simp] theorem Arm.signed_lpc (m : Arm) (i : Instr) : (m.signed i).lpc = m.lpc := (m.signed_fields i).2.2.2.1
@[simp] theorem Arm.signed_mask (m : Arm) (i : Instr) : (m.signed i).mask = m.mask := (m.signed_fields i).2.2.2.2.1
@[simp] theorem Arm.signed_stack (m : Arm) (i : Instr) : (m.signed i).stack = m.stack := (m.signed_fields i).2.2.2.2.2.1
@[simp] theorem Arm.signed_loops (m : Arm) (i : Instr) : (m.signed i).loops = m.loops := (m.signed_fields i).2.2.2.2.2.2.1
@[simp] theorem Arm.signed_lqLeft (m : Arm) (i : Instr) : (m.signed i).lqLeft = m.lqLeft := (m.signed_fields i).2.2.2.2.2.2.2.2.2.1
@[simp] theorem Arm.signed_lqOwed (m : Arm) (i : Instr) : (m.signed i).lqOwed = m.lqOwed := (m.signed_fields i).2.2.2.2.2.2.2.2.2.2.1

/-- The active lanes are not affected by the signature event. -/
@[simp] theorem Arm.signed_active (m : Arm) (i : Instr) : (m.signed i).active = m.active := by
  simp [Arm.active]

/-- The arm of an agent whose words have entered SIG. -/
@[simp] theorem agSig_arm (a : Ag) (i : Instr) : (agSig a i).arm = a.arm.signed i := by simp [agSig, Ag.arm]

/-- An action that counts for a skid bound and a change of a group do not meet. -/
theorem State.noteSkid_updGroup (s : State) (c t g : Nat) (e : Engine) (f : Group → Group) :
    (s.updGroup t g f).noteSkid c e = (s.noteSkid c e).updGroup t g f := rfl

/-- A completion after a change of the arm is a completion with that change. -/
theorem Group.finish_updArm (g : Group) (b : Bool) (f : Arm → Arm) (next : Word) :
    ({ g with core := g.core.updArm b f } : Group).finish b (fun m => m) next = g.finish b f next := by
  have hd : ({ g with core := g.core.updArm b f } : Group).due = g.due := by simp [Group.due]
  unfold Group.finish
  rw [hd]
  split <;> simp only [Core.updArm_updArm]

/-- A completion keeps the group's place in its team. -/
theorem Group.finish_grpidx (g : Group) (b : Bool) (f : Arm → Arm) (next : Word) : (g.finish b f next).grpidx = g.grpidx := by
  unfold Group.finish Group.atBoundary; split <;> rfl

/-- And so does the stand at a lane fault. -/
theorem atFault_grpidx (g : Group) : (atFault g).grpidx = g.grpidx := by unfold atFault Group.atBoundary; split <;> rfl

/-- The outcome of an effect, when the arm may execute. -/
theorem State.shep_run {i : Instr} {s : State} {t g : Nat} {b : Bool} {a : Ag} {n : Needs} {body : State → Ag → Eff}
    (h : ArmMay s t g b a n) (hr : a.arm.rep = none ∨ takesRepeat i = true) :
    s.shep i n body = .next (match body (withSig s a i) (agSig a i) with
      | .hold s2 => s2.setArm a (fun x => { x with sig := a.arm.sig })
      | .fault f tcp => (s.armFault a f tcp).issued a
      | .faultAt s2 f tcp => ((s2.unsigned a i).armFault a f tcp).issued a
      | .next s2 => (s2.advance a.t.id a.g.grpidx a.b (a.arm.spc + bytesOf i)).issued a
      | .goto s2 pc => ((s2.setArm a (fun x => { x with spc := pc })).updGroup a.t.id a.g.grpidx atFault).issued a
      | .stay s2 => (s2.updGroup a.t.id a.g.grpidx atRest).issued a) := by
  have hc : (a.arm.rep.isSome && !takesRepeat i) = false := by
    cases hr with
    | inl h1 => rw [h1]; rfl
    | inr h1 => rw [h1]; simp
  simp only [State.shep, h.sel, h.agent, State.shepRun, h.live, h.full, hc, withSig, agSig, bytesOf, shepBytes]
  simp only [Bool.not_true, Bool.false_eq_true, if_false]
  all_goals rfl

/-- An effect that completes. -/
theorem State.shep_next {i : Instr} {s : State} {t g : Nat} {b : Bool} {a : Ag} {n : Needs} {body : State → Ag → Eff} {u : State}
    (h : ArmReady s t g b a n) (hb : body (withSig s a i) (agSig a i) = .next u) :
    s.shep i n body = .next ((u.advance t g b (a.arm.spc + bytesOf i)).issued a) := by
  obtain ⟨h1, h2, h3, -, -⟩ := State.agent_spec h.agent
  rw [State.shep_run h.toArmMay (.inl h.single), hb]
  subst h1 h2 h3
  rfl

/-- An effect that transfers control. -/
theorem State.shep_goto {i : Instr} {s : State} {t g : Nat} {b : Bool} {a : Ag} {n : Needs} {body : State → Ag → Eff} {u : State}
    {pc : Word} (h : ArmReady s t g b a n) (hb : body (withSig s a i) (agSig a i) = .goto u pc) :
    s.shep i n body = .next (((u.setArm a (fun x => { x with spc := pc })).updGroup a.t.id a.g.grpidx atFault).issued a) := by
  rw [State.shep_run h.toArmMay (.inl h.single), hb]

/-- An effect that leaves SPC where it put it. -/
theorem State.shep_stay {i : Instr} {s : State} {t g : Nat} {b : Bool} {a : Ag} {n : Needs} {body : State → Ag → Eff} {u : State}
    (h : ArmReady s t g b a n) (hb : body (withSig s a i) (agSig a i) = .stay u) :
    s.shep i n body = .next ((u.updGroup a.t.id a.g.grpidx atRest).issued a) := by
  rw [State.shep_run h.toArmMay (.inl h.single), hb]

/-- An effect that faults. -/
theorem State.shep_fault {i : Instr} {s : State} {t g : Nat} {b : Bool} {a : Ag} {n : Needs} {body : State → Ag → Eff} {f : Flt}
    {tcp : Bool} (h : ArmReady s t g b a n) (hb : body (withSig s a i) (agSig a i) = .fault f tcp) :
    s.shep i n body = .next ((s.armFault a f tcp).issued a) := by
  rw [State.shep_run h.toArmMay (.inl h.single), hb]

/-- An effect on the arm alone, which completes. -/
theorem State.shep_arm_next {i : Instr} {s : State} {t g : Nat} {b : Bool} {a : Ag} {n : Needs} {body : State → Ag → Eff}
    {f : Arm → Arm} (h : ArmReady s t g b a n)
    (hb : body (withSig s a i) (agSig a i) = .next ((withSig s a i).setArm a f)) :
    s.shep i n body = .next ((skidded s a).updGroup t g (fun y => completed y b i (a.arm.spc + bytesOf i) s.cycle f)) := by
  obtain ⟨h1, h2, h3, -, -⟩ := State.agent_spec h.agent
  rw [State.shep_next h hb]
  subst h1 h2 h3
  simp only [withSig, State.setArm, State.updArm, State.updCore, State.advance, State.issued, State.noteSkid_updGroup]
  rw [State.updGroup_updGroup, State.updGroup_updGroup, State.updGroup_updGroup]
  · congr 2
    funext y
    simp only [completed, aged, ← Group.finish_updArm, Core.updArm_updArm]
    rfl
  all_goals intros; simp [Group.finish_grpidx]

/-- An effect on the arm alone, which transfers control. -/
theorem State.shep_arm_goto {i : Instr} {s : State} {t g : Nat} {b : Bool} {a : Ag} {n : Needs} {body : State → Ag → Eff}
    {f : Arm → Arm} {pc : Word} (h : ArmReady s t g b a n)
    (hb : body (withSig s a i) (agSig a i) = .goto ((withSig s a i).setArm a f) pc) :
    s.shep i n body = .next ((skidded s a).updGroup t g (fun y => transferred y b i pc s.cycle f)) := by
  obtain ⟨h1, h2, h3, -, -⟩ := State.agent_spec h.agent
  rw [State.shep_goto h hb]
  subst h1 h2 h3
  simp only [withSig, State.setArm, State.updArm, State.updCore, State.issued, State.noteSkid_updGroup]
  rw [State.updGroup_updGroup, State.updGroup_updGroup, State.updGroup_updGroup, State.updGroup_updGroup]
  · congr 2
    funext y
    simp only [transferred, aged, Core.updArm_updArm]
    rfl
  all_goals intros; simp [atFault_grpidx]

/-- No change of an arm is a change of it by the identity. -/
theorem State.setArm_id (s : State) (a : Ag) : s.setArm a (fun m => m) = s := by
  have hc : ∀ (c : Core) (b : Bool), c.updArm b (fun m => m) = c := by intro c b; cases b <;> rfl
  simp only [State.setArm, State.updArm, State.updCore, State.updGroup, State.updTeam, Team.updGroup, updWhere, hc]
  simp

end Sys2Proof.Machine
end

