-- ==== Sys2Proof/Laws/Memory.lean ====
section
/-! SUPPORT. Memory: reading after writing, and the canonical form, which every write keeps. -/

namespace Sys2Proof.Machine

open Sys2Proof

variable {w : Nat}

/-! ### Lower bounds of a canonical listing -/

/-- A canonical listing above `lo` is one above nothing in particular. -/
theorem cellWfFrom_weaken {lo : Option Nat} {m : List (Nat × BitVec w)} (h : cellWfFrom lo m = true) :
    cellWfFrom none m = true := by
  cases m with
  | nil => rfl
  | cons x m => obtain ⟨k, v⟩ := x; simp only [cellWfFrom, Bool.and_eq_true] at h ⊢; exact ⟨⟨trivial, h.1.2⟩, h.2⟩

/-- A lower bound may be lowered. -/
theorem cellWfFrom_lower {lo lo' : Nat} {m : List (Nat × BitVec w)} (h : cellWfFrom (some lo) m = true) (hl : lo' ≤ lo) :
    cellWfFrom (some lo') m = true := by
  cases m with
  | nil => rfl
  | cons x m =>
    obtain ⟨k, v⟩ := x
    simp only [cellWfFrom, Bool.and_eq_true, decide_eq_true_eq] at h ⊢
    exact ⟨⟨by omega, h.1.2⟩, h.2⟩

/-- What lies below every listed address reads as 0. -/
theorem cellRead_below {lo : Nat} {m : List (Nat × BitVec w)} (h : cellWfFrom (some lo) m = true) {a : Nat} (ha : a ≤ lo) :
    cellRead m a = 0 := by
  cases m with
  | nil => rfl
  | cons x m =>
    obtain ⟨k, v⟩ := x
    simp only [cellWfFrom, Bool.and_eq_true, decide_eq_true_eq] at h
    have h1 : k ≠ a := by omega
    have h2 : a < k := by omega
    simp [cellRead, h1, h2]

/-! ### A write keeps the canonical form -/

/-- A write at an address above the bound keeps a listing canonical above it. -/
theorem cellWrite_wfFrom {lo : Option Nat} {m : List (Nat × BitVec w)} (h : cellWfFrom lo m = true) (a : Nat) (b : BitVec w)
    (ha : ∀ l, lo = some l → l < a) : cellWfFrom lo (cellWrite m a b) = true := by
  have hd : ∀ (lo : Option Nat) (m : List (Nat × BitVec w)), ¬ b = 0 → cellWfFrom (some a) m = true → (∀ l, lo = some l → l < a) →
      cellWfFrom lo ((a, b) :: m) = true := by
    intro lo m hb hm hl
    simp only [cellWfFrom, Bool.and_eq_true, bne_iff_ne, ne_eq]
    cases lo with
    | none => exact ⟨⟨rfl, hb⟩, hm⟩
    | some l => exact ⟨⟨by simpa using hl l rfl, hb⟩, hm⟩
  induction m generalizing lo with
  | nil =>
    unfold cellWrite
    split
    · rfl
    · exact hd lo [] ‹_› rfl ha
  | cons x m ih =>
    obtain ⟨k, v⟩ := x
    have hh := h
    simp only [cellWfFrom, Bool.and_eq_true] at h
    unfold cellWrite
    split
    · split
      · exact hh
      · refine hd lo _ ‹_› ?_ ha
        simp only [cellWfFrom, Bool.and_eq_true, decide_eq_true_eq]
        exact ⟨⟨‹_›, h.1.2⟩, h.2⟩
    · split
      · split
        · cases lo with
          | none => exact cellWfFrom_weaken h.2
          | some l => exact cellWfFrom_lower h.2 (Nat.le_of_lt (by simpa using h.1.1))
        · have hk : k = a := ‹_›
          subst hk
          exact hd lo m ‹_› h.2 ha
      · simp only [cellWfFrom, Bool.and_eq_true]
        exact ⟨h.1, ih h.2 (by intro l hl; cases hl; omega)⟩

/-- A write keeps the canonical form. -/
theorem cellWrite_wf {m : List (Nat × BitVec w)} (h : cellWf m = true) (a : Nat) (b : BitVec w) : cellWf (cellWrite m a b) = true :=
  cellWrite_wfFrom h a b (by simp)

/-- Storing bytes keeps the canonical form. -/
theorem Memory.store_wf {m : Memory} (h : m.wf = true) (a : Nat) (bs : List Byte) : (m.store a bs).wf = true := by
  induction bs generalizing m a with
  | nil => exact h
  | cons b bs ih => exact ih (cellWrite_wf h a b) (a + 1)

/-- Storing a number keeps the canonical form. -/
theorem Memory.storeLE_wf {m : Memory} (h : m.wf = true) (a n v : Nat) : (m.storeLE a n v).wf = true := Memory.store_wf h a _

/-- A memory that lists nothing is canonical. -/
theorem Memory.nil_wf : Memory.wf [] = true := rfl

/-- Memory at reset is canonical. -/
theorem State.reset_mem_wf : State.reset.mem.wf = true ∧ State.reset.hostMem.wf = true := ⟨rfl, rfl⟩

/-! ### Reading after a write -/

/-- A read at the address written gives the value written. -/
theorem cellRead_cellWrite_same (m : List (Nat × BitVec w)) (h : cellWf m = true) (a : Nat) (b : BitVec w) :
    cellRead (cellWrite m a b) a = b := by
  have key : ∀ (m : List (Nat × BitVec w)) (lo : Option Nat), cellWfFrom lo m = true → cellRead (cellWrite m a b) a = b := by
    intro m
    induction m with
    | nil =>
      intro lo _
      unfold cellWrite
      split
      · next hb => rw [hb]; rfl
      · simp [cellRead]
    | cons x m ih =>
      intro lo h
      obtain ⟨k, v⟩ := x
      simp only [cellWfFrom, Bool.and_eq_true] at h
      unfold cellWrite
      split
      · next h1 =>
        split
        · next hb =>
          have h3 : ¬ k = a := by omega
          rw [cellRead, if_neg h3, if_pos h1, hb]
        · rw [cellRead, if_pos rfl]
      · split
        · next h2 =>
          split
          · next hb => rw [hb]; exact cellRead_below h.2 (by omega)
          · rw [cellRead, if_pos rfl]
        · next h1 h2 => rw [cellRead, if_neg h2, if_neg h1]; exact ih _ h.2
  exact key m none h

/-- A read at another address is not affected by a write. -/
theorem cellRead_cellWrite_other (m : List (Nat × BitVec w)) (h : cellWf m = true) {a c : Nat} (b : BitVec w) (hc : c ≠ a) :
    cellRead (cellWrite m a b) c = cellRead m c := by
  have hac : ¬ a = c := fun e => hc e.symm
  have key : ∀ (m : List (Nat × BitVec w)) (lo : Option Nat), cellWfFrom lo m = true → cellRead (cellWrite m a b) c = cellRead m c := by
    intro m
    induction m with
    | nil =>
      intro lo _
      unfold cellWrite
      split
      · rfl
      · simp [cellRead, hac]
    | cons x m ih =>
      intro lo h
      obtain ⟨k, v⟩ := x
      simp only [cellWfFrom, Bool.and_eq_true] at h
      unfold cellWrite
      split
      · next h1 =>
        split
        · rfl
        · rw [cellRead, if_neg hac]
          split
          · next h4 => rw [cellRead, if_neg (by omega), if_pos (by omega)]
          · rfl
      · split
        · next h2 =>
          subst h2
          split
          · rw [cellRead, if_neg hac]
            split
            · next h4 => exact cellRead_below h.2 (by omega)
            · rfl
          · rw [cellRead, if_neg hac, cellRead, if_neg hac]
        · rw [cellRead, cellRead]
          split
          · rfl
          · split
            · rfl
            · exact ih _ h.2
  exact key m none h

/-- Storing bytes leaves every address outside them as it was. -/
theorem Memory.store_read_outside {m : Memory} (h : m.wf = true) (a : Nat) (bs : List Byte) {c : Nat}
    (hc : c < a ∨ a + bs.length ≤ c) : cellRead (m.store a bs) c = cellRead m c := by
  induction bs generalizing m a with
  | nil => rfl
  | cons b bs ih =>
    simp only [List.length_cons] at hc
    rw [Memory.store, ih (cellWrite_wf h a b) (a + 1) (by omega)]
    exact cellRead_cellWrite_other m h b (by omega)

/-- Storing bytes makes each of them the byte that its address reads as. -/
theorem Memory.store_read_inside {m : Memory} (h : m.wf = true) (a : Nat) (bs : List Byte) (i : Nat) (hi : i < bs.length) :
    cellRead (m.store a bs) (a + i) = bs[i] := by
  induction bs generalizing m a i with
  | nil => simp at hi
  | cons b bs ih =>
    cases i with
    | zero =>
      rw [Memory.store, Memory.store_read_outside (cellWrite_wf h a b) (a + 1) bs (by omega)]
      simpa using cellRead_cellWrite_same m h a b
    | succ i =>
      have := ih (cellWrite_wf h a b) (a + 1) i (by simpa using hi)
      simpa [Memory.store, Nat.add_assoc, Nat.add_comm 1 i] using this

end Sys2Proof.Machine
end

