-- ==== Sys2Proof/Laws/Regions.lean ====
section
/-! SUPPORT. The memory operations over regions that the images use: clearing, pasting, a window, and fields; each keeps the
canonical form. -/

namespace Sys2Proof.Machine

open Sys2Proof

variable {w : Nat}

/-- Dropping listed addresses keeps a listing canonical. -/
theorem cellWfFrom_filter (p : Nat × BitVec w → Bool) {lo : Option Nat} {m : List (Nat × BitVec w)} (h : cellWfFrom lo m = true) :
    cellWfFrom lo (m.filter p) = true := by
  induction m generalizing lo with
  | nil => rfl
  | cons x m ih =>
    obtain ⟨k, v⟩ := x
    simp only [cellWfFrom, Bool.and_eq_true] at h
    rw [List.filter_cons]
    split
    · simp only [cellWfFrom, Bool.and_eq_true]; exact ⟨h.1, ih h.2⟩
    · cases lo with
      | none => exact cellWfFrom_weaken (ih h.2)
      | some l => exact cellWfFrom_lower (ih h.2) (Nat.le_of_lt (by simpa using h.1.1))

/-- A region cleared. -/
theorem Memory.clear_wf {m : Memory} (h : m.wf = true) (a n : Nat) : (m.clear a n).wf = true := cellWfFrom_filter _ h

/-- Fields in a cleared region. -/
theorem Memory.putFields_wf {m : Memory} (h : m.wf = true) (a n : Nat) (fs : Fields) : (m.putFields a n fs).wf = true := by
  have key : ∀ (fs : Fields) (m : Memory), m.wf = true →
      (fs.foldl (fun (m : Memory) f => if f.2.2 = 0 then m else m.storeLE (a + f.1) f.2.1 f.2.2) m).wf = true := by
    intro fs
    induction fs with
    | nil => exact fun m h => h
    | cons f fs ih =>
      intro m h
      rw [List.foldl_cons]
      refine ih _ ?_
      split
      · exact h
      · exact Memory.storeLE_wf h _ _ _
  exact key fs _ (Memory.clear_wf h a n)

/-- A region pasted. -/
theorem Memory.paste_wf {m : Memory} (h : m.wf = true) (a n : Nat) (x : Memory) : (m.paste a n x).wf = true := by
  have key : ∀ (x : Memory) (m : Memory), m.wf = true → Memory.wf (x.foldl (fun (m : Memory) c => cellWrite m (a + c.1) c.2) m) = true := by
    intro x
    induction x with
    | nil => exact fun m h => h
    | cons c x ih => intro m h; rw [List.foldl_cons]; exact ih _ (cellWrite_wf h _ _)
  exact key _ _ (Memory.clear_wf h a n)

/-- A listing whose addresses all fall by the same amount. -/
theorem cellWfFrom_shift (a : Nat) {lo lo' : Option Nat} {m : List (Nat × BitVec w)} (h : cellWfFrom lo m = true)
    (hm : ∀ c ∈ m, a ≤ c.1) (hl : ∀ l', lo' = some l' → ∃ l, lo = some l ∧ l' = l - a ∧ a ≤ l) :
    cellWfFrom lo' (m.map (fun c => (c.1 - a, c.2))) = true := by
  induction m generalizing lo lo' with
  | nil => rfl
  | cons x m ih =>
    obtain ⟨k, v⟩ := x
    simp only [cellWfFrom, Bool.and_eq_true] at h
    have hk : a ≤ k := hm (k, v) (by simp)
    simp only [List.map_cons, cellWfFrom, Bool.and_eq_true]
    refine ⟨⟨?_, h.1.2⟩, ih h.2 (fun c hc => hm c (by simp [hc])) ?_⟩
    · cases lo' with
      | none => trivial
      | some l' =>
        obtain ⟨l, h1, h2, h3⟩ := hl l' rfl
        subst h1 h2
        have := h.1.1
        simp only [decide_eq_true_eq] at this ⊢
        omega
    · intro l' hl'; cases hl'; exact ⟨k, rfl, rfl, hk⟩

/-- A window. -/
theorem Memory.window_wf {m : Memory} (h : m.wf = true) (a n : Nat) : (m.window a n).wf = true := by
  refine cellWfFrom_shift a (cellWfFrom_filter _ h) ?_ (by simp)
  intro c hc
  have := (List.mem_filter.1 hc).2
  simp only [Bool.and_eq_true, decide_eq_true_eq] at this
  exact this.1

end Sys2Proof.Machine
end

