-- ==== Sys2Proof/Tests/Slice0.lean ====
section
/-! SUPPORT. Tests: words that the manual's encodings give, terms that WellFormed refuses, results that the manual or a hand
calculation gives, and witnesses: states that meet the hypotheses of the statements. -/

namespace Sys2Proof.Tests

open Sys2Proof Sys2Proof.Machine Sys2Proof.Safety

set_option maxRecDepth 100000

/-! ### Decoding -/

/-- The decoder has read an instruction. -/
def reads (r : Except DecErr Instr) (i : Instr) : Bool := match r with | .ok j => j == i | .error _ => false

/-- The decoder refuses with an error. -/
def refuses (r : Except DecErr Instr) (e : DecErr) : Bool := match r with | .ok _ => false | .error x => x == e

/-- Words of the shepherd, each from the formats of Tables 4.6 and 4.7 with the MAJ and fn of its entry (R58, R70 to R108, R246, R252): part 0. -/
theorem test_decode_shepherd_0 : ∀ p ∈ ([
  (0x00292900, .add 0x5 0x9 0x12),
  (0x00292901, .sub 0x5 0x9 0x12),
  (0x00292902, .and 0x5 0x9 0x12),
  (0x00292903, .or 0x5 0x9 0x12),
  (0x00292904, .xor 0x5 0x9 0x12),
  (0x00292905, .shl 0x5 0x9 0x12),
  (0x00292906, .shr 0x5 0x9 0x12),
  (0x00292907, .sra 0x5 0x9 0x12),
  (0x00292908, .mul 0x5 0x9 0x12),
  (0x00292909, .mulh 0x5 0x9 0x12),
  (0x0029290A, .mulhn 0x5 0x9 0x12),
  (0x0029290B, .div 0x5 0x9 0x12),
  (0x0029290C, .divn 0x5 0x9 0x12),
  (0x0029290D, .rem 0x5 0x9 0x12),
  (0x0029290E, .remn 0x5 0x9 0x12),
  (0x0029290F, .min 0x5 0x9 0x12),
  (0x00292910, .minn 0x5 0x9 0x12),
  (0x00292911, .max 0x5 0x9 0x12),
  (0x00292912, .maxn 0x5 0x9 0x12),
  (0x00292913, .seq 0x5 0x9 0x12),
  (0x00292914, .sne 0x5 0x9 0x12),
  (0x00292915, .slt 0x5 0x9 0x12),
  (0x00292916, .sltn 0x5 0x9 0x12),
  (0x00292017, .clz 0x5 0x9),
  (0x00292018, .popc 0x5 0x9),
  (0x00292919, .rotl 0x5 0x9 0x12),
  (0x0029291A, .bfx 0x5 0x9 0x12),
  (0x0029291B, .bfi 0x5 0x9 0x12),
  (0x0029291C, .sel 0x5 0x9 0x12),
  (0x022921E7, .addi 0x5 0x9 0x1E7),
  (0x042921E7, .andi 0x5 0x9 0x1E7),
  (0x062921E7, .ori 0x5 0x9 0x1E7),
  (0x082921E7, .xori 0x5 0x9 0x1E7),
  (0x0A292027, .shli 0x5 0x9 0x27)] : List (BitVec 32 × Instr)),
    reads (decodeShep p.1 0) p.2 = true := by decide

/-- Words of the shepherd, each from the formats of Tables 4.6 and 4.7 with the MAJ and fn of its entry (R58, R70 to R108, R246, R252): part 1. -/
theorem test_decode_shepherd_1 : ∀ p ∈ ([
  (0x0C292027, .shri 0x5 0x9 0x27),
  (0x0E292027, .srai 0x5 0x9 0x27),
  (0x102921E7, .slti 0x5 0x9 0x1E7),
  (0x122801E7, .li 0x5 0x1E7),
  (0x142921E7, .lis 0x5 0x9 0x1E7),
  (0x202921E7, .ldb 0x5 0x9 0x1E7),
  (0x222921E7, .ldh 0x5 0x9 0x1E7),
  (0x242921E7, .ldw 0x5 0x9 0x1E7),
  (0x262921E7, .ldd 0x5 0x9 0x1E7),
  (0x282921E7, .stb 0x5 0x9 0x1E7),
  (0x2A2921E7, .sth 0x5 0x9 0x1E7),
  (0x2C2921E7, .stw 0x5 0x9 0x1E7),
  (0x2E2921E7, .std 0x5 0x9 0x1E7),
  (0x30292901, .amosSwap 5 9 18 true),
  (0x30292903, .amosAdd 5 9 18 true),
  (0x30292905, .amosAnd 5 9 18 true),
  (0x30292907, .amosOr 5 9 18 true),
  (0x30292909, .amosXor 5 9 18 true),
  (0x3029290B, .amosMin 5 9 18 true),
  (0x3029290D, .amosMax 5 9 18 true),
  (0x3029290F, .amosMinn 5 9 18 true),
  (0x30292911, .amosMaxn 5 9 18 true),
  (0x30292913, .amosCas 5 9 18 true),
  (0x404A5FFD, .beq 0x9 0x12 0x1FFD),
  (0x424A5FFD, .bne 0x9 0x12 0x1FFD),
  (0x444A5FFD, .blt 0x9 0x12 0x1FFD),
  (0x464A5FFD, .bge 0x9 0x12 0x1FFD),
  (0x484A5FFD, .bltn 0x9 0x12 0x1FFD),
  (0x4A4A5FFD, .bgen 0x9 0x12 0x1FFD),
  (0x4C581FFD, .bpany 0xB 0x1FFD),
  (0x4E581FFD, .bpall 0xB 0x1FFD),
  (0x51ABCDEF, .br 0x1ABCDEF),
  (0x53ABCDEF, .call 0x1ABCDEF),
  (0x54292000, .jr 0x5 0x9)] : List (BitVec 32 × Instr)),
    reads (decodeShep p.1 0) p.2 = true := by decide

/-- Words of the shepherd, each from the formats of Tables 4.6 and 4.7 with the MAJ and fn of its entry (R58, R70 to R108, R246, R252): part 2. -/
theorem test_decode_shepherd_2 : ∀ p ∈ ([
  (0x56481FFD, .loop 0x9 0x1FFD),
  (0x59579FFD, .loopi 0xABC 0x1FFD),
  (0x5A000000, .lbrk),
  (0x6000002F, .lq 0x2F),
  (0x632800E4, .lrep 37 0xE4),
  (0x65ABCDEF, .lj 0x1ABCDEF),
  (0x66581FFD, .split 0xB 0x1FFD),
  (0x68000000, .join),
  (0x6A016000, .lexit 0xB),
  (0x70292034, .barArrive 0x5 0x9 0xD),
  (0x70292035, .barWait 0x5 0x9 0xD),
  (0x70292036, .barSync 0x5 0x9 0xD),
  (0x78000084, .twait 0x84),
  (0x80292900, .fork 0x5 0x9 0x12),
  (0x82280005, .fstat 0x5 0x5),
  (0x92012000, .unhandle 0x9),
  (0x94292900, .perform 0x5 0x9 0x12),
  (0x97092907, .performl 0x21 0x9 0x12 0x7),
  (0x98012900, .resume 0x9 0x12),
  (0x9A292900, .resumek 0x5 0x9 0x12),
  (0x9C012000, .drop 0x9),
  (0xA0012000, .tcp 0x9),
  (0xA2012000, .tcpr 0x9),
  (0xC0292013, .sget 0x5 0x9 0x13),
  (0xC201200C, .sset 0x9 0xC),
  (0xC6013E7F, .trap 0x9 0x1E7F),
  (0xC8000000, .yield),
  (0xCA000000, .tend),
  (0x72000003, .fence .die),
  (0x74292014, .rel 5 9 .dev .w),
  (0x7429200E, .relHalo 5 9 .h),
  (0x76292012, .acq 5 9 .flock .w)] : List (BitVec 32 × Instr)),
    reads (decodeShep p.1 0) p.2 = true := by decide

/-- The instructions of two words (R72, R93, R100): the second word is the literal. -/
theorem test_decode_literals :
    reads (decodeShep 0xCC280000 0x89ABCDEF) (.li32 5 0x89ABCDEF) = true ∧ reads (decodeShep 0xCC282000 0x89ABCDEF) (.li32N 5 0x89ABCDEF) = true ∧
    reads (decodeShep 0xCC284000 0x01234567) (.li32Hi 5 0x01234567) = true ∧ reads (decodeShep 0x90480000 6) (.handle 9 false false 6) = true ∧
    reads (decodeShep 0x90A02001 7) (.handle 20 true true 7) = true ∧ reads (decodeShep 0xC4000000 0xDEADBEEF) (.sigchk 0xDEADBEEF) = true := by decide

/-- Words of the lane engine, each from the fields of Table 4.8 with the OPC of its entry (R61 to R64, R127 to R149): part 0. -/
theorem test_decode_lane_0 : ∀ p ∈ ([
  (0x000000000088030405038C01, .vadd ⟨7, 5, 386, 0, 1, false, 3, .i32, .rne, .none, 0x0⟩),
  (0x00000000014803060503CC02, .vsub ⟨7, 5, 387, 0, 1, true, 3, .n16, .rne, .none, 0x0⟩),
  (0x000000000008030805038C03, .vmul ⟨7, 5, 388, 0, 1, false, 3, .i8, .rne, .none, 0x0⟩),
  (0x000000000188030A0503CC04, .vmulh ⟨7, 5, 389, 0, 1, true, 3, .n32, .rne, .none, 0x0⟩),
  (0x000000000088030C05038C05, .vdiv ⟨7, 5, 390, 0, 1, false, 3, .i32, .rne, .none, 0x0⟩),
  (0x000000000148030E0503CC06, .vrem ⟨7, 5, 391, 0, 1, true, 3, .n16, .rne, .none, 0x0⟩),
  (0x000000000008031005038C07, .vmin ⟨7, 5, 392, 0, 1, false, 3, .i8, .rne, .none, 0x0⟩),
  (0x00000000018803120503CC08, .vmax ⟨7, 5, 393, 0, 1, true, 3, .n32, .rne, .none, 0x0⟩),
  (0x000000000040000005038C09, .vabs ⟨7, 5, 0, 0, 0, false, 3, .i16, .rne, .none, 0x0⟩),
  (0x1234567800800001C5038C0A, .vneg ⟨7, 453, 0, 0, 0, false, 3, .i32, .rne, .none, 0x12345678⟩),
  (0x0000000000E8080806040C0B, .vmad ⟨8, 6, 4, 2, 5, false, 3, .i64, .rne, .none, 0x0⟩),
  (0x000000000440038205038C10, .vand ⟨7, 5, 449, 0, 0, false, 3, .b32, .rne, .none, 0x0⟩),
  (0x000000000440038205038C11, .vor ⟨7, 5, 449, 0, 0, false, 3, .b32, .rne, .none, 0x0⟩),
  (0x000000000440038205038C12, .vxor ⟨7, 5, 449, 0, 0, false, 3, .b32, .rne, .none, 0x0⟩),
  (0x000000000480000004030C13, .vnot ⟨6, 4, 0, 0, 0, false, 3, .b64, .rne, .none, 0x0⟩),
  (0x000000000180001205038C14, .vshl ⟨7, 5, 9, 0, 0, false, 3, .n32, .rne, .none, 0x0⟩),
  (0x000000000180001205038C15, .vshr ⟨7, 5, 9, 0, 0, false, 3, .n32, .rne, .none, 0x0⟩),
  (0x000000000440001205038C16, .vrotl ⟨7, 5, 9, 0, 0, false, 3, .b32, .rne, .none, 0x0⟩),
  (0x000000000440000005038C17, .vclz ⟨7, 5, 0, 0, 0, false, 3, .b32, .rne, .none, 0x0⟩),
  (0x000000000440000005038C18, .vpopc ⟨7, 5, 0, 0, 0, false, 3, .b32, .rne, .none, 0x0⟩),
  (0x000000000440001205038C19, .vbfx ⟨7, 5, 9, 0, 0, false, 3, .b32, .rne, .none, 0x0⟩),
  (0x000000000440001205038C1A, .vbfi ⟨7, 5, 9, 0, 0, false, 3, .b32, .rne, .none, 0x0⟩),
  (0x0000000004400001C29F8C20, .vmov ⟨319, 450, 0, 0, 0, false, 3, .b32, .rne, .none, 0x0⟩),
  (0x000000000440301205038C21, .vsel ⟨7, 5, 9, 12, 0, false, 3, .b32, .rne, .none, 0x0⟩),
  (0x000000000200001205038C80, .vfadd ⟨7, 5, 9, 0, 0, false, 3, .f32, .rne, .none, 0x0⟩),
  (0x000000004A00001205038C81, .vfsub ⟨7, 5, 9, 0, 0, false, 3, .f32, .rtz, .sat, 0x0⟩),
  (0x000000009200001205038C82, .vfmul ⟨7, 5, 9, 0, 0, false, 3, .f32, .rup, .satn, 0x0⟩),
  (0x000000001A802C1205038C83, .vfma ⟨7, 5, 9, 11, 0, false, 3, .bf16, .rdn, .none, 0x0⟩),
  (0x0000000022402C1205038C84, .vfms ⟨7, 5, 9, 11, 0, false, 3, .f16, .rna, .none, 0x0⟩),
  (0x000000000200001205038C85, .vfdiv ⟨7, 5, 9, 0, 0, false, 3, .f32, .rne, .none, 0x0⟩),
  (0x000000004200000005038C86, .vfsqrt ⟨7, 5, 0, 0, 0, false, 3, .f32, .rne, .sat, 0x0⟩),
  (0x000000004200000005038C87, .vfrcp ⟨7, 5, 0, 0, 0, false, 3, .f32, .rne, .sat, 0x0⟩),
  (0x000000004200000005038C88, .vfrsq ⟨7, 5, 0, 0, 0, false, 3, .f32, .rne, .sat, 0x0⟩),
  (0x000000000200000005038C89, .vfexp2 ⟨7, 5, 0, 0, 0, false, 3, .f32, .rne, .none, 0x0⟩)] : List (BitVec 96 × Instr)),
    reads (decodeLane 320 p.1) p.2 = true := by decide

/-- Words of the lane engine, each from the fields of Table 4.8 with the OPC of its entry (R61 to R64, R127 to R149): part 1. -/
theorem test_decode_lane_1 : ∀ p ∈ ([
  (0x000000000200000005038C8A, .vflog2 ⟨7, 5, 0, 0, 0, false, 3, .f32, .rne, .none, 0x0⟩),
  (0x000000000200001205038C8B, .vfmin ⟨7, 5, 9, 0, 0, false, 3, .f32, .rne, .none, 0x0⟩),
  (0x000000000240001205038C8C, .vfmax ⟨7, 5, 9, 0, 0, false, 3, .f16, .rne, .none, 0x0⟩),
  (0x000000000280000005038C8D, .vfabs ⟨7, 5, 0, 0, 0, false, 3, .bf16, .rne, .none, 0x0⟩),
  (0x000000000200000005038C8E, .vfneg ⟨7, 5, 0, 0, 0, false, 3, .f32, .rne, .none, 0x0⟩),
  (0x000000001200000005038C8F, .vfrnd ⟨7, 5, 0, 0, 0, false, 3, .f32, .rup, .none, 0x0⟩),
  (0x000000000080001205078D00, .vcmpEq ⟨15, 5, 9, 0, 0, false, 3, .i32, .rne, .none, 0x0⟩),
  (0x000000000200001205078D01, .vcmpNe ⟨15, 5, 9, 0, 0, false, 3, .f32, .rne, .none, 0x0⟩),
  (0x000000000180001205078D02, .vcmpLt ⟨15, 5, 9, 0, 0, false, 3, .n32, .rne, .none, 0x0⟩),
  (0x000000000080001205078D03, .vcmpLe ⟨15, 5, 9, 0, 0, false, 3, .i32, .rne, .none, 0x0⟩),
  (0x000000000200001205078D04, .vcmpGt ⟨15, 5, 9, 0, 0, false, 3, .f32, .rne, .none, 0x0⟩),
  (0x000000000180001205078D05, .vcmpGe ⟨15, 5, 9, 0, 0, false, 3, .n32, .rne, .none, 0x0⟩),
  (0x000000000240001205008D06, .vcmpUn ⟨1, 5, 9, 0, 0, false, 3, .f16, .rne, .none, 0x0⟩),
  (0x000000000200000005038D08, .vfclass ⟨7, 5, 0, 0, 0, false, 3, .f32, .rne, .none, 0x0⟩),
  (0x000000080A80000005038D10, .vcvt ⟨7, 5, 0, 0, 0, false, 3, .bf16, .rtz, .none, 0x8⟩),
  (0x0000020802C0000005038D11, .vpack ⟨7, 5, 0, 0, 0, false, 3, .e4m3, .rne, .none, 0x208⟩),
  (0x000007020380000005038D12, .vunpack ⟨7, 5, 0, 0, 0, false, 3, .i4, .rne, .none, 0x702⟩),
  (0x000000000200001205038D13, .vscale ⟨7, 5, 9, 0, 0, false, 3, .f32, .rne, .none, 0x0⟩),
  (0x001501F00200000B83038D80, .vld ⟨7, 387, 5, 0, 0, false, 3, .f32, .rne, .none, 0x1501F0⟩),
  (0x000501F00000240B83000D81, .vst ⟨0, 387, 5, 9, 0, false, 3, .i8, .rne, .none, 0x501F0⟩),
  (0x000000800480038183040D82, .vldw ⟨8, 387, 448, 0, 0, false, 3, .b64, .rne, .none, 0x80⟩),
  (0x000000400440000B83000D84, .vpref ⟨0, 387, 5, 0, 0, false, 3, .b32, .rne, .none, 0x40⟩),
  (0x000001F00187078183038D90, .vamoSwap ⟨7, 387, 448, 449, 0, false, 3, .n32, .rne, .none, 0x1F0⟩),
  (0x000001F00187078183038D91, .vamoAdd ⟨7, 387, 448, 449, 0, false, 3, .n32, .rne, .none, 0x1F0⟩),
  (0x000001F00447078183038D92, .vamoAnd ⟨7, 387, 448, 449, 0, false, 3, .b32, .rne, .none, 0x1F0⟩),
  (0x000001F00447078183038D93, .vamoOr ⟨7, 387, 448, 449, 0, false, 3, .b32, .rne, .none, 0x1F0⟩),
  (0x000001F00447078183038D94, .vamoXor ⟨7, 387, 448, 449, 0, false, 3, .b32, .rne, .none, 0x1F0⟩),
  (0x000001F00187078183038D95, .vamoMin ⟨7, 387, 448, 449, 0, false, 3, .n32, .rne, .none, 0x1F0⟩),
  (0x000001F00187078183038D96, .vamoMax ⟨7, 387, 448, 449, 0, false, 3, .n32, .rne, .none, 0x1F0⟩),
  (0x000001F00187078183038D97, .vamoCas ⟨7, 387, 448, 449, 0, false, 3, .n32, .rne, .none, 0x1F0⟩),
  (0x000001F02200278183038D98, .vamoFadd ⟨7, 387, 448, 9, 0, false, 3, .f32, .rna, .none, 0x1F0⟩),
  (0x000000000200278183038D99, .vamoFmin ⟨7, 387, 448, 9, 0, false, 3, .f32, .rne, .none, 0x0⟩),
  (0x000000000200278183038D9A, .vamoFmax ⟨7, 387, 448, 9, 0, false, 3, .f32, .rne, .none, 0x0⟩),
  (0x000000000200038183038D9B, .vamoAmaxrst ⟨7, 387, 448, 0, 0, false, 3, .f32, .rne, .none, 0x0⟩)] : List (BitVec 96 × Instr)),
    reads (decodeLane 320 p.1) p.2 = true := by decide

/-- Words of the lane engine, each from the fields of Table 4.8 with the OPC of its entry (R61 to R64, R127 to R149): part 2. -/
theorem test_decode_lane_2 : ∀ p ∈ ([
  (0x000000C80280001205038E00, .vtld ⟨7, 5, 9, 0, 0, false, 3, .bf16, .rne, .none, 0xC8⟩),
  (0x0000000302002C1205000E01, .vtst ⟨0, 5, 9, 11, 0, false, 3, .f32, .rne, .none, 0x3⟩),
  (0x000000030440000005038D40, .qswap ⟨7, 5, 0, 0, 0, false, 3, .b32, .rne, .none, 0x3⟩),
  (0x000000020440000005038D41, .qbcast ⟨7, 5, 0, 0, 0, false, 3, .b32, .rne, .none, 0x2⟩),
  (0x000000030440038205038D42, .vshfl ⟨7, 5, 449, 0, 0, false, 3, .b32, .rne, .none, 0x3⟩),
  (0x000043000440000006000D43, .vballot ⟨0, 6, 0, 0, 0, false, 3, .b32, .rne, .none, 0x4300⟩),
  (0x000000000080000005038D44, .vred ⟨7, 5, 0, 0, 0, false, 3, .i32, .rne, .none, 0x0⟩),
  (0x000000080200000005038D45, .vscan ⟨7, 5, 0, 0, 0, false, 3, .f32, .rne, .none, 0x8⟩),
  (0x000000000440001E0E010D48, .vpand ⟨2, 14, 15, 0, 0, false, 3, .b32, .rne, .none, 0x0⟩),
  (0x000000000440001E0E010D49, .vpor ⟨2, 14, 15, 0, 0, false, 3, .b32, .rne, .none, 0x0⟩),
  (0x000000000440001E0E010D4A, .vpxor ⟨2, 14, 15, 0, 0, false, 3, .b32, .rne, .none, 0x0⟩),
  (0x000000000440001E0E010D4B, .vpandn ⟨2, 14, 15, 0, 0, false, 3, .b32, .rne, .none, 0x0⟩),
  (0x000000000440000005010D4C, .vptest ⟨2, 5, 0, 0, 0, false, 3, .b32, .rne, .none, 0x0⟩),
  (0x00000000044000000E038D4D, .vpmov ⟨7, 14, 0, 0, 0, false, 3, .b32, .rne, .none, 0x0⟩)] : List (BitVec 96 × Instr)),
    reads (decodeLane 320 p.1) p.2 = true := by decide

/-- VNOP's one word, and a wrong one of its OPC (R64). -/
theorem test_decode_vnop : reads (decodeLane 320 0x3FF) .vnop = true ∧ refuses (decodeLane 320 0x7FF) .illegal = true := by decide

/-- Words of the sequencer, each from the fields of Tables 12.1 and 12.2 (R199). -/
theorem test_decode_matrix : ∀ p ∈ ([
  (0x0000000000000000, .mnop),
  (0x0000000005000001, .mbeg 5),
  (0x0060004003C81102, .mstep 3 17 200 64 96),
  (0x0000000002000003, .mend 2),
  (0x0000000001000004, .mzero 1),
  (0x3F8F020174060005, .mout .e5m2 true true 4 0 6 513 15 127),
  (0x0000000118000905, .mout .f32 false false 0 9 0 1 0 0),
  (0x0203000001070006, .mamax 1 7 3 4),
  (0xFFE0002001FF0107, .mbind true 1 255 32 65504),
  (0x000F000000000008, .mmark 15),
  (0x0003000000000009, .mwait 3),
  (0x012C00040000000A, .mloop false 0 4 300),
  (0x000000020805000A, .mloop true 5 2 0),
  (0x000000000000000B, .mnext),
  (0xFFFE00000000000C, .mjmp 0xFFFE),
  (0x800100000007000D, .mset 7 0x8001),
  (0x3F8000000802000D, .msetBf 2 0x3F80),
  (0x000000281001000D, .msetLd 1 40),
  (0x000000000000000E, .mstop),
  (0x0000000000004D0F, .mtrel 77)] : List (BitVec 64 × Instr)),
    reads (decodeMat p.1) p.2 = true := by decide

/-- Copy packets, each from the bytes of Tables 11.2 and 11.3 (R181, R184). -/
theorem test_decode_copy : ∀ p ∈ ([
  (0x00000000000300080000000400000000000000000000000000000000000001400000000000000200000000000002000000000000000100000000010000002701, .copy ⟨true, 3, false, true, false, 0, 256, 0x10000, 0x20000, 512, 320, 0x0, 0, 0, 0, false, 4, 0, 0x30008⟩),
  (0x00000000000000000000000000000000000000000000000000000000000000000000000000000000000000000002000011223344556677880000004000000503, .fill ⟨true, 2, false, false, false, 0, 64, 0x1122334455667788, 0x20000, 0, 0, 0x0, 0, 0, 0, false, 0, 0, 0x0⟩),
  (0x00000000000300080040001000010A0E000000000005000000000000000000000000000000000200FFFFFF000000008000000000000400000000000000094002, .expand ⟨false, 0, false, false, true, 9, 0, 0x40000, 0xFFFFFF0000000080, 512, 0, 0x50000, 14, 10, 1, false, 16, 64, 0x30008⟩),
  (0x00000000000000000020004000000A0B000000000000000000000000000000000000000000000040000000000000008000000000000400000000000000034004, .bload ⟨false, 0, false, false, true, 3, 0, 0x40000, 0x80, 64, 0, 0x0, 11, 10, 0, false, 64, 32, 0x0⟩),
  (0x00000000000000000000000000000000000000000000000000000000000000000000000000000000000000000001000200000000000400800000010000000105, .regfill ⟨true, 0, false, false, false, 0, 256, 0x40080, 0x10002, 0, 0, 0x0, 0, 0, 0, false, 0, 0, 0x0⟩),
  (0x00000000000000000000000000000000000000000000000000000000000000000000000000000000FFFFFF000000100000000000000400000000006080031006, .mcast ⟨false, 0, true, false, false, 32771, 96, 0x40000, 0xFFFFFF0000001000, 0, 0, 0x0, 0, 0, 0, false, 0, 0, 0x0⟩),
  (0x00000000000012340000000000000000000000000000000000000000000000000000000000000000000000000003001000000000000000000000000000000007, .signal ⟨false, 0, false, false, false, 0, 0, 0x0, 0x30010, 0, 0, 0x0, 0, 0, 0, false, 0, 0, 0x1234⟩),
  (0x00000000000000000000000000000A0A000000000000000000000000000002000000000000000000000000000006000000000000000000000000000000074008, .drain ⟨false, 0, false, false, true, 7, 0, 0x0, 0x60000, 0, 512, 0x0, 10, 10, 0, false, 0, 0, 0x0⟩)] : List (BitVec 512 × Instr)),
    reads (decodePacket p.1) p.2 = true := by decide

/-- A launch packet, from the bytes of Table 10.6 (R160). -/
theorem test_decode_launch :
    decodeLaunch 0x000000000000004D0000000000040010004001020000000911223344556677880000000000030008000000000002000400000000000100000000000302041820 =
      ⟨0x20, 0x18, 4, 2, 3, 0x10000, 0x20004, 0x30008, 0x1122334455667788, 9, 0x00400102, 0x40010, 77⟩ := by decide

/-! ### Ill-formed terms: one for each check of WellFormed, and one for each check of a lane row and a packet -/

/-- Fields of a lane word that VADD accepts. -/
def addF : LaneFields :=
  { dst := 7, sa := 5, sb := 6, sc := 0, feb := 0, pneg := false, pred := 0, ty := .i32, rnd := .rne, sat := .none, ext := 0 }

/-- A copy packet that COPY accepts: a run of 256 bytes. -/
def copyP : CopyPacket :=
  { tokenEn := true, token := 3, mcast := false, ro := false, tileEn := false, tile := 0, length := 256, src := 0x10000, dst := 0x20000,
    spitch := 0, dpitch := 0, scale := 0, stype := 0, dtype := 0, gsize := 0, skind := false, rows := 0, cols := 0, signal := 0 }

theorem test_wf_lane_ok : (Instr.vadd addF).wf = true := by decide
/-- TYPE (Table 7.3). -/
theorem test_wf_lane_type : (Instr.vadd { addF with ty := .f32 }).wf = false := by decide
/-- RND and SAT (R127, R131). -/
theorem test_wf_lane_rounding : (Instr.vadd { addF with rnd := .rtz }).wf = false ∧ (Instr.vadd { addF with sat := .satn }).wf = false := by decide
/-- The extension (R127, R136, R147). -/
theorem test_wf_lane_extension :
    (Instr.vadd { addF with ext := 1 }).wf = false ∧ (Instr.vpand { addF with ty := .b32, dst := 1, sa := 1, sb := 1, ext := 2 }).wf = false := by decide
/-- A field that the entry does not use (R61). -/
theorem test_wf_lane_unused : (Instr.vadd { addF with sc := 3 }).wf = false ∧ (Instr.vst { addF with sa := 385, dst := 3 }).wf = false := by decide
/-- FEB without a v register (R63). -/
theorem test_wf_lane_feb : (Instr.vadd { addF with sa := 450, feb := 1 }).wf = false := by decide
/-- Register codes (R62, R48). -/
theorem test_wf_lane_registers :
    (Instr.vadd { addF with dst := 320 }).wf = false ∧ (Instr.vadd { addF with sb := 500 }).wf = false ∧
    (Instr.vadd { addF with ty := .i64, dst := 7 }).wf = false ∧ (Instr.vcmpEq { addF with dst := 0 }).wf = false ∧
    (Instr.vld { addF with ty := .f32, sa := 5, sb := 448 }).wf = false := by decide

theorem test_wf_copy_ok : (Instr.copy copyP).wf = true := by decide
/-- Packet checks (R183, R184; Tables 11.2, 11.3). -/
theorem test_wf_copy_checks :
    (Instr.copy { copyP with length := 0 }).wf = false ∧ (Instr.copy { copyP with mcast := true }).wf = false ∧
    (Instr.fill { copyP with ro := true }).wf = false ∧ (Instr.copy { copyP with tile := 4 }).wf = false ∧
    (Instr.copy { copyP with signal := 4 }).wf = false ∧ (Instr.copy { copyP with dpitch := 512 }).wf = false ∧
    (Instr.copy { copyP with gsize := 1 }).wf = false ∧ (Instr.mcast { copyP with mcast := true, tile := 3 }).wf = false ∧
    (Instr.drain { copyP with length := 0, src := 0 }).wf = false ∧ (Instr.signal copyP).wf = false ∧
    (Instr.regfill { copyP with length := 100 }).wf = false ∧ (Instr.expand { copyP with length := 0 }).wf = false ∧
    (Instr.bload { copyP with length := 0 }).wf = false := by decide

/-- FSTAT's index (R252) and SGET's unused source (R91). -/
theorem test_wf_shepherd : (Instr.fstat 1 6).wf = false ∧ (Instr.fstat 1 5).wf = true ∧ (Instr.sget 1 2 3).wf = false ∧ (Instr.sget 1 2 19).wf = true := by decide

/-- Accumulators, ms indices, the formats' tiles and MLOOP's fields (R199, R206 to R209). -/
theorem test_wf_matrix :
    (Instr.mbeg 6).wf = false ∧ (Instr.mend 7).wf = false ∧ (Instr.mzero 6).wf = false ∧ (Instr.mstep 6 0 0 0 0).wf = false ∧
    (Instr.mout .bf16 false false 6 0 0 0 0 0).wf = false ∧ (Instr.mout .e4m3 false false 0 3 0 0 0 0).wf = false ∧
    (Instr.mout .bf16 false true 0 3 8 0 0 0).wf = false ∧ (Instr.mout .bf16 false false 0 3 1 0 0 0).wf = false ∧
    (Instr.mamax 0 8 0 0).wf = false ∧ (Instr.mloop false 0 0 4).wf = false ∧ (Instr.mloop true 8 2 0).wf = false ∧
    (Instr.mloop true 1 2 1).wf = false ∧ (Instr.mloop false 1 2 1).wf = false ∧ (Instr.mset 8 0).wf = false ∧
    (Instr.msetBf 8 0).wf = false ∧ (Instr.msetLd 8 0).wf = false := by decide

/-- A launch packet's opcode (R158). -/
theorem test_wf_launch : (Instr.launch 0 ⟨0x21, 0, 1, 0, 1, 0, 0, 0, 0, 0, 0, 0, 0⟩).wf = false := by decide

/-- What the decoder refuses: reserved fields, an unassigned MAJ and MOP, a register above VREGS (R58, R62, R199). -/
theorem test_decode_refuses :
    refuses (decodeShep 0xFFFFFFFF 0) .illegal = true ∧ refuses (decodeShep 0x0000001D 0) .illegal = true ∧
    refuses (decodeShep 0x0A292047 0) .illegal = true ∧ refuses (decodeShep 0x4D800004 0) .reserved = true ∧
    refuses (decodeMat 0x10) .illegal = true ∧ refuses (decodeLane 8 0x0080000009038001) .reserved = true := by decide

/-! ### A small state: one context, one team on core 0, one group -/

/-- A context without page tables, halt or queues. -/
def ctxT : Context :=
  { num := 0, ptRoot := 0, mode := 0, device := 0, ceiling := 1, watchdog := 0, memBytes := 0x100000, eqBase := 0, eqLog := 0,
    nTeamAreas := 1, nGroupAreas := 2, imageBase := 0x10000, rootMap := 0, poolCap := 0, poolFree := 0, eqwr := 0, eqrd := 0, eqlost := 0,
    heldEffects := [], halt := .none, skid := [], faults := [], removing := false, removedPosted := false, exited := 0, stops := 0, stopsLost := 0, rootTokens := [] }

/-- Base of a team's own scratchpad window (Table 3.2). -/
def own : Word := 0xFFFFFF0000000000

/-- A group at SPC 0x1000 whose registers hold their own numbers. -/
def groupT : Group :=
  let g := Group.fresh 0 0 0x1000 0x2000 []
  { g with core := { g.core with armA := { g.core.armA with regs := Vector.ofFn (fun (i : Fin 64) => BitVec.ofNat 64 i.val) } } }

/-- A team with its groups, on core 0. -/
def teamT (gs : List Group) : Team :=
  { id := 1, ctx := 0, grid := 1, set := 1, teamIdx := 3, flockIdx := 0, flockPos := none, childIdx := 0, childN := 1, gridN := 1, run := 0,
    view := none, depth := 0, viewId := 0, prio := 0, entry := 0x1000, laneBase := 0x2000, matEntry := 0x3000, kargs := 0x55, vregs := 320,
    spch := 4, ntiles := 2, nacc := 2, groups := gs, spad := [], ops := [], opsUsed := false, tiles := List.replicate 2 Tile.none_,
    bars := List.replicate 16 Barrier.fresh, seq := Seq.fresh 0x3000, place := .running 0 0, placedAt := 0, saveArea := 0, stored := false, round := none }

/-- A package with that team, and who moves. -/
def stateT (sel : Sel) (t : Team) : State := { State.reset with sel, contexts := [ctxT], teams := [t] }

/-- The state in which arm A of a group executes. -/
def armT (g : Group) : State := stateT (.arm 1 0 false) (teamT [g])

/-- The same, with arm A changed. -/
def armW (f : Arm → Arm) : State := armT { groupT with core := groupT.core.updArm false f }

/-- The leaf of the page at 0x40000: 64 KiB, readable and writable, CAUSAL. Its piece at 0x41000 has its home on die 1. -/
def causalPte : BitVec 64 := 0x40401

/-- The state in which arm A executes, with a CAUSAL page at 0x40000. -/
def causalT (f : Arm → Arm) : State :=
  { armW f with tlb1 := [{ unit := 0, ctx := 0, va := 0x40000, pte := causalPte }] }

/-- What holds of the group after a step. -/
def groupAfter (o : Host.Outcome State Fault Refusal) (p : Group → Bool) : Bool :=
  match o with | .next u => (match u.group? 1 0 with | some g => p g | none => false) | _ => false

/-- What holds of the package after a step. -/
def after (o : Host.Outcome State Fault Refusal) (p : State → Bool) : Bool := match o with | .next u => p u | _ => false

/-- Where an injected store of die 0 to die 1 writes, and what. -/
def sentRuns (u : State) : List (Nat × List Byte) :=
  (u.chan 0 1).ord.flatMap (fun x => match x.payload with | .store _ _ runs _ => runs | _ => [])

/-- The state after the oldest access has been performed at its item `k`. -/
def performed (u : State) (k : Nat) : State := match u.pending with | p :: _ => u.bindLane p.id k | [] => u

/-- A register after an instruction of arm A that writes its sources `x` and `y` into s1 and s2 first. -/
def alu (i : Instr) (x y : Word) (r : SReg) (v : Word) : Bool :=
  groupAfter (exec i (armW (fun m => (m.put 1 x).put 2 y))) (fun g => g.core.armA.get r == v && g.core.armA.spc == 0x1004)

/-! ### Results of single steps, by hand from the manual's tables -/

/-- Two's complement wraps, and s0 discards a write (R47, R70). -/
theorem test_add : alu (.add 3 1 2) 0xFFFFFFFFFFFFFFFF 2 3 1 = true ∧ alu (.add 0 1 2) 1 2 0 0 = true := by decide
theorem test_sub : alu (.sub 1 1 2) 0 1 1 0xFFFFFFFFFFFFFFFF = true := by decide
theorem test_logic : alu (.and 3 1 2) 0xF0F0 0xFF00 3 0xF000 = true ∧ alu (.or 3 1 2) 0xF0F0 0xFF00 3 0xFFF0 = true ∧
    alu (.xor 3 1 2) 0xF0F0 0xFF00 3 0x0FF0 = true := by decide
/-- Shift counts are b[5:0]. -/
theorem test_shifts : alu (.shl 3 1 2) 1 65 3 2 = true ∧ alu (.shr 3 1 2) 0x8000000000000000 63 3 1 = true ∧
    alu (.sra 3 1 2) 0x8000000000000000 63 3 0xFFFFFFFFFFFFFFFF = true ∧ alu (.rotl 3 1 2) 0x8000000000000001 4 3 0x18 = true ∧
    alu (.rotl 3 1 2) 0x8000000000000001 64 3 0x8000000000000001 = true := by decide
theorem test_products : alu (.mul 3 1 2) 0xFFFFFFFFFFFFFFFF 3 3 0xFFFFFFFFFFFFFFFD = true ∧ alu (.mulh 3 1 2) 0xFFFFFFFFFFFFFFFF 3 3 0xFFFFFFFFFFFFFFFF = true ∧
    alu (.mulhn 3 1 2) 0xFFFFFFFFFFFFFFFF 3 3 2 = true := by decide
/-- Division by 0, and the most negative number by −1 (Table 5.1). -/
theorem test_division : alu (.div 3 1 2) 7 0 3 0xFFFFFFFFFFFFFFFF = true ∧ alu (.div 3 1 2) 0x8000000000000000 0xFFFFFFFFFFFFFFFF 3 0x8000000000000000 = true ∧
    alu (.div 3 1 2) (-7) 2 3 (-3) = true ∧ alu (.divn 3 1 2) (-8) 2 3 0x7FFFFFFFFFFFFFFC = true ∧ alu (.divn 3 1 2) 9 0 3 0xFFFFFFFFFFFFFFFF = true := by decide
theorem test_remainder : alu (.rem 3 1 2) (-7) 2 3 (-1) = true ∧ alu (.rem 3 1 2) 7 0 3 7 = true ∧ alu (.remn 3 1 2) (-1) 16 3 15 = true := by decide
theorem test_extremes : alu (.min 3 1 2) (-1) 1 3 (-1) = true ∧ alu (.minn 3 1 2) (-1) 1 3 1 = true ∧ alu (.max 3 1 2) (-1) 1 3 1 = true ∧
    alu (.maxn 3 1 2) (-1) 1 3 (-1) = true := by decide
theorem test_comparisons : alu (.seq 3 1 2) 5 5 3 1 = true ∧ alu (.sne 3 1 2) 5 5 3 0 = true ∧ alu (.slt 3 1 2) (-1) 0 3 1 = true ∧
    alu (.sltn 3 1 2) (-1) 0 3 0 = true := by decide
theorem test_counts : alu (.clz 3 1) 0 0 3 64 = true ∧ alu (.clz 3 1) 1 0 3 63 = true ∧ alu (.popc 3 1) (-1) 0 3 64 = true := by decide
/-- Position 60 and width 8 reach past bit 63, where bits read as zero and are not written. -/
theorem test_fields : alu (.bfx 3 1 2) 0xF000000000000000 (60 + 7 * 64) 3 0xF = true ∧ alu (.bfi 1 2 2) 0 (4 + 7 * 64) 1 0xC40 = true ∧
    alu (.sel 1 2 3) 0 7 1 3 = true ∧ alu (.sel 1 2 3) 9 7 1 7 = true := by decide
theorem test_immediates : alu (.addi 3 1 0x1FFF) 5 0 3 4 = true ∧ alu (.andi 3 1 0x1FF0) 0xABCD 0 3 0xABC0 = true ∧ alu (.ori 3 1 0x1000) 0 0 3 (-4096) = true ∧
    alu (.xori 3 1 0x1FFF) 0 0 3 (-1) = true ∧ alu (.slti 3 1 0x1FFF) (-2) 0 3 1 = true ∧ alu (.shli 3 1 63) 3 0 3 0x8000000000000000 = true ∧
    alu (.shri 3 1 63) (-1) 0 3 1 = true ∧ alu (.srai 3 1 63) (-1) 0 3 (-1) = true ∧ alu (.li 3 0x1FFE) 0 0 3 (-2) = true ∧
    alu (.lis 3 1 0x1FFF) 1 0 3 0x3FFF = true := by decide
/-- An instruction of two words advances SPC by 8 (R60, R72). -/
theorem test_literals :
    groupAfter (exec (.li32 3 0x89ABCDEF) (armT groupT)) (fun g => g.core.armA.get 3 == 0xFFFFFFFF89ABCDEF && g.core.armA.spc == 0x1008) = true ∧
    groupAfter (exec (.li32N 3 0x89ABCDEF) (armT groupT)) (fun g => g.core.armA.get 3 == 0x89ABCDEF) = true ∧
    groupAfter (exec (.li32Hi 3 0x01234567) (armT groupT)) (fun g => g.core.armA.get 3 == 0x0123456700000003) = true := by decide

/-- Where an arm stands after an instruction. -/
def goes (i : Instr) (f : Arm → Arm) (pc : Word) : Bool := groupAfter (exec i (armW f)) (fun g => g.core.armA.spc == pc)

/-- Branches count words from themselves (R75 to R77). -/
theorem test_branches : goes (.beq 1 1 0x1FFF) id 0xFFC = true ∧ goes (.beq 1 2 4) id 0x1004 = true ∧ goes (.bne 1 2 0) id 0x1000 = true ∧
    goes (.blt 1 2 4) (fun m => m.put 1 (-1)) 0x1010 = true ∧ goes (.bltn 1 2 4) (fun m => m.put 1 (-1)) 0x1004 = true ∧ goes (.bge 2 1 4) id 0x1010 = true ∧
    goes (.bgen 1 2 4) (fun m => m.put 1 (-1)) 0x1010 = true ∧ goes (.bpany 0 4) id 0x1010 = true ∧ goes (.bpany 1 4) id 0x1004 = true ∧
    goes (.bpall 1 4) (fun m => { m with mask := 0 }) 0x1010 = true := by decide
theorem test_jumps : goes (.br 0x1FFFFFF) id 0xFFC = true ∧ goes (.jr 0 8) id 8 = true ∧ goes (.call 2) id 0x1008 = true ∧
    groupAfter (exec (.call 2) (armT groupT)) (fun g => g.core.armA.get 63 == 0x1004) = true ∧
    groupAfter (exec (.jr 8 8) (armT groupT)) (fun g => g.core.armA.get 8 == 0x1004 && g.core.armA.spc == 8) = true := by decide
/-- A misaligned JR halts the context and changes nothing else (R77, R172). -/
theorem test_jr_misaligned : after (exec (.jr 8 7) (armT groupT)) (fun u => groupAfter (.next u) (fun g => g.core.armA.spc == 0x1000 && g.core.armA.get 8 == 8) &&
    (match u.ctx? 0 with | some c => (match c.halt with | .raised o => o.code == 0x03 && o.addr == 7 | _ => false) | none => false)) = true := by decide
/-- LOOPI pushes a level; a body that has run once more goes back; LBRK leaves it (R78 to R80). -/
theorem test_loops :
    groupAfter (exec (.loopi 3 3) (armT groupT)) (fun g => g.core.armA.loops == [⟨3, 2, 0x1008⟩]) = true ∧ goes (.loopi 0 3) id 0x100C = true ∧
    groupAfter (exec (.add 3 1 2) (armW (fun m => { m with loops := [⟨3, 2, 0x1000⟩] }))) (fun g => g.core.armA.loops == [⟨2, 2, 0x1000⟩] && g.core.armA.spc == 0xFFC) = true ∧
    groupAfter (exec (.add 3 1 2) (armW (fun m => { m with loops := [⟨1, 2, 0x1000⟩] }))) (fun g => g.core.armA.loops == [] && g.core.armA.spc == 0x1004) = true ∧
    goes .lbrk (fun m => { m with loops := [⟨3, 2, 0x1008⟩] }) 0x100C = true := by decide
theorem test_loop : groupAfter (exec (.loop 5 4) (armT groupT)) (fun g => g.core.armA.loops == [⟨5, 3, 0x100C⟩]) = true := by decide

/-- A predicate that names lanes 0 to 15. -/
def halfPred (g : Group) : Group := { g with core := { g.core with preds := g.core.preds.set 1 0xFFFF } }

/-- SPLIT divides the lanes and JOIN, in the arm that ends last, unites them (R83, R84). -/
theorem test_split : groupAfter (exec (.split 1 4) (armT (halfPred groupT))) (fun g => g.core.split && g.core.armA.mask == 0xFFFF && g.core.armA.spc == 0x1004 &&
    g.core.armB.mask == 0xFFFF0000 && g.core.armB.spc == 0x1010 && g.core.armB.regs == g.core.armA.regs) = true := by decide
theorem test_join : groupAfter (exec .join (armT { groupT with core := { groupT.core with split := true, armB := { Arm.zero with mask := 0xFFFF0000, wait := .join }, armA := { groupT.core.armA with mask := 0xFFFF } } }))
    (fun g => !g.core.split && g.core.armA.mask == 0xFFFFFFFF && g.core.armA.spc == 0x1004 && g.core.armA.get 9 == 9) = true := by decide
theorem test_exits : groupAfter (exec (.lexit 1) (armT (halfPred groupT))) (fun g => g.core.live == 0xFFFF0000 && g.core.armA.mask == 0xFFFF0000 && !g.exiting) = true ∧
    groupAfter (exec .tend (armT groupT)) (fun g => g.core.live == 0 && g.exiting && !g.retired) = true := by decide
theorem test_group_retire : groupAfter (exec (.groupRetire 1 0) (armT { groupT with exiting := true, core := { groupT.core with live := 0 } })) (fun g => g.retired) = true := by decide
theorem test_lrep_lj : groupAfter (exec (.lrep 2 0x54) (armT groupT)) (fun g => g.core.armA.rep == some ⟨2, 0x54⟩) = true ∧
    groupAfter (exec (.lj 2) (armT groupT)) (fun g => g.core.armA.lpc == 0x2018) = true := by decide
theorem test_state_registers : alu (.sget 3 0 0) 0 0 3 0xFFFFFFFF = true ∧ alu (.sget 3 0 3) 0 0 3 3 = true ∧ alu (.sget 3 0 14) 0 0 3 0x2000 = true ∧ alu (.sget 3 0 16) 0 0 3 0x55 = true ∧
    groupAfter (exec (.sset 7 12) (armT groupT)) (fun g => g.core.armA.sig == 7) = true := by decide
theorem test_yield : groupAfter (exec .yield (armT groupT)) (fun g => g.core.armA.yielded == some 64 && g.core.armA.spc == 0x1004) = true ∧
    groupAfter (exec (.yieldExpiry 1 0 false) (armW (fun m => { m with yielded := some 0 }))) (fun g => g.core.armA.yielded == none) = true := by decide
theorem test_sigchk : groupAfter (exec (.sigchk 0x1234) (armW (fun m => { m with sig := 0x1234 }))) (fun g => g.core.armA.sig == 0 && g.core.armA.spc == 0x1008) = true ∧
    groupAfter (exec (.sigchk 0x1234) (armT groupT)) (fun g => g.retired && g.killed && g.core.armA.code == 0x0D) = true := by decide
theorem test_trap : after (exec (.trap 7 0x123) (armT groupT)) (fun u => (match u.ctx? 0 with | some c => (match c.halt with | .raised o => o.code == 0x1A && o.tcode == 0x123 && o.data == 7 | _ => false) | none => false)) = true := by decide
theorem test_twait : goes (.twait 4) id 0x1004 = true ∧ groupAfter (exec (.twait 4) (armT { groupT with tokens := 4 })) (fun g => g.core.armA.spc == 0x1000) = true := by decide

/-- A scalar store is little-endian; a load leaves its register empty, and its response fills it (R3, R25, R73). -/
theorem test_store : after (exec (.stw 9 1 4) (causalT (fun m => (m.put 1 0x41000).put 9 0x1122334455667788))) (fun u => sentRuns u == [(0x41004, [0x88, 0x77, 0x66, 0x55])]) = true := by decide
theorem test_stores : after (exec (.stb 9 1 0x1FFF) (causalT (fun m => (m.put 1 0x41001).put 9 0x1234))) (fun u => sentRuns u == [(0x41000, [0x34])]) = true ∧
    after (exec (.sth 9 1 2) (causalT (fun m => (m.put 1 0x41000).put 9 0x1234))) (fun u => sentRuns u == [(0x41002, [0x34, 0x12])]) = true ∧
    after (exec (.std 9 1 8) (causalT (fun m => (m.put 1 0x41000).put 9 1))) (fun u => sentRuns u == [(0x41008, [1, 0, 0, 0, 0, 0, 0, 0])]) = true := by decide
/-- A store that the device has kept is performed later (log 50). -/
theorem test_store_performs :
    (({ armT groupT with heldWrites := [{ id := 1, po := 0, owner := some (1, 0, false), both := false, t := ⟨0x40004, .dev 0x40004, 0x40001, 4⟩, runs := [(0x40004, [0x88, 0x77])],
                                          ctx := some 0, view := none, rel := none, wide := false, sys := false, mask := 0, core := some 0 }] } : State).performStore 1).mem = [(0x40004, 0x88), (0x40005, 0x77)] := by decide
theorem test_load_issue : groupAfter (exec (.ldw 3 1 4) (armW (fun m => m.put 1 own))) (fun g => !g.core.armA.isFull 3 && g.core.armA.spc == 0x1004) = true := by decide
theorem test_loads : after (exec (.ldb 3 1 0) (armW (fun m => m.put 1 own))) (fun u => u.pending.length == 1) = true ∧ after (exec (.ldh 3 1 0) (armW (fun m => m.put 1 own))) (fun u => u.pending.length == 1) = true ∧
    after (exec (.ldd 3 1 0) (armW (fun m => m.put 1 own))) (fun u => u.pending.length == 1) = true ∧ after (exec (.acq 3 1 .team .d) (armW (fun m => m.put 1 own))) (fun u => (u.pending.map (fun p => p.acq)) == [true]) = true := by decide
theorem test_memory_response :
    let s : State := { stateT .none { teamT [{ groupT with core := groupT.core.updArm false (fun m => m.empty 3) }] with spad := [(4, 0x88), (5, 0x77)] } with
      pending := [⟨1, 1, 1, 0, false, .s 3, 0, [⟨0, ⟨0xFFFFFF0000000004, .spad 1 4, 0, 2⟩, none, false, none⟩], false, false, 6, false, none, 0⟩] }
    groupAfter (exec (.memoryResponse 1) s) (fun g => g.core.armA.isFull 3 && g.core.armA.get 3 == 0x7788) = true := by decide
/-- AMOS.ADD of 32 bits wraps and gives the old value zero-extended (R74, Table 5.3). -/
theorem test_amos : after (exec (.amosAdd 3 1 2 false) (stateT (.arm 1 0 false) { teamT [{ groupT with core := groupT.core.updArm false (fun m => (m.put 1 own).put 2 2) }] with spad := [(0, 0xFF), (1, 0xFF), (2, 0xFF), (3, 0xFF)] }))
    (fun v => let u := performed v 0; (match u.team? 1 with | some t => t.spad == [(0, 1)] | none => false) && u.pending.map (fun p => p.items.map (fun x => x.val)) == [[some 0xFFFFFFFF]]) = true := by decide
/-- A misaligned access faults with its address (Table 5.2). -/
theorem test_load_misaligned : after (exec (.ldw 3 1 2) (armW (fun m => m.put 1 own)))
    (fun u => match u.ctx? 0 with | some c => (match c.halt with | .raised o => o.code == 0x03 && o.addr == own + 2 | _ => false) | none => false) = true := by decide
theorem test_fence_rel : goes (.fence .team) id 0x1004 = true ∧ goes (.fence .sys) id 0x1004 = true ∧
    after (exec (.rel 9 1 .dev .d) (causalT (fun m => m.put 1 0x41000))) (fun u => sentRuns u == [(0x41000, [9, 0, 0, 0, 0, 0, 0, 0])]) = true := by decide

/-- BAR.SYNC arrives and waits; the phase completes with sd = 0 (R87). -/
theorem test_bar_sync : after (exec (.barSync 3 1 2) (armW (fun m => m.put 1 0x100000000))) (fun u => match u.team? 1 with
    | some t => (t.bar 2).arrived == 1 && (t.bar 2).pword == some 0x100000000 && (match t.group? 0 with | some g => g.core.armA.wait == .bar 2 3 && !g.core.armA.isFull 3 | none => false)
    | none => false) = true := by decide
theorem test_bar_arrive : alu (.barArrive 3 1 2) 0x100000000 0 3 0 = true := by decide
theorem test_phase : groupAfter (exec (.barrierPhaseComplete 1 2) (stateT .none { teamT [{ groupT with core := groupT.core.updArm false (fun m => { m.empty 3 with wait := .bar 2 3 }) }] with
      bars := (List.replicate 16 Barrier.fresh).set 2 { Barrier.fresh with pword := some 0x100000000, arrived := 1 } }))
    (fun g => g.core.armA.wait == .none && g.core.armA.isFull 3 && g.core.armA.get 3 == 0 && g.core.armA.spc == 0x1004) = true := by decide

/-- HANDLE takes the handler's address from its literal and s48 to s55 as the environment (R100); PERFORM enters it (R103). -/
theorem test_handle : groupAfter (exec (.handle 9 false false 6) (armW (fun m => m.put 9 0x123))) (fun g => g.frames.map (fun f => (f.id, f.pc, f.env.toList)) ==
    [(0x123, 0x1018, [48, 49, 50, 51, 52, 53, 54, 55])] && g.core.armA.spc == 0x1008) = true := by decide
/-- A group with one frame for effect 0x123, its handler at 0x4000. -/
def handled : Group := { groupT with frames := [newFrame Frame.zero 0x123 false false none 0x4000 0 (Vector.replicate 8 77)], core := groupT.core.updArm false (fun m => m.put 9 0x123) }
theorem test_perform : groupAfter (exec (.perform 10 9 11) (armT handled)) (fun g => g.core.armA.spc == 0x4000 && g.core.armA.get 48 == 77 && g.core.armA.get 57 == 11 && g.core.armA.get 58 == 0x123 &&
    g.core.armA.get 59 == 0xFFFFFFFF && !g.core.armA.isFull 10 && g.gen == 1) = true := by decide
theorem test_unhandle : groupAfter (exec (.unhandle 0) (armT handled)) (fun g => g.frames.length == 0 && g.core.armA.spc == 0x1004) = true := by decide
/-- The group after that PERFORM. -/
def inHandler : Group := match exec (.perform 10 9 11) (armT handled) with | .next u => (u.group? 1 0).getD groupT | _ => groupT
theorem test_resume : groupAfter (exec (.resume 56 12) (armT inHandler)) (fun g => g.core.armA.spc == 0x1004 && g.core.armA.get 10 == 12 && g.core.armA.isFull 10 && g.core.armA.get 48 == 48) = true := by decide
theorem test_drop : groupAfter (exec (.drop 56) (armT inHandler)) (fun g => g.core.armA.spc == 0x4004 && g.frames.length == 0 && g.core.armA.isFull 10) = true := by decide
theorem test_fstat : groupAfter (exec (.fstat 5 0) (armT { groupT with joinStatus := 0x908, joinCount := 4 })) (fun g => g.core.armA.get 5 == 0x908) = true ∧
    groupAfter (exec (.fstat 5 1) (armT { groupT with joinCount := 4 })) (fun g => g.core.armA.get 5 == 4) = true ∧
    groupAfter (exec (.fstat 5 2) (armT groupT)) (fun g => g.core.armA.get 5 == 0xFFFFFFFFFFFFFFFF) = true ∧ alu (.fstat 5 5) 0 0 5 0 = true := by decide

/-! ### Lane instructions -/

/-- An entry of arm A for an instruction, with all lanes active. -/
def entryT (i : Instr) : QEntry :=
  { instr := i, word := 0, active := 0xFFFFFFFF, scope := 0xFFFFFFFF, bcA := 0, bcB := 0, bcC := 0, armB := false, po := 0, both := false, marks := false, sdDrop := false, saved := none }

/-- A vector register whose lanes all hold one value, but lane 1 the other. -/
def lanesT (x y : Half) : Vector Half 32 := Vector.ofFn (fun (i : Fin 32) => if i.val = 1 then y else x)

/-- A group whose queue holds one instruction, with v0 and v2 as given, v1 and v3 zero. -/
def laneG (i : Instr) (a b : Vector Half 32) : Group :=
  { groupT with queue := [entryT i], core := { groupT.core with vregs := (groupT.core.vregs.set 0 a).set 2 b } }

/-- The state in which the lane engine executes that group's entry. -/
def laneS (g : Group) : State := stateT (.lane 1 0 false) (teamT [g])

/-- Fields of an instruction from v0 and v2 to v4. -/
def fT (ty : LType) : LaneFields :=
  { dst := 4, sa := 0, sb := 2, sc := 0, feb := 0, pneg := false, pred := 0, ty, rnd := .rne, sat := .none, ext := 0 }

/-- Lanes 0 and 1 of v4 after an instruction on v0 and v2, whose queue is then empty. -/
def lane2 (i : Instr) (a b : Vector Half 32) (x y : Half) : Bool :=
  groupAfter (exec i (laneS (laneG i a b))) (fun g => g.core.vget 4 0 == x && g.core.vget 4 1 == y && g.queue.length == 0)

/-- R124, R127, R128: wrapping, clamping, and division by zero and by −1. -/
theorem test_vadd : lane2 (.vadd (fT .i32)) (lanesT 0x7FFFFFFF 5) (lanesT 1 0xFFFFFFFB) 0x80000000 0 = true ∧
    lane2 (.vadd { fT .i32 with sat := .sat }) (lanesT 0x7FFFFFFF 0x80000000) (lanesT 1 0xFFFFFFFF) 0x7FFFFFFF 0x80000000 = true := by decide
theorem test_vsub_vmul : lane2 (.vsub (fT .n8)) (lanesT 1 9) (lanesT 2 4) 0xFF 5 = true ∧ lane2 (.vmul (fT .i16)) (lanesT 0x100 3) (lanesT 0x100 5) 0 15 = true ∧
    lane2 (.vmulh (fT .i32)) (lanesT 0xFFFFFFFF 0x10000) (lanesT 2 0x10000) 0xFFFFFFFF 1 = true := by decide
theorem test_vdiv : lane2 (.vdiv (fT .i32)) (lanesT 7 0x80000000) (lanesT 0 0xFFFFFFFF) 0xFFFFFFFF 0x80000000 = true ∧
    lane2 (.vrem (fT .i32)) (lanesT 7 0xFFFFFFF9) (lanesT 0 2) 7 0xFFFFFFFF = true := by decide
theorem test_vminmax : lane2 (.vmin (fT .i32)) (lanesT 0xFFFFFFFF 2) (lanesT 1 3) 0xFFFFFFFF 2 = true ∧ lane2 (.vmax (fT .n32)) (lanesT 0xFFFFFFFF 2) (lanesT 1 3) 0xFFFFFFFF 3 = true ∧
    lane2 (.vabs (fT .i32)) (lanesT 0xFFFFFFFE 3) (lanesT 0 0) 2 3 = true ∧ lane2 (.vneg (fT .i32)) (lanesT 1 0) (lanesT 0 0) 0xFFFFFFFF 0 = true ∧
    lane2 (.vmad { fT .i32 with sc := 2 }) (lanesT 3 4) (lanesT 5 6) 20 30 = true := by decide
theorem test_vbits : lane2 (.vand (fT .b32)) (lanesT 0xF0 1) (lanesT 0x30 3) 0x30 1 = true ∧ lane2 (.vor (fT .b32)) (lanesT 0xF0 1) (lanesT 0x0F 2) 0xFF 3 = true ∧
    lane2 (.vxor (fT .b32)) (lanesT 0xF0 1) (lanesT 0x30 3) 0xC0 2 = true ∧ lane2 (.vnot (fT .b32)) (lanesT 0 1) (lanesT 0 0) 0xFFFFFFFF 0xFFFFFFFE = true := by decide
theorem test_vshifts : lane2 (.vshl (fT .n32)) (lanesT 1 3) (lanesT 33 31) 2 0x80000000 = true ∧ lane2 (.vshr (fT .i32)) (lanesT 0x80000000 8) (lanesT 31 1) 0xFFFFFFFF 4 = true ∧
    lane2 (.vrotl (fT .b32)) (lanesT 0x80000001 1) (lanesT 4 32) 0x18 1 = true := by decide
theorem test_vcounts : lane2 (.vclz (fT .b32)) (lanesT 0 1) (lanesT 0 0) 32 31 = true ∧ lane2 (.vpopc (fT .b32)) (lanesT 0xFFFFFFFF 6) (lanesT 0 0) 32 2 = true ∧
    lane2 (.vbfx (fT .b32)) (lanesT 0xABCD1234 0xFF) (lanesT (8 + 7 * 32) 4) 0x12 1 = true ∧ lane2 (.vbfi (fT .b32)) (lanesT 0xAB 1) (lanesT (8 + 7 * 32) 31) 0xAB00 0x80000000 = true := by decide
theorem test_vmov_vsel : lane2 (.vmov (fT .b32)) (lanesT 7 8) (lanesT 0 0) 7 8 = true ∧ lane2 (.vmov { fT .b32 with sa := 449 }) (lanesT 7 8) (lanesT 0 0) 0 1 = true ∧
    lane2 (.vsel { fT .b32 with sc := 0 }) (lanesT 7 8) (lanesT 1 2) 7 8 = true := by decide
/-- f32 values: 1.0, 2^24 and their sum under RNE; NaN; division by zero (R123, R125, R129, R130). -/
theorem test_vfadd : lane2 (.vfadd (fT .f32)) (lanesT 0x3F800000 0x7F800000) (lanesT 0x4B800000 0xFF800000) 0x4B800000 0x7FC00000 = true ∧
    lane2 (.vfadd { fT .f32 with rnd := .rup }) (lanesT 0x3F800000 0x3F800000) (lanesT 0x4B800000 0xBF800000) 0x4B800001 0 = true := by decide
theorem test_vfmul : lane2 (.vfmul (fT .f32)) (lanesT 0x3FC00000 0x80000000) (lanesT 0x40000000 0x40000000) 0x40400000 0x80000000 = true ∧
    lane2 (.vfsub (fT .f32)) (lanesT 0x40400000 0x3F800000) (lanesT 0x3F800000 0x3F800000) 0x40000000 0 = true := by decide
theorem test_vfma : lane2 (.vfma { fT .f32 with sc := 2 }) (lanesT 0x40000000 0) (lanesT 0x40400000 0x3F800000) 0x41100000 0x3F800000 = true ∧
    lane2 (.vfms { fT .f32 with sc := 2 }) (lanesT 0x40000000 0x3F800000) (lanesT 0x40400000 0x3F800000) 0x40400000 0 = true := by decide
theorem test_vfdiv : lane2 (.vfdiv (fT .f32)) (lanesT 0x3F800000 0x3F800000) (lanesT 0 0x40400000) 0x7F800000 0x3EAAAAAB = true ∧
    lane2 (.vfrcp (fT .f32)) (lanesT 0x40000000 0x80000000) (lanesT 0 0) 0x3F000000 0xFF800000 = true := by decide
theorem test_vfsqrt : lane2 (.vfsqrt (fT .f32)) (lanesT 0x40000000 0xBF800000) (lanesT 0 0) 0x3FB504F3 0x7FC00000 = true ∧
    lane2 (.vfrsq (fT .f32)) (lanesT 0x40800000 0) (lanesT 0 0) 0x3F000000 0x7F800000 = true := by decide
theorem test_vfminmax : lane2 (.vfmin (fT .f32)) (lanesT 0x80000000 0x7FC00000) (lanesT 0 0x3F800000) 0x80000000 0x3F800000 = true ∧
    lane2 (.vfmax (fT .f32)) (lanesT 0x80000000 0x7FC00000) (lanesT 0 0x3F800000) 0 0x3F800000 = true := by decide
theorem test_vfsign : lane2 (.vfabs (fT .f32)) (lanesT 0xBF800000 0) (lanesT 0 0) 0x3F800000 0 = true ∧ lane2 (.vfneg (fT .f32)) (lanesT 0x3F800000 0) (lanesT 0 0) 0xBF800000 0x80000000 = true ∧
    lane2 (.vfrnd (fT .f32)) (lanesT 0x40200000 0xBF000000) (lanesT 0 0) 0x40000000 0x80000000 = true := by decide
theorem test_vfexp_log : lane2 (.vfexp2 (fT .f32)) (lanesT 0x40400000 0xFF800000) (lanesT 0 0) 0x41000000 0 = true ∧ lane2 (.vflog2 (fT .f32)) (lanesT 0x41000000 0) (lanesT 0 0) 0x40400000 0xFF800000 = true := by decide

/-- Lanes 0 and 1 of p1 after an instruction. -/
def pred2 (i : Instr) (a b : Vector Half 32) (x y : Bool) : Bool :=
  groupAfter (exec i (laneS (laneG i a b))) (fun g => (g.core.pget 1).getLsbD 0 == x && (g.core.pget 1).getLsbD 1 == y)
/-- NaN is unordered (R131). -/
theorem test_vcmp : pred2 (.vcmpEq { fT .f32 with dst := 1 }) (lanesT 0 0x7FC00000) (lanesT 0x80000000 0x7FC00000) true false = true ∧
    pred2 (.vcmpNe { fT .f32 with dst := 1 }) (lanesT 0 0x7FC00000) (lanesT 0x80000000 0x7FC00000) false true = true ∧
    pred2 (.vcmpLt { fT .i32 with dst := 1 }) (lanesT 0xFFFFFFFF 1) (lanesT 0 1) true false = true ∧ pred2 (.vcmpLe { fT .i32 with dst := 1 }) (lanesT 0xFFFFFFFF 1) (lanesT 0 1) true true = true ∧
    pred2 (.vcmpGt { fT .n32 with dst := 1 }) (lanesT 0xFFFFFFFF 1) (lanesT 0 1) true false = true ∧ pred2 (.vcmpGe { fT .n32 with dst := 1 }) (lanesT 0 1) (lanesT 5 1) false true = true ∧
    pred2 (.vcmpUn { fT .f32 with dst := 1 }) (lanesT 0 0x7FC00000) (lanesT 0 0) false true = true := by decide
theorem test_predicates : pred2 (.vpand { fT .b32 with dst := 1, sa := 0, sb := 0 }) (lanesT 0 0) (lanesT 0 0) true true = true ∧
    pred2 (.vpor { fT .b32 with dst := 1, sa := 2, sb := 0 }) (lanesT 0 0) (lanesT 0 0) true true = true ∧ pred2 (.vpxor { fT .b32 with dst := 1, sa := 0, sb := 0 }) (lanesT 0 0) (lanesT 0 0) false false = true ∧
    pred2 (.vpandn { fT .b32 with dst := 1, sa := 0, sb := 2 }) (lanesT 0 0) (lanesT 0 0) true true = true ∧ pred2 (.vptest { fT .b32 with dst := 1 }) (lanesT 0 4) (lanesT 0 0) false true = true ∧
    lane2 (.vpmov { fT .b32 with sa := 0 }) (lanesT 0 0) (lanesT 0 0) 1 1 = true := by decide
/-- Conversions (R132 to R135). -/
theorem test_vfclass : lane2 (.vfclass (fT .f32)) (lanesT 0x7F800000 0x7F800001) (lanesT 0 0) 0x80 0x100 = true ∧
    lane2 (.vfclass (fT .f32)) (lanesT 0x80000001 0x7FC00000) (lanesT 0 0) 4 0x200 = true := by decide
theorem test_vcvt : lane2 (.vcvt { fT .i32 with ext := 8 }) (lanesT 0x40200000 0x7FC00000) (lanesT 0 0) 2 0 = true ∧
    lane2 (.vcvt { fT .f32 with ext := 2 }) (lanesT 0xFFFFFFFF 3) (lanesT 0 0) 0xBF800000 0x40400000 = true := by decide
theorem test_vpack : lane2 (.vpack { fT .i4 with ext := 0x102 }) (lanesT 7 0xFFFFFFFF) (lanesT 0 0) 0x70 0xF0 = true ∧ lane2 (.vunpack { fT .i4 with ext := 0x102 }) (lanesT 0x70 0xF0) (lanesT 0 0) 7 0xFFFFFFFF = true := by decide
theorem test_vscale : lane2 (.vscale (fT .f32)) (lanesT 0x3F800000 0x3F800000) (lanesT 128 126) 0x40000000 0x3F000000 = true := by decide
/-- Exchanges, ballots, reductions and scans (R147, R148). -/
theorem test_exchange : lane2 (.qswap { fT .b32 with ext := 1, sb := 0 }) (lanesT 7 8) (lanesT 0 0) 8 7 = true ∧ lane2 (.qbcast { fT .b32 with ext := 1, sb := 0 }) (lanesT 7 8) (lanesT 0 0) 8 8 = true ∧
    lane2 (.vshfl { fT .b32 with ext := 2 }) (lanesT 7 8) (lanesT 1 1) 7 7 = true := by decide
theorem test_vballot : groupAfter (exec (.vballot { fT .b32 with sa := 0, sb := 0, dst := 0, ext := 0x100 + 3 * 0x200 }) (laneS (laneG (.vballot { fT .b32 with sa := 0, sb := 0, dst := 0, ext := 0x100 + 3 * 0x200 }) (lanesT 0 0) (lanesT 0 0)))) (fun g => g.core.armA.get 3 == 0xFFFFFFFF) = true := by decide
theorem test_vred : lane2 (.vred { fT .i32 with sb := 0 }) (lanesT 1 10) (lanesT 0 0) 41 41 = true ∧ lane2 (.vred { fT .i32 with sb := 0, ext := 1 }) (lanesT 1 0xFFFFFFFF) (lanesT 0 0) 0xFFFFFFFF 0xFFFFFFFF = true := by decide
theorem test_vscan : lane2 (.vscan { fT .i32 with sb := 0 }) (lanesT 1 10) (lanesT 0 0) 1 11 = true ∧ lane2 (.vscan { fT .i32 with sb := 0, ext := 8 }) (lanesT 1 10) (lanesT 0 0) 0 1 = true := by decide
/-- A lane whose source is empty blocks the entry, or under FEB traps alone (R25, R53). -/
theorem test_empty_source :
    groupAfter (exec (.vadd (fT .i32)) (laneS { laneG (.vadd (fT .i32)) (lanesT 1 2) (lanesT 3 4) with core := (laneG (.vadd (fT .i32)) (lanesT 1 2) (lanesT 3 4)).core.vmark 0 2 false })) (fun g => g.queue.length == 1 && g.frozen == none) = true ∧
    groupAfter (exec (.vadd { fT .i32 with feb := 1 }) (laneS { laneG (.vadd { fT .i32 with feb := 1 }) (lanesT 1 2) (lanesT 3 4) with core := (laneG (.vadd (fT .i32)) (lanesT 1 2) (lanesT 3 4)).core.vmark 0 2 false }))
      (fun g => g.queue.length == 1 && g.frozen == some ⟨0x07, 2, 0, false, false, false⟩ && g.core.vget 4 0 == 4 && g.core.vget 4 1 == 0) = true := by decide
/-- Fields of an access of lane addresses own + 4 × LANEID. -/
def mT (ty : LType) : LaneFields := { dst := 4, sa := 385, sb := 449, sc := 0, feb := 0, pneg := false, pred := 0, ty, rnd := .rne, sat := .none, ext := 2 * 0x10000 }
/-- A group whose queue holds an access with base `own`. -/
def memG (i : Instr) : Group := { laneG i (lanesT 1 2) (lanesT 3 4) with queue := [{ entryT i with active := 3, bcA := own }] }
theorem test_vst : after (exec (.vst { mT .b32 with dst := 0, sc := 2 })
    { laneS { laneG (.vst { mT .b32 with dst := 0, sc := 2 }) (lanesT 1 2) (lanesT 3 4) with queue := [{ entryT (.vst { mT .b32 with dst := 0, sc := 2 }) with active := 3, bcA := 0x41000 }] } with
      tlb1 := [{ unit := 0, ctx := 0, va := 0x40000, pte := causalPte }] }) (fun u => sentRuns u == [(0x41000, [3, 0, 0, 0, 4, 0, 0, 0])] && (u.chan 0 1).ord.length == 2) = true := by decide
theorem test_vld : groupAfter (exec (.vld (mT .f32)) (laneS (memG (.vld (mT .f32))))) (fun g => g.core.vfullOf 4 == 0xFFFFFFFC && g.queue.length == 0) = true := by decide
theorem test_vamo : after (exec (.vamoAdd { mT .i32 with sb := 448, sc := 2 }) (laneS (memG (.vamoAdd { mT .i32 with sb := 448, sc := 2 })))) (fun v => let u := performed v 0; (match u.team? 1 with | some t => t.spad == [(0, 7)] | none => false) &&
    u.pending.map (fun p => p.items.map (fun x => (x.lane, x.val))) == [[(0, some 0), (1, some 3)]]) = true := by decide
theorem test_vnop : groupAfter (exec .vnop (laneS (laneG .vnop (lanesT 0 0) (lanesT 0 0)))) (fun g => g.queue.length == 0) = true := by decide
/-- A lane fault at the head of the queue halts its context when no frame takes it (R110, R172). -/
theorem test_lane_fault : after (exec (.laneFaultDelivery 1 0) (stateT .none (teamT [{ memG .vnop with frozen := some ⟨0x03, 1, 0x40, false, false, false⟩ }])))
    (fun u => match u.ctx? 0 with | some c => (match c.halt with | .raised o => o.code == 0x03 && o.addr == 0x40 && o.mask == 1 | _ => false) | none => false) = true := by decide

/-! ### The sequencer, the copy engine and the events -/

/-- The state in which the sequencer of a team executes, with its sequencer changed. -/
def matS (f : Seq → Seq) : State := stateT (.matrix 1) { teamT [groupT] with seq := f (Seq.fresh 0x3000) }

/-- The sequencer after a word. -/
def seqAfter (o : Host.Outcome State Fault Refusal) (p : Seq → Bool) : Bool := after o (fun u => match u.team? 1 with | some t => p t.seq | none => false)

theorem test_matrix_control : seqAfter (exec .mnop (matS id)) (fun q => q.mpc == 0x3008) = true ∧ seqAfter (exec .mstop (matS id)) (fun q => q.run == 1) = true ∧
    seqAfter (exec (.mset 2 0x8000) (matS id)) (fun q => q.ms.toList == [0, 0, 0xFFFFFFFFFFFF8000, 0, 0, 0, 0, 0]) = true ∧
    seqAfter (exec (.msetBf 2 0x3F80) (matS id)) (fun q => q.ms.toList == [0, 0, 0x3F800000, 0, 0, 0, 0, 0]) = true ∧
    seqAfter (exec (.mjmp 0xFFFF) (matS id)) (fun q => q.mpc == 0x2FF8) = true := by decide
theorem test_msetLd : seqAfter (exec (.msetLd 1 1) (stateT (.matrix 1) { teamT [groupT] with spad := [(8, 0x34), (9, 0x12)] })) (fun q => q.ms.toList == [0, 0x1234, 0, 0, 0, 0, 0, 0]) = true := by decide
/-- MLOOP of 2 passes over one word, whose offsets step once and then return (R209). -/
theorem test_matrix_loops : seqAfter (exec (.mloop false 0 2 3) (matS id)) (fun q => q.levels == [⟨3, 0x3008, 0x3010, 0, 0, 0, 0⟩] && q.mpc == 0x3008) = true ∧
    seqAfter (exec (.mloop false 0 2 0) (matS id)) (fun q => q.mpc == 0x3018 && q.levels.length == 0) = true ∧
    seqAfter (exec (.mbind false 1 2 32 64) (matS id)) (fun q => q.steps0 == ⟨1, 2, 32, 64⟩) = true ∧
    seqAfter (exec .mnext (matS (fun q => { q with mpc := 0x3010, steps0 := ⟨1, 0, 32, 0⟩, levels := [⟨2, 0x3008, 0x3010, 0, 0, 0, 0⟩] }))) (fun q => q.mpc == 0x3008 && q.oa == 1 && q.ob == 32 && q.levels == [⟨1, 0x3008, 0x3010, 0, 0, 0, 0⟩]) = true ∧
    seqAfter (exec .mnext (matS (fun q => { q with mpc := 0x3010, oa := 5, levels := [⟨1, 0x3008, 0x3010, 0, 0, 0, 0⟩] }))) (fun q => q.mpc == 0x3018 && q.oa == 0 && q.levels.length == 0) = true := by decide
theorem test_chains : seqAfter (exec (.mbeg 1) (matS id)) (fun q => q.opened == 2) = true ∧ seqAfter (exec (.mend 1) (matS (fun q => { q with opened := 2 }))) (fun q => q.opened == 0) = true ∧
    seqAfter (exec (.mzero 0) (matS (fun q => { q with accs := q.accs.set 0 ⟨[(0, 1)], [(1, 2)], 3⟩ }))) (fun q => (q.accs.getD 0 ⟨[], [], 0⟩).e == [] && q.mpc == 0x3008) = true := by decide
/-- rne32: 1.5 + 2.5 = 4; a product of bf16 values is added and rounded once: 0 + 2 × 3 = 6, 2^24 + 1 × 1 = 2^24 (R203, R204). -/
theorem test_chain_add : fadd32 0x3FC00000 0x40200000 = 0x40800000 ∧ chainAdd 0 0x4000 0x4040 = 0x40C00000 ∧ chainAdd 0x4B800000 0x3F80 0x3F80 = 0x4B800000 := by decide
/-- MSTEP waits for a tile that is FILLING; MTREL frees a READY one (R204, R213). -/
theorem test_mstep_waits : seqAfter (exec (.mstep 0 0 1 0 0) (stateT (.matrix 1) { teamT [groupT] with tiles := [{ Tile.none_ with state := .filling }, { Tile.none_ with state := .ready }] })) (fun q => q.mpc == 0x3000) = true := by decide
theorem test_mtrel : after (exec (.mtrel 1) (stateT (.matrix 1) { teamT [groupT] with tiles := [Tile.none_, { Tile.none_ with state := .ready }] })) (fun u => match u.team? 1 with | some t => (t.tile 1).state == .empty && t.seq.mpc == 0x3008 | none => false) = true := by decide
theorem test_mmark_mwait : after (exec (.mmark 3) (matS id)) (fun u => match u.team? 1 with | some t => (t.bar 3).seqArrived && t.seq.lastBar == 3 | none => false) = true ∧ seqAfter (exec (.mwait 3) (matS id)) (fun q => q.mpc == 0x3008) = true := by decide

/-- A copy record of group 0 for a packet. -/
def copyT (op : CopyOp) (p : CopyPacket) : CopyRec :=
  { id := 7, op, pkt := p, team := 1, grp := 0, armB := false, core := 0, addr := 0, progress := 0, dests := [1], liveAt := 0xFFFFFFFF, suspended := false, ranges := [], trans := [], buf := [], faulted := false, cancelled := false }

/-- The state in which the copy engine moves that copy, with the scratchpad as given. -/
def copyS (op : CopyOp) (p : CopyPacket) (m : Memory) (done : Nat) : State :=
  { stateT (.copy 7) { teamT [groupT] with spad := m } with copies := [{ copyT op p with progress := done }] }

/-- A packet with only these fields. -/
def pkt (length : BitVec 32) (src dst : Word) : CopyPacket :=
  { tokenEn := false, token := 0, mcast := false, ro := false, tileEn := false, tile := 0, length, src, dst, spitch := 0, dpitch := 0, scale := 0, stype := 0, dtype := 0, gsize := 0, skind := false, rows := 0, cols := 0, signal := 0 }

/-- The scratchpad after a movement. -/
def spadAfter (o : Host.Outcome State Fault Refusal) (p : Memory → Bool) : Bool := after o (fun u => match u.team? 1 with | some t => p t.spad | none => false)

/-- What a COPY moves next: the bytes of its source, and the address that they go to (R185, R195). -/
theorem test_copy : (match copyS .copy (pkt 3 own (own + 0x101)) [(0, 1), (1, 2), (2, 3)] 0 with
    | s => match s.copyAgent (copyT .copy (pkt 3 own (own + 0x101))) (teamT [groupT]) with
      | some a => (match s.copyRead a false false own.toNat 3 with | .ok _ bs => bs == [1, 2, 3] | _ => false)
      | none => false) = true ∧ (geoOf .copy (pkt 3 own (own + 0x101)) Tile.none_).piece (own + 0x101).toNat 0 = (0, 0, 0xFFFFFF0000000101, 3) := by decide
theorem test_mcast : spadAfter (exec (.mcast { pkt 2 own (own + 0x40) with mcast := true }) (copyS .mcast { pkt 2 own (own + 0x40) with mcast := true } [(0, 1), (1, 2)] 0)) (fun m => m == [(0, 1), (1, 2), (0x40, 1), (0x41, 2)]) = true := by decide
theorem test_regfill : groupAfter (exec (.regfill (pkt 128 own 6)) (copyS .regfill (pkt 128 own 6) [(0, 1), (4, 2), (5, 1)] 0)) (fun g => g.core.vget 6 0 == 1 && g.core.vget 6 1 == 0x102 && g.core.vget 6 8 == 0) = true := by decide
theorem test_copy_complete : after (exec (.copyComplete 7) (stateT .none (teamT [{ groupT with tokens := 8 }]) |> fun s => { s with copies := [{ copyT .fill { pkt 9 0 own with tokenEn := true, token := 3 } with progress := 9 }] }))
    (fun u => u.copies.length == 0 && (match u.group? 1 0 with | some g => g.tokens == 0 | none => false)) = true := by decide

/-- Events of the package. -/
theorem test_reset_laser : after (exec (.laserEn true) State.reset) (fun u => u.laserEn) = true := by decide
theorem test_host_write : after (exec (.hostMemwr 0x100 [1, 0, 3]) State.reset) (fun u => u.mem == [(0x100, 1), (0x102, 3)]) = true ∧
    after (exec (.hostMemrd 0x100 2) { State.reset with mem := [(0x100, 1)] }) (fun u => u.hostData == [1, 0] && !u.hostPoison) = true := by decide
theorem test_peer : after (exec (.peerWrite 0x100 [7]) State.reset) (fun u => u.mem == [(0x100, 7)]) = true ∧ after (exec (.peerRead 0x100 1) { State.reset with mem := [(0x100, 9)] }) (fun u => u.hostData == [9]) = true := by decide
theorem test_resync : after (exec (.fabricResync .link) State.reset) (fun u => u.resync == some .link && u.gen == 0) = true ∧ after (exec .resyncDrop { State.reset with resync := some .link, gen := 15 }) (fun u => u.resync == none && u.gen == 0) = true := by decide
theorem test_register_write : after (exec (.registerWrite 0x100 64 0x12F) State.reset) (fun u => u.mgmt.cmdptr == 0x100) = true ∧ after (exec (.registerWrite 0x200 64 5) State.reset) (fun u => u.mgmt.eatok == 5) = true := by decide
/-- A frequency change is broadcast, and FREQCTL is not its register until the release (R18, R292). -/
theorem test_frequency : after (exec (.frequencyChange 2) { State.reset with freqHeld := some 2 }) (fun u => match u.freq with | some f => f.target == 2 | none => false) = true := by decide
theorem test_watchdog : after (exec (.watchdog 1) { stateT .none (teamT [groupT]) with contexts := [{ ctxT with watchdog := 1 }], time := 1002, grids := [⟨1, 0, 0, 0, ⟨0x20, 0, 1, 0, 1, 0, 0, 0, 0, 0, 0, 0, 0⟩, 1, some 1, 0, false, false, false⟩] })
    (fun u => match u.ctx? 0 with | some c => (match c.halt with | .raised o => o.code == 0x17 && o.kind == 6 | _ => false) | none => false) = true := by decide
theorem test_halt : after (exec (.halt 0) { stateT .none (teamT [groupT]) with contexts := [{ ctxT with halt := .raised { kind := 1, code := 0x1A, unit := 0, armB := false, core := 0, addr := 0, mask := 0, tcode := 0, data := 0 } }] })
    (fun u => match u.ctx? 0 with | some c => c.halt == .applied 0x1A | none => false) = true := by decide
theorem test_outfield_sweep : after (exec (.outfieldSweep 2) { State.reset with outfield := [⟨2, none, 0, 5, Vector.replicate 128 0, 0⟩, ⟨3, none, 0, 5, Vector.replicate 128 0, 0⟩] }) (fun u => u.outfield.map (fun l => l.die) == [3]) = true := by decide

/-! ### Witnesses: states that meet the hypotheses of the statements about arms, clause by clause -/

/-- An arm of the group that is ready for an instruction that needs `n`, with `p`. -/
def isReady (s : State) (b : Bool) (n : Needs) (p : Ag → Bool) : Bool :=
  match s.agent 1 0 b with
  | some a => s.sel == .arm 1 0 b && s.armLive a && a.ready n && a.arm.rep == none && p a
  | none => false

theorem ready_of {s : State} {b : Bool} {n : Needs} {p : Ag → Bool} (h : isReady s b n p = true) : ∃ a, ArmReady s 1 0 b a n ∧ p a = true := by
  unfold isReady at h
  split at h
  · rename_i a ha
    simp only [Bool.and_eq_true, beq_iff_eq] at h
    exact ⟨a, ⟨⟨h.1.1.1.1, ha, h.1.1.1.2, h.1.1.2⟩, h.1.2⟩, h.2⟩
  · cases h

/-- Needs of a form. -/
abbrev nd (src dst : List SReg) (preds : List Nat) : Needs := { src, dst, preds }

/-- Arithmetic: two sources and a destination; the destination s0; BFI's and SEL's third source; no source. -/
theorem witness_arithmetic : (∃ a, ArmReady (armT groupT) 1 0 false a (nd [1, 2] [3] []) ∧ true = true) ∧ (∃ a, ArmReady (armT groupT) 1 0 false a (nd [1, 63] [0] []) ∧ true = true) ∧
    (∃ a, ArmReady (armT groupT) 1 0 false a (nd [5, 1, 2] [5] []) ∧ true = true) ∧ (∃ a, ArmReady (armT groupT) 1 0 false a (nd [] [63] []) ∧ true = true) :=
  ⟨ready_of (by decide), ready_of (by decide), ready_of (by decide), ready_of (by decide)⟩

/-- A split group: arm A has lanes 0 to 15, arm B the others. -/
def splitT (fa fb : Arm → Arm) : Group :=
  let c := groupT.core
  { groupT with core := { c with split := true, armA := fa { c.armA with mask := 0xFFFF }, armB := fb { c.armA with mask := 0xFFFF0000, spc := 0x1100 } } }

/-- The state in which arm `b` of a group executes. -/
def armB (b : Bool) (g : Group) : State := stateT (.arm 1 0 b) (teamT [g])

/-- A branch that is taken, and one that is not, in each comparison; lanes of p1 in the path, none of them, and all; a target of JR that is a multiple of 4, and one that is not. -/
theorem witness_branches :
    (∃ a, ArmReady (armT groupT) 1 0 false a (nd [1, 2] [] []) ∧ (a.arm.get 1 == a.arm.get 1 && a.arm.get 1 != a.arm.get 2 && decide ((a.arm.get 1).toInt < (a.arm.get 2).toInt) && decide ((a.arm.get 1).toNat < (a.arm.get 2).toNat)) = true) ∧
    (∃ a, ArmReady (armT (halfPred groupT)) 1 0 false a (nd [] [] [1]) ∧ (a.arm.active &&& a.g.core.pget 1 != 0 && a.arm.active &&& ~~~ a.g.core.pget 1 != 0) = true) ∧
    (∃ a, ArmReady (armT groupT) 1 0 false a (nd [] [] [1]) ∧ (a.arm.active &&& a.g.core.pget 1 == 0) = true) ∧
    (∃ a, ArmReady (armT groupT) 1 0 false a (nd [] [] [0]) ∧ (a.arm.active &&& ~~~ a.g.core.pget 0 == 0) = true) ∧
    (∃ a, ArmReady (armB true (splitT id id)) 1 0 true a (nd [1, 2] [] []) ∧ (a.arm.get 1 != a.arm.get 2) = true) ∧
    (∃ a, ArmReady (armT groupT) 1 0 false a (nd [] [63] []) ∧ true = true) ∧
    (∃ a, ArmReady (armT groupT) 1 0 false a (nd [8] [0] []) ∧ ((a.arm.get 8).toNat % 4 == 0) = true) ∧
    (∃ a, ArmReady (armT groupT) 1 0 false a (nd [7] [8] []) ∧ ((a.arm.get 7).toNat % 4 != 0) = true) :=
  ⟨ready_of (by decide), ready_of (by decide), ready_of (by decide), ready_of (by decide), ready_of (by decide), ready_of (by decide), ready_of (by decide), ready_of (by decide)⟩

/-- A loop of count 0 and of another count, none, three and four levels open, and an inner level that ends before the new one; LBRK without a level and with one. -/
theorem witness_loops :
    (∃ a, ArmReady (armT groupT) 1 0 false a (nd [0] [] []) ∧ (a.arm.loops == [] && (a.arm.get 0).setWidth 32 == 0#32) = true) ∧
    (∃ a, ArmReady (armW (fun m => { m with loops := List.replicate 3 ⟨2, 64, 0x1100⟩ })) 1 0 false a (nd [5] [] []) ∧
      (a.arm.loops.length == 3 && decide (a.arm.spc + 4 * BitVec.ofInt 64 ((2 : BitVec 13).toInt - 1) == (0x1004 : Word))) = true) ∧
    (∃ a, ArmReady (armW (fun m => { m with loops := List.replicate 4 ⟨2, 64, 0x1100⟩ })) 1 0 false a (nd [] [] []) ∧ (a.arm.loops.length == 4) = true) ∧
    (∃ a, ArmReady (armW (fun m => { m with loops := [⟨2, 64, 0x1004⟩] })) 1 0 false a (nd [5] [] []) ∧ (a.arm.loops.all (fun l => decide (l.endAddr.toNat < (a.arm.spc + 4 * 2).toNat)) && decide (a.g.lbase < a.arm.loops.length)) = true) ∧
    (∃ a, ArmReady (armT groupT) 1 0 false a (nd [] [] []) ∧ decide (a.arm.loops.length ≤ a.g.lbase) = true) ∧
    (∃ a, ArmReady (armW (fun m => { m with loops := [⟨2, 64, 0x1004⟩] })) 1 0 false a (nd [] [] []) ∧ decide (a.g.lbase < a.arm.loops.length) = true) :=
  ⟨ready_of (by decide), ready_of (by decide), ready_of (by decide), ready_of (by decide), ready_of (by decide), ready_of (by decide)⟩

/-- Loop ends: no level, a level below the base, one that is not at its end, one with more passes and one with its last. -/
theorem witness_loop_end :
    let l : Loop := ⟨3, 2, 0x1000⟩
    ([l].tail.length < 1) ∧ (0x1008 : Word) ≠ l.endAddr + 4 ∧ (0x1004 : Word) = l.endAddr + 4 ∧ l.count ≠ 1 ∧ ({ l with count := 1 } : Loop).count = 1 := by decide

/-- State registers: a source for index 19 below 9 and from 9 up; a team with a place in its flock and without; SIG equal to a literal and not; tokens busy and free. -/
theorem witness_state_registers :
    (∃ a, ArmReady (armT groupT) 1 0 false a (nd [8] [3] []) ∧ (decide ((a.arm.get 8).toNat % 16 < 9) && a.t.flockPos == none) = true) ∧
    (∃ a, ArmReady (stateT (.arm 1 0 false) { teamT [groupT] with flockPos := some 3 }) 1 0 false a (nd [9] [3] []) ∧ (decide (9 ≤ (a.arm.get 9).toNat % 16) && a.t.flockPos == some 3) = true) ∧
    (∃ a, ArmReady (armW (fun m => { m with sig := 0x77 })) 1 0 false a (nd [] [] []) ∧ (a.arm.sig == 0x77 && a.arm.sig != 0) = true) ∧
    (∃ a, ArmReady (armT { groupT with tokens := 0x80 }) 1 0 false a (nd [] [] []) ∧ (a.g.tokens &&& 0x80 != 0 && a.g.tokens &&& 0x7F == 0) = true) :=
  ⟨ready_of (by decide), ready_of (by decide), ready_of (by decide), ready_of (by decide)⟩

/-- SPLIT: no failing lane, no passing lane, both; in an arm of a split group the same, with a stack of 15 and of 16 entries. -/
theorem witness_split :
    (∃ a, ArmReady (armT (halfPred groupT)) 1 0 false a (nd [] [] [1]) ∧ (!a.g.core.split && a.arm.active &&& a.g.core.pget 1 != 0 && a.arm.active &&& ~~~ a.g.core.pget 1 != 0) = true) ∧
    (∃ a, ArmReady (armT groupT) 1 0 false a (nd [] [] [1]) ∧ (!a.g.core.split && a.arm.active &&& a.g.core.pget 1 == 0 && a.arm.active &&& ~~~ a.g.core.pget 1 != 0) = true) ∧
    (∃ a, ArmReady (armT groupT) 1 0 false a (nd [] [] [0]) ∧ (!a.g.core.split && a.arm.active &&& ~~~ a.g.core.pget 0 == 0) = true) ∧
    (∃ a, ArmReady (armB true (splitT id (fun m => { m with stack := List.replicate 16 ⟨0, 0, 0⟩ }))) 1 0 true a (nd [] [] [0]) ∧ (a.g.core.split && a.arm.stack.length == 16) = true) ∧
    (∃ a, ArmReady (armB true (splitT id (fun m => { m with stack := List.replicate 15 ⟨0, 0, 0⟩ }))) 1 0 true a (nd [] [] [0]) ∧ (a.g.core.split && a.arm.stack.length == 15 && a.arm.active &&& ~~~ a.g.core.pget 0 == 0) = true) ∧
    (∃ a, ArmReady (armB true (splitT id id)) 1 0 true a (nd [] [] [1]) ∧ (a.g.core.split && a.arm.active &&& a.g.core.pget 1 == 0) = true) ∧
    (∃ a, ArmReady (armB true (let g := splitT id id; { g with core := { g.core with preds := g.core.preds.set 1 0x10000 } })) 1 0 true a (nd [] [] [1]) ∧ (a.g.core.split && a.arm.active &&& a.g.core.pget 1 != 0 && a.arm.active &&& ~~~ a.g.core.pget 1 != 0) = true) :=
  ⟨ready_of (by decide), ready_of (by decide), ready_of (by decide), ready_of (by decide), ready_of (by decide), ready_of (by decide), ready_of (by decide)⟩

/-- JOIN: no split; a deferred path; a path that has been run; an arm whose partner runs, waits, and has ended. -/
theorem witness_join :
    (∃ a, ArmReady (armT groupT) 1 0 false a (nd [] [] []) ∧ (!a.g.core.split) = true) ∧
    (∃ a, ArmReady (armB true (splitT id (fun m => { m with stack := [⟨0x10000, 0x1200, 0⟩] }))) 1 0 true a (nd [] [] []) ∧ (a.g.core.split && (a.arm.stack.map (fun e => e.dspc != 0)) == [true]) = true) ∧
    (∃ a, ArmReady (armB true (splitT id (fun m => { m with stack := [⟨0x10000, 0, 0⟩] }))) 1 0 true a (nd [] [] []) ∧ (a.g.core.split && (a.arm.stack.map (fun e => e.dspc == 0)) == [true]) = true) ∧
    (∃ a, ArmReady (armB true (splitT id id)) 1 0 true a (nd [] [] []) ∧ (a.g.core.split && a.arm.stack == [] && (a.g.core.arm false).wait == .none) = true) ∧
    (∃ a, ArmReady (armB true (splitT (fun m => { m with wait := .join }) id)) 1 0 true a (nd [] [] []) ∧ (a.g.core.split && a.arm.stack == [] && (a.g.core.arm false).wait == .join && (List.range 16).all (fun n => !(a.t.bar n).pend.getLsbD 0)) = true) ∧
    (∃ a, ArmReady (armB true (splitT (fun m => { m with wait := .exited, mask := 0 }) id)) 1 0 true a (nd [] [] []) ∧ (a.g.core.split && (a.g.core.arm false).wait == .exited) = true) :=
  ⟨ready_of (by decide), ready_of (by decide), ready_of (by decide), ready_of (by decide), ready_of (by decide), ready_of (by decide)⟩

/-- LEXIT and TEND: lanes left; none left in a group that is not split; none left with the partner at its JOIN, running, and ended. -/
theorem witness_exits :
    (∃ a, ArmReady (armT (halfPred groupT)) 1 0 false a (nd [] [] [1]) ∧ (a.arm.mask &&& ~~~ (a.arm.active &&& a.g.core.pget 1) != 0) = true) ∧
    (∃ a, ArmReady (armT groupT) 1 0 false a (nd [] [] [0]) ∧ (a.arm.mask &&& ~~~ (a.arm.active &&& a.g.core.pget 0) == 0 && !a.g.core.split) = true) ∧
    (∃ a, ArmReady (armB true (splitT (fun m => { m with wait := .join }) id)) 1 0 true a (nd [] [] []) ∧ (a.g.core.split && (a.g.core.arm false).wait == .join) = true) ∧
    (∃ a, ArmReady (armB true (splitT id id)) 1 0 true a (nd [] [] [0]) ∧ (a.g.core.split && (a.g.core.arm false).wait == .none) = true) ∧
    (∃ a, ArmReady (armB true (splitT (fun m => { m with wait := .exited, mask := 0 }) id)) 1 0 true a (nd [] [] []) ∧ (a.g.core.split && (a.g.core.arm false).wait == .exited) = true) :=
  ⟨ready_of (by decide), ready_of (by decide), ready_of (by decide), ready_of (by decide), ready_of (by decide)⟩

/-- An arm that may execute an LQ or LJ although a repeat is pending. -/
theorem witness_repeat : ∃ a, ArmMay (armW (fun m => { m with rep := some ⟨2, 0⟩ })) 1 0 false a (nd [] [] []) ∧ a.arm.rep.isSome = true := by
  refine ⟨{ t := teamT [{ groupT with core := groupT.core.updArm false (fun m => { m with rep := some ⟨2, 0⟩ }) }], g := { groupT with core := groupT.core.updArm false (fun m => { m with rep := some ⟨2, 0⟩ }) }, b := false, w := { ctx := ctxT, team := some (teamT [{ groupT with core := groupT.core.updArm false (fun m => { m with rep := some ⟨2, 0⟩ }) }]), view := none, core := 0 } }, ⟨rfl, rfl, by decide, by decide⟩, rfl⟩

/-- An arm that may begin an LQ. -/
def lqReady (g : Group) : Bool := isReady (armT g) false (nd [] [] []) (fun a => a.arm.lqLeft == 0 && !a.arm.lqOwed && a.t.laneBase != 0 && decide (a.g.queue.length < 16))

/-- LQ: a queue with room and a full one; a lane section. -/
theorem witness_lq : lqReady groupT = true ∧ isReady (armT { groupT with queue := List.replicate 16 (entryT .vnop) }) false (nd [] [] []) (fun a => decide (16 ≤ a.g.queue.length) && a.t.laneBase != 0) = true ∧
    isReady (stateT (.arm 1 0 false) { teamT [groupT] with laneBase := 0 }) false (nd [] [] []) (fun a => a.t.laneBase == 0) = true := by decide

/-- The same package with the page at address 0 translated to physical 0. -/
def mapped (s : State) : State := { s with tlb1 := [{ unit := 0, ctx := 0, va := 0, pte := 1 }] }

/-- A lane program whose first word is VADD: the LQ fetches it, enqueues it and ends. -/
def lqS : State := { mapped (armT groupT) with mem := Memory.storeLE [] 0x2000 12 ((encodeLane (.vadd (fT .i32))).getD 0).toNat }
theorem witness_lq_ends : isReady lqS false (nd [] [] []) (fun a => match (withSig lqS a (.lq 0)).lqFetch a.w.ctx a.w.core 1 a.arm.lpc with
    | .ok ws => match State.pumpLq 192 (((withSig lqS a (.lq 0)).lqKeep a.w.ctx a.w.core a.arm.lpc 1).updArm 1 0 false (fun m => m.lqBegin 1 ws)) (agSig a (.lq 0)) with
      | .done u => (u.group? 1 0).isSome | _ => false
    | .error _ => false) = true := by decide

/-- One word of an LQ: it decodes, its broadcast sources are full, and its scalar or predicate destination is. -/
theorem witness_lq_word : isReady lqS false (nd [] [] []) (fun a => match lqS.fetchLane a.w.ctx a.w.core a.arm.lpc with
    | .ok w => match decodeLane a.t.vregs w with
      | .ok i => match laneOf i with
        | some (opc, f) => opc == laneOpc w && [f.sa, f.sb, f.sc].all (fun c => !isS c || a.arm.isFull (sOf c)) && !(f.sd && (opc == 0x143 || opc == 0x144)) && !predDest opc
        | none => false
      | .error _ => false
    | .error _ => false) = true := by decide

/-- An arm of the group whose access of kind `k` at `va` passes its checks at a place of which `p` holds, or fails. -/
def accessAt (s : State) (i : Instr) (k : AKind) (va : Word) (size : Nat) (p : State → Ag → Target → Bool) (bad : Bool) (n : Needs) : Bool :=
  isReady s false n (fun a =>
    let s1 := withSig s a i
    let a1 := agSig a i
    match s1.check a1.w k va size with | .ok t => !bad && p s1 a1 t | .error _ => bad)

/-- A load that fails its checks, one of the scratchpad and one of device memory that issue. -/
theorem witness_loads :
    accessAt (armW (fun m => m.put 1 (own + 2))) (.ldw 3 1 0) .load (own + 2) 4 (fun _ _ _ => true) true (nd [1] [3] []) = true ∧
    accessAt (armW (fun m => m.put 1 own)) (.ldw 3 1 0) .load own 4 (fun s a t => !a.g.amaxQueued false s.nextId && !s.acqWaits a.key s.nextId && s.causalHold a s.nextId t false == none && !t.causal) false (nd [1] [3] []) = true ∧
    accessAt (mapped (armW (fun m => m.put 1 0x100))) (.ldd 3 1 0) .load 0x100 8 (fun s a t => s.causalHold a s.nextId t false == none && !t.causal && (match t.loc with | .dev ga => ga == 0x100 | _ => false)) false (nd [1] [3] []) = true ∧
    accessAt (mapped (armW (fun m => m.put 1 0x100))) (.acq 3 1 .dev .d) .load 0x100 8 (fun s a t => !a.g.amaxQueued false s.nextId && !s.acqWaits a.key s.nextId && s.causalHold a s.nextId t false == none && !(s.touch a.w t).remoteCausal a t) false (nd [1] [3] []) = true ∧
    accessAt (causalT (fun m => m.put 1 0x40000)) (.acq 3 1 .dev .d) .load 0x40000 8 (fun s a t => t.causal && s.causalHold a s.nextId t false == none && !(s.touch a.w t).remoteCausal a t) false (nd [1] [3] []) = true ∧
    accessAt (causalT (fun m => m.put 1 0x41000)) (.ldd 3 1 0) .load 0x41000 8 (fun s a t => t.causal && s.causalHold a s.nextId t false == none && (s.touch a.w t).remoteCausal a t) false (nd [1] [3] []) = true := by decide

/-- A store that is no packet ends with `p`, whether it is performed as it issues or later. -/
def storeEither (s : State) (a : Ag) (po : Nat) (t : Target) (runs : List (Nat × List Byte)) (mask : Half) (rel sys : Bool) (p : StoreRes → Bool) (after : Nat := 0) : Bool :=
  let s0 := (s.touch a.w t).holdPage a.w t
  let s := match t.loc with | .dev ga => s0.orW a.w.core (bucketBit ga) | _ => s0
  let h : HeldWrite := { a.w.write t (some a.key) po runs (s.relW a t rel) with id := s.nextId, both := a.both, wide := rel || a.arm.relFence, sys, mask, after := max a.arm.fencePo after }
  !s0.ordered a t && [false, true].all (fun late => p (s.useFresh.issueKept h late))

theorem either_store {s : State} {a : Ag} {po : Nat} {t : Target} {runs : List (Nat × List Byte)} {mask : Half} {rel sys : Bool} {p : StoreRes → Bool} {after : Nat}
    (h : storeEither s a po t runs mask rel sys p after = true) : p (s.doStore a po t runs mask rel sys after) = true := by
  have kept : ∀ {s : State} {h : HeldWrite}, [false, true].all (fun late => p (s.issueKept h late)) = true → ∀ late, p (s.issueKept h late) = true := by
    intro s h H late
    simp only [List.all_cons, List.all_nil, Bool.and_true, Bool.and_eq_true] at H
    cases late
    · exact H.1
    · exact H.2
  rcases t with ⟨va, loc, pte, n⟩
  cases loc <;> simp only [storeEither, Bool.and_eq_true, Bool.not_eq_true'] at h
  all_goals
    obtain ⟨hr, hk⟩ := h
    simp only [State.doStore, hr, Bool.false_eq_true, if_false]
    exact kept hk _

/-- It neither consumes poison nor ends the group of `a`. -/
def goesOn (a : Ag) (r : StoreRes) : Bool := !r.poison && !r.s.gone a

/-- A store that fails its checks, one of a group that has lost a peer store, and stores to the scratchpad and to device memory that may issue. -/
theorem witness_stores :
    accessAt (armW (fun m => m.put 1 (own + 2))) (.std 9 1 0) .store (own + 2) 8 (fun _ _ _ => true) true (nd [9, 1] [] []) = true ∧
    accessAt (armT { groupT with peerLost := true, core := groupT.core.updArm false (fun m => { m.put 1 own with relSys := true }) }) (.std 9 1 0) .store own 8 (fun _ a _ => a.lostPeer false) false (nd [9, 1] [] []) = true ∧
    accessAt (armW (fun m => m.put 1 own)) (.std 9 1 0) .store own 8 (fun s a t => !a.lostPeer false && !s.relHold a s.nextId t false false && !t.causal && !t.isPeer && !s.gone a &&
      storeEither s a s.nextId t [(t.loc.addr, leBytes 8 9)] 0 false a.arm.relSys (goesOn a)) false (nd [9, 1] [] []) = true ∧
    accessAt (mapped (armW (fun m => m.put 1 0x100))) (.stb 9 1 0) .store 0x100 1 (fun s a t => !a.lostPeer false && !s.relHold a s.nextId t false false && !t.causal && !t.isPeer && !s.gone a &&
      storeEither s a s.nextId t [(t.loc.addr, leBytes 1 9)] 0 false a.arm.relSys (goesOn a)) false (nd [9, 1] [] []) = true ∧
    accessAt (causalT (fun m => m.put 1 0x40000)) (.stb 9 1 0) .store 0x40000 1 (fun s a t => t.causal && (match s.writeReady a t 1 with
      | .ok s2 => !s2.gone a && storeEither s2 a s2.nextId t [(t.loc.addr, leBytes 1 9)] 0 false a.arm.relSys (goesOn a) | _ => false)) false (nd [9, 1] [] []) = true ∧
    accessAt (causalT (fun m => m.put 1 0x41000)) (.stb 9 1 0) .store 0x41000 1 (fun s a t => t.causal && (match s.writeReady a t 1 with
      | .ok s2 => !s2.gone a && (let x := s2.doStore a s2.nextId t [(t.loc.addr, leBytes 1 9)] 0 false a.arm.relSys; !x.poison && !x.s.gone a) | _ => false)) false (nd [9, 1] [] []) = true := by decide

/-- The places of a store: the scratchpad, host memory, and device memory that no view intercepts. -/
theorem witness_store_places :
    accessAt (mapped (armT groupT)) (.stb 9 1 0) .store 0x100 1 (fun s a t => !s.remoteCausal a t && !pteViewed t.pte && !s.hostHeld.contains 0 && !s.partialPoison 0x100 1 && t.loc == .dev 0x100) false (nd [] [] []) = true ∧
    accessAt (armT groupT) (.stb 9 1 0) .store own 1 (fun _ _ t => t.loc == .spad 1 0) false (nd [] [] []) = true ∧
    accessAt { armT groupT with tlb1 := [{ unit := 0, ctx := 0, va := 0xFFFFC00000000000, pte := 1 }] } (.stb 9 1 0) .store 0xFFFFC00000000000 1 (fun _ _ t => match t.loc with | .host _ => true | _ => false) false (nd [] [] []) = true := by decide

/-- Atomics: a check that fails, and one that is performed at home. -/
theorem witness_amos :
    accessAt (armW (fun m => m.put 1 (own + 2))) (.amosAdd 3 1 2 false) .atomic (own + 2) 4 (fun _ _ _ => true) true (nd [1, 2] [3] []) = true ∧
    accessAt (armW (fun m => m.put 1 own)) (.amosAdd 3 1 2 false) .atomic own 4 (fun s a t => !a.lostPeer false && !s.relHold a s.nextId t false false && !a.g.amaxQueued false s.nextId && !s.acqWaits a.key s.nextId && !t.causal && !t.isPeer && !s.gone a &&
      !(s.bump.touch a.w t).remoteCausal a t) false (nd [1, 2] [3] []) = true ∧
    accessAt (armT { groupT with peerLost := true, core := groupT.core.updArm false (fun m => { m.put 1 own with relSys := true }) }) (.amosAdd 3 1 2 false) .atomic own 4 (fun _ a _ => a.lostPeer false) false (nd [1, 2] [3] []) = true := by decide

/-- A causal page of another die: the page at address 0 with CAUSAL, address 0x2000, whose home is die 2. -/
def causalS : State := { armT groupT with tlb1 := [{ unit := 0, ctx := 0, va := 0, pte := 0x401 }] }
theorem witness_amos_causal : accessAt causalS (.amosAdd 3 1 2 false) .atomic 0x2000 4 (fun s a t => !a.g.amaxQueued false s.nextId && !s.acqWaits a.key s.nextId && t.causal && (match s.writeReady a t 4 with
      | .ok s2 => !s2.gone a && (s2.bump.touch a.w t).remoteCausal a t | _ => false)) false (nd [1, 2] [3] []) = true := by decide

/-- Fences and releases: nothing outstanding, in each scope. -/
theorem witness_fences :
    isReady (armT groupT) false (nd [] [] []) (fun a => match (withSig (armT groupT) a (.fence .sys)).quietArm (agSig a (.fence .sys)) false false with | .ok s2 => (s2.group? 1 0).isSome | _ => false) = true ∧
    accessAt (armW (fun m => m.put 1 own)) (.rel 9 1 .dev .d) .store own 8 (fun s a t => !a.g.peerLost && (match s.quietArm a true a.arm.relSys with
      | .ok s2 => (match s2.writeReady a t 8 with | .ok s3 => !s3.gone a && storeEither s3 a s3.nextId t [(t.loc.addr, leBytes 8 9)] 0 true false (goesOn a) | _ => false) | _ => false)) false (nd [9, 1] [] []) = true ∧
    accessAt (armT { groupT with peerLost := true, core := groupT.core.updArm false (fun m => m.put 1 own) }) (.rel 9 1 .sys .d) .store own 8 (fun _ a _ => a.g.peerLost) false (nd [9, 1] [] []) = true := by decide

/-- A halo region of one piece at physical 0, whose tile 0 belongs to team number 3. -/
def regionT : Region := { ctx := 0, base := 0, tstride := 0x1000, pstride := 64, w := 8, h := 8, hw := 1, esize := 0, tx := 1, ty := 1, rpitch := 64, corners := false, die := 0, ownBase := 3, slices := [0], pieces := [(0, 0, 0)] }
theorem witness_halo_release : accessAt { mapped (armT groupT) with regions := [regionT], tlb1 := [{ unit := 0, ctx := 0, va := 0, pte := 0x801 }] } (.relHalo 9 1 .w) .store 0x84 4 (fun s a t =>
    (match t.loc with | .dev ga => (match s.haloCell ga with | some (r, k, _) => r == regionT && a.t.teamIdx == r.ownBase + k | none => false) | _ => false) &&
    !a.arm.relSys && (List.range s.regions.length).find? (fun i => match s.regions[i]? with | some x => x == regionT | none => false) == some 0) false (nd [9, 1] [] []) = true := by decide

/-- The write of its flag. -/
def haloWrite (h : HaloRel) : HeldWrite :=
  { id := 0, po := h.po, owner := some (h.team, h.grp, h.armB), both := false, t := h.flag, runs := [(h.flag.loc.addr, leBytes h.flag.size h.value)], ctx := some 0, view := none,
    rel := some h.w, wide := false, sys := h.sys, mask := 0, core := some h.core }

/-- A REL.halo that waits for its push. -/
def haloS : State :=
  { stateT .none (teamT [groupT]) with regions := [regionT], haloRels := [{ id := 5, po := 5, team := 1, grp := 0, armB := false, both := false, core := 0, region := 0, tile := 0, flag := { va := 0x84, loc := .dev 0x84, pte := 0x801, size := 4 }, value := 9, w := 0, sys := false }] }
theorem witness_halo_push : (match haloS.haloRels.find? (fun x => x.id == 5) with
    | some h => haloS.regions[h.region]? == some regionT && (haloS.team? 1).isSome && !haloS.ctxStopped ctxT && !haloS.dieStopped 0 &&
      !haloS.writesBefore (1, 0, false) h.po true h.sys && !haloS.queuedBefore h && !haloS.pending.any (fun p => p.ofArm (1, 0, false) && p.waits && decide (p.po < h.po)) &&
      (match haloS.bindWhere (1, 0, false) (fun p => decide (p.po < h.po)) with
       | none => false
       | some v =>
         let x := ({ v with haloRels := [] } : State).push regionT 0
         let w := haloWrite h
         v.alive (1, 0, false) && !x.poison && !x.s.hostHas w && !(x.s.putWrite w).poison && ({ x.s with hostHeld := [1] } : State).hostHas w)
    | none => false) = true := by decide

/-- Responses: values all there, values still in memory. -/
theorem witness_responses :
    (let p : Pending := ⟨1, 1, 1, 0, false, .s 3, 0, [⟨0, ⟨0xFFFFFF0000000004, .spad 1 4, 0, 2⟩, some 7, false, none⟩], false, false, 6, false, none, 0⟩
     !p.unbound && p.done) = true ∧
    (let p : Pending := ⟨1, 1, 1, 0, false, .s 3, 0, [⟨0, ⟨0xFFFFFF0000000004, .spad 1 4, 0, 2⟩, none, false, none⟩], false, false, 6, false, none, 0⟩
     p.unbound && (match ({ stateT .none (teamT [groupT]) with pending := [p] } : State).bind p with | some u => (match u.pending.find? (fun q => q.id == 1) with | some q => q.done | none => false) | none => false)) = true := by decide

/-- A word with a reserved bit set, and an arm of a split group whose barrier was abandoned. -/
theorem witness_bar_words : isReady (armW (fun m => m.put 1 0x100020000)) false (nd [1] [3] []) (fun a => (a.arm.get 1 &&& 0x00000000FFFEFFFF) != 0) = true ∧
    isReady (stateT (.arm 1 0 true) (teamT [{ splitT id id with abandonedB := true }])) true (nd [1] [3] []) (fun a => a.g.abandonedB) = true := by decide

/-- Barriers: abandoned; not abandoned, the group not there and there; a word that names the group and one that does not; a phase with the same word, with another, and none; the last live arm, and not the last. -/
theorem witness_barriers :
    isReady (armT { groupT with abandoned := true }) false (nd [1] [3] []) (fun a => a.g.abandoned) = true ∧
    isReady (armW (fun m => m.put 1 0x100000000)) false (nd [1] [3] []) (fun a => (a.arm.get 1 &&& 0x00000000FFFEFFFF) == 0 && (a.arm.get 1).getLsbD 32 && !a.g.core.split && (a.t.bar 2).pword == none &&
      (match (withSig (armW (fun m => m.put 1 0x100000000)) a (.barSync 3 1 2)).quietArm (agSig a (.barSync 3 1 2)) false false with | .ok _ => true | _ => false)) = true ∧
    isReady (armW (fun m => m.put 1 0x200000000)) false (nd [1] [3] []) (fun a => !(a.arm.get 1).getLsbD 32) = true ∧
    isReady (stateT (.arm 1 0 false) { teamT [groupT] with bars := (List.replicate 16 Barrier.fresh).set 2 { Barrier.fresh with pword := some 0x300000000, arrived := 3 } }) false (nd [1] [3] []) (fun a => (a.t.bar 2).arrived.getLsbD 0 && (a.t.bar 2).pword != some 1) = true ∧
    isReady (armB true (splitT id (fun m => m.put 1 0x100000000))) true (nd [1] [3] []) (fun a => a.g.core.split && (a.g.core.arm false).wait == .none && !(a.t.bar 2).pend.getLsbD 0 && (a.arm.get 1).getLsbD 32) = true ∧
    isReady (stateT (.arm 1 0 true) { teamT [splitT (fun m => { m with wait := .bar 2 3 }) (fun m => m.put 1 0x100000000)] with bars := (List.replicate 16 Barrier.fresh).set 2 { Barrier.fresh with pend := 1, pendW := [(0, 0x100000000)] } }) true (nd [1] [3] [])
      (fun a => (a.t.bar 2).pend.getLsbD 0 && !((a.t.bar 2).pend.getLsbD 0 && (a.t.bar 2).pendB.getLsbD 0 == true)) = true := by decide

/-- A phase that may complete: every named group has arrived or retired, and the sequencer is not named, or has arrived. -/
theorem witness_phase : (let b : Barrier := { Barrier.fresh with pword := some 0x100010000, arrived := 1, seqArrived := true }
    let t : Team := { teamT [groupT] with bars := (List.replicate 16 Barrier.fresh).set 2 b }
    (stateT .none t).teamLive t && (t.bar 2).pword == some 0x100010000 && (List.range 32).all (fun k => !(0x100010000 : Word).getLsbD (32 + k) || (t.bar 2).arrived.getLsbD k) && (t.bar 2).seqArrived) = true := by decide

/-- Effects: HANDLE's four courses. -/
theorem witness_handle :
    isReady (armW (fun m => m.put 9 0xFFFF)) false (nd [9, 48, 49, 50, 51, 52, 53, 54, 55] [] []) (fun a => !a.g.core.split && decide ((a.arm.get 9).toNat = 2 ^ 16 - 1) && a.g.frames.length != 64) = true ∧
    isReady (armW (fun m => m.put 9 0x10000)) false (nd [9, 48, 49, 50, 51, 52, 53, 54, 55] [] []) (fun a => decide (2 ^ 16 ≤ (a.arm.get 9).toNat)) = true ∧
    isReady (armT { groupT with slot0 := { Slot.free with used := true }, slot1 := { Slot.free with used := true } }) false (nd [9, 48] [] []) (fun a => a.g.slot0.used && a.g.slot1.used) = true ∧
    isReady (armT { groupT with frames := List.replicate 64 (newFrame Frame.zero 1 false false none 0 0 (Vector.replicate 8 0)) }) false (nd [9] [] []) (fun a => a.g.frames.length == 64) = true ∧
    isReady (armT (splitT id id)) false (nd [9] [] []) (fun a => a.g.core.split) = true := by decide

/-- A group with a frame for effect 0x123, `k` multi-shot, in state `st`. -/
def framed (k : Bool) (st : Nat) (masker : Nat) : Group :=
  { groupT with frames := [{ newFrame Frame.zero 0x123 k false (if k then some 0 else none) 0x4000 0 (Vector.replicate 8 0) with state := st, masker }], core := groupT.core.updArm false (fun m => m.put 9 0x123),
                slot0 := { used := k, cont := none, save := if st == 2 then some { core := groupT.core, lbase := 0, frames := [] } else none } }

/-- UNHANDLE: no frame; a masked frame; an idle one; one whose continuation runs. -/
theorem witness_unhandle :
    isReady (armT groupT) false (nd [0] [] []) (fun a => a.g.frames.length == 0) = true ∧ isReady (armT (framed false 0 1)) false (nd [0] [] []) (fun a => a.g.frames.map (fun f => f.masker != 0) == [true]) = true ∧
    isReady (armT (framed false 0 0)) false (nd [0] [] []) (fun a => a.g.frames.map (fun f => f.masker == 0 && f.state == 0) == [true]) = true ∧
    isReady (armT (framed true 2 0)) false (nd [5] [] []) (fun a => a.g.frames.map (fun f => f.masker == 0 && f.state == 2 && f.slot == some 0) == [true] && (a.g.slot 0).save.isSome &&
      (agSig a (.unhandle 5)).g.quiet && !(armT (framed true 2 0)).groupBusy 1 0) = true := by decide

/-- PERFORM: no frame; an own frame that is idle, one-shot and multi-shot, and one that is not idle; an inherited frame; the root; an ID at each bound. -/
theorem witness_perform :
    isReady (armW (fun m => m.put 9 0x123)) false (nd [9, 11] [10] []) (fun a => (a.g.search 0 0x123 false).code == 0) = true ∧
    isReady (armT (framed false 0 0)) false (nd [9, 11] [10] []) (fun a => (a.g.search 0 0x123 false).code == 1 && a.g.own? 1 == a.g.frames.head?) = true ∧
    isReady (armT (framed true 0 0)) false (nd [9, 11] [10] []) (fun a => (a.g.search 0 0x123 false).code == 1 && (agSig a (.perform 10 9 11)).g.quiet && !(armT (framed true 0 0)).groupBusy 1 0) = true ∧
    isReady (armT (framed false 2 0)) false (nd [9, 11] [10] []) (fun a => (a.g.search 0 0x123 false).code == 1 && a.g.frames.map (fun f => f.state) == [2]) = true ∧
    isReady (armT { framed false 0 0 with frames := [], inherited := (framed false 0 0).frames }) false (nd [9, 11] [10] []) (fun a => (a.g.search 0 0x123 false).code == 0x81 &&
      (a.g.enter 0x81 0x123 { rkind := 0, dest := 10, mask := a.arm.active, cspc := 0x1004, clpc := 0, arg := 11 }).isSome) = true ∧
    isReady { armW (fun m => m.put 9 0xF000) with contexts := [{ ctxT with rootMap := 1 }] } false (nd [9, 11] [10] []) (fun a => (match a.g.search a.w.ctx.rootMap 0xF000 false with | .root => true | _ => false) &&
      (match (withSig { armW (fun m => m.put 9 0xF000) with contexts := [{ ctxT with rootMap := 1 }] } a (.perform 10 9 11)).quietArm (agSig a (.perform 10 9 11)) true true with | .ok _ => true | _ => false)) = true ∧
    isReady { armT { groupT with peerLost := true, core := groupT.core.updArm false (fun m => m.put 9 0xF000) } with contexts := [{ ctxT with rootMap := 1 }] } false (nd [9, 11] [10] []) (fun a => a.g.peerLost && (match a.g.search a.w.ctx.rootMap 0xF000 false with | .root => true | _ => false)) = true ∧
    isReady (armW (fun m => (m.put 9 0xFF).put 12 0x100)) false (nd [9, 11] [10] []) (fun a => decide ((a.arm.get 9).toNat < 0x100) && decide ((a.arm.get 12).toNat = 0x100)) = true ∧
    isReady (armW (fun m => m.put 9 0x10000)) false (nd [9, 11] [10] []) (fun a => decide (2 ^ 16 ≤ (a.arm.get 9).toNat)) = true := by decide

/-- PERFORML: a register at and below VREGS; no lane and some lanes; the register full. -/
theorem witness_performl :
    isReady (stateT (.arm 1 0 false) { teamT [{ groupT with core := groupT.core.updArm false (fun m => m.put 9 0x123) }] with vregs := 8 }) false { nd [9, 11] [] [1] with vdst := [8] } (fun a => decide (a.t.vregs ≤ 8) && decide (7 < a.t.vregs) && a.arm.active &&& a.g.core.pget 1 == 0) = true ∧
    isReady (armT (framed false 0 0)) false { nd [9, 11] [] [0] with vdst := [4] } (fun a => a.arm.active &&& a.g.core.pget 0 != 0 && a.arm.mask &&& ~~~ a.g.core.vfullOf 4 == 0 && (a.g.search 0 0x123 false).code == 1) = true := by decide

/-- RESUME, RESUMEK and DROP: a live token of a one-shot frame, and no live token; a multi-shot frame with its snapshot; a token of a frame that is not entered. -/
theorem witness_tokens :
    isReady (armT inHandler) false (nd [56, 12] [] []) (fun a => match (agSig a (.resume 56 12)).g.liveToken (a.arm.get 56) with
      | some (c, f) => c == 1 && f.state == 1 && !f.k && a.g.frames.length == f.hdep && decide (a.g.queue.length + f.queue.length ≤ 16) && f.rkind == 0 && f.lqrem == 0 && f.dest == 10 | none => false) = true ∧
    isReady (armT inHandler) false (nd [12] [] []) (fun a => (agSig a (.drop 12)).g.liveToken (a.arm.get 12) == none) = true := by decide
/-- The group that has entered a multi-shot frame. -/
def inMulti : Group := match exec (.perform 10 9 11) (armT (framed true 0 0)) with | .next u => (u.group? 1 0).getD groupT | _ => groupT
theorem witness_resumek : isReady (armT inMulti) false (nd [56, 12] [13] []) (fun a => match (agSig a (.resumek 13 56 12)).g.liveToken (a.arm.get 56) with
      | some (_, f) => f.state == 1 && f.k && a.g.frames.length == f.hdep && f.slot == some 0 && (a.g.slot 0).cont.isSome && (agSig a (.resumek 13 56 12)).g.quiet && !(armT inMulti).groupBusy 1 0 | none => false) = true := by decide

/-- A write of the arm that has been issued, to its scratchpad. -/
def keptT : HeldWrite :=
  { id := 7, po := 1, owner := some (1, 0, false), both := false, t := { va := 0xFFFFFF0000000000, loc := .spad 1 0, pte := 0, size := 1 }, runs := [(0, [5])], ctx := some 0, view := none,
    rel := none, wide := false, sys := false, mask := 0, core := some 0 }
theorem witness_kept_writes : (let s : State := { stateT .none (teamT [groupT]) with heldWrites := [keptT] }
    keptT.runs == [(keptT.t.loc.addr, [5])] && !s.hostHas keptT && !s.mustFollow (1, 0, false) keptT && !s.relFollows (1, 0, false) keptT && s.heldWrites.find? (fun x => x.id == 7) == some keptT && !s.dieStopped 0 &&
    (match s.bindBefore (1, 0, false) keptT.po (fun t => keptT.meets t.loc t.size) with | some v => v.alive (1, 0, false) && !(v.putWrite keptT).poison | none => false)) = true := by decide

/-- Teams with their chunks in place and in their save area; an arrival at an open phase, at one that the sequencer has not met, and one that names it; a phase whose sequencer does not run. -/
theorem witness_places : (let t := teamT [groupT]
    !t.imaged && !t.stored && { t with place := .preempted 0 }.imaged && { t with stored := true }.stored && (stateT .none t).ctx? 0 == some ctxT &&
    !(t.bar 2).seqArrived && (t.bar 2).pword == none && (0x100010000 : Word).getLsbD 16 && ({ t.seq with run := 2 } : Seq).run != 0) = true := by decide


/-! ### Witnesses: packets, forks, ends of groups, faults -/

/-- The words of a packet, in eight registers from s8. -/
def packetRegs (w : BitVec 512) (m : Arm) : Arm := (List.range 8).foldl (fun (m : Arm) k => m.put (BitVec.ofNat 6 (8 + k)) (w.extractLsb' (64 * k) 64)) m

/-- Its eight registers hold a packet of `i`, and what holds of its operation in the state after SIG. -/
def packetIs (w : BitVec 512) (p : State → Ag → CopyOp → CopyPacket → Bool) : Bool :=
  isReady (armW (packetRegs w)) false (nd [8, 9, 10, 11, 12, 13, 14, 15] [] []) (fun a =>
    let s := withSig (armW (packetRegs w)) a (.tcpr 8)
    match s.quietArm (agSig a (.tcpr 8)) false true, decodePacket (BitVec.ofNat 512 (leNat ((List.range 8).flatMap (fun k => leBytes 8 (a.arm.get (8 + BitVec.ofNat 6 k)).toNat)))) with
    | .ok u, .ok j => (match copyOf j with | some (op, q) => p u a op q | none => false)
    | _, _ => false)

/-- A copy of `n` bytes within the scratchpad to offset `d`. -/
def copyWord (n d : Nat) : BitVec 512 := encPacket .copy (pkt (BitVec.ofNat 32 n) own (own + BitVec.ofNat 64 d))

/-- Packets: one that does not decode, one that lies beyond its chunks, one that issues; a misaligned TCP, a TCP that reads its packet, a TCPR of s0. -/
theorem witness_packets :
    isReady (armT groupT) false (nd [8, 9, 10, 11, 12, 13, 14, 15] [] []) (fun a => match decodePacket (BitVec.ofNat 512 (leNat ((List.range 8).flatMap (fun k => leBytes 8 (a.arm.get (8 + BitVec.ofNat 6 k)).toNat)))) with | .error _ => true | .ok _ => false) = true ∧
    packetIs (copyWord 32 0x10000) (fun u a op q => match u.packetRanges a.t op q with | .fault _ _ => true | _ => false) = true ∧
    packetIs (copyWord 32 0x100) (fun u a op q => match u.packetRanges a.t op q with
      | .ok rs _ => !q.tokenEn && u.canRegister rs && (match u.checkTile a.t op q with | .ok => true | _ => false) && op != .regfill | _ => false) = true ∧
    isReady (armT groupT) false (nd [8] [] []) (fun a => decide ((a.arm.get 8).toNat % 64 ≠ 0)) = true ∧
    isReady (armT groupT) false (nd [] [] []) (fun _ => true) = true ∧
    accessAt (mapped (armW (fun m => m.put 8 0x100))) (.tcp 8) .load 0x100 64 (fun s a _ => match s.quietArm a false true with
      | .ok s2 => s.heldPacket a == none && (match s2.readBlock a 0x100 with | .ok _ _ => true | _ => false) | _ => false) false (nd [8] [] []) = true := by decide

/-- A packet that has been read and waits, with its token busy, and one that may start. -/
def heldT (w : BitVec 512) : HeldPacket :=
  match decodePacket w with
  | .ok j => (match copyOf j with | some (op, q) => { team := 1, grp := 0, armB := false, op, pkt := q } | none => { team := 0, grp := 0, armB := false, op := .copy, pkt := pkt 0 0 0 })
  | .error _ => { team := 0, grp := 0, armB := false, op := .copy, pkt := pkt 0 0 0 }
def heldPacketS : State := { armW (packetRegs (copyWord 32 0x100)) with heldPackets := [heldT (copyWord 32 0x100)] }
theorem witness_held_packet : isReady heldPacketS false (nd [8, 9, 10, 11, 12, 13, 14, 15] [] []) (fun a =>
    match (withSig heldPacketS a (.tcpr 8)).heldPacket a with
    | some h => h.team == a.t.id && !h.pkt.tokenEn && (match (withSig heldPacketS a (.tcpr 8)).packetRanges a.t h.op h.pkt with | .ok rs _ => heldPacketS.canRegister rs | _ => false) && (match heldPacketS.checkTile a.t h.op h.pkt with | .ok => true | _ => false) && h.op != .regfill | none => false) = true := by decide

/-- FORK: a misaligned descriptor, a misaligned record, depth 8; a descriptor that is read, allowed and not allowed; one that disagrees with the round. -/
def forkS (f : Team → Team) (m : Memory) : State := mapped { stateT (.arm 1 0 false) (f (teamT [{ groupT with core := groupT.core.updArm false (fun m => (m.put 1 0x100).put 2 0x200) }])) with mem := m }
def forkReads (s : State) (p : State → Ag → ForkRound → Bool) : Bool :=
  isReady s false (nd [1, 2] [3] []) (fun a => match (withSig s a (.fork 3 1 2)).readBlock (agSig a (.fork 3 1 2)) 0x100 with
    | .ok s2 bs => !a.g.core.split && a.t.depth != 8 && p s2 (agSig a (.fork 3 1 2)) { last := 0, a := 0x100, j := 0x200, desc := BitVec.ofNat 512 (leNat bs) } | _ => false)
theorem witness_fork :
    isReady (forkS id []) false (nd [3, 2] [1] []) (fun a => decide ((a.arm.get 3).toNat % 64 ≠ 0)) = true ∧
    isReady (forkS id []) false (nd [1, 4] [3] []) (fun a => decide ((a.arm.get 1).toNat % 64 = 0) && decide ((a.arm.get 4).toNat % 64 ≠ 0)) = true ∧
    isReady (forkS (fun t => { t with depth := 8 }) []) false (nd [1, 2] [3] []) (fun a => decide ((a.arm.get 2).toNat % 64 = 0) && a.t.depth == 8) = true ∧
    isReady (armT (splitT id id)) false (nd [1, 2] [3] []) (fun a => a.g.core.split) = true ∧
    forkReads (forkS id []) (fun _ a r => a.t.round == none && !forkDescOk r.desc) = true ∧
    forkReads (forkS id [(0x100, 1), (0x104, 1), (0x109, 0x10)]) (fun u a r => a.t.round == none && forkDescOk r.desc && (match u.quietArm a true true with | .ok _ => true | _ => false)) = true ∧
    forkReads (forkS (fun t => { t with round := some ⟨0, 0x140, 0x200, 0⟩ }) []) (fun _ a r => match a.t.round with | some l => l != r | none => false) = true := by decide

/-- A set of a launch. -/
def newSetT : ChildSet :=
  { id := 1, kind := .openLaunch, ctx := 0, grid := 1, parent := none, parentView := none, depth := 0, count := 1, groups := 1, tpf := 0, mirror := false, inherit := [], scope := 0, home := 0, entry := 0x1000, laneBase := 0x2000, matEntry := 0, args := 0, quota := 0, res := 0, prio := 0, reserved := 0, recAddr := 0, recSent := false, phase := .running, nextChild := 1, ended := [], fault := none, held := [], twins := [], staged := [], conflicts := 0, conflict := none, mirrorBad := false, granules := 0, poisoned := none, status := 0, sigW := 0, foldW := 0 }

/-- A group that may retire. -/
theorem witness_retire : (let s := stateT .none (teamT [{ groupT with exiting := true }])
    (s.team? 1).isSome && (s.ctx? 0).isSome && s.teamLive (teamT [{ groupT with exiting := true }]) && !s.groupOut 1 0 &&
    (match s.group? 1 0 with | some y => y.exiting && !y.retired && y.queue.length == 0 && !((teamT []).bar 3).pend.getLsbD 0 | none => false)) = true := by decide

/-- A group with a frame of its own for device effect `e`. -/
def device (e : BitVec 16) : Group := { groupT with frames := [newFrame Frame.zero e false false none 0x4000 0 (Vector.replicate 8 77)] }
/-- A lane fault at the head of the queue: no frame, and a frame for it; a code without an effect. -/
theorem witness_lane_fault :
    let q : Group := { groupT with queue := [entryT .vnop], frozen := some ⟨0x09, 1, 0x40, false, false, false⟩ }
    let ok : Group → (Group → Bool) → Bool := fun y p => let s := stateT .none (teamT [y])
      (match y.frozen with | some f => s.mayDeliver (teamT [y]) y f | none => false) && !y.retired && y.faultIdx == some 0 && !(y.core.arm false).inWait && p y
    ok q (fun y => match y.search 0 2 true with | .none => true | _ => false) = true ∧
    ok { q with frozen := some ⟨0x01, 1, 0x40, false, false, false⟩ } (fun y => (y.frozen.map (fun f => f.code)) == some 1) = true ∧
    ok { q with frames := (device 2).frames } (fun y => (match y.search 0 2 true with | .own c => c == 1 | _ => false) && !y.core.split && y.own? 1 == y.frames.head?) = true := by decide

/-- Faults of an arm: no handler, in a team of a launch and in a fork child; each device effect with its handler. -/
theorem witness_faults :
    (match (armT groupT).agent 1 0 false with | some a => (a.g.search 0 (BitVec.ofNat 16 (effectOf 0x01 false)) true |> fun r => effectOf 0x01 false == 0 || (match r with | .none => true | _ => false)) && !(armT groupT).isForkChild a.t && !a.g.retired && (armT groupT).ctx? 0 == some ctxT | none => false) = true ∧
    (match ({ armT groupT with sets := [{ newSetT with kind := .rootFork }] } : State).agent 1 0 false with | some a => ({ armT groupT with sets := [{ newSetT with kind := .rootFork }] } : State).isForkChild a.t | none => false) = true ∧
    [(0x09, 0x0002, false), (0x04, 0x0010, false), (0x06, 0x0011, false), (0x13, 0x0012, true)].all (fun (x : Nat × Nat × Bool) =>
      match (armT (device (BitVec.ofNat 16 x.2.1))).agent 1 0 false with
      | some a => effectOf x.1 x.2.2 == x.2.1 && !a.g.retired && !a.g.core.split && !a.b && a.t.id == 1 && (match a.g.search 0 (BitVec.ofNat 16 x.2.1) true with | .own c => c == 1 | _ => false)
      | none => false) = true := by decide


/-! ### Witnesses: lane instructions -/

/-- The lane engine has an entry of arm A for `i`, at the head of its queue, of which `p` holds. -/
def laneAt (s : State) (i : Instr) (p : Ag → QEntry → Bool) : Bool :=
  match s.agent 1 0 false with
  | some a => s.sel == .lane 1 0 false && s.laneLive a && (match a.g.nextEntry false with | some (0, e) => e.instr == i && p a e | _ => false)
  | none => false

/-- v0 is empty in lane 1. -/
def holed (g : Group) : Group := { g with core := g.core.vmark 0 2 false }

/-- No register of a row blocks, and the lanes that trap are `t`. -/
def runsWith (opc : Nat) (f : LaneFields) (t : Half) (a : Ag) (e : QEntry) : Bool :=
  let act := e.active &&& (if f.pneg then ~~~ a.g.core.pget f.pred.toNat else a.g.core.pget f.pred.toNat)
  blockLanes a.g.core e.scope act (rowOps opc f) == 0 && trapLanes a.g.core act (rowOps opc f) == t

/-- Arithmetic, conversions and predicates: an entry that runs in all lanes, one that blocks, one that traps in a lane. -/
theorem witness_lane_results :
    laneAt (laneS (laneG (.vadd (fT .i32)) (lanesT 1 2) (lanesT 3 4))) (.vadd (fT .i32)) (runsWith 0x001 (fT .i32) 0) = true ∧
    laneAt (laneS (holed (laneG (.vadd (fT .i32)) (lanesT 1 2) (lanesT 3 4)))) (.vadd (fT .i32)) (fun a e => blockLanes a.g.core e.scope 0xFFFFFFFF (rowOps 0x001 (fT .i32)) != 0) = true ∧
    laneAt (laneS (holed (laneG (.vadd { fT .i32 with feb := 1 }) (lanesT 1 2) (lanesT 3 4)))) (.vadd { fT .i32 with feb := 1 }) (runsWith 0x001 { fT .i32 with feb := 1 } 2) = true ∧
    laneAt (laneS (laneG (.vadd (fT .i64)) (lanesT 1 2) (lanesT 3 4))) (.vadd (fT .i64)) (runsWith 0x001 (fT .i64) 0) = true ∧
    laneAt (laneS (laneG (.vfadd (fT .f32)) (lanesT 1 2) (lanesT 3 4))) (.vfadd (fT .f32)) (runsWith 0x080 (fT .f32) 0) = true ∧
    laneAt (laneS (laneG (.vbfi (fT .b64)) (lanesT 1 2) (lanesT 3 4))) (.vbfi (fT .b64)) (runsWith 0x01A (fT .b64) 0) = true ∧
    laneAt (laneS (laneG (.vcmpLt { fT .i32 with dst := 1 }) (lanesT 1 2) (lanesT 3 4))) (.vcmpLt { fT .i32 with dst := 1 }) (runsWith 0x102 { fT .i32 with dst := 1 } 0) = true ∧
    laneAt (laneS (laneG (.vcvt { fT .i32 with ext := 8 }) (lanesT 1 2) (lanesT 3 4))) (.vcvt { fT .i32 with ext := 8 }) (fun a e => ({ fT .i32 with ext := 8 }).srcType == some .f32 && runsWith 0x110 { fT .i32 with ext := 8 } 0 a e) = true ∧
    laneAt (laneS (laneG (.vpack { fT .i4 with ext := 0x102 }) (lanesT 1 2) (lanesT 3 4))) (.vpack { fT .i4 with ext := 0x102 }) (fun a e => (packInfo .i4).isSome && runsWith 0x111 { fT .i4 with ext := 0x102 } 0 a e) = true := by decide

/-- What an access of lane instruction `i` with fields `f` has when it runs. -/
def memRuns (s : State) (i : Instr) (opc : Nat) (f : LaneFields) (p : LC → Bool) : Bool :=
  laneAt s i (fun a e => runsWith opc f 0 a e && p { a := { a with both := e.both }, idx := 0, e, f, act := e.active &&& a.g.core.pget 0 })

/-- Loads: lanes that pass, a lane that fails beside one that passes, no lane at all; the wide load. -/
theorem witness_lane_loads :
    memRuns (laneS (memG (.vld (mT .f32)))) (.vld (mT .f32)) 0x180 (mT .f32) (fun x => let s := laneS (memG (.vld (mT .f32))); let ts := passed (s.laneAccs x .load 4)
      (s.laneHold x ts false).isNone && ts.length == 2 && ts.all (fun t => !t.2.causal)) = true ∧
    memRuns (laneS { memG (.vld (mT .f32)) with queue := [{ entryT (.vld (mT .f32)) with active := 3, bcA := own + 2 }] }) (.vld (mT .f32)) 0x180 (mT .f32) (fun x => let s := laneS (memG (.vld (mT .f32)))
      (passed (s.laneAccs x .load 4)).length == 0 && (failed (s.laneAccs x .load 4)).isSome && (s.laneHold x [] false).isNone) = true ∧
    memRuns (laneS { memG (.vldw { mT .f32 with ext := 0 }) with queue := [{ entryT (.vldw { mT .f32 with ext := 0 }) with bcA := own }] }) (.vldw { mT .f32 with ext := 0 }) 0x182 { mT .f32 with ext := 0 } (fun x => let s := laneS (memG (.vldw (mT .f32)))
      x.act != 0 && (s.laneHold x [] false).isNone && (match s.check x.a.w .load (x.e.bcA + ({ mT .f32 with ext := 0 } : LaneFields).disp) 128 with | .ok t => t.loc == .spad 1 0 | .error _ => false)) = true ∧
    memRuns (laneS { memG (.vldw (mT .f32)) with queue := [{ entryT (.vldw (mT .f32)) with active := 0 }] }) (.vldw (mT .f32)) 0x182 (mT .f32) (fun x => x.act == 0) = true ∧
    memRuns (laneS (memG (.vpref (mT .f32)))) (.vpref (mT .f32)) 0x184 (mT .f32) (fun _ => true) = true := by decide

/-- One line of a lane store, whose lanes pass: it ends, whether its write is performed as the entry executes or later. -/
theorem one_line {s : State} {x : LC} {size : Nat} {v : Nat → Nat} {g : List (Nat × Target)} (n : Nat) (t : Target) (ts : List (Nat × Target))
    (hp : passed (g.map (fun t => ({ lane := t.1, va := toWord t.2.va, res := s.check x.a.w .store (toWord t.2.va) size } : LaneAcc))) = (n, t) :: ts)
    (hb : (g.map (fun t => ({ lane := t.1, va := toWord t.2.va, res := s.check x.a.w .store (toWord t.2.va) size } : LaneAcc))).filter (fun y => !y.ok) = [])
    (ho : s.ordered x.a (lineTarget t ts) = false)
    (h : storeEither s x.a x.e.po (lineTarget t ts) (mergeRuns (((n, t) :: ts).map (fun p => (p.2.loc.addr, leBytes size (v p.1))))) (maskOf (((n, t) :: ts).map (fun p => p.1))) false x.a.arm.relSys (goesOn x.a) = true) :
    ∃ u, s.storeLines x size v [g] [] [] = .done u := by
  have e := either_store h
  simp only [goesOn, Bool.and_eq_true, Bool.not_eq_true'] at e
  simp only [State.storeLines, hp, hb, ho, e.1, e.2, Bool.false_eq_true, if_false, List.append_nil]
  exact ⟨_, rfl⟩

/-- A store of two lanes: to the scratchpad, and to a CAUSAL page. -/
def vstF : LaneFields := { mT .b32 with dst := 0, sc := 2 }
def vstS (base : Word) : State := { laneS { memG (.vst vstF) with queue := [{ entryT (.vst vstF) with active := 3, bcA := base }] } with tlb1 := [{ unit := 0, ctx := 0, va := 0x40000, pte := causalPte }] }

/-- Stores and atomics: the lanes pass, and nothing of the arm is in their way. -/
theorem witness_lane_stores :
    memRuns (vstS own) (.vst vstF) 0x181 vstF (fun x => let s := vstS own; let acc := s.laneAccs x .store 4; let ts := passed acc
      !x.a.lostPeer false && (s.laneHold x ts true).isNone && !ts.any (fun t => s.relHold x.a x.e.po t.2 false false) && !ts.any (fun t => s.ordered x.a t.2) && !s.gone x.a &&
      (byLine false ts).length == 1 && (acc.filter (fun y => !y.ok)).length == 0 &&
      (match ts with | (n, t) :: l => !s.ordered x.a (lineTarget t l) && storeEither s x.a x.e.po (lineTarget t l) (mergeRuns (((n, t) :: l).map (fun p => (p.2.loc.addr, leBytes 4 (x.sc x.a.g.core p.1))))) 3 false x.a.arm.relSys (goesOn x.a) | [] => false)) = true ∧
    memRuns (vstS 0x41000) (.vst vstF) 0x181 vstF (fun x => let s := vstS 0x41000; let ts := passed (s.laneAccs x .store 4)
      (s.laneHold x ts true).isNone && ts.any (fun t => s.ordered x.a t.2) && !s.laneBlocked x ts && !ts.any (fun t => s.relHold x.a x.e.po t.2 false false) && (match s.laneBind x ts with
        | some s2 => !s2.gone x.a && (match s2.storeLines x 4 (fun l => x.sc x.a.g.core l) (byLine false ts) [] [] with | .done _ => true | _ => false) | none => false)) = true ∧
    memRuns (vstS (own + 2)) (.vst vstF) 0x181 vstF (fun x => let s := vstS (own + 2); let acc := s.laneAccs x .store 4
      passed acc == [] && (s.laneHold x [] true).isNone && !s.gone x.a && (match s.storeLines x 4 (fun l => x.sc x.a.g.core l) (byLine false (passed acc)) (acc.filter (fun y => !y.ok)) [] with | .fault _ _ _ _ => true | _ => false)) = true ∧
    memRuns (laneS { memG (.vst vstF) with peerLost := true, core := (memG (.vst vstF)).core.updArm false (fun m => { m with relSys := true }) }) (.vst vstF) 0x181 vstF (fun x =>
      let s := vstS own; x.a.lostPeer false && (passed (s.laneAccs x .store 4)).length == 2) = true ∧
    memRuns (laneS (memG (.vamoAdd { mT .i32 with sb := 448, sc := 2 }))) (.vamoAdd { mT .i32 with sb := 448, sc := 2 }) 0x191 { mT .i32 with sb := 448, sc := 2 } (fun x => let s := laneS (memG (.vamoAdd { mT .i32 with sb := 448, sc := 2 })); let ts := passed (s.laneAccs x .vatomic 4)
      !x.a.lostPeer false && (s.laneHold x ts true).isNone && !ts.any (fun t => s.relHold x.a x.e.po t.2 false false) && !ts.any (fun t => s.ordered x.a t.2) && !s.gone x.a && ts.length == 2) = true ∧
    memRuns (laneS (memG (.vamoAmaxrst { mT .b64 with sb := 448, sc := 2 }))) (.vamoAmaxrst { mT .b64 with sb := 448, sc := 2 }) 0x19B { mT .b64 with sb := 448, sc := 2 } (fun x => let s := laneS (memG (.vamoAmaxrst { mT .b64 with sb := 448, sc := 2 })); let ts := passed (s.laneAccs x .vatomic 8)
      !ts.isEmpty && (s.laneHold x ts true).isNone && !ts.any (fun t => s.relHold x.a x.e.po t.2 false false) && !ts.any (fun t => s.ordered x.a t.2) && (match s.laneQuiet x with | some s2 => !s2.gone x.a | none => false)) = true := by decide

/-- The lines of that store: the lanes of its one line pass. -/
theorem witness_one_line : memRuns (vstS own) (.vst vstF) 0x181 vstF (fun x => let s := vstS own
    match byLine false (passed (s.laneAccs x .store 4)) with
    | [g] => (passed (g.map (fun t => ({ lane := t.1, va := toWord t.2.va, res := s.check x.a.w .store (toWord t.2.va) 4 } : LaneAcc)))).length == 2
    | _ => false) = true := by decide

/-- A tile of 8 rows of 8 words at offset 0, which v0 and v2 address. -/
def tileS (i : Instr) : State := stateT (.lane 1 0 false) { teamT [{ laneG i (lanesT 0 1) (lanesT 2 3) with queue := [{ entryT i with active := 3 }] }] with tiles := [{ off := 0, rows := 8, cols := 8, elem := 0x08, ops := false, state := .ready }, Tile.none_] }
def tF : LaneFields := { fT .f32 with ext := 0 }
theorem witness_tile_windows :
    memRuns (tileS (.vtld tF)) (.vtld tF) 0x200 tF (fun x => let s := tileS (.vtld tF); (passed (s.tileAccs x .load)).length == 2) = true ∧
    memRuns (tileS (.vtst { tF with dst := 0 })) (.vtst { tF with dst := 0 }) 0x201 { tF with dst := 0 } (fun x => let s := tileS (.vtst tF); (passed (s.tileAccs x .store)).length == 2 && (s.laneHold x (passed (s.tileAccs x .store)) true).isNone && !s.gone x.a) = true := by decide

/-- Exchanges: the lane read is empty, it is empty under FEB, and it is full; a split group reads a lane of the other arm; ballots and reductions into a scalar register. -/
theorem witness_exchanges :
    laneAt (laneS (holed (laneG (.qswap { fT .b32 with ext := 1, sb := 0 }) (lanesT 1 2) (lanesT 3 4)))) (.qswap { fT .b32 with ext := 1, sb := 0 }) (fun a e => (xchgPre 0x140 { fT .b32 with ext := 1, sb := 0 } a.g e e.active).1 != 0) = true ∧
    laneAt (laneS (holed (laneG (.qswap { fT .b32 with ext := 1, sb := 0, feb := 1 }) (lanesT 1 2) (lanesT 3 4)))) (.qswap { fT .b32 with ext := 1, sb := 0, feb := 1 }) (fun a e => let r := xchgPre 0x140 { fT .b32 with ext := 1, sb := 0, feb := 1 } a.g e e.active; r.1 == 0 && r.2 != 0) = true ∧
    laneAt (laneS (laneG (.vshfl { fT .b32 with ext := 2 }) (lanesT 1 2) (lanesT 3 4))) (.vshfl { fT .b32 with ext := 2 }) (fun a e => let r := xchgPre 0x142 { fT .b32 with ext := 2 } a.g e e.active; r.1 == 0 && r.2 == 0 && decide (({ fT .b32 with ext := 2 } : LaneFields).mode < 4)) = true ∧
    laneAt (laneS (laneG (.vballot { fT .b32 with sa := 0, sb := 0, dst := 0, ext := 0x700 }) (lanesT 1 2) (lanesT 3 4))) (.vballot { fT .b32 with sa := 0, sb := 0, dst := 0, ext := 0x700 }) (fun a e => !a.t.imaged && !e.sdDrop && !e.both && e.saved == none && ({ fT .b32 with ext := 0x700 } : LaneFields).sd) = true ∧
    laneAt (laneS (laneG (.vballot { fT .b32 with sa := 0, sb := 0 }) (lanesT 1 2) (lanesT 3 4))) (.vballot { fT .b32 with sa := 0, sb := 0 }) (fun a e => !({ fT .b32 with sa := 0, sb := 0 } : LaneFields).sd && blockLanes a.g.core e.scope e.active (dstOp 4 false) == 0) = true ∧
    laneAt (laneS (laneG (.vred { fT .i32 with sb := 0, dst := 0, ext := 0x700 }) (lanesT 1 2) (lanesT 3 4))) (.vred { fT .i32 with sb := 0, dst := 0, ext := 0x700 }) (fun a e => xchgPre 0x144 { fT .i32 with sb := 0, dst := 0, ext := 0x700 } a.g e e.active == (0, 0)) = true := by decide

/-- A list of 32 slots, some of them without a value. -/
theorem witness_reduction : (List.replicate 31 (none : Option Int) ++ [some 3]).length = 32 ∧ treeRed { fT .i32 with ext := 1 } (List.replicate 31 (none : Option Int) ++ [some 3]) = some 3 := by decide
/-- OPC values: VNOP, and the first and the last of each gap. -/
theorem witness_opc : laneOpc 0x3FF = 0x3FF ∧ laneOpc 0 = 0 ∧ laneOpc 0x00C = 0x00C ∧ laneOpc 0x3FE = 0x3FE ∧ laneOpc 0x107 = 0x107 ∧ laneOpc 0x202 = 0x202 := by decide

/-- The lanes of an atomic that has been issued, one of which may be performed now. -/
theorem witness_lane_atomic : after (exec (.vamoAdd { mT .i32 with sb := 448, sc := 2 }) (laneS (memG (.vamoAdd { mT .i32 with sb := 448, sc := 2 })))) (fun u =>
    match u.pending, u.agent 1 0 false with
    | [p], some a => (match p.items with
      | i :: _ => i.upd.isSome && !i.remote && i.val == none && i.t.loc == .spad 1 0 && !u.dieStopped (a.w.core / 32) && u.canRead p i && (u.bindBefore p.key p.po (p.touches (p.withItem 0))).isSome &&
          (match i.upd with | some r => !r.acqRel | none => false) && (match u.team? 1 with | some x => !x.imaged && !x.stored | none => false)
      | [] => false)
    | _, _ => false) = true := by decide


/-! ### Witnesses: the sequencer and the copy engine -/

/-- The sequencer of team 1 may issue a word of these accumulators and tiles, of which `p` holds. -/
def matAt (s : State) (accs tiles : List Nat) (p : Team → Bool) : Bool :=
  match s.team? 1 with
  | some x => s.sel == .matrix 1 && s.seqLive x && accs.all (fun a => decide (a < x.nacc)) && tiles.all (fun i => decide (i < x.ntiles)) && p x
  | none => false

/-- The same state with tiles 0 and 1, and flights. -/
def tileM (a b : Tile) (f : Seq → Seq) : State := stateT (.matrix 1) { teamT [groupT] with tiles := [a, b], seq := f (Seq.fresh 0x3000) }
/-- A tile of `r` rows and `c` columns in bf16, in the scratchpad or the operand store. -/
def tile16 (r c : Nat) (ops : Bool) : Tile := { off := 0, rows := r, cols := c, elem := 0x0A, ops, state := .ready }
/-- A k-step in flight. -/
def mopT (i : Instr) (tiles : List Nat) : MOp := { id := 9, team := 1, instr := i, tiles, off := 0, mpc := 0x3000, rowsDone := 0, pmax := 0, faulted := false, suspended := false, ranges := [] }

/-- Control words: a barrier whose MMARK is pending and one whose is not, loops of no, some and too many levels, and MNEXT at its place and elsewhere. -/
theorem witness_matrix_control :
    matAt (matS id) [] [] (fun x => !(x.bar 3).seqArrived && x.seq.levels.length == 0) = true ∧
    matAt (stateT (.matrix 1) { teamT [groupT] with bars := List.replicate 16 { Barrier.fresh with seqArrived := true } }) [] [] (fun x => (x.bar 3).seqArrived) = true ∧
    matAt (matS (fun q => { q with levels := List.replicate 2 ⟨1, 0, 0, 0, 0, 0, 0⟩ })) [] [] (fun x => x.seq.levels.length == 2) = true ∧
    matAt (matS (fun q => { q with levels := [⟨1, 0x3000, 0x3000, 0, 0, 0, 0⟩] })) [] [] (fun x => x.seq.levels.map (fun l => l.next == x.seq.mpc && l.count == 1) == [true]) = true ∧
    matAt (matS (fun q => { q with levels := [⟨2, 0x3000, 0x3000, 0, 0, 0, 0⟩] })) [] [] (fun x => x.seq.levels.map (fun l => l.next == x.seq.mpc && l.count != 1) == [true]) = true ∧
    matAt (matS (fun q => { q with levels := [⟨2, 0x3000, 0x3008, 0, 0, 0, 0⟩] })) [] [] (fun x => x.seq.levels.all (fun l => l.next != x.seq.mpc)) = true ∧
    matAt (matS id) [] [] (fun x => (matS id).canRegister [{ core := x.coreNum, space := .spad x.id, lo := 8, hi := 16, write := false }]) = true := by decide

/-- Chains: closed, open, and an accumulator beyond the request; marks and releases: an operation in flight, a phase that names the sequencer; tiles in each state. -/
theorem witness_chains :
    matAt (matS id) [1] [] (fun x => !x.seq.opened.getLsbD 1) = true ∧ matAt (matS (fun q => { q with opened := 2 })) [1] [] (fun x => x.seq.opened.getLsbD 1) = true ∧
    matAt (matS id) [] [] (fun x => decide (x.nacc ≤ 2) && decide (x.ntiles ≤ 2)) = true ∧
    matAt (matS id) [] [] (fun x => !(matS id).mops.any (fun m => m.team == x.id) && (x.bar 3).pword == none) = true ∧
    matAt { matS id with mops := [mopT .mnop []] } [] [] (fun x => ({ matS id with mops := [mopT .mnop []] } : State).mops.any (fun m => m.team == x.id)) = true ∧
    matAt (stateT (.matrix 1) { teamT [groupT] with bars := List.replicate 16 { Barrier.fresh with pword := some 0x100010000 } }) [] [] (fun x => (x.bar 3).pword == some 0x100010000 && !(x.bar 3).seqArrived) = true ∧
    [TileState.ready, .filling, .empty].all (fun st => matAt (tileM { Tile.none_ with state := st } Tile.none_ id) [] [0] (fun x => (x.tile 0).state == st && !(matS id).mopNames x.id 0)) = true := by decide

/-- MSTEP: tiles that fit, one that is FILLING, and a chain that is closed. -/
theorem witness_mstep :
    (let s := tileM (tile16 2 32 false) (tile16 32 2 true) (fun q => { q with opened := 1 })
     matAt s [0] [0, 1] (fun x => let a := x.tile 0; let b := x.tile 1
      a.state == .ready && b.state == .ready && x.seq.opened.getLsbD 0 && !a.ops && b.ops && a.elem == 0x0A && b.elem == 0x0A && decide (a.rows ≤ 128) && decide (32 ≤ a.cols) && decide (32 ≤ b.rows) &&
      s.canRegister [x.tileRng a false, x.tileRng b false])) = true ∧
    matAt (tileM { tile16 2 32 false with state := .filling } (tile16 32 2 true) (fun q => { q with opened := 1 })) [0] [0, 1] (fun x => (x.tile 0).state != .ready) = true ∧
    matAt (tileM (tile16 2 32 false) (tile16 32 2 true) id) [0] [0, 1] (fun x => (x.tile 0).state == .ready && (x.tile 1).state == .ready && !x.seq.opened.getLsbD 0) = true := by decide

/-- Planes: an element, and none; element (127, 127) is the last. -/
theorem witness_planes : cellWf ([(0, 1), (16383, 2)] : Plane) = true ∧ ([(0, 1), (16383, 2)] : Plane).all (fun e => decide (e.1 < 16384)) = true ∧ cellWf ([] : Plane) = true := by decide

/-- MOUT and MAMAX: an open chain, a block beyond the chunks, a tile that is EMPTY or READY; an address that fails its check, and one of the scratchpad. -/
theorem witness_results :
    matAt (matS id) [0] [1] (fun x => decide (64 * (0 : Nat) + 8 ≤ 4096 * x.spch) && !x.seq.opened.getLsbD 0 && (x.tile 1).state == .empty &&
      (matS id).canRegister [{ core := x.coreNum, space := .spad x.id, lo := 0, hi := 8, write := true }]) = true ∧
    matAt (tileM Tile.none_ (tile16 2 2 false) id) [0] [1] (fun x => (x.tile 1).state == .ready && !(matS id).copyNames x.id 1 && !(matS id).mopNames x.id 1) = true ∧
    matAt (matS id) [0] [1] (fun x => decide (4096 * x.spch < 64 * 65535 + 1)) = true ∧
    matAt (matS (fun q => { q with opened := 1 })) [0] [1] (fun x => x.seq.opened.getLsbD 0 && decide (64 * (0 : Nat) + 8 ≤ 4096 * x.spch)) = true ∧
    matAt (matS (fun q => { q with ms := q.ms.set 2 own })) [0] [] (fun x => match (matS id).who x with
      | some w => (match (matS id).check w .vatomic (x.seq.ms.getD 2 0) 4 with | .ok t => !t.causal && t.loc == .spad 1 0 | .error _ => false) | none => false) = true ∧
    matAt (matS (fun q => { q with ms := q.ms.set 2 (own + 2) })) [0] [] (fun x => match (matS id).who x with
      | some w => (match (matS id).check w .vatomic (x.seq.ms.getD 2 0) 4 with | .ok _ => false | .error c => c != 0x06) | none => false) = true := by decide

/-- Operations that complete: a k-step, and a MOUT into a tile. -/
theorem witness_operations :
    [Instr.mstep 0 0 1 0 0, .mout .bf16 false false 0 1 0 0 0 0].all (fun i => let s := { stateT .none { teamT [groupT] with spad := [(0, 1)] } with mops := [mopT i [1]] }
      (match s.team? 1, s.mops.find? (fun (y : MOp) => y.team == 1) with
       | some x, some m => s.teamLive x && m.instr == i && m.rowsDone == 0 && !m.faulted && s.mops.find? (fun (y : MOp) => y.id == m.id) == some m && x.spad.wf && decide (1 < x.tiles.length) | _, _ => false)) = true := by decide

/-- The state selects copy 7, of packet `p`, which has bytes left, and `k` holds. -/
def copyAt (s : State) (op : CopyOp) (p : CopyPacket) (k : CopyRec → Team → Ag → Bool) : Bool :=
  match s.copy? 7, s.team? 1 with
  | some c, some t => (match s.copyAgent c t with
    | some a => s.sel == .copy 7 && c.op == op && c.pkt == p && c.team == 1 && s.copyLive c && decide (c.progress < (geoOf op p (t.tile (p.tile.toNat % 256))).total) && c.mayMove (geoOf op p (t.tile (p.tile.toNat % 256))) && k c t a
    | none => false)
  | _, _ => false

/-- A write of the engine that succeeds, whether it is performed as it issues or later. -/
def writesOk (s : State) (a : Ag) (va : Nat) (bs : List Byte) (rel : Bool) : Bool :=
  match s.checkCopy a.w .store va bs.length with
  | .ok t => !(s.issuerOut a || (rel && s.writesOut a.key true true) || s.viewWait a.w t) && storeEither (s.keepTrans a t).bump a s.nextId t [(t.loc.addr, bs)] 0 rel false (fun r => !r.poison)
  | .error _ => false

theorem writes_ok {s : State} {a : Ag} {va : Nat} {bs : List Byte} {rel : Bool} (h : writesOk s a va bs rel = true) : ∃ u x, s.copyWrite a va bs rel = .ok u x := by
  unfold writesOk at h
  split at h
  · rename_i t ht
    simp only [Bool.and_eq_true, Bool.not_eq_true'] at h
    have e := either_store h.2
    simp only [Bool.not_eq_true'] at e
    simp only [State.copyWrite, ht, h.1, e, Bool.false_eq_true, if_false]
    exact ⟨_, _, rfl⟩
  · cases h

/-- A read and a write of the engine that succeed. -/
def movesOk (s : State) (a : Ag) (src dst n : Nat) (rel : Bool) : Bool :=
  match s.copyRead a false false src n with
  | .ok u bs => writesOk u a dst bs rel
  | _ => false

theorem witness_row_copies :
    copyAt (copyS .copy (pkt 3 own (own + 0x101)) [(0, 1)] 0) .copy (pkt 3 own (own + 0x101)) (fun _ _ a => movesOk (copyS .copy (pkt 3 own (own + 0x101)) [(0, 1)] 0) a ownWindow (ownWindow + 0x101) 3 true) = true ∧
    copyAt (copyS .copy (pkt 64 0x100 own) [] 0) .copy (pkt 64 0x100 own) (fun _ _ a => match (copyS .copy (pkt 64 0x100 own) [] 0).copyRead a false false 0x100 32 with | .hold _ => false | .fault _ _ => true | .ok _ _ => false) = true ∧
    copyAt (copyS .copy (pkt 64 own 0x100) [] 0) .copy (pkt 64 own 0x100) (fun _ _ a => match (copyS .copy (pkt 64 own 0x100) [] 0).copyRead a false false ownWindow 32 with | .ok u bs => (match u.copyWrite a 0x100 bs false with | .fault _ _ => true | _ => false) | _ => false) = true ∧
    copyAt (copyS .fill (pkt 9 7 (own + 0x100)) [] 0) .fill (pkt 9 7 (own + 0x100)) (fun _ _ a => writesOk (copyS .fill (pkt 9 7 (own + 0x100)) [] 0) a (ownWindow + 0x100) [7, 0, 0, 0, 0, 0, 0, 0, 7] true) = true ∧
    copyAt (copyS .mcast { pkt 2 own (own + 0x40) with mcast := true } [(0, 1)] 0) .mcast { pkt 2 own (own + 0x40) with mcast := true } (fun c _ _ => c.dests == [1]) = true ∧
    (let p := { pkt 0 0 (own + 0x200) with tileEn := true, tile := 1 }
     copyAt { copyS .drain p [] 0 with teams := [{ teamT [groupT] with tiles := [Tile.none_, { tile16 2 8 false with state := .draining }] }] } .drain p (fun _ t _ => p.dst != 0 && decide (p.tile.toNat < 256) && (t.tile 1).cols * (t.tile 1).size == 16)) = true ∧
    (let p := { pkt 0 0 (own + 8) with signal := 0x201 }
     copyAt (copyS .signal p [] 0) .signal p (fun c _ a => !(copyS .signal p [] 0).copies.any (fun x => x.team == c.team && x.grp == c.grp && x.id < c.id) && writesOk (copyS .signal p [] 0) a (ownWindow + 8) (leBytes 8 0x201) true)) = true ∧
    (let p := { pkt 0 0 (own + 8) with signal := 0x201 }
     let s := copyS .signal p [] 0
     copyAt { s with copies := { copyT .fill (pkt 9 0 own) with id := 6 } :: s.copies } .signal p (fun c _ _ => ({ s with copies := { copyT .fill (pkt 9 0 own) with id := 6 } :: s.copies } : State).copies.any (fun x => x.team == c.team && x.grp == c.grp && x.id < c.id))) = true := by decide

/-- An EXPAND and a BLOAD of one block of n8 elements, and a REGFILL; groups that are live and retired. -/
def blockP (rows cols : BitVec 16) (dst : Word) : CopyPacket := { pkt 0 own dst with rows, cols, stype := 0x01, dtype := 0x0A, spitch := cols.zeroExtend 32, tileEn := true }
theorem witness_block_copies :
    copyAt (copyS .expand (blockP 1 32 (own + 0x400)) [(0, 1)] 0) .expand (blockP 1 32 (own + 0x400)) (fun c _ a => match (copyS .expand (blockP 1 32 (own + 0x400)) [(0, 1)] 0).expandRow a c 0 0 with
      | .ok u bs => writesOk u a (ownWindow + 0x400) (bs.take 32) false && writesOk u a (ownWindow + 0x420) (bs.drop 32) true | _ => false) = true ∧
    copyAt (copyS .bload (blockP 32 1 0) [(0, 1)] 0) .bload (blockP 32 1 0) (fun c _ a => match (copyS .bload (blockP 32 1 0) [(0, 1)] 0).expandCol a c 0 0 with | .ok _ bs => bs.length == 64 | _ => false) = true ∧
    copyAt (copyS .regfill (pkt 128 own 6) [(0, 1)] 96) .regfill (pkt 128 own 6) (fun _ _ a => match (copyS .regfill (pkt 128 own 6) [(0, 1)] 96).copyRead a false false (ownWindow + 96) 32 with | .ok _ _ => true | _ => false) = true ∧
    (let p := { pkt 96 own (own + 0x40) with mcast := true }
     let s := { copyS .mcast p [(32, 1)] 0 with copies := [{ copyT .mcast p with turn := some 32 }] }
     copyAt s .mcast p (fun c _ a => c.turn == some 32 && (match s.copyRead a false false (ownWindow + 32) 32 with | .ok _ bs => bs.length == 32 | _ => false))) = true ∧
    !groupT.retired = true ∧ ({ groupT with retired := true } : Group).retired = true := by decide

/-- A copy that may complete: without a signal, and with one in the scratchpad. -/
theorem witness_copy_completes :
    [0, own + 8].all (fun (sg : Word) => let p := { pkt 9 0 own with signal := sg, tokenEn := true, token := 3 }
      let s := { stateT .none { teamT [groupT] with spad := [(8, 1)] } with copies := [{ copyT .fill p with progress := 9 }] }
      (match s.copy? 7, s.team? 1 with
       | some c, some t => (match s.copyAgent c t with
         | some a => s.copyLive c && !s.writesOut a.key true true && !s.issuerOut a && decide ((geoOf c.op c.pkt (t.tile (c.pkt.tile.toNat % 256))).total ≤ c.progress) && !t.isForked && !t.isFolded && t.spad.wf &&
             (sg == 0 || (match s.copySignal a sg.toNat with | .ok u _ => (match u.team? 1 with | some y => !y.isForked && !y.isFolded | none => false) | _ => false)) &&
             (sg == 0 || (match s.checkCopy a.w .atomic sg.toNat 8 with | .ok x => x.loc == .spad 1 8 && x.size == 8 | .error _ => false))
         | none => false)
       | _, _ => false)) = true := by decide


/-! ### Witnesses: launches, placement, folds and the ends of contexts -/

/-- A launch packet of one team of one group with 40 registers and 4 chunks. -/
def launchT : LaunchPacket :=
  { opcode := 0x20, flags := 0, groups := 1, teamsPerFlock := 0, count := 1, entry := 0x1000, lane := 0x2000, mat := 0, args := 0, quota := 0, res := 0x105, sigAddr := 0, sigVal := 0 }
/-- A grid of that packet. -/
def gridT (ev : Bool) (sig : Word) : Grid := { id := 1, ctx := 0, slot := 0, index := 0, pkt := { launchT with flags := if ev then 0x10 else 0, sigAddr := sig }, set := 1, startedAt := some 1, startStep := 0, sigSent := false, finished := false }
/-- A queue at 0x10000 whose first slot holds a packet. -/
def queueS (p : LaunchPacket) : State :=
  { stateT .none (teamT []) with queues := [{ device := 0, slot := 0, ctx := 0, hdr := 0x10000, prio := 0, halted := false }], teams := [],
                                  mem := ((Memory.store [] 0x10000 [1]).store 0x10010 [1]).store 0x10040 (leBytes 64 (encLaunch p).toNat) }

/-- Packets: one that starts, one with a bad field, one of another opcode, and one that never fits (every core is retired). -/
theorem witness_launches :
    (let ok := fun (p : LaunchPacket) (k : State → QBind → Context → LaunchPacket → Bool) => (let s := queueS p
       match s.queue? 0, s.ctx? 0 with | some q, some c => q.ctx == 0 && s.queueReady q && s.headPacket q == p && k s q c p | _, _ => false)
     ok launchT (fun s q c p => (fieldReason p).isNone && s.everFits c (launchSet 0 c.num 0 q.prio p 0)) &&
     ok { launchT with groups := 0 } (fun s _ c p => (fieldReason p) == some 3 && s.mem.wf && !c.eqFull) &&
     ok { launchT with opcode := 0x21 } (fun _ _ _ p => p.opcode != 0x20) &&
     ok launchT (fun s q c p => (fieldReason p).isNone && !({ s with retiredCores := List.range 256 } : State).everFits c (launchSet 0 c.num 0 q.prio p 0))) = true := by decide
/-- A context whose event queue is full. -/
theorem witness_full_queue : ({ ctxT with eqwr := 1 } : Context).eqFull = true := by decide

/-- The set of that launch, one of a viewed launch, and where they go. -/
def setS (x : ChildSet) : State := { stateT .none (teamT []) with teams := [], sets := [x], grids := [gridT false 0] }
theorem witness_placement :
    [SetKind.openLaunch, .viewedLaunch].all (fun k => let x := { newSetT with kind := k, nextChild := 0, res := 0x105 }; let s := setS x
      s.set? 1 == some x && (s.ctx? 0).isSome && s.setTurn x && s.childFits ctxT x 0 0 [] && !x.mirror && x.tpf == 0) = true := by decide

/-- A flock of two teams, and a child that is run twice, in flocks 0 and 1. -/
theorem witness_flock_mirror :
    (let x := { newSetT with kind := .openLaunch, nextChild := 0, tpf := 2, res := 0x105 }; let s := { setS x with contexts := [{ ctxT with nTeamAreas := 2 }] }
     s.setTurn x && s.childFits { ctxT with nTeamAreas := 2 } x 0 0 []) = true ∧
    (let x := { newSetT with kind := .rootFork, nextChild := 0, mirror := true, res := 0x105 }; let s := { setS x with contexts := [{ ctxT with nTeamAreas := 2 }] }
     s.setTurn x && s.childFits { ctxT with nTeamAreas := 2 } x 0 16 []) = true := by decide

/-- Grids that are over: without and with an event, with a signal that is stored, and with one whose page is not mapped. -/
theorem witness_grid_ends :
    (let ok := fun (g : Grid) (pte : BitVec 64) (p : State → Grid → Bool) => (let s : State := { stateT .none (teamT []) with teams := [], sets := [newSetT], grids := [g], tlb1 := if pte == 0 then [] else [{ unit := 0, ctx := 0, va := 0, pte := pte }] }
       s.grid? 1 == some g && (s.set? g.set).isSome && !g.finished && s.ctxRuns 0 && s.gridOver newSetT && p s g)
     ok (gridT false 0) 0 (fun _ g => g.pkt.sigAddr == 0 && !lpEvent g.pkt) && ok (gridT true 0) 0 (fun _ g => g.pkt.sigAddr == 0 && lpEvent g.pkt) &&
     ok (gridT true 0x100) 1 (fun s g => g.pkt.sigAddr != 0 && (match s.hubStore ctxT 0 g.pkt.sigAddr (leBytes 8 0) false 1 with | some (_, onWay) => !onWay | none => false)) &&
     ok (gridT true 0x100) 0x401 (fun s g => g.pkt.sigAddr != 0 && (match s.hubStore ctxT 0 g.pkt.sigAddr (leBytes 8 0) false 1 with | some (_, onWay) => onWay | none => false)) &&
     ok { gridT true 0x100 with sigSent := true } 0 (fun s _ => !s.hubWaits 1 && ({ s with causalStores := [⟨0, 0, 0, 1, false, false⟩] } : State).hubWaits 1) &&
     ok (gridT true 0x100) 0 (fun s g => lpEvent g.pkt && (s.hubStore ctxT 0 g.pkt.sigAddr (leBytes 8 0) false 1).isNone)) = true := by decide

/-- A team that is to go: a set of a higher priority waits, and its child needs every chunk of a core; only core 0 is left. -/
def crowdS : State := { stateT .none { teamT [groupT] with vregs := 320 } with
                       retiredCores := (List.range 255).map (fun k => k + 1), sets := [{ newSetT with id := 2, prio := 1, nextChild := 0, res := 0x8005 }], grids := [{ gridT false 0 with set := 2 }],
                       contexts := [{ ctxT with nTeamAreas := 4, nGroupAreas := 64 }] }
theorem witness_preemption : (crowdS.toPreempt.contains 1 && (teamT [groupT]).betweenWords && !crowdS.mops.any (fun m => m.team == 1) && !(teamT [groupT]).isEnded && !(teamT [groupT]).allRetired &&
    (let v := (crowdS.stopSeq 1).suspendMops 1; match v.team? 1 with | some w => !v.teamOver w && !w.isEnded | none => false)) = true := by decide
/-- A team that its last k-step ends, as its sequencer stops. -/
theorem witness_last_operation : (let s : State := { crowdS with teams := [{ teamT [{ groupT with retired := true }] with vregs := 320 }], mops := [mopT (.mstep 0 0 1 0 0) [0, 1]] }
    s.toPreempt.contains 1 && (match s.team? 1 with | some t => t.betweenWords | none => false) && (let v := (s.stopSeq 1).suspendMops 1; match v.team? 1 with | some w => v.teamOver w | none => false)) = true := by decide

/-- A set that waits for the pool: of more granules than the pool has, than are free, and of as many. -/
theorem witness_reservations :
    [(0, 0), (100, 0), (100, 100)].all (fun (p : Nat × Nat) => let x := { newSetT with kind := .viewedLaunch, phase := .poolWait, quota := 3 }
      let c := { ctxT with poolCap := p.1, poolFree := p.2 }; let s := { setS x with contexts := [c] }
      s.set? 1 == some x && s.ctx? 0 == some c && s.mayReserve x && (decide (c.poolCap < x.need) == (p.1 == 0)) && (decide (c.poolFree < x.need) == (p.2 == 0)) && decide (0 < x.need)) = true := by decide

/-- A fork that waits for the pool, when core 0 is left for its children, and when no core is. -/
theorem witness_fork_reservations :
    [true, false].all (fun fit => let x := { newSetT with kind := .rootFork, phase := .poolWait, quota := 3 }
      let c := { ctxT with poolCap := 100, poolFree := 100 }
      let s := { setS x with contexts := [c], retiredCores := (List.range 255).map (fun k => k + 1) ++ (if fit then [] else [0]) }
      s.mayReserve x && decide (x.need ≤ 100) && x.isFork && s.everFits c x == fit) = true := by decide

/-- A view of child `k` with one dirty granule at 0x80 whose byte 0 is `b`; its twin reads zero. -/
def viewT (k : Nat) (b : Byte) (bad : BitVec 4) : View := { id := k + 1, set := 1, child := k, run := 0, parent := none, ctx := 0, quota := 4, dirty := [⟨0x80, 0x80, (Vector.replicate 128 0).set 0 b, bad⟩] }
def foldS (x : ChildSet) (vs : List View) : State := { setS x with views := vs }
/-- A set of two children that have ended. -/
def foldT : ChildSet := { newSetT with kind := .viewedLaunch, count := 2, nextChild := 2, twins := [⟨0x80, 0x80, Vector.replicate 128 0, 0⟩] }
theorem witness_folds :
    (let ok := fun (x : ChildSet) (vs : List View) (p : State → Bool) => (let s := foldS x vs; s.set? 1 == some x && s.ctxRuns 0 && x.kind != .openLaunch && p s)
     ok foldT [viewT 0 1 0, viewT 1 0 0] (fun s => s.childrenOver foldT && foldT.fault.isNone && (s.foldPoison foldT (s.dirtyOf 1)).isNone && !foldT.mirror && (s.dirtyOf 1).length == 1) &&
     ok foldT [viewT 0 1 1] (fun s => (s.foldPoison foldT (s.dirtyOf 1)).isSome && s.childrenOver foldT) &&
     ok { foldT with fault := some (0, 3, 0x40) } [] (fun s => s.childrenOver { foldT with fault := some (0, 3, 0x40) }) &&
     ok { foldT with phase := .joined, conflict := some ⟨0x80, 0, 1, 0, 1, 2⟩ } [] (fun _ => true) &&
     ok { foldT with phase := .joined, staged := [⟨0x80, 0x80, Vector.replicate 128 1, 0⟩] } [] (fun _ => foldT.conflict.isNone && foldT.parentView.isNone) &&
     [0, 4].all (fun (q : Nat) => let x := { foldT with phase := .joined, kind := .nestedFork, parentView := some 9, staged := [⟨0x80, 0x80, Vector.replicate 128 1, 0⟩] }
       ok x [{ viewT 0 0 0 with id := 9, set := 5, quota := q, dirty := [] }] (fun s => match s.view? 9 with | some y => (decide (y.quota < y.dirty.length + y.newly x.staged)) == (q == 0) | none => false))) = true := by decide
/-- A page without an operator, and lists of one and two changes of byte 0; an operator and values below 2^32. -/
theorem witness_fold_bytes : ((Vector.replicate 128 0 : Line).set 0 5).getD 0 0 ≠ (Vector.replicate 128 0 : Line).getD 0 0 ∧ 1 ∈ [1, 2, 3, 5] ∧ (∀ d ∈ [7, 0xFFFFFFFF], d < 2 ^ (8 * 4)) := by decide

/-- A join that ends, its parent suspended. -/
def joinT : ChildSet := { foldT with kind := .rootFork, phase := .committed, parent := some 1, status := 1, reserved := 6 }
theorem witness_join_ends :
    (let s := { foldS joinT [viewT 0 1 0] with teams := [{ teamT [{ groupT with core := groupT.core.updArm false (fun m => { m with wait := .fork }) }] with place := .forked 0 true, set := 7 }] }
     s.set? 1 == some joinT && (s.ctx? 0).isSome && s.childrenOver joinT && joinT.recAddr == 0 && (match s.team? 1 with | some t => t.place == .forked 0 true && !t.allRetired | none => false)) = true := by decide
/-- A join that the removal of its context has aborted. -/
theorem witness_dead_join :
    (let x := { joinT with phase := .aborted }; let s := { foldS x [viewT 0 1 0] with contexts := [{ ctxT with removing := true }] }
     s.set? 1 == some x && s.childrenOver x && !s.dieStopped 8 && x.kind != .openLaunch) = true := by decide
/-- A join whose parent asked for its record at 0x200: on a plain page, on a CAUSAL one, and on none; and one whose record is on its way, and written. -/
theorem witness_join_records :
    (let ok := fun (x : ChildSet) (pte : BitVec 64) (p : State → Bool) => (let s := { foldS x [] with teams := [{ teamT [{ groupT with core := groupT.core.updArm false (fun m => { m with wait := .fork }) }] with place := .forked 0 true, set := 7 }], tlb1 := if pte == 0 then [] else [{ unit := 0, ctx := 0, va := 0, pte := pte }] }
       s.set? 1 == some x && s.childrenOver x && !s.dieStopped 8 && (match s.team? 1 with | some t => t.place == .forked 0 true | none => false) && p s)
     let x := { joinT with recAddr := 0x200 }
     [(1, some false), (0x401, some true), (0, none)].all (fun (q : BitVec 64 × Option Bool) => ok x q.1 (fun s => (match s.parentLives x with | some t => (s.hubStore ctxT t.coreNum x.recAddr (joinRecord x.status x.info) true 1).map (fun r => r.2) == q.2 | none => false))) &&
     ok { x with recSent := true } 0 (fun s => !s.hubWaits 1 && ({ s with causalStores := [⟨0, 0, 0, 1, false, false⟩] } : State).hubWaits 1)) = true := by decide
/-- Empty memory holds only zeros, so tiles, barriers and a sequencer are read back from it. -/
theorem leNat_zeros (n : Nat) : leNat (List.replicate n 0#8) = 0 := by induction n with | zero => rfl | succ n ih => simp [List.replicate_succ, leNat, ih]
theorem rd_nil (a o n : Nat) : rd [] a o n = 0 := by
  have h : Memory.bytes [] (a + o) n = List.replicate n 0#8 := by
    simp [Memory.bytes, cellRead, List.map_const']
  simp [rd, Memory.le, h, leNat_zeros]
theorem mapM_isSome {α β : Type} (f : α → Option β) (l : List α) (h : ∀ x ∈ l, (f x).isSome = true) : (l.mapM f).isSome = true := by
  induction l with
  | nil => rfl
  | cons x l ih =>
    obtain ⟨y, hy⟩ := Option.isSome_iff_exists.1 (h x (by simp))
    obtain ⟨ys, hys⟩ := Option.isSome_iff_exists.1 (ih (fun z hz => h z (by simp [hz])))
    simp [List.mapM_cons, hy, hys]
theorem readTile_nil (a : Nat) (b : Bool) : (readTile [] a b).isSome = true := by simp [readTile, rd_nil]
theorem readBar_nil (a : Nat) (g : Half) (x : Barrier) : (readBar [] a g x).isSome = true := by simp [readBar, rd_nil, rd4]
theorem readTeam_nil (s : State) (c : Context) (t : Team) (h : s.mem = []) : (s.readTeam c t).isSome = true := by
  obtain ⟨ts, h1⟩ := Option.isSome_iff_exists.1 (mapM_isSome (fun i => readTile [] (c.teamArea t.saveArea + 0x350000 + 16 * i) (i < t.ntiles)) (List.range 256) (fun _ _ => readTile_nil _ _))
  obtain ⟨bs, h2⟩ := Option.isSome_iff_exists.1 (mapM_isSome (fun n => readBar [] (c.teamArea t.saveArea + 0x351000 + 32 * n) (maskOf (t.groups.map (fun g => g.grpidx))) (t.bar n)) (List.range 16) (fun _ _ => readBar_nil _ _ _))
  simp only [State.readTeam, h, readTiles, h1, h2]
  simp [readSeq, rd_nil]
theorem le_nil (a n : Nat) : Memory.le [] a n = 0 := rd_nil a 0 n
/-- And so are groups: empty memory is the image of a group with no frame and an empty queue. -/
theorem readGroup_nil (a v : Nat) (g : Group) (bar : Bool → Option Nat) : (readGroup [] a v g bar).isSome = true := by
  simp [readGroup, imageOk, frameOk, rd_nil, Memory.onlyFields, Memory.isClear, Memory.recordsClear, Memory.lastStep, readFrames, readSlot, readHalf, halfClear, Memory.window]
theorem readQueue_nil (a v : Nat) (old : List QEntry) (tag : Bool) (m : Half) (po : Nat) : readQueue [] a 0 v old tag m po = some [] := rfl
theorem readGroupOf_nil (s : State) (c : Context) (t : Team) (g : Group) (h : s.mem = []) : (s.readGroupOf c t g).isSome = true := by
  obtain ⟨y, hy⟩ := Option.isSome_iff_exists.1 (readGroup_nil (c.groupArea g.gid) t.vregs g (readBarWait [] (c.teamArea t.saveArea) g.grpidx))
  unfold State.readGroupOf
  dsimp only
  rw [h, le_nil, readQueue_nil, hy]
  rfl

/-- A parent that waits for resumption, its groups at FORK; and a team that was pre-empted. -/
def parentS : State :=
  { foldS { joinT with phase := .done } [] with teams := [{ teamT [{ groupT with core := groupT.core.updArm false (fun m => { m with wait := .fork }) }] with place := .folded 0 true, set := 7 }] }
theorem witness_parent_resume :
    (parentS.lastFork 1 == some { joinT with phase := .done } && joinEffect joinT.status == none &&
     (match parentS.team? 1 with | some t => t.isFolded && !t.imaged && !t.allRetired && parentS.teamTurn t && parentS.teamFits ctxT t 0 [] && t.groups.all (fun g => !g.retired && g.core.armA.wait == .fork) | none => false)) = true ∧
    (∀ t, (parentS.readTeam ctxT t).isSome = true) := ⟨by decide, fun t => readTeam_nil _ _ t rfl⟩
def awayS : State := stateT .none { teamT [groupT] with place := .preempted 0 }
theorem witness_resumption :
    (match awayS.team? 1 with | some t => t.isPreempted && awayS.teamTurn t && awayS.teamFits ctxT t 3 [] && !t.allRetired | none => false) = true ∧
    (∀ t, (awayS.readTeam ctxT t).isSome = true) ∧ (∀ t g, (awayS.readGroupOf ctxT t g).isSome = true) := ⟨by decide, fun t => readTeam_nil _ _ t rfl, fun t g => readGroupOf_nil _ _ t g rfl⟩

/-- Contexts: a halt that rises, one that is held; a removed context whose teams have ended; a grid beyond its limit. -/
def originT : Origin := { kind := 1, code := 0x1A, unit := 0, armB := false, core := 0, addr := 0, mask := 0, tcode := 0, data := 0 }
theorem witness_contexts :
    (let s := { stateT .none (teamT [groupT]) with contexts := [{ ctxT with halt := .raised originT }] }
     (s.haltStops 0 originT).length == 3 && ctxT.stops == 0 && !s.partialPoison (ctxT.ga ctxT.imageBase) 64 &&
     !s.haltHeld 0 && ({ s with freq := some { target := 0, acked := [], relocked := false } } : State).haltHeld 0 && s.mops.length == 0) = true ∧
    (let s := { stateT .none { teamT [groupT] with place := .ended 0 } with contexts := [{ ctxT with removing := true }] }
     s.teams.all (fun t => t.ctx != 0 || t.isEnded)) = true ∧
    (let s := { setS newSetT with contexts := [{ ctxT with watchdog := 1 }], time := 1002 }
     s.ctxRuns 0 && (match s.grid? 1 with | some g => (match g.startedAt with | some t0 => decide (1000 < s.time - t0) && !g.finished | none => false) | none => false)) = true := by decide

/-- A store of a child to a viewed page, into a granule that its view holds dirty and into one that it takes, with quota and without. -/
def viewW (ga : Nat) : HeldWrite :=
  { id := 1, po := 0, owner := some (1, 0, false), both := false, t := { va := ga, loc := .dev ga, pte := 0x2005, size := 4 }, runs := [(ga, [1, 2, 3, 4])], ctx := some 0, view := some 1,
    rel := none, wide := false, sys := false, mask := 0, core := some 0 }
theorem witness_view_stores :
    (let s := foldS foldT [viewT 0 1 0]; pteViewed 0x2005 && (s.view? 1).isSome && !(s.putWrite (viewW 0x80)).poison && !(s.putWrite (viewW 0x100)).poison &&
      (match s.view? 1 with | some x => (x.granule? 0x80).isSome && (x.granule? 0x100).isNone && (s.set? x.set).isSome | none => false)) = true ∧
    (let s : State := { foldS foldT [viewT 0 1 0] with teams := [{ teamT [groupT] with view := some 1 }], tlb1 := [{ unit := 0, ctx := 0, va := 0, pte := 0x5 }] }
     match s.agent 1 0 false, s.view? 1 with
     | some a, some x => a.w.view == some 1 && (match s.check a.w .store 0x100 4 with | .ok t => t.loc == .dev 0x100 && pteViewed t.pte | .error _ => false) && decide ((s.dirtyIn x).length < x.quota)
     | _, _ => false) = true := by decide


/-! ### Witnesses: the fabric, the host, power, resets and the management space -/

/-- An ordered packet of die 1 for die 0, with entries, and a vector flit. -/
def itemT (n : BitVec 12) (ps : List (Nat × BitVec 12)) (full : Option Counts) : OrdItem := { gen := 0, own := n, pairs := ps, full, payload := .hostDone }
/-- Channel 1 → 0 with these items on the link and in the pen. -/
def chanS (l pen : List OrdItem) : State := { State.reset with chans := [{ Chan.fresh 1 0 with ord := l, pen }] }
theorem witness_items :
    !(chanS [itemT 1 [] none] []).removedDies.contains 0 = true ∧ ((chanS [itemT 1 [] none] []).chan 1 0).ord = [itemT 1 [] none] ∧ (itemT 1 [] none).full = none ∧
    (itemT 1 [] (some (Vector.replicate 9 0))).full.isSome = true ∧ (chanS [] []).ignores 0 1 = false ∧ ({ chanS [] [] with removedDies := [1] } : State).ignores 0 1 = true ∧
    (chanS [itemT 1 [] none] []).mayEnter 1 0 (itemT 1 [] none) = true ∧ (itemT 1 [] none).gen = (chanS [] []).gen ∧ (itemT 1 [] none).gen ≠ ({ chanS [] [] with gen := 1 } : State).gen := by decide
/-- A full pen, and a shared pen without room. -/
theorem witness_full_pen : (let s : State := { State.reset with chans := [{ Chan.fresh 1 0 with pen := List.replicate 128 { itemT 1 [] none with shared := true } ++ List.replicate 16 (itemT 1 [] none) }] }; s.mayEnter 1 0 (itemT 1 [(2, 5)] none)) = false := by decide
/-- The head of a pen that is allowed, and one whose entry of die 2 has not arrived. -/
theorem witness_delivery :
    ((chanS [] [itemT 1 [] none]).chan 1 0).pen = [itemT 1 [] none] ∧ (itemT 1 [] none).entries 1 = [] ∧ (2, 5) ∈ (itemT 1 [(2, 5)] none).entries 1 ∧ serGe ((chanS [] []).chan 2 0).mark 5 = false := by decide
/-- A stamp of two entries, neither its sender's. -/
theorem witness_stamp_word : (let x := itemT 1 [(0, 5), (8, 7)] none; x.pairs.length ≤ 3 ∧ (∀ q ∈ x.pairs, q.1 < 9 ∧ q.1 ≠ 1) ∧ x.pairs[1]? = some (8, 7)) := by decide
/-- An item of the generation to come is on a link, and none is. -/
theorem witness_generations : (chanS [{ itemT 1 [] none with gen := 1 }] []).onLinks ((chanS [] []).gen + 1) = true ∧ (chanS [itemT 1 [] none] []).onLinks ((chanS [] []).gen + 1) = false := by decide
/-- Stamps of no, and of more than three, changed entries. -/
theorem witness_stamps : (pairsOf 1 (State.reset.vec 1) (State.reset.chan 1 0).sent).length ≤ 3 ∧ 3 < (pairsOf 1 (Vector.ofFn (fun (i : Fin 9) => BitVec.ofNat 12 i.val)) (State.reset.chan 1 0).sent).length := by decide
def bellS (l : List BellItem) : State := { State.reset with chans := [{ Chan.fresh 1 0 with bell := l }] }
theorem witness_bells :
    (match (bellS [.bell 0 3 1]).firstBell 1 0 isBell with | some (.bell g n l) => g == 0 && n == 3 && l == 1 | _ => false) = true ∧ (match (bellS [.request 0 3]).firstBell 1 0 isRequest with | some (.request g n) => g == 0 && n == 3 | _ => false) = true ∧
    (match (bellS [.report 0 3]).firstBell 1 0 isReport with | some (.report g n) => g == 0 && n == 3 | _ => false) = true ∧ (match (bellS [.reportRequest]).firstBell 1 0 isReportRequest with | some .reportRequest => true | _ => false) = true ∧
    (match (bellS [.bell 3 3 1]).firstBell 1 0 isBell with | some (.bell g _ _) => g != (bellS []).gen | _ => false) = true := by decide
/-- Removal and resynchronisation: a live die, one that is not, a broadcast on its way, and the fabric in each state. -/
def freqT (r : Bool) (acked : List Nat) : FreqChange := { target := 2, acked, relocked := r }
theorem witness_removal :
    State.reset.liveDie 3 = true ∧ ({ State.reset with removedDies := [3] } : State).liveDie 3 = false ∧ ({ State.reset with removalDue := [(1, 3)] } : State).removalDue.contains (1, 3) = true ∧
    State.reset.resync.isNone = true ∧ State.reset.freq.isNone = true ∧ ({ State.reset with freq := some (freqT false []) } : State).freq.isSome = true ∧ State.reset.resyncHeld.isNone = true ∧
    ({ State.reset with resync := some .link } : State).resync = some .link ∧ State.reset.removalHeld.length = 0 ∧ State.reset.outq.length = 0 ∧ State.reset.chans.length = 0 ∧ State.reset.teams.length = 0 := by decide

/-- Host accesses to a page that is not causal and to one that is; lines held, peer stores sent, and a dirty line. -/
def hostW : HeldWrite := { id := 4, po := 1, owner := none, both := false, t := { va := 0x100, loc := .dev 0x100, pte := 1, size := 1 }, runs := [(0x100, [1])], ctx := none, view := none, rel := none, wide := false, sys := false, mask := 0, core := none }
def peerT (id : Nat) : PeerStore := { id, team := 1, grp := 0, armB := false, both := false, die := 0, peer := 2, pa := 0x40, runs := [(0x40, [7])], sent := true }
def hostS : State := { State.reset with
  heldWrites := [hostW], hostHeld := [2], peerStores := [peerT 5, peerT 6],
  fibres := [3, 11].map (fun n => { num := n, dark := 0, loscnt := 0, peer := 2, los := false, trained := true }),
  infield := [{ line := 3, slice := 0, dirty := true, pin := false, pinCtx := 0, sigk := false, sig := 0, ctx := some 0 }] }
theorem witness_host :
    State.reset.causalPage 0x100 = false ∧ ({ State.reset with tlb1 := [{ unit := 0, ctx := 0, va := 0, pte := 0x401 }], contexts := [ctxT] } : State).causalPage 0x100 = true ∧ State.reset.foreignFaults 0x100 3 = false ∧ State.reset.partialPoison 0x100 3 = false ∧ 0x100 % 128 + [1, 0, 3].length ≤ 128 ∧
    (hostS.heldWrites.find? (fun x => x.id == 4)) = some hostW ∧ hostW.line = some 2 ∧ { hostW with t := { hostW.t with loc := .spad 1 0x100 } }.line = none ∧ hostS.hostHeld.contains 2 = true ∧
    ({ hostS with hostHeld := [] } : State).hostHeld.contains 2 = false ∧ (hostS.heldWrites.filter (fun x => x.line == some 2)) = [hostW] ∧
    (hostS.peerStores.find? (fun x => x.id == 6)) = some (peerT 6) ∧ (hostS.peerStores.find? (fun q => q.sent && q.peer == 2)).map (fun q => q.id) = some 5 ∧ hostS.peerDown 2 = false ∧
    (match hostS.inLine? (0x180 / 128) with | some l => l.dirty && !l.pin | none => false) = true := by decide
/-- A write of an arm that waited for the host: it is performed, or dropped for a poisoned sector, or waits for an acquire. -/
theorem witness_given_up :
    (let ok := fun (bad : List Nat) (ps : List Pending) (k : Perf → Bool) => (let h := { hostW with owner := some (1, 0, false) }; let s : State := { stateT .none (teamT [groupT]) with heldWrites := [h], hostHeld := [2], poison := bad, pending := ps }
       s.heldWrites.find? (fun x => x.id == h.id) == some h && s.heldWrites.filter (fun x => x.line == some 2) == [h] && k (({ s with hostHeld := s.hostHeld.filter (fun l => l != 2) } : State).tryWrite h))
     ok [] [] (fun r => match r with | .done _ => true | _ => false) && ok [0x100] [] (fun r => match r with | .poison _ => true | _ => false) &&
     ok [] [{ id := 3, po := 0, team := 1, grp := 0, armB := false, dest := .none, hint := 0, items := [{ lane := 0, t := hostW.t, val := none, remote := true }], rmw := false, acq := true, scope := 0, both := false, saved := none }]
       (fun r => match r with | .wait _ => true | _ => false)) = true := by decide
theorem witness_peer_down : ({ hostS with fibres := [] } : State).peerDown 2 = true := by decide

/-- Frequency changes in each of their stages. -/
theorem witness_frequency :
    ({ State.reset with freqHeld := some 2 } : State).step ≠ 2 ∧ ({ State.reset with freqHeld := some 0 } : State).step = 0 ∧ 3 ∉ (freqT false [8]).acked ∧ (∀ d, d < 8 → d ∈ (freqT false [8, 0, 1, 2, 3, 4, 5, 6, 7]).acked) ∧
    ({ stateT .none (teamT [groupT]) with freq := some (freqT false [8, 0]) } : State).dieStopped 0 = true ∧ ({ State.reset with freq := some (freqT false [8]) } : State).dieStopped 8 = true ∧
    (freqT true [8]).relocked = true ∧ (freqT false [8]).relocked = false ∧ State.reset.replyDue 0 = false ∧
    ({ stateT .none (teamT []) with pending := [{ id := 3, po := 0, team := 1, grp := 0, armB := false, dest := .none, hint := 0, items := [], rmw := false, acq := false, scope := 0, both := false, saved := none }] } : State).replyDue 0 = true := by decide
/-- Samples above, below and within PCAP. -/
theorem witness_capper : State.reset.mgmt.pcap < 3401 ∧ State.reset.step ≠ 3 ∧ ({ State.reset with step := 3 } : State).step = 3 ∧ 3000 * 10 < State.reset.mgmt.pcap * 9 ∧ State.reset.capLow < 99 ∧
    99 ≤ ({ State.reset with capLow := 99 } : State).capLow ∧ 3200 ≤ State.reset.mgmt.pcap ∧ State.reset.mgmt.pcap * 9 ≤ 3200 * 10 ∧ State.reset.mgmt.cfgstat = 0 := by decide
/-- Fibres, wear units and registers of the black box. -/
def fibreS : State := { State.reset with fibres := [{ num := 3, dark := 1, loscnt := 0, peer := 0, los := false, trained := true }], mgmt := { Mgmt.reset with wear := [{ u := .laneGroup 3, count := 1, times := [5], lasting := false }] } }
theorem witness_light :
    (fibreS.fibre? 3).map (fun f => f.trained && 2#128 &&& ~~~ f.dark != 0 && 1#128 &&& f.dark != 0) = some true ∧ 3 % 16 < 8 ∧ fibreS.laserEn = false ∧ ({ fibreS with laserEn := true } : State).laserEn = true ∧ 8 ≤ 11 % 16 ∧
    fibreS.fibres.all (fun f => (fibreS.fibres.filter (fun x => x.num == f.num)).length == 1) = true ∧ wearExists (.laneGroup 3) = true ∧ wearExists (.laneGroup 1024) = false ∧
    (fibreS.mgmt.wear.find? (fun x => x.u == .laneGroup 3)).isSome = true ∧ (State.reset.mgmt.wear.find? (fun x => x.u == .laneGroup 3)).isNone = true := by decide
/-- Registers as a read returns them (Tables 18.5, 14.2 and 22.5): OFSTAT of a fibre with 127 wavelengths, SLCFG after reset, and
WEARDATA of a lane group with one event. -/
theorem test_register_reads :
    fibreS.readReg 0x200018 32 = 0x7F0001 ∧ State.reset.readReg 0x103000 32 = 4 ∧ State.reset.readReg 0x103000 64 = 0 ∧
    ({ fibreS with mgmt := { fibreS.mgmt with wearidx := 3 } } : State).readReg 0x30010 64 = 1 ∧
    ({ fibreS with mgmt := { fibreS.mgmt with wearidx := 3 } } : State).readReg 0x30018 64 = 5 := by decide
/-- Resets, READY bits and flash commands. -/
theorem witness_resets :
    State.reset.mgmt.flBusy = false ∧ State.reset.contexts.length = 0 ∧ ({ stateT .none (teamT []) with mgmt := { Mgmt.reset with ready := 1 } } : State).mgmt.ready.getLsbD 0 = true ∧ (stateT .none (teamT [])).contexts ≠ [] ∧
    ({ State.reset with mgmt := { Mgmt.reset with verified := true } } : State).mayBeReady 0 = true ∧ State.reset.mayBeReady 0 = false ∧ State.reset.mayBeReady 33 = true ∧
    checkImage none = .noImage ∧ 5 ∉ [1, 2, 3, 4] ∧ 0x20000 % 0x10000 = 0 ∧ 0x20000 < 0x1000000 ∧ 0x1000 % 0x10000 ≠ 0 ∧ 0x1000000 % 0x10000 = 0 ∧ 0x3FFF000 < 0x4000000 ∧
    ({ State.reset with mgmt := { Mgmt.reset with flPending := some 0 } } : State).mgmt.flPending = some 0 ∧ ({ State.reset with mgmt := { Mgmt.reset with flBusy := true } } : State).mgmt.flBusy = true := by decide

/-- The image that a boot finds is the one that the last boot verified, and a new one. -/
theorem witness_boot :
    (let s : State := { State.reset with mgmt := { Mgmt.reset with bootSig := Mgmt.reset.imageSig } }; s.mgmt.bootSig = s.mgmt.imageSig) ∧
    (let s : State := { State.reset with mgmt := { Mgmt.reset with bootSig := Mgmt.reset.imageSig ++ [0] } }; s.mgmt.bootSig ≠ s.mgmt.imageSig) := by
  refine ⟨rfl, fun h => ?_⟩
  have h' : Mgmt.reset.imageSig ++ [0] = Mgmt.reset.imageSig := h
  simp at h'

/-- A state whose command block, at 0x100, holds these words, with context 0 or none. -/
def cmdS (s : State) (ws : List Nat) : State := { s with mem := s.mem.store 0x100 (ws.flatMap (fun x => leBytes 8 x)), mgmt := { s.mgmt with cmdptr := 0x100 } }
def cmdOk (s : State) (ws : List Nat) (p : State → Context → Bool) : Bool :=
  let u := cmdS s ws
  u.mgmt.cfgstat == 0 && !u.mgmt.cmdBusy && u.cmdBlock == ws ++ List.replicate (8 - ws.length) 0 && p u ((u.ctx? 0).getD ctxT)
/-- A context descriptor at 0x200: device 0 of mode ONE, one team area and one group area. -/
def descS : State := { State.reset with mem := Memory.store [] 0x220 [6, 1, 1], mgmt := { Mgmt.reset with ready := 0xFF00 } }
/-- A queue header at 0x10000, of LOGN 1. -/
def headerS : State := { stateT .none (teamT []) with teams := [], mem := Memory.store [] 0x10010 [1] }
/-- A context that has halted. -/
def haltedS : State := { headerS with contexts := [{ ctxT with halt := .applied 1 }] }
theorem witness_commands :
    ({ State.reset with mgmt := { Mgmt.reset with cmdBusy := true } } : State).mgmt.cmdBusy = true ∧
    cmdOk haltedS [0] (fun u c => c.halted && (u.ctx? 0).isSome) = true ∧ cmdOk haltedS [0, 1, 2, 3] (fun _ c => c.halted) = true ∧ cmdOk haltedS [0, 1] (fun _ c => c.halted) = true ∧ cmdOk haltedS [0, 1, 2] (fun _ c => c.halted) = true ∧
    ctxT.halted = false ∧ cmdOk State.reset [8] (fun _ _ => true) = true ∧
    cmdOk State.reset [9] (fun u _ => (u.ctx? 9).isNone) = true ∧
    cmdOk descS [0, 0x200] (fun u _ => u.createStatus (readDesc u.mem 0x200) == 0 && u.freeCtx == some 0) = true ∧
    cmdOk { descS with mgmt := Mgmt.reset } [0, 0x200] (fun u _ => u.createStatus (readDesc u.mem 0x200) == 4) = true ∧
    cmdOk (stateT .none (teamT [])) [0] (fun u c => !c.removing && u.teams.any (fun t => t.ctx == 0 && !t.isEnded)) = true ∧
    cmdOk headerS [0] (fun u c => !c.removing && !u.teams.any (fun t => t.ctx == 0 && !t.isEnded)) = true ∧
    cmdOk { headerS with contexts := [{ ctxT with removing := true }] } [0] (fun _ c => c.removing) = true ∧
    cmdOk headerS [0, 0x10000, 3, 1] (fun u c => decide (1 ≤ c.ceiling) && decide (3 < slotsPerDevice c.mode) && u.queues.length == 0 && u.headerOk (c.ga 0x10000)) = true ∧
    cmdOk headerS [0, 0x10040, 3, 1] (fun u c => !u.headerOk (c.ga 0x10040)) = true ∧
    cmdOk headerS [0, 0x10000, 999, 1] (fun _ c => decide (slotsPerDevice c.mode ≤ 999)) = true ∧
    cmdOk headerS [0, 0] (fun u _ => !u.grids.any (fun g => g.ctx == 0 && g.slot == 0 && !g.finished)) = true ∧
    cmdOk { headerS with grids := [gridT false 0] } [0, 0] (fun u _ => u.grids.any (fun g => g.ctx == 0 && g.slot == 0 && !g.finished)) = true ∧
    cmdOk headerS [0, 0x10000, 0x1000] (fun u c => !u.haloCovered c 0x10000 0x11000) = true ∧
    cmdOk { headerS with regions := [regionT] } [0, 0, 0x1000] (fun u c => u.haloCovered c 0 0x1000) = true ∧
    cmdOk headerS [0, 0x400] (fun u c => match u.declareHalo c (c.ga 0x400) with | (k, none) => k == 1 | _ => false) = true ∧
    cmdOk State.reset [0, 3] (fun u _ => u.resync.isNone && u.freq.isNone) = true := by decide
/-- A halo region of one tile in page 0, which is HALO and pinned to slice 0, that may be declared. -/
theorem witness_halo_declared : (let s : State := { headerS with mem := (((Memory.store [] 0 (leBytes 8 0x1004001)).store 0x10000 (leBytes 8 0x2000000000002801))).store 0x400 ([0, 0, 0, 0, 0, 0, 0, 0] ++ [0, 0x10, 0, 0] ++ [0, 0x10, 0, 0] ++ [8, 0, 8, 0] ++ [1, 0, 1, 1] ++ [64, 0, 0, 0]) }
    match s.declareHalo ctxT 0x400 with | (k, some r) => k == 0 && r.pieces == [(0, 0, 0)] | (_, none) => false) = true := by decide
/-- A declaration that waits for a write on its way to its storage, and one that need not wait any more. -/
theorem witness_halo_waits :
    (let s : State := { headerS with mem := (((Memory.store [] 0 (leBytes 8 0x1004001)).store 0x10000 (leBytes 8 0x2000000000002801))).store 0x400 ([0, 0, 0, 0, 0, 0, 0, 0] ++ [0, 0x10, 0, 0] ++ [0, 0x10, 0, 0] ++ [8, 0, 8, 0] ++ [1, 0, 1, 1] ++ [64, 0, 0, 0]) }
     let r : RunCmd := ⟨9, 0, 0, 0, 0x400, 1⟩
     s.finished r && !({ s with heldWrites := [hostW] } : State).finished r && ({ s with heldWrites := [hostW] } : State).writesDue == [(0x100, 1)]) = true := by decide
/-- Lines that PIN and UNPIN meet: no entry; a page that may not be pinned; a line pinned already; a set without room, and one with. -/
theorem witness_pins :
    (let tables := fun (leaf : Nat) => (Memory.store [] 0 (leBytes 8 0x1004001)).store 0x10000 (leBytes 8 leaf)
     let ok := fun (leaf : Nat) (f : State → State) (p : State → BitVec 64 → Bool) => (let s := f { stateT .none (teamT []) with mem := tables leaf }
       match s.walk ctxT false 0x400 with | some e => ctxT.ga (leafPa e 0x400) == 0x400 && p s e | none => false)
     let slice := fun (s : State) (e : BitVec 64) => s.sliceOf e 0x400
     let line := fun (s : State) (e : BitVec 64) => ({ line := 8, slice := slice s e, dirty := false, pin := true, pinCtx := 0, sigk := false, sig := 0, ctx := none } : InLine)
     (stateT .none (teamT [])).walk ctxT false 0x400 == none && windowOf 0x400 == .lower &&
     ok 0x2005 id (fun _ e => pteViewed e) && ok 0x2001 (fun s => { s with poison := [0x400] }) (fun s _ => s.poisoned 0x400 128) &&
     ok 0x2001 id (fun s e => !pteViewed e && !pteHalo e && !s.poisoned 0x400 128 && (s.inLine? 8).isNone && decide (s.pinsIn (slice s e) (setOf 8) < s.pinLimit (slice s e))) &&
     ok 0x2001 (fun s => { s with infield := [line s 0x2001] }) (fun s _ => match s.inLine? 8 with | some l => l.pin | none => false) &&
     ok 0x2001 (fun s => { s with infield := (List.range 16).map (fun k => { line s 0x2001 with line := 8 + 0x100000 * (k + 1) }) }) (fun s e => (s.inLine? 8).isNone && decide (s.pinLimit (slice s e) ≤ s.pinsIn (slice s e) (setOf 8)))) = true := by decide
/-- The end of a command, and one whose condition does not hold yet. -/
theorem witness_command_done : State.reset.finished ⟨4, 0, 0, 0, 0, 0⟩ = true ∧ ({ State.reset with resync := some .command } : State).finished ⟨10, 0, 0, 0, 0, 0⟩ = false := by decide
/-- A root effect whose token is pending, and none; slices in each state; pins that a change would leave without room. -/
def rootS : State := { stateT .none (teamT [{ groupT with rootDest := some (0, 1, 5) }]) with contexts := [{ ctxT with rootTokens := [(7, 1, 0)] }], mgmt := { Mgmt.reset with eatok := 7 } }
theorem witness_registers :
    (match rootS.tokenGroup rootS.mgmt.eatok with | some (t, y) => t.id == 1 && y.grpidx == 0 && y.rootDest == some (0, 1, 5) && t.place == .running 0 0 && (match t.group? 0 with | some z => z.rootDest == y.rootDest | none => false) | none => false) = true ∧
    (State.reset.ctx? 3).isNone = true ∧ (State.reset.ctx? 64).isNone = true ∧ (stateT .none (teamT [])).ctx? 0 = some ctxT ∧
    (let s : State := { State.reset with slices := Vector.replicate 8 { SliceCfg.reset with target := some 6, heldWrites := [3] } }
     (s.sliceCfg 3).target = some 6 ∧ (s.sliceCfg 3).heldWrites = [3] ∧ ((s.reway 3 6).updSliceCfg 3 (fun c => { c with outways := 6, target := none })).pinsExceed 3 3 = false) ∧
    (State.reset.tokenGroup 7).isNone = true ∧ ctxT.heldEffects.length = 0 ∧ (State.reset.sliceCfg 3).target = none ∧ State.reset.pinsExceed 3 8 = false ∧
    (({ State.reset with slices := Vector.replicate 8 { SliceCfg.reset with target := some 6 } } : State).sliceCfg 3).target = some 6 ∧ 8 < (9 : BitVec 32).toNat % 16 ∧ (5 : BitVec 32).toNat % 16 ≤ 8 ∧
    ({ State.reset with infield := (List.range 16).map (fun k => ({ line := 0, slice := 96, dirty := false, pin := true, pinCtx := 0, sigk := false, sig := 0, ctx := some k } : InLine)) } : State).pinsExceed 3 8 = true ∧ (11 : Word).toNat % 256 = 11 := by decide

/-! ### Witnesses: the whole machine -/

/-- Moves of the agenda, and the instruction that each agent has next: LI at SPC 0x1000, MNOP at MPC 0x3000, VNOP in the queue. -/
def moveS (x : Action) : State := { mapped (stateT .none (teamT [{ groupT with queue := [entryT .vnop] }])) with agenda := [x], mem := Memory.store [] 0x1000 (leBytes 4 0x12280001), copies := [copyT .fill (pkt 9 0 own)] }
theorem witness_step :
    (match (moveS (.arm 1 0 false)).agent 1 0 false with
     | some a => (let s := moveS (.arm 1 0 false); s.armLive a && !a.arm.lqOwed && (match s.fetchShep a.w.ctx a.w.core a.arm.spc with | .ok i => i == .li 5 1 | _ => false) && s.fetchWords a.w.ctx a.w.core a.arm.spc 1 == some (leBytes 4 0x12280001) && !s.fetchPoison a.w.ctx a.w.core a.arm.spc 1 && a.arm.lqLeft == 0)
     | none => false) = true ∧
    (let s := moveS (.matrix 1); match s.team? 1 with | some x => ({ s with sel := .matrix 1 } : State).seqLive x && (match s.fetchMat ctxT x.coreNum x.seq.mpc with | .ok i => i == .mnop | _ => false) | none => false) = true ∧
    (match (moveS (.lane 1 0 false)).agent 1 0 false with | some a => (match a.g.nextEntry false with | some (_, e) => e.instr == .vnop | none => false) | none => false) = true ∧
    ((moveS (.copy 7)).copy? 7).map (fun c => c.op.mk c.pkt == .fill (pkt 9 0 own)) = some true ∧ ((queueS launchT).queue? 0).isSome = true ∧ ((moveS (.event .pllRelock)).agenda.length == 1) = true ∧
    (moveS (.queue 0)).fetchWords ctxT 0 0x20000 1 = none ∧ (let s := moveS (.arm 1 0 false); (s.updArm 1 0 false (fun m => m.lqBegin 1 [0])).agent 1 0 false |>.map (fun a => a.arm.lqLeft != 0 && s.armLive a)) = some true ∧
    (moveS (.hostWrite 0x80 [1])).agenda = [.hostWrite 0x80 [1]] ∧ ({ hostS with agenda := [.spoil 0x180] } : State).agenda = [.spoil 0x180] ∧ (hostS.inLine? (0x180 / 128)).map (fun l => l.dirty) = some true ∧
    ({ foldS foldT [viewT 0 1 0] with agenda := [.spoil (3 * 2 ^ 64 + 0x80)] } : State).agenda = [.spoil ((2 * 1 + 1) * 2 ^ 64 + 0x80)] ∧ ((foldS foldT [viewT 0 1 0]).view? 1).map (fun w => w.dirty.any (fun g => g.ga == 0x80)) = some true := by decide
/-- A step that answers a next state whose memory, and that of the state before, is in canonical form. -/
theorem witness_canonical : (let s := { State.reset with agenda := [.event (.hostMemwr 0x100 [1, 0, 3])] }; s.mem.wf && s.hostMem.wf && after (step s) (fun u => u.mem == [(0x100, 1), (0x102, 3)])) = true := by decide
/-- Reset has no move that an agent could not make, and its step answers a next state; a state whose agenda and queue hold moves of their kind. -/
theorem witness_runs : State.reset.agenda = [] ∧ State.reset.teams = [] ∧ (encodeShep (.laserEn true)).length = 0 ∧ (laneOf (.laserEn true)).isNone = true ∧ (copyOf (.laserEn true)).isNone = true ∧ (encodeMat (.laserEn true)).isNone = true ∧ (laneOf (.vadd (fT .i32))).isSome = true := by decide
/-- Well-formed instructions that have an encoding, of each stream. -/
theorem witness_encodings : [Instr.li 5 1, .vadd (fT .i32), .mnop, .fill (pkt 9 0 own), .launch 0 launchT].all (fun i => i.wf && (encode i).isSome) = true := by decide
/-- The word, and the machine that runs it next (R60): an LI placed by withFetchWord is what the next step executes. -/
theorem test_fetch_word : after (step (State.reset.withFetchWord 32 0x12280001)) (fun u => match u.group? 1 0 with | some g => g.core.armA.get 5 == 1 && g.core.armA.spc == 0x10004 | none => false) = true := by decide

/-! ### The checks of an access (Tables 5.2 and 8.2), clause by clause, at the ends of each range -/

/-- The check of an access of arm A fails with a code. -/
def fails (s : State) (k : AKind) (n : Nat) (c : Nat) (va : Nat) : Bool :=
  match s.agent 1 0 false with | some a => (match s.check a.w k (BitVec.ofNat 64 va) n with | .ok _ => false | .error d => d == c) | none => false
/-- It passes, and the bytes stand at a place. -/
def stands (s : State) (k : AKind) (n : Nat) (l : Loc) (va : Nat) : Bool :=
  match s.agent 1 0 false with | some a => (match s.check a.w k (BitVec.ofNat 64 va) n with | .ok t => t.loc == l | .error _ => false) | none => false
/-- A translation of core 0 for the page at `va`. -/
def leafT (va : Nat) (pte : BitVec 64) : TlbEntry := { unit := 0, ctx := 0, va, pte }
/-- The state with the page at 0 under an entry. -/
def pageT (pte : BitVec 64) : State := { armT groupT with tlb1 := [leafT 0 pte] }
def ownB : Nat := 0xFFFFFF0000000000
def flockB : Nat := 0xFFFFFE0000000000
def hostB : Nat := 0xFFFFC00000000000
def peerB : Nat := 0xFFF0000000000000

/-- MISALIGNED, in a window and outside all; PAGE outside the windows, on both sides of each. -/
theorem witness_checks_windows :
    [(8, 7), (8, 2 ^ 55 + 4), (2, ownB + 1), (4, 2 ^ 55 - 2)].all (fun (p : Nat × Nat) => fails (pageT 1) .load p.1 0x03 p.2) = true ∧
    [2 ^ 55, peerB - 8, peerB + 2 ^ 46, hostB - 8, hostB + 2 ^ 45, flockB - 8, flockB + 0x2000000, ownB - 8, ownB + 0x200000, 2 ^ 64 - 8].all (fails (pageT 1) .store 8 0x04) = true := by decide

/-- A team with a place in its flock, and its mate in the last place, of one chunk. -/
def flockS : State := { armT groupT with teams := [{ teamT [groupT] with flockPos := some 0 }, { teamT [] with id := 2, flockPos := some 15, spch := 1 }] }
/-- Scratchpads: the last bytes within the allocation and the first beyond it, with and without a range; of a flock, of no flock, and of a mate that is not there. -/
theorem witness_checks_scratchpads :
    (let s := { armT groupT with hurdles := [⟨5, .copy 1, .spad 1, 0x10, 0x18, false⟩] }
     stands s .store 8 (.spad 1 0) ownB && stands s .store 8 (.spad 1 8) (ownB + 8) && fails s .store 8 0x06 (ownB + 0x10) && stands s .load 8 (.spad 1 0x18) (ownB + 0x18) &&
     stands s .atomic 8 (.spad 1 0x3FF8) (ownB + 0x3FF8) && fails s .load 8 0x05 (ownB + 0x4000) && fails s .vatomic 8 0x05 (ownB + 0x1FFFF8)) = true ∧
    (fails (armT groupT) .load 8 0x05 flockB && fails (armT groupT) .load 8 0x05 (flockB + 0x1FFFFF8) && stands flockS .load 8 (.spad 1 0x3FF8) (flockB + 0x3FF8) && fails flockS .load 8 0x05 (flockB + 0x4000) &&
     fails flockS .load 8 0x05 (flockB + 0x200000) && stands flockS .store 8 (.spad 2 0xFF8) (flockB + 15 * 0x200000 + 0xFF8) && fails flockS .store 8 0x05 (flockB + 15 * 0x200000 + 0x1000)) = true := by decide

/-- PAGE without a translation, in each window; host and peer memory at both ends, the own peer, a lane atomic, a range, and a peer that cannot be reached; an RO page read and written. -/
theorem witness_checks_pages :
    (fails (pageT 1) .load 8 0x04 0x10000 && fails (pageT 1) .load 8 0x04 (2 ^ 55 - 8) && fails (pageT 1) .store 8 0x04 hostB && fails (pageT 1) .store 8 0x04 (peerB + 2 ^ 46 - 8) &&
     stands (pageT 3) .load 8 (.dev 0xFFF8) 0xFFF8 && fails (pageT 3) .store 8 0x05 0 && fails (pageT 3) .atomic 8 0x05 8 && fails (pageT 3) .vatomic 8 0x05 0xFFF8) = true ∧
    (let s := fun (va : Nat) => { armT groupT with tlb1 := [leafT (va / 0x10000 * 0x10000) 0x20001], hurdles := [⟨0, .copy 1, .va 0, hostB, hostB + 8, false⟩, ⟨0, .copy 1, .va 0, peerB + 2 ^ 40, peerB + 2 ^ 40 + 8, false⟩] }
     let host := fun (k : AKind) (va : Nat) => stands (s va) k 8 (.host (0x20000 + va % 0x10000)) va
     let peer := fun (k : AKind) (va : Nat) => stands (s va) k 8 (.peer ((va - peerB) / 2 ^ 40) (0x20000 + va % 0x10000)) va
     host .store (hostB + 8) && host .vatomic (hostB + 2 ^ 45 - 8) && fails (s hostB) .load 8 0x06 hostB &&
     peer .store (peerB + 2 ^ 40 + 8) && peer .store (peerB + 2 ^ 46 - 8) && fails (s (peerB + 2 ^ 40)) .store 8 0x06 (peerB + 2 ^ 40) && fails (s peerB) .store 8 0x05 peerB &&
     fails (s (peerB + 2 ^ 40 - 8)) .load 8 0x05 (peerB + 2 ^ 40 - 8) && fails (s (peerB + 2 ^ 40)) .vatomic 8 0x05 (peerB + 2 ^ 40 + 8) &&
     fails (s (peerB + 2 ^ 40)) .load 8 0x18 (peerB + 2 ^ 40 + 8) && fails (s (peerB + 2 ^ 46 - 8)) .atomic 8 0x18 (peerB + 2 ^ 46 - 8) &&
     (let up := { s (peerB + 2 ^ 40) with fibres := [⟨0, 0, 0, 1, false, true⟩, ⟨8, 0, 0, 1, false, true⟩] }; !up.peerDown 1 && stands up .atomic 8 (.peer 1 0x20008) (peerB + 2 ^ 40 + 8))) = true := by decide

/-- HALO without a region and with one, a replica cell and a cell of its own; an entry that disagrees with a latched one; the engine's write to a CAUSAL page, and an arm's. -/
theorem witness_checks_entries :
    (let r := { regionT with tx := 2, pieces := [(0, 0, 0), (1, 0, 0x1000)] }
     let s := { pageT 0x801 with regions := [r] }
     fails (pageT 0x801) .load 8 0x04 0 && (r.sourceOf 0 (64 + 9)).isSome && (r.sourceOf 0 (64 + 8)).isNone && stands s .load 1 (.dev 73) 73 && fails s .store 1 0x05 73 && stands s .store 1 (.dev 72) 72 && fails s .store 8 0x05 72) = true ∧
    (let s := { pageT 0x405 with sets := [{ foldT with kind := .rootFork, parent := some 1, held := [⟨0, 1, 1, 0, false, 0x405, true⟩] }] }
     s.sets.all (fun x => x.opened && (x.heldPage 0).isSome) && fails s .load 8 0x04 0) = true ∧
    (match (pageT 0x401).agent 1 0 false with
     | some a => (match (pageT 0x401).check { a.w with engine := true } .store 0 8, (pageT 0x401).check { a.w with engine := true } .load 0 8 with | .error c, .ok _ => c == 0x05 | _, _ => false)
     | none => false) = true ∧ stands (pageT 0x401) .store 8 (.dev 0) 0 = true := by decide

/-- The open sets of a tree: its root holds frame 0, and a fork of view 1 holds frame 0. -/
def treeT (k : SetKind) (pv : Option Nat) : ChildSet := { foldT with id := 5, kind := k, parentView := pv, held := [⟨0, 1, 0, 0, false, 0x5, true⟩] }
/-- VIEW_INTRUSION for a store to committed memory that a root tree holds, with VIEWED and without it, and to the storage of a view whose fork holds it; none for a load, for a
page that is not held, or in a view of the tree itself; then a range, the quota, and a die that is removed. -/
theorem witness_checks_views :
    (let s := fun (pte : BitVec 64) => { pageT pte with sets := [treeT .rootFork none], tlb1 := [leafT 0 pte, leafT 0x10000 (pte + 0x10000)] }
     [1, 5].all (fun (p : BitVec 64) => fails (s p) .store 8 0x0A 0 && fails (s p) .vatomic 8 0x0A 0xFFF8 && stands (s p) .load 8 (.dev 0) 0 && stands (s p) .store 8 (.dev 0x10000) 0x10000)) = true ∧
    (let inView := fun (x : ChildSet) (q : Nat) (hs : List Hurdle) (rm : List Nat) => ({ pageT 5 with teams := [{ teamT [groupT] with view := some 1 }], views := [{ viewT 0 1 0 with quota := q }], sets := x :: [foldT], hurdles := hs, removedDies := rm } : State)
     fails (inView (treeT .nestedFork (some 1)) 4 [] []) .store 8 0x0A 0 &&
     (let x := { treeT .viewedLaunch none with id := 1 }
      stands (inView x 2 [] []) .store 8 (.dev 0x100) 0x100 && fails (inView x 1 [] []) .store 8 0x09 0x100 && stands (inView x 1 [] []) .store 8 (.dev 0xF8) 0xF8 && stands (inView x 1 [] []) .load 8 (.dev 0x100) 0x100 &&
      fails (inView x 1 [⟨0, .copy 1, .va 0, 0x107, 0x108, false⟩] []) .store 8 0x06 0x100 && fails (inView x 2 [] [0]) .store 8 0x18 0x100)) = true ∧
    (fails { pageT 1 with removedDies := [1] } .load 8 0x18 0x1000 && stands { pageT 1 with removedDies := [1] } .load 8 (.dev 0xFF8) 0xFF8) = true := by decide

/-! ### Fences, releases and pushes of an arm with nothing under way -/

/-- Nothing of the arm's memory events is under way. -/
def quietB (s : State) (a : Ag) : Bool :=
  !a.g.memQueued a.b && s.pending.all (fun p => !p.ofArm a.key) && s.heldWrites.all (fun h => !h.ofArm a.key) && s.haloRels.all (fun h => !h.ofArm a.key) &&
  s.causalStores.all (fun c => !armOf a.key c.team c.grp c.armB c.both) && s.peerStores.all (fun p => !armOf a.key p.team p.grp p.armB p.both)
theorem quiet_of {s : State} {a : Ag} (h : quietB s a = true) : ArmQuiet s a := by
  simp only [quietB, Bool.and_eq_true, Bool.not_eq_true', List.all_eq_true] at h
  obtain ⟨⟨⟨⟨⟨h1, h2⟩, h3⟩, h4⟩, h5⟩, h6⟩ := h
  exact ⟨h1, h2, h3, h4, h5, h6⟩

/-- FENCE, in an arm that stands alone and in arm B of a split group; a narrow one whose loads are performed, with a store of it still to be performed. -/
theorem witness_quiet_fences :
    (∃ a, ArmReady (armT groupT) 1 0 false a (nd [] [] []) ∧ quietB (armT groupT) a = true) ∧ (∃ a, ArmReady (armB true (splitT id id)) 1 0 true a (nd [] [] []) ∧ quietB (armB true (splitT id id)) a = true) ∧
    isReady { armT groupT with heldWrites := [keptT] } false (nd [] [] []) (fun a => let s := { armT groupT with heldWrites := [keptT] }
      !quietB s a && (match (withSig s a (.fence .team)).loadsQuiet (agSig a (.fence .team)) with | .ok u => (u.group? 1 0).isSome && u.heldWrites == [keptT] | _ => false)) = true :=
  ⟨ready_of (by decide), ready_of (by decide), by decide⟩

/-- REL with nothing under way: to the scratchpad, to device memory without a view; one that is narrow, after a store that is still to be performed; one of system scope that has lost a peer store. -/
theorem witness_quiet_releases :
    accessAt (armW (fun m => m.put 1 own)) (.rel 9 1 .team .d) .store own 8 (fun s a t => quietB s a && !t.causal && !t.isPeer && a.w.view == none && s.poison == []) false (nd [9, 1] [] []) = true ∧
    accessAt (mapped (armW (fun m => m.put 1 0x100))) (.rel 9 1 .sys .w) .store 0x100 4 (fun s a t => quietB s a && !a.g.peerLost && !t.causal && !t.isPeer && !pteViewed t.pte && s.poison == [] && t.loc == .dev 0x100) false (nd [9, 1] [] []) = true ∧
    accessAt { armW (fun m => m.put 1 own) with heldWrites := [keptT] } (.rel 9 1 .flock .d) .store own 8 (fun s a t => !a.arm.relFence && (match s.loadsQuiet a with
      | .ok s2 => (match s2.writeReady a t 8 with
        | .ok s3 => !s3.gone a && storeEither s3 a s3.nextId t [(t.loc.addr, leBytes 8 9)] 0 false false (fun r => !r.poison) s3.nextId
        | _ => false)
      | _ => false)) false (nd [9, 1] [] []) = true := by decide

/-- REL.halo to a cell of another tile's team, and to no cell at all. -/
theorem witness_halo_foreign :
    accessAt { pageT 0x801 with regions := [{ regionT with ownBase := 4 }] } (.relHalo 9 1 .w) .store 0x84 4 (fun s a t =>
      match t.loc with | .dev ga => (match s.haloCell ga with | some (r, k, _) => a.t.teamIdx != r.ownBase + k | none => false) | _ => false) false (nd [9, 1] [] []) = true ∧
    accessAt (pageT 1) (.relHalo 9 1 .w) .store 0x84 4 (fun s _ t => match t.loc with | .dev ga => s.haloCell ga == none | _ => false) false (nd [9, 1] [] []) = true := by decide

/-- A HALO_PUSH with nothing of its arm before it. -/
theorem witness_quiet_push : (match haloS.haloRels.find? (fun x => x.id == 5) with
    | some h => haloS.regions[h.region]? == some regionT && haloS.pending.all (fun p => !p.ofArm (1, 0, false)) && haloS.poison == [] && haloS.hostHeld == [] && !haloS.writesBefore (1, 0, false) h.po true h.sys && !haloS.queuedBefore h
    | none => false) = true := by decide

/-! ### LQ under a repeat -/

/-- VADD of v-registers from 1 on. -/
def addW : BitVec 96 := (encodeLane (.vadd { fT .i32 with dst := 8, sa := 1, sb := 2 })).getD 0
/-- The same package with that word in its lane program, and a repeat pending. -/
def repS (w : BitVec 96) (r : Option Repeat) (f : Group → Group) : State :=
  { mapped (armT (f { groupT with core := groupT.core.updArm false (fun m => { m with rep := r }) })) with mem := Memory.storeLE [] 0x2000 12 w.toNat }
/-- Each code of a step, at the highest field that it reaches and one beyond it. -/
theorem witness_steps :
    (stepWord addW 0x40 3).isSome = true ∧ ((stepWord addW 0x40 503).map (fun w => w.extractLsb' 15 9)) = some 511#9 ∧ stepWord addW 0x40 504 = none ∧ stepWord addW 0x80 252 = none ∧ stepWord addW 0xC0 126 = none ∧
    ((stepWord addW 0x15 5).map (fun w => (w.extractLsb' 15 9, w.extractLsb' 24 9, w.extractLsb' 33 9, w.extractLsb' 42 9))) = some (8#9, 6#9, 7#9, addW.extractLsb' 42 9 + 5#9) := by decide
/-- Lane words that pass the checks, of an OPC that is not assigned, with fields that it does not accept, and with a register out of place. -/
theorem witness_lane_checks :
    let ok := fun (w : BitVec 96) (v : Nat) (l r : Bool) => match laneRow (laneOpc w), laneFields w with | some x, some f => x.legal f == l && x.regsOk v f == r | _, _ => false
    laneOpc addW ≠ 0x3FF ∧ ok addW 320 true true = true ∧ ok addW 8 true false = true ∧ laneRow (laneOpc 0) = none ∧ ok (addW ||| (0x1 : BitVec 96) <<< 90) 320 false true = true := by decide
/-- A repetition that is enqueued. -/
def enq (a : Ag) (x : BitVec 96) : Bool := match decodeLane a.t.vregs x with
  | .ok i => (match laneOf i with | some (opc, f) => opc == laneOpc x && !f.sd && !predDest opc && [f.sa, f.sb, f.sc].all (fun c => !isS c || a.arm.isFull (sOf c)) | none => false)
  | .error _ => false
/-- An arm that may begin an LQ of the word `w`, of which `p` holds. -/
def lqWith (w : BitVec 96) (r : Option Repeat) (f : Group → Group) (p : Ag → BitVec 96 → Bool) : Bool :=
  let s := repS w r f
  match s.agent 1 0 false with
  | some a => s.sel == .arm 1 0 false && s.armLive a && a.ready (nd [] [] []) && a.arm.lqLeft == 0 && !a.arm.lqOwed && a.t.laneBase != 0 && a.arm.rep == r && decide (a.g.queue.length < 16) &&
      (match s.fetchLane a.w.ctx a.w.core a.arm.lpc with | .ok x => p a x | .error _ => false)
  | none => false
/-- VADD whose destination is the last register. -/
def addLast : BitVec 96 := (encodeLane (.vadd { fT .i32 with dst := 319, sa := 1, sb := 2 })).getD 0
/-- An LQ without a repeat; with one of two passes, both enqueued, in a queue that they fill; one whose second pass has a register beyond VREGS, and one in which a field that VADD does not use is stepped; a fault at once. -/
theorem witness_repeats :
    lqWith addW none id (fun a x => a.arm.rep.isNone && x == addW && enq a x) = true ∧
    lqWith addW (some ⟨1, 0x54⟩) (fun g => { g with queue := List.replicate 14 (entryT .vnop) }) (fun a x => a.g.queue.length + 2 == 16 && (match stepWord x 0x54 0, stepWord x 0x54 1 with | some p, some q => enq a p && enq a q && p != q | _, _ => false)) = true ∧
    lqWith addLast (some ⟨1, 0x40⟩) id (fun a x => match stepWord x 0x40 0, stepWord x 0x40 1 with | some p, some q => enq a p && (match decodeLane a.t.vregs q with | .error _ => true | .ok _ => false) | _, _ => false) = true ∧
    lqWith addW (some ⟨0x3F, 0x01⟩) id (fun a x => match stepWord x 0x01 0, stepWord x 0x01 1 with | some p, some q => enq a p && (match decodeLane a.t.vregs q with | .error e => e == .illegal | .ok _ => false) | _, _ => false) = true ∧
    lqWith (addW ||| (0x1 : BitVec 96) <<< 90) none id (fun a x => match decodeLane a.t.vregs x with | .error _ => true | .ok _ => false) = true := by decide
/-- An LQ whose words are not mapped. -/
theorem witness_lq_fetch : isReady (armT groupT) false (nd [] [] []) (fun a => a.arm.lqLeft == 0 && a.t.laneBase != 0 && decide (a.g.queue.length < 16) &&
    (match (armT groupT).lqFetch a.w.ctx a.w.core 64 a.arm.lpc with | .error _ => true | .ok _ => false)) = true := by decide

/-! ### Witnesses: yields, refusals, the floor, removals and the commands' checks -/

/-- An arm whose YIELD is in force, its last issue in cycle `since`, beside a group that is ready and last issued in cycle `other`. -/
def yieldS (n since other : Nat) : State :=
  let aged := fun (g : Group) (k : Nat) (y : Option Nat) => { g with core := g.core.updArm false (fun m => { m with age := k, yielded := y }) }
  { mapped (stateT .none (teamT [aged groupT since (some n), aged { Group.fresh 1 1 0x1000 0x2000 [] with core := groupT.core } other none])) with mem := Memory.store [] 0x1000 (leBytes 4 0x12280001), cycle := 9 }
/-- A YIELD whose time is over; one within it, beside a ready group that has not issued since, and beside one that has. -/
theorem witness_yields :
    (let s := yieldS 0 5 3; (s.agent 1 0 false).map (fun a => a.arm.yielded == some 0 && (s.arm? a).isSome) == some true && s.yieldEnds 0 (1, 0, false)) = true ∧
    (let s := yieldS 7 5 5; !s.yieldEnds 0 (1, 0, false) && (let v : State := { s with cycle := s.cycle + 1 }; (v.candidates 0).any (fun x => x.grp == 1 && v.candReady x))) = true ∧
    (let s := yieldS 7 5 6; s.yieldEnds 0 (1, 0, false) && ((s.armsOn 0).filter (s.yieldEnds 0)) == [(1, 0, false)]) = true ∧
    (let s := yieldS 7 5 5; ((s.armsOn 0).filter (s.yieldEnds 0)) == []) = true := by decide

/-- A refused packet whose queue has room for the record, away from the queue's header and slot. -/
theorem witness_refusal_recorded : (let s := queueS { launchT with groups := 0 }
    match s.queue? 0, s.ctx? 0 with
    | some q, some c => let at_ := c.ga (c.eqBase + 32 * (c.eqwr.toNat % 2 ^ c.eqLog))
        !c.eqFull && decide (at_ + 32 ≤ q.base) && !s.partialPoison at_ 32 && !s.partialPoison (q.base + 17) 2 && s.mem.wf
    | _, _ => false) = true := by decide

/-- The other run of a child is on the flock of the core, and on another. -/
theorem witness_runs_apart :
    (let u := { teamT [] with id := 2, run := 1, place := .running 5 0 }; let s := { awayS with teams := awayS.teams ++ [u] }
     s.teams.any (fun x => x.set == 1 && x.childIdx == 0 && x.run != 0 && (match x.place with | .running k _ => flockOf k == flockOf 3 && flockOf k != flockOf 16 | _ => false))) = true := by decide

/-- One packet of die 0 whose delivery it has not been told of, and nothing that it holds. -/
def untoldS : State := { State.reset with untold := [{ src := 0, dst := 2, req := .hostWrite 0 [], stamp := Vector.replicate 9 0, delivered := false }] }
theorem witness_floor : (untoldS.untold.filter (fun x => x.src == 0)).length = 1 ∧ untoldS.chans = [] ∧ serGe (untoldS.vecAt 0 2) 0 = true ∧
    (Payload.hostWrite 0 []).answered = true ∧ Payload.hostDone.answered = false := by decide

/-- A broadcast of a removal on its way to a die that lives, and to one that does not. -/
theorem witness_removal_due :
    (let s : State := { State.reset with removalDue := [(2, 3)], freq := some (freqT false []) }
     s.removalDue.all (fun x => s.liveDie x.1) && 0 ∉ s.removalDue.map (fun x => x.1) && ({ s with removedDies := [2, 3] } : State).removalDue.all (fun x => !({ s with removedDies := [2, 3] } : State).liveDie x.1)) = true := by decide

/-- A command of each kind that names a context number of no context. -/
theorem witness_unknown_contexts :
    cmdOk State.reset [9] (fun u _ => (u.ctx? 9).isNone) = true ∧ cmdOk State.reset [9, 1] (fun u _ => (u.ctx? 9).isNone) = true ∧ cmdOk State.reset [63, 1, 2] (fun u _ => (u.ctx? 63).isNone) = true ∧
    cmdOk State.reset [255, 1, 2, 3] (fun u _ => (u.ctx? 255).isNone) = true := by decide
/-- A byte that a command does not use: above the context number, in place of one, and behind the operands. -/
theorem witness_unused_bytes :
    cmdOk headerS [0x100] (fun u _ => decide (256 ≤ u.cmdBlock.getD 0 0)) = true ∧ cmdOk headerS [1] (fun u _ => decide (1 ≤ u.cmdBlock.getD 0 0)) = true ∧
    cmdOk headerS [0, 1, 2, 0, 0, 0, 0, 5] (fun u _ => u.cmdBlock.getD 7 0 != 0) = true ∧ cmdOk headerS [0, 0, 5] (fun u _ => u.cmdBlock.getD 2 0 != 0) = true := by decide
/-- An answer that waits for the end of a frequency change. -/
theorem witness_answer_waits : ({ rootS with freq := some (freqT false []) } : State).freq ≠ none ∧ rootS.freq = none := by decide

/-- A load of the sequencer whose bytes a write in flight covers, and one that they do not; an MSET.ld that completes. -/
theorem witness_mset_ld :
    (let s : State := { stateT .none (teamT [groupT]) with hurdles := [⟨0, .copy 1, .spad 1, 8, 16, true⟩] }
     let rs := fun (o : Nat) => ([{ core := 0, space := .spad 1, lo := 8 * o, hi := 8 * o + 8, write := false }] : List Rng)
     !s.canRegister (rs 1) && s.canRegister (rs 2) && s.canRegister (rs 0)) = true ∧
    (match exec (.msetLd 3 2) (stateT (.matrix 1) (teamT [groupT])) with | .next u => u.mops.map (fun m => m.instr == .msetLd 3 2) == [true] && u.hurdles.length == 1 | _ => false) = true := by decide
/-- A move of a copy ahead of its turn. -/
theorem witness_sector_move : (moveS (.sector 7 1)).agenda = [.sector 7 1] ∧ ((moveS (.sector 7 1)).copy? 7).isSome = true := by decide

end Sys2Proof.Tests
end

/-! SUPPORT. Proofs: loop-end processing (R79), and the loop levels of a group that splits (R47, R83). -/

namespace Sys2Proof.Machine

open Sys2Proof Sys2Proof.Safety

/-! ### Loop-end processing: one equation per case of the rule (R79) -/

/-- Outside every open loop level, SPC is the next address. -/
theorem Arm.advance_of_no_loops {m : Arm} (h : m.loops = []) (base : Nat) (next : Word) :
    m.advance base next = { m with spc := next } := by
  simp only [Arm.advance, h, loopEnd]

/-- A level that does not lie above the base, or whose body does not end at the next address, has no effect. -/
theorem Arm.advance_of_not_at_end {m : Arm} {l : Loop} {ls : List Loop} (hm : m.loops = l :: ls) {base : Nat} {next : Word}
    (h : ls.length < base ∨ next ≠ l.endAddr + 4) : m.advance base next = { m with spc := next } := by
  simp only [Arm.advance, hm, loopEnd, bne_iff_ne, ne_eq, Bool.or_eq_true, decide_eq_true_eq, if_pos h]

/-- At the end of the body of a level above the base, the level's count decides. -/
theorem loopEnd_at_end {base : Nat} {l : Loop} {ls : List Loop} {next : Word} (hb : base ≤ ls.length)
    (hn : next = l.endAddr + 4) (spare : List Loop) :
    loopEnd base (l :: ls) spare next =
      if l.count = 1 then loopEnd base ls ({ l with count := 0 } :: spare) next
      else ({ l with count := l.count - 1 } :: ls, spare, l.endAddr - 4 * ((l.len - 1).zeroExtend 64)) := by
  have hstay : ¬ (ls.length < base ∨ next ≠ l.endAddr + 4) := by simp [hn, hb]
  have hcount : l.count - 1 = 0 ↔ l.count = 1 := by bv_omega
  simp only [loopEnd, bne_iff_ne, Bool.or_eq_true, decide_eq_true_eq, if_neg hstay, ne_eq, hcount, ite_not]

/-- With passes left, the count falls by one and control goes to the first word of the body. -/
theorem Arm.advance_of_passes_left {m : Arm} {l : Loop} {ls : List Loop} (hm : m.loops = l :: ls) {base : Nat} {next : Word}
    (hb : base ≤ ls.length) (hn : next = l.endAddr + 4) (hc : l.count ≠ 1) :
    m.advance base next =
      { m with loops := { l with count := l.count - 1 } :: ls, spc := l.endAddr - 4 * ((l.len - 1).zeroExtend 64) } := by
  simp only [Arm.advance, hm, loopEnd_at_end hb hn, if_neg hc]

/-- After the last pass the level is free, and loop-end processing goes on with the level around it. -/
theorem Arm.advance_of_last_pass {m : Arm} {l : Loop} {ls : List Loop} (hm : m.loops = l :: ls) {base : Nat} {next : Word}
    (hb : base ≤ ls.length) (hn : next = l.endAddr + 4) (hc : l.count = 1) :
    m.advance base next = { m with loops := ls, spare := { l with count := 0 } :: m.spare }.advance base next := by
  simp only [Arm.advance, hm, loopEnd_at_end hb hn, if_pos hc]

/-! ### The group that an instruction of it leaves -/

/-- The signature event leaves the free loop levels. -/
@[simp] theorem Arm.signed_spare (m : Arm) (i : Instr) : (m.signed i).spare = m.spare := by
  unfold Arm.signed; split <;> rfl

/-- The group of an agent is the one that the state holds. -/
theorem State.agent_group {s : State} {t g : Nat} {b : Bool} {a : Ag} (h : s.agent t g b = some a) : s.group? t g = some a.g := by
  obtain ⟨-, -, -, ht, hg⟩ := State.agent_spec h
  rw [State.group?, ht]
  exact hg

/-- The agent in the state of the signature event has the names that it had. -/
theorem agSig_names (a : Ag) (i : Instr) : (agSig a i).t.id = a.t.id ∧ (agSig a i).g.grpidx = a.g.grpidx := ⟨rfl, rfl⟩

/-- Its group is split or not as before. -/
@[simp] theorem agSig_split (a : Ag) (i : Instr) : (agSig a i).g.core.split = a.g.core.split := by simp [agSig]

/-- And reads its predicates as before. -/
@[simp] theorem agSig_pget (a : Ag) (i : Instr) (k : Nat) : (agSig a i).g.core.pget k = a.g.core.pget k := by simp [agSig]

/-- The group of an agent whose words have entered SIG. -/
theorem State.withSig_group (s : State) (a : Ag) (i : Instr) :
    (withSig s a i).group? a.t.id a.g.grpidx =
      (s.group? a.t.id a.g.grpidx).map (fun y => { y with core := y.core.updArm a.b (fun m => m.signed i) }) :=
  State.group_updGroup s _ _ _ (fun _ => rfl)

/-- The group of an arm that completes. -/
theorem State.advance_group (s : State) (t g : Nat) (b : Bool) (next : Word) :
    (s.advance t g b next).group? t g = (s.group? t g).map (fun y => y.finish b (fun m => m) next) :=
  State.group_updGroup s t g _ (fun y => Group.finish_grpidx y b _ next)

/-- The group of an arm that has issued. -/
theorem State.issued_group (s : State) (a : Ag) :
    (s.issued a).group? a.t.id a.g.grpidx = (s.group? a.t.id a.g.grpidx).map (fun y => aged y a.b s.cycle) :=
  State.group_updGroup s _ _ _ (fun _ => rfl)

/-- A completion of arm A leaves arm B. -/
@[simp] theorem Group.finish_armB (g : Group) (f : Arm → Arm) (next : Word) : (g.finish false f next).core.armB = g.core.armB := by
  unfold Group.finish; split <;> rfl

/-- An issue of arm A leaves arm B. -/
@[simp] theorem aged_armB (g : Group) (n : Nat) : (aged g false n).core.armB = g.core.armB := rfl

/-! ### The split of a group (R83) -/

/-- What `State.outerSplit` makes of the group, at cycle `n`. -/
def Group.splitInto (g : Group) (t f : Half) (target : Word) (n : Nat) : Group :=
  let x := g.core.armA
  { g with
    core := { g.core with
      armA := { x with mask := t }, armB := { x with mask := f, spc := target, rep := none, age := n }, split := true }
    queue := g.queue.map (fun e => { e with both := true }), hist := [], abandonedB := g.abandoned }

/-- The group that splits. -/
theorem State.outerSplit_group (s : State) (a : Ag) (t f : Half) (target : Word) :
    (s.outerSplit a t f target).group? a.t.id a.g.grpidx =
      (s.group? a.t.id a.g.grpidx).map (fun y => y.splitInto t f target s.cycle) :=
  State.group_updGroup s _ _ _ (fun _ => rfl)

/-- Arm B starts as arm A was, at the target with the failing lanes and without a pending repeat (R47). -/
@[simp] theorem Group.splitInto_armB (g : Group) (t f : Half) (target : Word) (n : Nat) :
    (g.splitInto t f target n).core.armB = { g.core.armA with mask := f, spc := target, rep := none, age := n } := rfl

/-- SPLIT of a group that is not split, with lanes that pass and lanes that fail, splits it. -/
theorem State.splitEff_outer (s : State) {a : Ag} {p : PReg} (off : BitVec 13) (hs : a.g.core.split = false)
    (hf : a.arm.active &&& ~~~ a.g.core.pget p.toNat ≠ 0) (hp : a.arm.active &&& a.g.core.pget p.toNat ≠ 0) :
    s.splitEff a p off = .next (s.outerSplit a (a.arm.active &&& a.g.core.pget p.toNat)
      (a.arm.active &&& ~~~ a.g.core.pget p.toNat) (target13 a.arm.spc off)) := by
  simp only [State.splitEff, hs, Bool.not_false, if_true, beq_iff_eq, if_neg hf, if_neg hp]

/-- What executing that SPLIT leaves: arm B is the arm that executed it, whose words have entered SIG, at the target. -/
theorem exec_split_outer {s : State} {t g : Nat} {a : Ag} {p : PReg} (off : BitVec 13)
    (h : ArmReady s t g false a { src := [], dst := [], preds := [p.toNat] }) (hs : a.g.core.split = false)
    (hf : a.arm.active &&& ~~~ a.g.core.pget p.toNat ≠ 0) (hp : a.arm.active &&& a.g.core.pget p.toNat ≠ 0) :
    ∃ u, exec (.split p off) s = .next u ∧ ∃ y, u.group? t g = some y ∧
      y.core.armB = { a.arm.signed (.split p off) with
        mask := a.arm.active &&& ~~~ a.g.core.pget p.toNat, spc := target13 a.arm.spc off, rep := none, age := s.cycle } := by
  have hgroup := State.agent_group h.agent
  obtain ⟨rfl, rfl, hb, -, -⟩ := State.agent_spec h.agent
  have harm : a.arm = a.g.core.armA := by rw [Ag.arm, hb]; rfl
  have heff := State.splitEff_outer (withSig s a (.split p off)) (a := agSig a (.split p off)) off
    (by simpa using hs) (by simpa using hf) (by simpa using hp)
  have hsplit := fun t f target => State.outerSplit_group (withSig s a (.split p off)) (agSig a (.split p off)) t f target
  simp only [agSig_names] at hsplit
  simp only [agSig_arm, agSig_pget, Arm.signed_active, Arm.signed_spc] at heff
  refine ⟨_, State.shep_next h heff, ?_⟩
  rw [State.issued_group, State.advance_group, hsplit, State.withSig_group, hgroup]
  refine ⟨_, rfl, ?_⟩
  rw [hb, aged_armB, Group.finish_armB, Group.splitInto_armB, harm]
  rfl

/-- Settles O1: each clause is the case of R79 that it names, and SPLIT's is what the split leaves of arm B. -/
theorem loopEndGoesBackOrPops : Obligations.LoopEndGoesBackOrPops := by
  intro m base next
  refine ⟨fun h => Arm.advance_of_no_loops h base next, fun l ls hm => ⟨?_, ?_, ?_⟩, ?_⟩
  · exact Arm.advance_of_not_at_end hm
  · exact Arm.advance_of_passes_left hm
  · exact Arm.advance_of_last_pass hm
  · intro s t g a p off h hs hf hp
    obtain ⟨u, hu, y, hy, hB⟩ := exec_split_outer off h hs hf hp
    exact ⟨u, hu, y, hy, by simp [hB], by simp [hB]⟩

end Sys2Proof.Machine

/-! SUPPORT. Proofs: chains of the matrix engine (R203, R204): MBEG, MZERO and MEND, and the planes element by element. -/

namespace Sys2Proof.Machine

open Sys2Proof Sys2Proof.Safety

/-! ### A word that names one accumulator and changes the sequencer alone, or faults (R199) -/

/-- Where its effect is a change `f` of the sequencer, the word makes that change and goes to the next word. -/
theorem seqGives_of_effect {i : Instr} {s : State} {t : Nat} {x : Team} {acc : BitVec 3} {body : State → Team → MEff} {f : Seq → Seq}
    (h : MatAt s t x [acc.toNat] []) (hi : exec i s = s.mat (some acc) (fun _ => []) body)
    (hb : body s x = .next (s.updSeq x.id f)) : SeqGives i s x f := by
  rw [SeqGives, hi, State.mat_run h (some acc) (fun _ => []) (by simp) (by simp), hb]
  exact congrArg Host.Outcome.next (State.updTeam_updTeam s x.id _ _ (fun _ => rfl))

/-- Where its effect is a fault, the sequencer takes that fault. -/
theorem exec_of_fault {i : Instr} {s : State} {t : Nat} {x : Team} {acc : BitVec 3} {body : State → Team → MEff} {code addr : Nat}
    (h : MatAt s t x [acc.toNat] []) (hi : exec i s = s.mat (some acc) (fun _ => []) body)
    (hb : body s x = .fault code addr) : exec i s = .next (s.seqFault x.id code addr) := by
  rw [hi, State.mat_run h (some acc) (fun _ => []) (by simp) (by simp), hb]

section
variable {s : State} {t : Nat} {x : Team} {acc : BitVec 3} (h : MatAt s t x [acc.toNat] [])
include h

/-- MBEG of a closed chain: O becomes +0, the step count 0, and the chain is open. -/
theorem mbeg_of_closed (hc : x.seq.opened.getLsbD acc.toNat = false) :
    SeqGives (.mbeg acc) s x (fun q => { q with
      accs := vecUpd q.accs acc.toNat (fun p => { p with o := [], steps := 0 }), opened := q.opened ||| (1#6 <<< acc.toNat) }) :=
  seqGives_of_effect h rfl (if_neg (by simp [Seq.isOpen, hc]))

/-- MBEG of an open chain. -/
theorem mbeg_of_open (ho : x.seq.opened.getLsbD acc.toNat = true) : exec (.mbeg acc) s = .next (s.seqFault x.id cTILE 0) :=
  exec_of_fault h rfl (if_pos ho)

/-- MZERO of a closed chain: both planes become +0. -/
theorem mzero_of_closed (hc : x.seq.opened.getLsbD acc.toNat = false) :
    SeqGives (.mzero acc) s x (fun q => { q with accs := vecUpd q.accs acc.toNat (fun p => { p with e := [], o := [] }) }) :=
  seqGives_of_effect h rfl (if_neg (by simp [Seq.isOpen, hc]))

/-- MZERO of an open chain. -/
theorem mzero_of_open (ho : x.seq.opened.getLsbD acc.toNat = true) : exec (.mzero acc) s = .next (s.seqFault x.id cTILE 0) :=
  exec_of_fault h rfl (if_pos ho)

/-- MEND of an open chain: O is added to E, and the chain is closed. -/
theorem mend_of_open (ho : x.seq.opened.getLsbD acc.toNat = true) :
    SeqGives (.mend acc) s x (fun q => { q with
      accs := vecUpd q.accs acc.toNat Acc.mend, opened := q.opened &&& ~~~ (1#6 <<< acc.toNat) }) :=
  seqGives_of_effect h rfl (if_neg (by simp [Seq.isOpen, ho]))

/-- MEND of a closed chain. -/
theorem mend_of_closed (hc : x.seq.opened.getLsbD acc.toNat = false) : exec (.mend acc) s = .next (s.seqFault x.id cTILE 0) :=
  exec_of_fault h rfl (if_pos (by simp [Seq.isOpen, hc]))

end

/-- The words of MZERO, MBEG and MEND for a0. -/
theorem decodeMat_chain_words_a0 :
    decodeMat 0x0000000000000004 = .ok (.mzero 0) ∧ decodeMat 0x0000000000000001 = .ok (.mbeg 0) ∧
      decodeMat 0x0000000000000003 = .ok (.mend 0) := ⟨rfl, rfl, rfl⟩

/-- R203: each word acts where its condition holds and faults TILE_STATE elsewhere. -/
theorem chainsOpenAndClose : ChainsOpenAndClose :=
  ⟨fun _ _ _ _ h =>
    ⟨fun hc => ⟨mbeg_of_closed h hc, mzero_of_closed h hc, mend_of_closed h hc⟩,
      fun ho => ⟨mend_of_open h ho, mbeg_of_open h ho, mzero_of_open h ho⟩⟩,
    decodeMat_chain_words_a0⟩

/-! ### Listings of elements by index -/

/-- What is not listed reads as 0. -/
theorem cellRead_unlisted {w : Nat} {m : List (Nat × BitVec w)} {a : Nat} (h : ∀ e ∈ m, e.1 ≠ a) : cellRead m a = 0 := by
  induction m with
  | nil => rfl
  | cons e m ih =>
    obtain ⟨he, hm⟩ := List.forall_mem_cons.1 h
    rw [cellRead, if_neg he, ih hm, ite_self]

/-- An address above the first listed one is looked up in the rest. -/
theorem cellRead_cons_above {w : Nat} {k : Nat} {v : BitVec w} {m : List (Nat × BitVec w)} {a : Nat} (h : k < a) :
    cellRead ((k, v) :: m) a = cellRead m a := by
  rw [cellRead, if_neg (by omega), if_neg (by omega)]

/-- Every address of a canonical listing above `lo` is above it. -/
theorem cellWfFrom_above {w : Nat} {lo : Nat} {m : List (Nat × BitVec w)} (h : cellWfFrom (some lo) m = true) :
    ∀ e ∈ m, lo < e.1 := by
  induction m generalizing lo with
  | nil => simp
  | cons e m ih =>
    simp only [cellWfFrom, Bool.and_eq_true, decide_eq_true_eq] at h
    obtain ⟨⟨hlo, -⟩, hm⟩ := h
    exact List.forall_mem_cons.2 ⟨hlo, fun y hy => Nat.lt_trans hlo (ih hm y hy)⟩

/-- A plane in canonical form that lists no element before `k`. -/
structure PlaneFrom (k : Nat) (p : Plane) : Prop where
  wf : cellWf p = true
  bound : ∀ e ∈ p, k ≤ e.1

/-- A canonical plane lists no element before element 0. -/
theorem PlaneWf.planeFrom {p : Plane} (h : PlaneWf p) : PlaneFrom 0 p := ⟨h.1, fun _ _ => Nat.zero_le _⟩

/-- The plane of +0 everywhere is canonical. -/
theorem planeWf_nil : PlaneWf [] := ⟨rfl, by simp⟩

/-- The head of a plane from `k` on is its element `k`. -/
theorem PlaneFrom.head {k : Nat} {p : Plane} (h : PlaneFrom k p) : (planeHead k p).1 = cellRead p k := by
  cases p with
  | nil => rfl
  | cons e p =>
    have hk : k ≤ e.1 := h.bound e (by simp)
    simp only [planeHead, cellRead]
    split
    · rfl
    · rw [if_pos (by omega)]

/-- The rest is a plane from the next element on. -/
theorem PlaneFrom.rest {k : Nat} {p : Plane} (h : PlaneFrom k p) : PlaneFrom (k + 1) (planeHead k p).2 := by
  cases p with
  | nil => exact ⟨rfl, by simp [planeHead]⟩
  | cons e p =>
    obtain ⟨hwf, hbound⟩ := h
    have hp : cellWfFrom (some e.1) p = true := by
      simp only [cellWf, cellWfFrom, Bool.and_eq_true] at hwf
      exact hwf.2
    have habove := cellWfFrom_above hp
    have hk : k ≤ e.1 := hbound e (by simp)
    simp only [planeHead]
    split
    · next he => exact ⟨cellWfFrom_weaken hp, fun y hy => he ▸ habove y hy⟩
    · next he =>
      refine ⟨hwf, List.forall_mem_cons.2 ⟨by omega, fun y hy => ?_⟩⟩
      have := habove y hy
      omega

/-- It reads as the plane itself beyond element `k`. -/
theorem cellRead_planeHead_rest {k c : Nat} (p : Plane) (hc : k < c) : cellRead (planeHead k p).2 c = cellRead p c := by
  cases p with
  | nil => rfl
  | cons e p =>
    simp only [planeHead]
    split
    · next he => exact (cellRead_cons_above (he ▸ hc)).symm
    · rfl

/-! ### A function applied to every element of two planes -/

/-- What it lists lies among the elements that it was applied to. -/
theorem planeMap_range (f : Nat → Half → Half → Half) (n k : Nat) (p q : Plane) :
    ∀ e ∈ planeMap f n k p q, k ≤ e.1 ∧ e.1 < k + n := by
  induction n generalizing k p q with
  | zero => simp [planeMap]
  | succ n ih =>
    have hrest := ih (k + 1) (planeHead k p).2 (planeHead k q).2
    have hwiden : ∀ e ∈ planeMap f n (k + 1) (planeHead k p).2 (planeHead k q).2, k ≤ e.1 ∧ e.1 < k + (n + 1) := by
      intro e he
      obtain ⟨h1, h2⟩ := hrest e he
      omega
    simp only [planeMap]
    split
    · exact hwiden
    · exact List.forall_mem_cons.2 ⟨by simp, hwiden⟩

/-- It is in canonical form, whatever the function and the planes. -/
theorem planeMap_wfFrom (f : Nat → Half → Half → Half) (n k : Nat) (p q : Plane) {lo : Option Nat} (hlo : ∀ l, lo = some l → l < k) :
    cellWfFrom lo (planeMap f n k p q) = true := by
  induction n generalizing k p q lo with
  | zero => simp [planeMap, cellWfFrom]
  | succ n ih =>
    simp only [planeMap]
    split
    · exact ih _ _ _ (fun l hl => Nat.lt_succ_of_lt (hlo l hl))
    · next hv =>
      simp only [cellWfFrom, Bool.and_eq_true, bne_iff_ne]
      refine ⟨⟨?_, hv⟩, ih _ _ _ (fun l hl => by cases hl; omega)⟩
      cases lo with
      | none => rfl
      | some l => exact decide_eq_true (hlo l rfl)

/-- Element by element, it is the function of the index and of both planes' elements. -/
theorem cellRead_planeMap (f : Nat → Half → Half → Half) (n : Nat) {k : Nat} {p q : Plane} (hp : PlaneFrom k p) (hq : PlaneFrom k q)
    {c : Nat} (hk : k ≤ c) (hn : c < k + n) : cellRead (planeMap f n k p q) c = f c (cellRead p c) (cellRead q c) := by
  induction n generalizing k p q with
  | zero => omega
  | succ n ih =>
    simp only [planeMap, hp.head, hq.head]
    obtain rfl | hlt := Nat.eq_or_lt_of_le hk
    · split
      · next hv =>
        rw [hv]
        exact cellRead_unlisted (fun e he => by have := planeMap_range f n _ _ _ e he; omega)
      · rw [cellRead, if_pos rfl]
    · have hrest := ih hp.rest hq.rest hlt (by omega)
      rw [cellRead_planeHead_rest p hlt, cellRead_planeHead_rest q hlt] at hrest
      split
      · exact hrest
      · rw [cellRead_cons_above hlt, hrest]

/-- A function applied to all 128 × 128 elements gives a canonical plane. -/
theorem planeWf_planeMap (f : Nat → Half → Half → Half) (p q : Plane) : PlaneWf (planeMap f 16384 0 p q) :=
  ⟨planeMap_wfFrom f _ _ p q (by simp), fun e he => by have := planeMap_range f _ _ p q e he; omega⟩

/-- And its element (i, j) is the function of those of the two planes (Table 12.3). -/
theorem planeMap_at (f : Nat → Half → Half → Half) {p q : Plane} (hp : PlaneWf p) (hq : PlaneWf q) {i j : Nat} (hi : i < 128) (hj : j < 128) :
    Plane.at (planeMap f 16384 0 p q) i j = f (128 * i + j) (p.at i j) (q.at i j) :=
  cellRead_planeMap f 16384 (PlaneWf.planeFrom hp) (PlaneWf.planeFrom hq) (Nat.zero_le _) (by omega)

/-! ### The products of a chain in ascending k (R204) -/

/-- Numbered from `n` on, `alternate` keeps the members whose number has the parity `r`. -/
theorem alternate_eq_filter_parity {α : Type} (l : List α) (n : Nat) {r : Nat} (hr : r < 2) :
    alternate (n % 2 == r) l = ((l.zipIdx n).filter (fun z => z.2 % 2 == r)).map Prod.fst := by
  induction l generalizing n with
  | nil => simp [alternate]
  | cons y l ih =>
    have hflip : ((n + 1) % 2 == r) = !(n % 2 == r) := by
      rw [Bool.eq_iff_iff, Bool.not_eq_true', beq_iff_eq, beq_eq_false_iff_ne]
      omega
    have hl := ih (n + 1)
    rw [hflip] at hl
    rw [List.zipIdx_cons, List.filter_cons]
    cases hn : n % 2 == r <;> simpa [alternate, hn] using hl

/-- The products of number `parity` modulo 2, added one after another to an element. -/
def addProducts (parity : Nat) (pairs : List (Nat × Nat)) (v : Half) : Half :=
  ((pairs.zip (List.range pairs.length)).filter (fun z => z.2 % 2 == parity)).foldl (fun v z => chainAdd v z.1.1 z.1.2) v

/-- A k-step of an element adds the even products in plane E and the odd ones in plane O. -/
theorem chainStep_eq_addProducts (odd : Bool) (row col : List Nat) (v : Half) :
    chainStep odd row col v = addProducts odd.toNat (row.zip col) v := by
  have hsel : (!odd) = (0 % 2 == odd.toNat) := by cases odd <;> rfl
  rw [chainStep, addProducts, hsel, alternate_eq_filter_parity _ 0 odd.toNat_lt, List.foldl_map, List.zipIdx_eq_zip_range',
    List.range_eq_range']

/-- The element of a plane after a k-step: `v` is the one before it. -/
def stepElem (odd : Bool) (m n : Nat) (rows cols : List (List Nat)) (k : Nat) (v : Half) : Half :=
  if k / 128 < m && k % 128 < n then chainStep odd (rows.getD (k / 128) []) (cols.getD (k % 128) []) v else v

/-- Plane E after a k-step. -/
theorem Acc.mstep_e (x : Acc) (m n : Nat) (rows cols : List (List Nat)) :
    (x.mstep m n rows cols).e = planeMap (fun k v _ => stepElem false m n rows cols k v) 16384 0 x.e [] := by
  simp only [Acc.mstep, stepElem]

/-- Plane O after a k-step. -/
theorem Acc.mstep_o (x : Acc) (m n : Nat) (rows cols : List (List Nat)) :
    (x.mstep m n rows cols).o = planeMap (fun k v _ => stepElem true m n rows cols k v) 16384 0 x.o [] := by
  simp only [Acc.mstep, stepElem]

/-- Element (i, j) after a k-step: below m and n its products are added, and elsewhere it keeps its value. -/
theorem stepElem_at (odd : Bool) (m n : Nat) (rows cols : List (List Nat)) (i : Nat) {j : Nat} (hj : j < 128) (v : Half) :
    stepElem odd m n rows cols (128 * i + j) v =
      if i < m ∧ j < n then addProducts odd.toNat ((rows.getD i []).zip (cols.getD j [])) v else v := by
  have hrow : (128 * i + j) / 128 = i := by omega
  have hcol : (128 * i + j) % 128 = j := by omega
  simp only [stepElem, hrow, hcol, chainStep_eq_addProducts, Bool.and_eq_true, decide_eq_true_eq]

/-- Plane E after MEND. -/
theorem Acc.mend_e (x : Acc) :
    x.mend.e = planeMap (fun _ e o => BitVec.ofNat 32 (fadd32 e.toNat o.toNat)) 16384 0 x.e x.o := by
  simp only [Acc.mend]

/-- R203, R204: the planes after a k-step and after MEND, element by element. -/
theorem chainsRound : ChainsRound := by
  intro p m n rows cols i j he ho hi hj q pairs steps
  have hqe : q.e = _ := Acc.mstep_e ..
  have hqo : q.o = _ := Acc.mstep_o ..
  rw [hqe, hqo, Acc.mend_e, planeMap_at _ he planeWf_nil hi hj, planeMap_at _ ho planeWf_nil hi hj, planeMap_at _ he ho hi hj,
    stepElem_at _ _ _ _ _ _ hj, stepElem_at _ _ _ _ _ _ hj]
  exact ⟨rfl, rfl, planeWf_planeMap _ _ _, planeWf_planeMap _ _ _, rfl, rfl, rfl, planeWf_planeMap _ _ _⟩

/-- Settles O47: the words of a chain act or fault by whether it is open, and an element of a plane after a k-step or MEND is the
function of the element before that R203 and R204 write out. -/
theorem chainsRoundOncePerProduct : Obligations.ChainsRoundOncePerProduct := ⟨chainsOpenAndClose, chainsRound⟩

end Sys2Proof.Machine
